-- ==== Sys2Proof/Word.lean ====
section
/-! DEFINITION. The machine's words: 32-bit registers, 64-bit pairs, bytes and lane masks, with their plainest
arithmetic (rotation, halves, lists of lanes). Everything that an instruction computes is in Machine/. -/
namespace Sys2Proof

/-- A 32-bit register (R54). -/
abbrev Word := BitVec 32
/-- A 64-bit pair of registers (R55). -/
abbrev DWord := BitVec 64
/-- The smallest addressable unit of every memory (R2, R293). -/
abbrev Byte := BitVec 8
/-- A set of lanes, bit l for lane l (R3). -/
abbrev Mask := BitVec 32

/-- `rotl32 x n`: `x` rotated left by `n` mod 32 (R90, R234). -/
def rotl32 (x : Word) (n : Nat) : Word := x.rotateLeft (n % 32)

/-- The low half of a pair (R55: the even register). -/
def DWord.lo (x : DWord) : Word := x.truncate 32
/-- The high half of a pair (R55: the odd register). -/
def DWord.hi (x : DWord) : Word := (x >>> 32).truncate 32
/-- A pair from its even and odd registers (R55). -/
def DWord.of (lo hi : Word) : DWord := hi ++ lo

/-- The lanes 0 to 31 in ascending order (R3). -/
def lanes32 : List Nat := List.range 32

/-- Is lane `l` in the set? -/
def Mask.has (m : Mask) (l : Nat) : Bool := m.getLsbD l
/-- The lanes of a set, ascending (R5). -/
def Mask.lanes (m : Mask) : List Nat := lanes32.filter m.has
/-- The set of the lanes below 32 that satisfy `p`. -/
def Mask.ofPred (p : Nat → Bool) : Mask :=
  lanes32.foldl (fun m l => if p l then m ||| BitVec.ofNat 32 (2 ^ l) else m) 0
/-- The set of the lanes listed. -/
def Mask.ofList (ls : List Nat) : Mask :=
  ls.foldl (fun m l => m ||| BitVec.ofNat 32 (2 ^ l)) 0
/-- The set of one lane. -/
def Mask.single (l : Nat) : Mask := BitVec.ofNat 32 (2 ^ l)
/-- The lowest lane of a set, if it has one. -/
def Mask.lowest (m : Mask) : Option Nat := m.lanes.head?
/-- Every lane. -/
def Mask.all : Mask := BitVec.ofNat 32 0xFFFFFFFF

/-- Division rounded up (the `ceil` of the timing and layout rules). -/
def ceilDiv (a b : Nat) : Nat := (a + b - 1) / b

end Sys2Proof
end

