-- ==== Sys2Proof/Syntax.lean ====
section
/-! DEFINITION. The abstract syntax: one constructor of `Instr` per row of spec/opcode_table.json. The 164 instruction
forms carry their operands decoded (R91–R112); the 71 steps and events carry what names their occurrence. -/
namespace Sys2Proof

/-- The type codes of Table 7.7, in code order. -/
inductive NumTy
  | i32 | u32 | i64 | u64 | i16 | u16 | i8 | u8 | f32 | f64 | f16 | bf16 | e4m3 | e5m2 | nx8 | nx4
  deriving DecidableEq, Repr, Inhabited

/-- The rounding modes of Table 5.6, in code order. -/
inductive Rnd
  | rn | rz | ru | rd | ro | sr
  deriving DecidableEq, Repr, Inhabited

/-- The conditions of Table 7.7, in code order. -/
inductive Cond
  | eq | ne | lt | le | gt | ge | num | nan | ltu | leu | gtu | geu | equ | neu
  deriving DecidableEq, Repr, Inhabited

/-- The scopes of Table 7.7, in code order (R293: levels CORE 1 to SYS 5). -/
inductive Scope
  | core | clus | die | dev | sys
  deriving DecidableEq, Repr, Inhabited

/-- The declared uses of Table 19.4, in code order. -/
inductive Use
  | unp | com | nord | qnt | spec
  deriving DecidableEq, Repr, Inhabited

/-- The atomic operations of Table 19.3, in code order. -/
inductive AtomOp
  | add | min | max | and | or | xor | exch | inc | dec
  deriving DecidableEq, Repr, Inhabited

/-- An operand of Table 7.3; `none` stands in a field the form does not use. -/
inductive Opnd
  | v (n : Nat) | w (n : Nat) | oq (n : Nat) | zero | lane | warp | ones | none
  deriving DecidableEq, Repr, Inhabited

/-- Operand B: a register or constant, or an immediate (R99). -/
inductive BArg
  | opnd (o : Opnd) | imm10 (b : BitVec 10) | imm32 (b : Word)
  deriving DecidableEq, Repr, Inhabited

/-- An address offset: imm10, or IMM32 of the extension word (R166). -/
inductive Off
  | imm10 (b : BitVec 10) | imm32 (b : Word)
  deriving DecidableEq, Repr, Inhabited

/-- What every word 0 carries beside the form: the guard P[p], negated when `neg` (R96), and the safe-point bit (R105). -/
structure Hdr where
  p : Nat := 7
  neg : Bool := false
  safe : Bool := false
  deriving DecidableEq, Repr, Inhabited

/-- Layout A (R100, R101). -/
structure FormA where
  hdr : Hdr := {}
  d : Opnd := .none
  a : Opnd := .none
  b : BArg := .opnd .none
  ty : NumTy := .i32
  rnd : Rnd := .rn
  ftz : Bool := false
  deriving DecidableEq, Repr, Inhabited

/-- Layout A3: a third source C in MOD[14:5] (R100, R101). -/
structure FormA3 where
  hdr : Hdr := {}
  d : Opnd := .none
  a : Opnd := .none
  b : BArg := .opnd .none
  c : Opnd := .none
  ty : NumTy := .i32
  rnd : Rnd := .rn
  ftz : Bool := false
  deriving DecidableEq, Repr, Inhabited

/-- The combining operation of layout P (Table 7.6, R157). -/
inductive CombOp
  | none | and | or | xor
  deriving DecidableEq, Repr, Inhabited

/-- Layout P: a predicate destination (R100, R101, R157). -/
structure FormP where
  hdr : Hdr := {}
  d : Nat := 0
  a : Opnd := .none
  b : BArg := .opnd .none
  ty : NumTy := .i32
  cond : Cond := .eq
  comb : CombOp := .none
  cp : Nat := 0
  cneg : Bool := false
  ftz : Bool := false
  deriving DecidableEq, Repr, Inhabited

/-- Layout B (R100, R101): `la` is the lookahead of R106. -/
structure FormB where
  hdr : Hdr := {}
  d : Opnd := .none
  a : Opnd := .none
  b : BArg := .opnd .none
  la : Nat := 0
  ty : NumTy := .f32
  rnd : Rnd := .rn
  sat : Bool := false
  ftz : Bool := false
  deriving DecidableEq, Repr, Inhabited

/-- Layout X (R100, R101, Table 14.2): three operands with their descriptors. -/
structure FormX where
  hdr : Hdr := {}
  d : Opnd := .none
  a : Opnd := .none
  b : Opnd := .none
  hd : Nat := 0
  ha : Nat := 0
  hb : Nat := 0
  la : Nat := 0
  ftz : Bool := false
  deriving DecidableEq, Repr, Inhabited

/-- Layout M, loads and stores (R100, R166, R247). -/
structure FormM where
  hdr : Hdr := {}
  d : Opnd := .none
  a : Opnd := .none
  off : Off := .imm10 0
  la : Nat := 0
  ty : NumTy := .u32
  deriving DecidableEq, Repr, Inhabited

/-- Layout M, atomics (R100, Table 19.1); `off` is present when X = 1. -/
structure FormAt where
  hdr : Hdr := {}
  d : Opnd := .none
  a : Opnd := .none
  b : Opnd := .none
  off : Option Word := Option.none
  la : Nat := 0
  ty : NumTy := .u32
  scope : Scope := .core
  use : Use := .unp
  deriving DecidableEq, Repr, Inhabited

/-- The scratchpad space of a copy (Table 19.1). -/
inductive Space
  | team | group
  deriving DecidableEq, Repr, Inhabited

/-- Layout Q, CPY and CPS (R254): the length is a register, or IMM32 with .LI. -/
structure FormCp where
  hdr : Hdr := {}
  d : Opnd := .none
  a : Opnd := .none
  len : BArg := .opnd .none
  space : Space := .team
  scope : Scope := .core
  deriving DecidableEq, Repr, Inhabited

/-- The kind of MOV (Table 11.1). -/
inductive MovKind
  | copy | packP
  deriving DecidableEq, Repr, Inhabited
/-- The modes of LPICK (R160), LPOLL (R161) and WMOV (R165). -/
inductive PickMode
  | lane | below | above | flip
  deriving DecidableEq, Repr, Inhabited
inductive PollMode
  | mask | some | every | same
  deriving DecidableEq, Repr, Inhabited
inductive WmovMode
  | fromJ | toJ | front | active
  deriving DecidableEq, Repr, Inhabited
/-- The fold operations of LFOLD and SCAN (R162). -/
inductive FoldOp
  | add | min | max | and | or | xor
  deriving DecidableEq, Repr, Inhabited
/-- The directions of FRND (R174). -/
inductive FrndDir
  | near | trunc | ceil | floor
  deriving DecidableEq, Repr, Inhabited
/-- Cache hints of the plain forms (R166). -/
inductive Hint
  | normal | strm | nol1
  deriving DecidableEq, Repr, Inhabited
/-- The spaces of MLDS and MSTS (Table 14.2). -/
inductive MSpace
  | team | group | lane
  deriving DecidableEq, Repr, Inhabited
/-- MQRY modes (R197), MNORM kinds (R216), MSPMA patterns (R206). -/
inductive QryMode
  | words | w0 | regs
  deriving DecidableEq, Repr, Inhabited
inductive NormKind
  | n1 | ninf | fro | max
  deriving DecidableEq, Repr, Inhabited
inductive SpPat
  | cols | pairs | both
  deriving DecidableEq, Repr, Inhabited

/-- The arguments of a host command (Table 34.2): context, arg0, arg1. -/
structure Cmd where
  ctx : Nat := 0
  arg0 : Nat := 0
  arg1 : Nat := 0
  deriving DecidableEq, Repr, Inhabited

/-- One constructor per row of spec/opcode_table.json: the instruction forms in opcode order, then the steps and events
in the table's order. -/
inductive Instr
  -- control, synchronisation, launch and system (R127–R148)
  | nop (h : Hdr)
  | bra (h : Hdr) (off : BitVec 30) (j : Option Nat)
  | brx (h : Hdr) (a : Opnd) (j : Option Nat)
  | join (h : Hdr) (k : Nat)
  | call (h : Hdr) (d : Opnd) (off : BitVec 20) (j : Option Nat)
  | callx (h : Hdr) (d a : Opnd) (j : Option Nat)
  | ret (h : Hdr) (a : Opnd) (j : Option Nat)
  | yield (h : Hdr)
  | exit (h : Hdr)
  | bar (h : Hdr) (b : Nat)
  | barc (h : Hdr)
  | launch (h : Hdr) (d a : Opnd)
  | cwait (h : Hdr) (a : Opnd)
  | regroup (h : Hdr) (a b : Opnd) (n : Nat)
  | sleep (h : Hdr) (b : BArg)
  | tstamp (h : Hdr) (d : Opnd)
  | srd (h : Hdr) (d : Opnd) (n : Nat)
  | swr (h : Hdr) (a : Opnd) (n : Nat)
  | trap (h : Hdr) (code : Nat)
  | tret (h : Hdr)
  | bkpt (h : Hdr) (code : Nat)
  | rep (h : Hdr) (md ma mb mc : Bool) (step count : Nat)
  | setprio (h : Hdr) (b : BArg)
  | dgst (h : Hdr) (a : Opnd) (tag : BArg) (count : Nat)
  -- integer, predicate, uniform, cross-lane and plain memory (R149–R169)
  | mov (f : FormA) (kind : MovKind)
  | movi (f : FormA)
  | sel (f : FormA) (ps : Nat) (neg : Bool)
  | iadd (f : FormA)
  | isub (f : FormA)
  | iaddc (f : FormA) (pi po : Nat) (sub ci0 : Bool)
  | imul (f : FormA)
  | imulh (f : FormA)
  | imad (f : FormA3)
  | imadw (f : FormA3)
  | imin (f : FormA)
  | imax (f : FormA)
  | iabs (f : FormA)
  | and (f : FormA)
  | or (f : FormA)
  | xor (f : FormA)
  | andn (f : FormA)
  | not (f : FormA)
  | shl (f : FormA)
  | shr (f : FormA)
  | sar (f : FormA)
  | rotl (f : FormA)
  | fsh (f : FormA3) (right : Bool)
  | popc (f : FormA)
  | clz (f : FormA)
  | ctz (f : FormA)
  | brev (f : FormA)
  | bfx (f : FormA)
  | bfi (f : FormA3)
  | bperm (f : FormA3)
  | lea (f : FormA3) (s : Nat) (signed : Bool)
  | icmp (f : FormP)
  | plop (h : Hdr) (d pa pb pc : Nat) (table : BArg)
  | pmov (f : FormP) (all : Bool)
  | lpick (f : FormA) (pv seg : Nat) (mode : PickMode)
  | lpoll (f : FormA) (pa pq : Nat) (mode : PollMode)
  | lfold (f : FormA) (op : FoldOp)
  | scan (f : FormA) (op : FoldOp) (excl seg : Bool) (pg : Nat)
  | lpeer (f : FormA) (pe : Nat)
  | rdfl (f : FormA)
  | lsend (f : FormA) (pv : Nat)
  | wmov (f : FormA) (j : Nat) (mode : WmovMode)
  | ld (f : FormM) (hint : Hint) (cnt : Nat)
  | st (f : FormM) (hint : Hint) (cnt : Nat)
  | lds (f : FormM) (cnt : Nat)
  | sts (f : FormM) (cnt : Nat)
  | ldc (f : FormM) (cnt : Nat)
  | stc (f : FormM) (cnt : Nat)
  | ldl (f : FormM) (cnt : Nat)
  | stl (f : FormM) (cnt : Nat)
  | ldw (f : FormM) (hint : Hint) (cnt : Nat)
  | pref (f : FormM) (l2 : Bool)
  -- floating point, special functions, conversion (R170–R188)
  | fadd (f : FormA)
  | fmul (f : FormA)
  | ffma (f : FormA3)
  | fmin (f : FormA)
  | fmax (f : FormA)
  | fcmp (f : FormP)
  | fclass (f : FormP)
  | frnd (f : FormA) (dir : FrndDir)
  | fscl (f : FormA)
  | dadd (f : FormA)
  | dmul (f : FormA)
  | dfma (f : FormA3)
  | dmin (f : FormA)
  | dmax (f : FormA)
  | dcmp (f : FormP)
  | duoadd (f : FormA)
  | duomul (f : FormA)
  | duofma (f : FormA3)
  | fdiv (f : FormB)
  | fsqrt (f : FormB)
  | ddiv (f : FormB)
  | dsqrt (f : FormB)
  | rcp (f : FormB)
  | rsq (f : FormB)
  | exp2 (f : FormB)
  | log2 (f : FormB)
  | sin (f : FormB)
  | cos (f : FormB)
  | tanh (f : FormB)
  | luta (f : FormB)
  | lutld (f : FormB)
  | lutsync (f : FormB)
  | cvt (f : FormB) (src : NumTy)
  | cvtblk (f : FormB) (src : NumTy)
  | srseed (f : FormB) (warp : Bool)
  -- per-thread matrix and Louvre (R189–R220)
  | mshape (f : FormX) (ext : Bool) (imm : Option Word)
  | mqry (f : FormX) (mode : QryMode)
  | mld (f : FormX) (hint : Hint) (off : Option Word)
  | mst (f : FormX) (hint : Hint) (off : Option Word) (rnd : Rnd) (sat : Bool)
  | mlds (f : FormX) (space : MSpace) (off : Option Word)
  | msts (f : FormX) (space : MSpace) (off : Option Word)
  | mzero (f : FormX)
  | mcopy (f : FormX)
  | mtrn (f : FormX)
  | madd (f : FormX) (sub : Bool)
  | mscal (f : FormX)
  | mmul (f : FormX)
  | mma (f : FormX)
  | mmt (f : FormX) (self acc : Bool)
  | mspma (f : FormX) (c : Opnd) (pat : SpPat)
  | mlu (f : FormX) (c : Opnd)
  | mchol (f : FormX)
  | mtrs (f : FormX) (upper unit : Bool) (t : Option Bool)
  | minv (f : FormX)
  | mdet (f : FormX)
  | mexp (f : FormX)
  | mrefine (f : FormX) (lu : Bool) (c e : Opnd) (hc : Nat)
  | mnorm (f : FormX) (kind : NormKind)
  | mcvt (f : FormX) (ext : Option (Rnd × Bool))
  | lvorg (f : FormX) (c : Opnd)
  | lvmem (f : FormX)
  | lveps (f : FormX) (eps : Bool)
  | lvgrad (f : FormX) (c : Opnd) (hc : Nat)
  | lvctl (f : FormX)
  -- ordered access, atomics, copies, queues, Wicket (R243–R274)
  | lda (f : FormM) (scope : Scope)
  | strl (f : FormM) (scope : Scope)
  | acqr (f : FormM) (scope : Scope)
  | fence (h : Hdr) (scope : Scope)
  | atom (f : FormAt) (op : AtomOp)
  | atomc (f : FormAt) (c : Opnd)
  | red (f : FormAt) (op : AtomOp)
  | cpy (f : FormCp)
  | cps (f : FormCp)
  | cpt (f : FormCp) (st : Bool) (box : Word)
  | cpclose (h : Hdr) (d : Opnd) (la : Nat)
  | cpwait (h : Hdr) (a : Option Opnd)
  | cptest (h : Hdr) (d : Opnd) (a : Option Opnd) (la : Nat)
  | tdesc (h : Hdr) (d a : Opnd) (la : Nat)
  | tdfree (h : Hdr) (a : Opnd)
  | tqinit (h : Hdr) (k : Nat) (a : Opnd) (depth : Nat)
  | qpush (h : Hdr) (k : Nat) (a : Opnd)
  | qpop (h : Hdr) (d : Opnd) (k la : Nat)
  | qtry (h : Hdr) (d : Opnd) (k pq la : Nat)
  | qgrant (h : Hdr) (k : Nat) (a b : Opnd)
  | wcfg (h : Hdr) (s : Nat) (a b : Opnd)
  | wstart (h : Hdr) (s : Nat)
  | wstop (h : Hdr) (s : Nat)
  | wstat (h : Hdr) (d : Opnd) (s la : Nat)
  -- host commands (R382), then the steps of the device and of the outside (95_what_each_step_holds.md)
  | create (c : Cmd)
  | destroy (c : Cmd)
  | invalidate (c : Cmd)
  | resolved (c : Cmd)
  | resume (c : Cmd)
  | power (c : Cmd)
  | powerRead (c : Cmd)
  | fuse (c : Cmd)
  | attest (c : Cmd)
  | switch (c : Cmd)
  | readmit (c : Cmd)
  | stop (c : Cmd)
  | keyhole (c : Cmd)
  | keyholeRead (c : Cmd)
  | flush (c : Cmd)
  | bootblk (addr : Nat)
  | configWindowWrite (offset : Nat) (value : Nat)
  | reset
  | launchQueueTailRead (q : Nat)
  | recordTake (q : Nat)
  | prerequisiteMet (q : Nat)
  | teamPlacement (cluster : Nat)
  | workSteal (cluster : Nat)
  | continuationPlacement (cluster : Nat)
  | warpRetire (w : Nat)
  | gridRetire (g : Nat)
  | quantumSwitch (w : Nat)
  | sleepExpiry (w : Nat)
  | floorCountDue (part port slot : Nat)
  | longLatencyComplete (w k : Nat)
  | matrixWriteback (w k : Nat)
  | warpSave (w : Nat)
  | warpRestore (w slot : Nat)
  | throttleNotice (team : Nat)
  | drain (k : Nat)
  | land (k : Nat)
  | satisfy (k : Nat)
  | evict (core addr : Nat)
  | perform (k : Nat)
  | combine (j k : Nat)
  | copyStart (k : Nat)
  | copyComplete (k : Nat)
  | streamFetch (w s : Nat)
  | pageWalk (core ctx va : Nat)
  | faultRecord (ctx va kind : Nat)
  | hostAccess (addr : Nat) (bytes : List Nat) (write : Bool)
  | linkDown (link : Nat)
  | softError (unit : Nat) (stack : Bool)
  | uncorrectableError (ctx addr : Nat) (hbm : Bool)
  | slotRecord (part port : Nat)
  | traceDrain (core : Nat)
  | traceStallEnd (core : Nat)
  | shutterWindow (part : Nat)
  | droopAlarm (cluster : Nat)
  | stretchPhaseEnd (cluster : Nat)
  | halvingPhaseEnd (core : Nat)
  | clockChange (die : Nat)
  | boostDecrement
  | byteBudgetInterval (cluster : Nat)
  | thermalTrip (die : Nat)
  | thermalRecovery (die : Nat)
  | currentClamp (die : Nat)
  | currentClampRelease (die : Nat)
  | dormerWatchdog
  | illegalOpcode (w : Nat)
  | slotCharge (part port : Nat)
  | savePoolCopyComplete (ctx : Nat) (back : Bool)
  | dormerPowerWrite (reg unit value : Nat)
  | firmwareKeyholeWrite (core cmp : Nat) (addr : Nat)
  | firmwareUpdateStart
  | firmwareUpdateEnd
  deriving DecidableEq, Repr

end Sys2Proof
end

