-- ==== Sys2Proof/WellFormed.lean ====
section
/-! DEFINITION. Which instructions the decoder may hand on (R95–R103 and the reference tables 11.1, 13.1, 14.2, 19.1,
R128, R151, R190, R244): for each form the accepted operands, types, rounding modes and fields. `Instr.wf` is the
whole check that depends on the instruction alone; the allocation check of R55 needs the kernel and is made at issue. -/
namespace Sys2Proof

/-- The operand codes a field accepts; `used = false` marks a field the form does not use. -/
structure Role where
  used : Bool := true
  v : Bool := false
  w : Bool := false
  oq : Bool := false
  zero : Bool := false
  lane : Bool := false
  warp : Bool := false
  ones : Bool := false
  deriving DecidableEq, Repr, Inhabited

namespace Role
def unused : Role := { used := false }
/-- Any source of Table 7.3. -/
def src : Role := { v := true, w := true, oq := true, zero := true, lane := true, warp := true, ones := true }
/-- Any destination of Table 7.3. -/
def dst : Role := { v := true, w := true, zero := true }
def vOnly : Role := { v := true }
def wOnly : Role := { w := true }
def vw : Role := { v := true, w := true }
def vz : Role := { v := true, zero := true }
def wz : Role := { w := true, zero := true }
def vwz : Role := { v := true, w := true, zero := true }
/-- Data of STRL and the atomics (Table 19.2). -/
def data : Role := { v := true, w := true, zero := true, ones := true, oq := true }
/-- Data of the plain stores: R166 names V, W and OQ codes and makes no other source of Table 7.3 a trap (DEDUCED, log 23). -/
def stData : Role := src
/-- Sources of MSHAPE, LVORG, LVMEM and LVCTL, OQ codes included (R190). -/
def vwzo : Role := { v := true, w := true, zero := true, oq := true }
end Role

/-- Does the field accept the operand? Register numbers lie in their files (Table 4.1). -/
def Role.ok (r : Role) : Opnd → Bool
  | .v n => r.used && r.v && n < 768
  | .w n => r.used && r.w && n < 64
  | .oq n => r.used && r.oq && n < 4
  | .zero => r.used && r.zero
  | .lane => r.used && r.lane
  | .warp => r.used && r.warp
  | .ones => r.used && r.ones
  | .none => !r.used

/-- R55: the low half of a pair is an even register. -/
def Opnd.even : Opnd → Bool
  | .v n => n % 2 == 0
  | .w n => n % 2 == 0
  | _ => true

/-- R55 for a run of `k` registers: none beyond the file. -/
def Opnd.fits (k : Nat) : Opnd → Bool
  | .v n => n + k ≤ 768
  | .w n => n + k ≤ 64
  | _ => true

def Opnd.isW : Opnd → Bool
  | .w _ => true
  | _ => false

/-- R37: the sources of a uniform instruction. -/
def Opnd.uniformSrc : Opnd → Bool
  | .w _ => true
  | .zero => true
  | .ones => true
  | .none => true
  | _ => false

def BArg.uniformSrc : BArg → Bool
  | .opnd o => o.uniformSrc
  | _ => true

/-- A 64-bit type occupies a pair (R55). -/
def NumTy.wide : NumTy → Bool
  | .i64 | .u64 | .f64 => true
  | _ => false

/-- The element width in bytes (R166). -/
def NumTy.bytes : NumTy → Nat
  | .i8 | .u8 | .e4m3 | .e5m2 | .nx8 | .nx4 => 1
  | .i16 | .u16 | .f16 | .bf16 => 2
  | .i32 | .u32 | .f32 => 4
  | .i64 | .u64 | .f64 => 8

/-- What one form of layouts A, A3, P or B accepts. `wd`, `wa`, `wb`, `wc` mark the operands that have the
instruction's type, and so are pairs under a 64-bit type. -/
structure Row where
  types : List NumTy := []
  d : Role := .dst
  a : Role := .src
  b : Role := .src
  c : Role := .unused
  imm : Bool := true
  rnds : List Rnd := [.rn]
  ftz : List NumTy := []
  sat : Bool := false
  wd : Bool := true
  wa : Bool := true
  wb : Bool := true
  wc : Bool := true
  /-- RDFL names its vector source although its destination is uniform (R37). -/
  anySrc : Bool := false
  deriving DecidableEq, Repr, Inhabited

def ints : List NumTy := [.i32, .u32, .i64, .u64]
def mems : List NumTy := [.i32, .u32, .i64, .u64, .i16, .u16, .i8, .u8, .f32, .f64, .f16, .bf16, .e4m3, .e5m2]
def dir5 : List Rnd := [.rn, .rz, .ru, .rd, .ro]
def all6 : List Rnd := [.rn, .rz, .ru, .rd, .ro, .sr]

def BArg.ok (r : Role) (imm : Bool) : BArg → Bool
  | .opnd o => r.ok o
  | _ => imm && r.used

def BArg.even : BArg → Bool
  | .opnd o => o.even
  | _ => true

def Hdr.ok (h : Hdr) : Bool := h.p < 8 && !(h.p == 7 && h.neg)

/-- Unguarded: PG = 7 and PN = 0 (R127). -/
def Hdr.unguarded (h : Hdr) : Bool := h.p == 7 && !h.neg

/-- R127's "unguarded" forms and R109. -/
def Row.typeOk (r : Row) (t : NumTy) : Bool := if r.types.isEmpty then t == .i32 else r.types.contains t

def FormA.ok (r : Row) (f : FormA) : Bool :=
  f.hdr.ok && r.typeOk f.ty && r.rnds.contains f.rnd && (!f.ftz || r.ftz.contains f.ty)
    && r.d.ok f.d && r.a.ok f.a && f.b.ok r.b r.imm
    && (!f.ty.wide || ((!r.wd || f.d.even) && (!r.wa || f.a.even) && (!r.wb || f.b.even)))
    && (!f.d.isW || r.anySrc || (f.a.uniformSrc && f.b.uniformSrc))

/-- Layout A3; `pd` and `pa` mark operands that are pairs whatever the type (IMADW, LEA). -/
def FormA3.ok (r : Row) (pd pa pc : Bool) (f : FormA3) : Bool :=
  f.hdr.ok && r.typeOk f.ty && r.rnds.contains f.rnd && (!f.ftz || r.ftz.contains f.ty)
    && r.d.ok f.d && r.a.ok f.a && f.b.ok r.b r.imm && r.c.ok f.c
    && (!pd || f.d.even) && (!pa || f.a.even) && (!pc || f.c.even)
    && (!f.ty.wide || ((!r.wd || f.d.even) && (!r.wa || f.a.even) && (!r.wb || f.b.even) && (!r.wc || f.c.even)))
    && (!f.d.isW || (f.a.uniformSrc && f.b.uniformSrc && f.c.uniformSrc))

def Cond.isInt : Cond → Bool
  | .eq | .ne | .lt | .le | .gt | .ge => true
  | _ => false

/-- Layout P. With combining op 0 the combining predicate and its negation are reserved (R157). -/
def FormP.ok (r : Row) (intCond : Bool) (useCond useComb : Bool) (f : FormP) : Bool :=
  f.hdr.ok && r.typeOk f.ty && (!f.ftz || r.ftz.contains f.ty)
    && f.d < 8 && r.a.ok f.a && f.b.ok r.b r.imm
    && (!f.ty.wide || ((!r.wa || f.a.even) && (!r.wb || f.b.even)))
    && (if useCond then !intCond || f.cond.isInt else f.cond == .eq)
    && f.cp < 8 && (if f.comb == .none then f.cp == 0 && !f.cneg else useComb)

def FormB.ok (r : Row) (useLa : Bool) (f : FormB) : Bool :=
  f.hdr.ok && r.typeOk f.ty && r.rnds.contains f.rnd && (!f.ftz || r.ftz.contains f.ty) && (!f.sat || r.sat)
    && r.d.ok f.d && r.a.ok f.a && f.b.ok r.b r.imm && f.la < 16 && (useLa || f.la == 0)
    && (!f.ty.wide || ((!r.wd || f.d.even) && (!r.wa || f.a.even) && (!r.wb || f.b.even)))

/-- What one form of layout X accepts (Table 14.2, R190); `hd`, `ha`, `hb` mark the descriptor fields it uses. -/
structure XRow where
  d : Role := .unused
  a : Role := .unused
  b : Role := .unused
  hd : Bool := false
  ha : Bool := false
  hb : Bool := false
  la : Bool := true
  ftz : Bool := false
  ea : Bool := false
  deriving DecidableEq, Repr, Inhabited

def FormX.ok (r : XRow) (f : FormX) : Bool :=
  f.hdr.ok && r.d.ok f.d && r.a.ok f.a && r.b.ok f.b
    && f.hd < 16 && f.ha < 16 && f.hb < 16
    && (r.hd || f.hd == 0) && (r.ha || f.ha == 0) && (r.hb || f.hb == 0)
    && f.la < 16 && (r.la || f.la == 0) && (!f.ftz || r.ftz) && (!r.ea || f.a.even)

/-- Loads and stores; a base of a thread's own spaces is any source of Table 7.3, which limits global bases alone (R98, R103):
destination or data role, address role, pair address, span of `cnt` elements (R166). -/
def FormM.ok (types : List NumTy) (d a : Role) (pair : Bool) (useLa : Bool) (cnt : Nat) (f : FormM) : Bool :=
  f.hdr.ok && d.ok f.d && a.ok f.a && (!pair || f.a.even) && f.la < 16 && (useLa || f.la == 0)
    && (if types.isEmpty then f.ty == .i32 else types.contains f.ty)
    && (cnt == 1 || cnt == 2 || cnt == 4)
    && (!f.ty.wide || f.d.even)
    && (!f.d.isW || f.d.fits (if f.ty.wide then 2 * cnt else cnt))

def atomTypes : List NumTy := [.i32, .u32, .i64, .u64, .f32, .f64]

/-- Table 19.3: which operation accepts which type. -/
def AtomOp.accepts (op : AtomOp) (t : NumTy) : Bool :=
  match op with
  | .add | .min | .max | .exch => true
  | .and | .or | .xor => ints.contains t
  | .inc | .dec => t == .u32 || t == .u64

/-- Table 19.4: which use ATOM (`isAtom`), RED (`isRed`) or ATOMC (neither) accepts, with which operation. -/
def Use.accepts (isAtom isRed : Bool) (op : Option AtomOp) : Use → Bool
  | .unp | .nord => true
  | .com => (isAtom || isRed) &&
      (match op with | some .add | some .min | some .max | some .and | some .or | some .xor => true | _ => false)
  | .qnt => isRed && op == some .add
  | .spec => !isRed

/-- R244: a 64-bit type asks for an even code in D and for every data source, whatever the code stands for; 1019, OQ1 and OQ3 are
odd (log 101). -/
def Opnd.evenCode : Opnd → Bool
  | .ones => false
  | .oq k => k % 2 == 0
  | o => o.even

def FormAt.ok (types : List NumTy) (d : Role) (useLa : Bool) (isAtom isRed : Bool) (op : Option AtomOp)
    (f : FormAt) : Bool :=
  f.hdr.ok && d.ok f.d && Role.vwz.ok f.a && f.a.even && Role.data.ok f.b && f.la < 16 && (useLa || f.la == 0)
    && types.contains f.ty && (!f.ty.wide || (f.d.even && f.b.evenCode))
    && f.use.accepts isAtom isRed op
    && (match op with | some o => o.accepts f.ty | none => true)

def FormCp.ok (f : FormCp) : Bool :=
  f.hdr.ok && Role.vwz.ok f.d && Role.vwz.ok f.a && f.a.even
    && (match f.len with | .opnd o => Role.vwz.ok o | .imm10 _ => false | .imm32 _ => true)

def optJ (j : Option Nat) : Bool := match j with | some k => k < 8 | none => true

/-- The rows of layouts A and A3 by opcode (Tables 11.1 and 13.1). -/
def rowA : Nat → Row
  | 0x20 => { types := [.i32, .u32, .i64, .u64, .i16, .u16, .i8, .u8], b := .unused, imm := false }
  | 0x21 => { types := [.i32, .u32, .i64, .u64, .i16, .u16, .i8, .u8, .f32, .f64], a := .unused }
  | 0x22 | 0x23 | 0x24 | 0x26 | 0x27 | 0x2A | 0x2B | 0x2D | 0x2E | 0x2F | 0x30 => { types := ints }
  | 0x25 => { types := [.u32, .u64] }
  | 0x28 => { types := ints, c := .src }
  | 0x29 => { types := [.i32, .u32], c := .src }
  | 0x2C => { types := [.i32, .i64], b := .unused, imm := false }
  | 0x31 | 0x3A => { types := ints, b := .unused, imm := false }
  | 0x32 | 0x33 | 0x34 | 0x35 | 0x3B => { types := ints, wb := false }
  | 0x36 | 0x3D => { c := .src }
  | 0x37 | 0x38 | 0x39 => { types := ints, b := .unused, imm := false, wd := false }
  | 0x3C => { types := ints, c := .src, wb := false }
  | 0x42 => { types := ints, d := .vOnly, a := { Role.src with oq := false }, wb := false }
  | 0x43 => { d := .vz, a := .unused, b := .unused, imm := false }
  | 0x44 | 0x45 => { types := ints ++ [.f32], d := .vOnly, b := .unused, imm := false, ftz := [.f32] }
  | 0x46 => { types := ints, d := .vOnly, b := .unused, imm := false, wd := false }
  | 0x47 => { types := ints, d := .wOnly, a := { Role.src with oq := false }, b := .unused, imm := false, anySrc := true }
  | 0x48 => { types := ints, d := .vOnly, wb := false }
  | 0x60 | 0x61 => { types := [.f32], rnds := dir5, ftz := [.f32] }
  | 0x62 => { types := [.f32], rnds := dir5, ftz := [.f32], c := .src }
  | 0x63 | 0x64 => { types := [.f32], ftz := [.f32] }
  | 0x67 => { types := [.f32, .f64], ftz := [.f32], b := .unused, imm := false }
  | 0x68 => { types := [.f32, .f64], ftz := [.f32], wb := false }
  | 0x69 | 0x6A => { types := [.f64], rnds := dir5 }
  | 0x6B => { types := [.f64], rnds := dir5, c := .src }
  | 0x6C | 0x6D => { types := [.f64] }
  | 0x6F | 0x70 => { types := [.f16, .bf16], rnds := all6 }
  | 0x71 => { types := [.f16, .bf16], rnds := all6, c := .src }
  | _ => {}

/-- The row of LEA (R156): D and A are pairs, the type stands in MOD[0], not in the type field. -/
def rowLea : Row := { c := .unused }

/-- WMOV's roles depend on its mode (R151, R165). -/
def rowWmov : WmovMode → Row
  | .toJ => { d := .unused, a := { used := true, w := true, zero := true, ones := true }, b := .unused, imm := false }
  | _ => { d := .wOnly, a := .unused, b := .unused, imm := false }

/-- MOV.P packs predicates: no source, no type (R152). -/
def rowMovP : Row := { a := .unused, b := .unused, imm := false }

/-- The rows of layout P (Tables 11.1 and 13.1). -/
def rowP : Nat → Row
  | 0x3F => { types := ints }
  | 0x65 => { types := [.f32], ftz := [.f32] }
  | 0x66 => { types := [.f32, .f64, .f16, .bf16], ftz := [.f32], wb := false }
  | 0x6E => { types := [.f64] }
  | _ => {}

/-- PMOV.ALL uses neither D nor B (R158). -/
def rowPmovAll : Row := { b := .unused, imm := false }

/-- The rows of layout B (Table 13.1). -/
def rowB : Nat → Row
  | 0x72 => { types := [.f32], d := .vz, rnds := dir5, ftz := [.f32] }
  | 0x73 => { types := [.f32], d := .vz, rnds := dir5, ftz := [.f32], b := .unused, imm := false }
  | 0x74 => { types := [.f64], d := .vz, rnds := dir5 }
  | 0x75 => { types := [.f64], d := .vz, rnds := dir5, b := .unused, imm := false }
  | 0x7E => { d := .unused, a := .vwz, b := .vw }
  | 0x7F => { d := .unused, a := .unused, b := .unused, imm := false }
  | 0x82 => { d := .unused, a := .vwz, b := .unused, imm := false }
  | _ => { types := [.f32], d := .vz, ftz := [.f32], b := .unused, imm := false }

def NumTy.isFloat : NumTy → Bool
  | .f32 | .f64 | .f16 | .bf16 | .e4m3 | .e5m2 | .nx8 | .nx4 => true
  | _ => false

/-- The modes Table 13.7 accepts for a pair of types, with R83. -/
def cvtRnds (r s : NumTy) : List Rnd :=
  if r.isFloat then
    (if r == .f32 || r == .f64 then dir5 else all6)
  else if s.isFloat then [.rn, .rz, .ru, .rd] else [.rn]

/-- The row of CVT for a source type (R185): FTZ when a side is FP32. -/
def rowCvt (r s : NumTy) : Row :=
  { types := mems, d := .vz, b := .unused, imm := false, rnds := cvtRnds r s, sat := true, wa := false
    ftz := if r == .f32 || s == .f32 then mems else [] }

/-- The row of CVTBLK (R186): a V destination, FTZ for an FP32 source. -/
def rowCvtblk (s : NumTy) : Row :=
  { types := [.nx8, .nx4], d := .vOnly, b := .unused, imm := false, rnds := all6, sat := true, wa := false
    ftz := if s == .f32 then [.nx8, .nx4] else [] }

/-- The rows of layout X (Table 14.2, R190). -/
def rowX : Nat → XRow
  | 0x90 => { a := .vwzo, hd := true, la := false }
  | 0x91 => { d := .vOnly, ha := true }
  | 0x92 => { d := .vOnly, a := .vwz, b := .vwz, hd := true, ea := true }
  | 0x93 => { d := .vOnly, a := .vwz, b := .vwz, hd := true, hb := true, ea := true, ftz := true }
  | 0x94 | 0x95 => { d := .vOnly, a := .vwz, b := .vwz, hd := true }
  | 0x96 => { d := .vOnly, hd := true }
  | 0x97 | 0x98 => { d := .vOnly, a := .vOnly, hd := true, ha := true }
  | 0x99 | 0x9B | 0x9C | 0x9D | 0x9E | 0xA1 | 0xA5 =>
      { d := .vOnly, a := .vOnly, b := .vOnly, hd := true, ha := true, hb := true, ftz := true }
  | 0x9A => { d := .vOnly, a := .vOnly, b := .vw, hd := true, ha := true, ftz := true }
  | 0x9F | 0xA0 | 0xA2 | 0xA4 | 0xA7 => { d := .vOnly, a := .vOnly, hd := true, ha := true, ftz := true }
  | 0xA3 | 0xA6 => { d := .vOnly, a := .vOnly, ha := true, ftz := true }
  | 0xA8 => { a := .vwzo, b := .vwzo, hd := true, la := false }
  | 0xA9 | 0xAC => { a := .vwzo, la := false }
  | 0xAA => { d := .vOnly, a := .vOnly, hd := true, ha := true }
  | 0xAB => { d := .vOnly, a := .vOnly, b := .vOnly, hd := true, ha := true, hb := true, ftz := true }
  | _ => {}

/-- MSHAPE with IMM reads no register (Table 14.2); MMT with SELF reads no B. -/
def rowMshapeImm : XRow := { hd := true, la := false }
def rowMmtSelf : XRow := { d := .vOnly, a := .vOnly, hd := true, ha := true, ftz := true }

/-- SRD and SWR name a register of Table 4.6 that is not reserved; SWR a writable one. Reserved numbers are operand
checks of R67 and trap when executed, so a number below 256 is well formed. -/
def srWide (n : Nat) : Bool := n == 0x02 || n == 0x08 || n == 0x14

/-- The check the decoder makes on the instruction alone. Event rows have no encoding and are always well formed. -/
def Instr.wf : Instr → Bool
  | .nop h | .exit h => h.ok
  | .bra h _ j => h.ok && optJ j
  | .brx h a j | .ret h a j => h.ok && Role.vw.ok a && optJ j
  | .join h k => h.unguarded && k < 8
  | .call h d _ j => h.ok && Role.vwz.ok d && optJ j
  | .callx h d a j => h.ok && Role.vwz.ok d && Role.vw.ok a && optJ j && (!d.isW || a.isW)
  | .yield h | .barc h | .tret h => h.unguarded
  | .bar h b => h.unguarded && b < 4
  | .launch h d a => h.ok && Role.vwz.ok d && Role.vw.ok a && a.even && (!d.isW || a.isW)
  | .cwait h a => h.ok && Role.vwz.ok a
  | .regroup h a b n => h.ok && Role.vwz.ok a && n ≤ 4 && (if n == 0 then b == .none else Role.vOnly.ok b && b.fits n)
  | .sleep h b => h.ok && b.ok .vw true
  | .tstamp h d => h.ok && Role.vwz.ok d && d.even
  | .srd h d n => h.ok && Role.vwz.ok d && n < 256 && (!srWide n || d.even)
  | .swr h a n => h.ok && Role.vw.ok a && n < 256 && (!srWide n || a.even)
  | .trap h c | .bkpt h c => h.ok && c < 1024
  | .rep h _ _ _ _ step count => h.unguarded && 1 ≤ step && step ≤ 32 && 1 ≤ count && count ≤ 64
  | .setprio h b => h.ok && b.ok .wOnly true && (match b with | .imm32 _ => false | _ => true)
  | .dgst h a t c => h.ok && Role.vOnly.ok a && t.ok .wOnly true && (match t with | .imm32 _ => false | _ => true)
      && 1 ≤ c && c ≤ 64 && a.fits c
  | .mov f .copy => f.ok (rowA 0x20)
  | .mov f .packP => f.ok rowMovP
  | .movi f => f.ok (rowA 0x21) && (match f.b with | .opnd _ => false | _ => true)
  | .sel f ps _ => f.ok (rowA 0x22) && ps < 8
  | .iadd f => f.ok (rowA 0x23)
  | .isub f => f.ok (rowA 0x24)
  | .iaddc f pi po _ _ => f.ok (rowA 0x25) && pi < 8 && po < 8
  | .imul f => f.ok (rowA 0x26)
  | .imulh f => f.ok (rowA 0x27)
  | .imad f => f.ok (rowA 0x28) false false false
  | .imadw f => f.ok (rowA 0x29) true false true
  | .imin f => f.ok (rowA 0x2A)
  | .imax f => f.ok (rowA 0x2B)
  | .iabs f => f.ok (rowA 0x2C)
  | .and f => f.ok (rowA 0x2D)
  | .or f => f.ok (rowA 0x2E)
  | .xor f => f.ok (rowA 0x2F)
  | .andn f => f.ok (rowA 0x30)
  | .not f => f.ok (rowA 0x31)
  | .shl f => f.ok (rowA 0x32)
  | .shr f => f.ok (rowA 0x33)
  | .sar f => f.ok (rowA 0x34)
  | .rotl f => f.ok (rowA 0x35)
  | .fsh f _ => f.ok (rowA 0x36) false false false
  | .popc f => f.ok (rowA 0x37)
  | .clz f => f.ok (rowA 0x38)
  | .ctz f => f.ok (rowA 0x39)
  | .brev f => f.ok (rowA 0x3A)
  | .bfx f => f.ok (rowA 0x3B)
  | .bfi f => f.ok (rowA 0x3C) false false false
  | .bperm f => f.ok (rowA 0x3D) false false false
  | .lea f s _ => f.ok rowLea true true false && s < 8
  | .icmp f => f.ok (rowP 0x3F) true true true
  | .plop h d pa pb pc t => h.ok && d < 8 && pa < 8 && pb < 8 && pc < 8 && (match t with | .opnd _ => false | _ => true)
  | .pmov f false => f.ok (rowP 0x41) true false false
  | .pmov f true => f.ok rowPmovAll true false false && f.d == 0
  | .lpick f pv seg _ => f.ok (rowA 0x42) && pv < 8 && seg < 6
  | .lpoll f pa pq _ => f.ok (rowA 0x43) && pa < 8 && pq < 8
  | .lfold f op => f.ok (rowA 0x44) && (f.ty != .f32 || op == .add || op == .min || op == .max)
  | .scan f op _ _ pg => f.ok (rowA 0x45) && (f.ty != .f32 || op == .add || op == .min || op == .max) && pg < 8
  | .lpeer f pe => f.ok (rowA 0x46) && pe < 8
  | .rdfl f => f.ok (rowA 0x47)
  | .lsend f pv => f.ok (rowA 0x48) && pv < 8
  | .wmov f j m => f.ok (rowWmov m) && j < 8
  | .ld f _ c => f.ok mems .vz .vwz true true c
  | .st f _ c => f.ok mems .stData .vwz true false c
  | .lds f c | .ldc f c | .ldl f c => f.ok mems .vz .src false true c
  | .sts f c | .stc f c | .stl f c => f.ok mems .stData .src false false c
  | .ldw f _ c => f.ok mems .wOnly .wz true true c
  | .pref f _ => f.ok [] .unused .vwz true false 1
  | .fadd f => f.ok (rowA 0x60)
  | .fmul f => f.ok (rowA 0x61)
  | .ffma f => f.ok (rowA 0x62) false false false
  | .fmin f => f.ok (rowA 0x63)
  | .fmax f => f.ok (rowA 0x64)
  | .fcmp f => f.ok (rowP 0x65) false true true
  | .fclass f => f.ok (rowP 0x66) false false true
  | .frnd f _ => f.ok (rowA 0x67)
  | .fscl f => f.ok (rowA 0x68)
  | .dadd f => f.ok (rowA 0x69)
  | .dmul f => f.ok (rowA 0x6A)
  | .dfma f => f.ok (rowA 0x6B) false false false
  | .dmin f => f.ok (rowA 0x6C)
  | .dmax f => f.ok (rowA 0x6D)
  | .dcmp f => f.ok (rowP 0x6E) false true true
  | .duoadd f => f.ok (rowA 0x6F)
  | .duomul f => f.ok (rowA 0x70)
  | .duofma f => f.ok (rowA 0x71) false false false
  | .fdiv f => f.ok (rowB 0x72) true
  | .fsqrt f => f.ok (rowB 0x73) true
  | .ddiv f => f.ok (rowB 0x74) true
  | .dsqrt f => f.ok (rowB 0x75) true
  | .rcp f => f.ok (rowB 0x76) true
  | .rsq f => f.ok (rowB 0x77) true
  | .exp2 f => f.ok (rowB 0x78) true
  | .log2 f => f.ok (rowB 0x79) true
  | .sin f => f.ok (rowB 0x7A) true
  | .cos f => f.ok (rowB 0x7B) true
  | .tanh f => f.ok (rowB 0x7C) true
  | .luta f => f.ok (rowB 0x7D) true
  | .lutld f => f.ok (rowB 0x7E) true
  | .lutsync f => f.ok (rowB 0x7F) false
  | .cvt f s => f.ok (rowCvt f.ty s) true && mems.contains s && (!s.wide || f.a.even)
  | .cvtblk f s => f.ok (rowCvtblk s) true && (s == .f32 || s == .f64) && (!s.wide || f.a.even)
  | .srseed f _ => f.ok (rowB 0x82) false && f.a.even
  | .mshape f _ (some _) => f.ok rowMshapeImm
  | .mshape f _ none => f.ok (rowX 0x90)
  | .mqry f m => f.ok (rowX 0x91) && f.d.fits (if m == .words then 3 else 1)
  | .mld f _ _ => f.ok (rowX 0x92)
  | .mst f _ off rnd sat => f.ok (rowX 0x93) && (f.hb < 10 || f.hb == 15)
      && (rnd != .sr || (2 ≤ f.hb && f.hb != 8 && f.hb != 9)) && (off.isSome || (rnd == .rn && !sat))
  | .mlds f _ _ => f.ok (rowX 0x94)
  | .msts f _ _ => f.ok (rowX 0x95)
  | .mzero f => f.ok (rowX 0x96)
  | .mcopy f => f.ok (rowX 0x97)
  | .mtrn f => f.ok (rowX 0x98)
  | .madd f _ => f.ok (rowX 0x99)
  | .mscal f => f.ok (rowX 0x9A)
  | .mmul f => f.ok (rowX 0x9B)
  | .mma f => f.ok (rowX 0x9C)
  | .mmt f true _ => f.ok rowMmtSelf
  | .mmt f false _ => f.ok (rowX 0x9D)
  | .mspma f c _ => f.ok (rowX 0x9E) && Role.vOnly.ok c
  | .mlu f c => f.ok (rowX 0x9F) && Role.vOnly.ok c && c.even
  | .mchol f => f.ok (rowX 0xA0)
  | .mtrs f _ _ _ => f.ok (rowX 0xA1)
  | .minv f => f.ok (rowX 0xA2)
  | .mdet f => f.ok (rowX 0xA3)
  | .mexp f => f.ok (rowX 0xA4)
  | .mrefine f _ c e hc => f.ok (rowX 0xA5) && Role.vOnly.ok c && Role.vOnly.ok e && e.even && hc < 16
  | .mnorm f _ => f.ok (rowX 0xA6)
  | .mcvt f _ => f.ok (rowX 0xA7)
  | .lvorg f c => f.ok (rowX 0xA8) && Role.vwzo.ok c
  | .lvmem f => f.ok (rowX 0xA9)
  | .lveps f _ => f.ok (rowX 0xAA)
  | .lvgrad f c hc => f.ok (rowX 0xAB) && Role.vOnly.ok c && hc < 16
  | .lvctl f => f.ok (rowX 0xAC)
  | .lda f _ => f.ok atomTypes .vOnly .vwz true true 1
  | .strl f _ => f.ok atomTypes .data .vwz true false 1
  | .acqr f s => f.ok atomTypes .vz .vwz true false 1 && s != .core
  | .fence h _ => h.ok
  | .atom f op => f.ok atomTypes .vz true true false (some op)
  | .atomc f c => f.ok ints .vz true false false none && f.off.isSome && Role.data.ok c && (!f.ty.wide || c.evenCode)
  | .red f op => f.ok atomTypes .unused false false true (some op)
  | .cpy f | .cps f => f.ok
  | .cpt f _ _ => f.hdr.ok && Role.vwz.ok f.d && Role.vwz.ok f.a
      && (match f.len with | .opnd o => Role.vw.ok o && o.fits 4 | _ => false)
  | .cpclose h d la => h.ok && Role.wz.ok d && la < 16
  | .cpwait h a => h.ok && (match a with | some o => Role.wOnly.ok o | none => true)
  | .cptest h d a la => h.ok && Role.wz.ok d && la < 16 && (match a with | some o => Role.wOnly.ok o | none => true)
  | .tdesc h d a la => h.ok && Role.vw.ok d && Role.vwz.ok a && a.even && la < 16 && (!d.isW || a.uniformSrc)
  | .tdfree h a => h.ok && Role.vwz.ok a
  | .tqinit h k a depth => h.ok && k < 16 && Role.vwz.ok a && 4 ≤ depth && depth ≤ 64
  | .qpush h k a => h.ok && k < 16 && Role.vwz.ok a && a.fits 3
  | .qpop h d k la => h.ok && Role.vw.ok d && d.fits 3 && k < 16 && la < 16
  | .qtry h d k pq la => h.ok && Role.vw.ok d && d.fits 3 && k < 16 && pq < 8 && la < 16
  | .qgrant h k a b => h.ok && k < 16 && ({ Role.vwz with warp := true }).ok a && Role.vwz.ok b
  | .wcfg h s a b => h.ok && s < 4 && Role.vwz.ok a && a.even && Role.vwz.ok b
  | .wstart h s | .wstop h s => h.ok && s < 4
  | .wstat h d s la => h.ok && Role.wz.ok d && s < 4 && la < 16
  | _ => true

end Sys2Proof
end

