-- ==== Sys2Proof/Machine/Float.lean ====
section
/-! DEFINITION. Floating-point values and their one rounding (R72–R88): formats, exact values, rounding under the six
modes, overflow and special values by target, flags. No machine state. -/
namespace Sys2Proof

/-! ## Flags (Table 4.7) -/
def flNX : Nat := 1
def flUF : Nat := 2
def flOF : Nat := 4
def flDZ : Nat := 8
def flIV : Nat := 16
def flSG : Nat := 32

/-- A format of Table 5.1: fraction bits, exponent bits, bias, and what lies beyond the largest finite value. `inf` is
false for E4M3 and E2M1. `maxMant` is the largest significand at the highest exponent field `maxExp`. -/
structure Fmt where
  mbits : Nat
  ebits : Nat
  bias : Nat
  inf : Bool
  maxExp : Nat
  maxMant : Nat
  deriving DecidableEq, Repr, Inhabited

def fmt64 : Fmt := ⟨52, 11, 1023, true, 2046, 2 ^ 53 - 1⟩
def fmt32 : Fmt := ⟨23, 8, 127, true, 254, 2 ^ 24 - 1⟩
def fmtBf : Fmt := ⟨7, 8, 127, true, 254, 255⟩
def fmt16 : Fmt := ⟨10, 5, 15, true, 30, 2047⟩
def fmtE5 : Fmt := ⟨2, 5, 15, true, 30, 7⟩
def fmtE4 : Fmt := ⟨3, 4, 7, false, 15, 14⟩
def fmtE2 : Fmt := ⟨1, 2, 1, false, 3, 3⟩

/-- The exponent of the last place of the smallest magnitudes: subnormals are multiples of 2^qmin (R73). -/
def Fmt.qmin (f : Fmt) : Int := 1 - (f.bias : Int) - f.mbits
def Fmt.width (f : Fmt) : Nat := 1 + f.ebits + f.mbits
def Fmt.signBit (f : Fmt) (neg : Bool) : Nat := if neg then 2 ^ (f.ebits + f.mbits) else 0
/-- The canonical NaN (Table 5.1). E2M1 has none; its blocks hold NaN in the scale (R78). -/
def Fmt.nan (f : Fmt) : Nat :=
  if f.inf then (2 ^ f.ebits - 1) * 2 ^ f.mbits + 2 ^ (f.mbits - 1) else 2 ^ (f.ebits + f.mbits) - 1
def Fmt.infBits (f : Fmt) (neg : Bool) : Nat := f.signBit neg + (2 ^ f.ebits - 1) * 2 ^ f.mbits
/-- The largest finite magnitude, with its sign. -/
def Fmt.maxBits (f : Fmt) (neg : Bool) : Nat := f.signBit neg + f.maxExp * 2 ^ f.mbits + (f.maxMant - 2 ^ f.mbits)

/-- An exact value: a NaN (signalling or quiet), an infinity, or (−1)^neg × m × 2^e, a zero of its sign when m = 0. -/
inductive FV
  | nan (sig : Bool)
  | inf (neg : Bool)
  | num (neg : Bool) (m : Nat) (e : Int)
  deriving DecidableEq, Repr, Inhabited

namespace FV
def zero (neg : Bool) : FV := .num neg 0 0
def one : FV := .num false 1 0
def ofInt (i : Int) : FV := .num (i < 0) i.natAbs 0
def isNan : FV → Bool
  | .nan _ => true
  | _ => false
def isSig : FV → Bool
  | .nan s => s
  | _ => false
def isZero : FV → Bool
  | .num _ m _ => m == 0
  | _ => false
def isInf : FV → Bool
  | .inf _ => true
  | _ => false
def neg? : FV → Bool
  | .num n _ _ => n
  | .inf n => n
  | .nan _ => false
def negate : FV → FV
  | .num n m e => .num (!n) m e
  | .inf n => .inf (!n)
  | x => x
def abs : FV → FV
  | .num _ m e => .num false m e
  | .inf _ => .inf false
  | x => x
/-- Multiplication by a power of two, exact. -/
def scale (k : Int) : FV → FV
  | .num n m e => .num n m (e + k)
  | x => x
end FV

/-- R73: the value of an encoding. -/
def Fmt.decode (f : Fmt) (b : Nat) : FV :=
  let m := b % 2 ^ f.mbits
  let e := b / 2 ^ f.mbits % 2 ^ f.ebits
  let s := b / 2 ^ (f.mbits + f.ebits) % 2 = 1
  if e = 0 then .num s m f.qmin
  else if f.inf && e = 2 ^ f.ebits - 1 then
    if m = 0 then .inf s else .nan (m / 2 ^ (f.mbits - 1) = 0)
  else if !f.inf && f.mbits = 3 && e = 15 && m = 7 then .nan false
  else .num s (m + 2 ^ f.mbits) (e - f.bias - f.mbits)

/-- A subnormal encoding, for .FTZ (R80). -/
def Fmt.isSub (f : Fmt) (b : Nat) : Bool := b / 2 ^ f.mbits % 2 ^ f.ebits = 0 && b % 2 ^ f.mbits ≠ 0

/-- A source read under .FTZ: a subnormal is a zero of its sign (R80). -/
def Fmt.read (f : Fmt) (ftz : Bool) (b : Nat) : FV :=
  if ftz && f.isSub b then .zero (b / 2 ^ (f.mbits + f.ebits) % 2 = 1) else f.decode b

/-- Compare magnitudes m × 2^e exactly. -/
def magLt (m1 : Nat) (e1 : Int) (m2 : Nat) (e2 : Int) : Bool :=
  if e1 ≤ e2 then decide (m1 < m2 * 2 ^ (e2 - e1).toNat) else decide (m1 * 2 ^ (e1 - e2).toNat < m2)

/-- a < b on numbers and infinities; −0 and +0 are equal. -/
def FV.lt : FV → FV → Bool
  | .nan _, _ => false
  | _, .nan _ => false
  | .inf n, .inf n' => n && !n'
  | .inf n, .num _ _ _ => n
  | .num _ _ _, .inf n => !n
  | .num n m e, .num n' m' e' =>
    if m = 0 && m' = 0 then false
    else if n && !n' then !(m == 0 && m' == 0)
    else if !n && n' then false
    else if n then magLt m' e' m e
    else magLt m e m' e'

def FV.eq (a b : FV) : Bool := !a.isNan && !b.isNan && !a.lt b && !b.lt a

/-- The significand and the last place's exponent of m × 2^e truncated to `p` bits with last place at least `q`:
(lo, place, remainder × 2^-shift as numerator and shift). -/
def truncTo (m : Nat) (e q : Int) : Nat × Nat × Nat :=
  if q ≤ e then (m * 2 ^ (e - q).toNat, 0, 0)
  else let k := (q - e).toNat; (m / 2 ^ k, m % 2 ^ k, k)

/-- R84's choice between lo and lo + 1. `rem / 2^k` is the part cut off, plus something below its last place when
`sticky`; `r` is the draw of .SR. -/
def roundUp (rnd : Rnd) (r : Nat) (neg : Bool) (lo rem k : Nat) (sticky : Bool) : Bool :=
  let exact := rem = 0 && !sticky
  if exact then false
  else match rnd with
    | .rn =>
      if k = 0 then false
      else
        let half := 2 ^ (k - 1)
        if half < rem then true
        else if rem < half then false
        else sticky || lo % 2 = 1
    | .rz => false
    | .ru => !neg
    | .rd => neg
    | .ro => lo % 2 = 0
    | .sr => 2 ^ 32 ≤ rem * 2 ^ 32 / 2 ^ k + r

/-- A result: the encoding and the flags it raises. -/
structure FRes where
  bits : Nat
  flags : Nat := 0
  deriving DecidableEq, Repr, Inhabited

/-- Tininess, after rounding with an unbounded exponent range (R81). -/
def Fmt.tiny (f : Fmt) (rnd : Rnd) (r : Nat) (neg : Bool) (m : Nat) (e : Int) (sticky : Bool) : Bool :=
  let q : Int := e + (Nat.log2 m + 1 : Nat) - (f.mbits + 1 : Nat)
  let (lo, rem, k) := truncTo m e q
  magLt (if roundUp rnd r neg lo rem k sticky then lo + 1 else lo) q 1 (1 - (f.bias : Int))

/-- R84, R85 (without .SAT) and R81 for a nonzero exact value (−1)^neg × (m × 2^e, with more below when `sticky`).
With `sticky` the caller gives `m` at least two bits more than the format keeps. `ftz` writes a tiny result as zero
(R80). `sat` is .SAT of R85. -/
def Fmt.round (f : Fmt) (rnd : Rnd) (r : Nat) (ftz sat : Bool) (neg : Bool) (m : Nat) (e : Int) (sticky : Bool) : FRes :=
  let p : Nat := f.mbits + 1
  let q0 : Int := e + (Nat.log2 m + 1 : Nat) - p
  let q := if q0 < f.qmin then f.qmin else q0
  let (lo, rem, k) := truncTo m e q
  let up := roundUp rnd r neg lo rem k sticky
  let mant := if up then lo + 1 else lo
  let inexact := rem ≠ 0 || sticky
  let tiny := f.tiny rnd r neg m e sticky
  -- the largest finite magnitude
  let big := magLt f.maxMant ((f.maxExp : Int) - f.bias - f.mbits) mant q
  if big then
    { flags := flOF ||| flNX
      bits :=
        if sat then f.maxBits neg
        else if !f.inf then (if f.mbits = 1 then f.maxBits neg else f.nan)
        else match rnd with
          | .rn | .sr => f.infBits neg
          | .rz | .ro => f.maxBits neg
          | .ru => if neg then f.maxBits neg else f.infBits neg
          | .rd => if neg then f.infBits neg else f.maxBits neg }
  else if ftz && tiny then { bits := f.signBit neg, flags := flUF ||| flNX }
  else
    let (mant, q) := if mant = 2 ^ p then (mant / 2, q + 1) else (mant, q)
    let body := if mant < 2 ^ f.mbits then mant else ((q - f.qmin).toNat + 1) * 2 ^ f.mbits + (mant - 2 ^ f.mbits)
    { bits := f.signBit neg + body
      flags := (if inexact then flNX else 0) ||| (if tiny && inexact then flUF else 0) }

/-- An arithmetic result (R172): NaN is canonical, infinities and zeros keep their sign, the rest rounds once. -/
def Fmt.finish (f : Fmt) (rnd : Rnd) (r : Nat) (ftz : Bool) : FV → FRes
  | .nan _ => { bits := f.nan }
  | .inf n => { bits := f.infBits n }
  | .num n m e => if m = 0 then { bits := f.signBit n } else f.round rnd r ftz false n m e false

/-- The exact sum of two numbers; a zero sum of opposite signs is +0, or −0 under .RD (R81). -/
def addNum (rnd : Rnd) (n1 : Bool) (m1 : Nat) (e1 : Int) (n2 : Bool) (m2 : Nat) (e2 : Int) : FV :=
  let e := if e1 ≤ e2 then e1 else e2
  let a := m1 * 2 ^ (e1 - e).toNat
  let b := m2 * 2 ^ (e2 - e).toNat
  if n1 = n2 then .num n1 (a + b) e
  else if a = b then .num (rnd = .rd) 0 0
  else if b < a then .num n1 (a - b) e
  else .num n2 (b - a) e

/-- a + b with the flags of its operands and IV for ∞ − ∞ (R172). -/
def FV.add (rnd : Rnd) (a b : FV) : FV × Nat :=
  let iv := if a.isSig || b.isSig then flIV else 0
  match a, b with
  | .nan _, _ => (.nan false, iv)
  | _, .nan _ => (.nan false, iv)
  | .inf n, .inf n' => if n = n' then (.inf n, iv) else (.nan false, flIV)
  | .inf n, _ => (.inf n, iv)
  | _, .inf n => (.inf n, iv)
  | .num n1 m1 e1, .num n2 m2 e2 => (addNum rnd n1 m1 e1 n2 m2 e2, iv)

/-- a × b, exact, with IV for 0 × ∞ (R172). -/
def FV.mul (a b : FV) : FV × Nat :=
  let iv := if a.isSig || b.isSig then flIV else 0
  match a, b with
  | .nan _, _ => (.nan false, iv)
  | _, .nan _ => (.nan false, iv)
  | .inf n, .inf n' => (.inf (n != n'), iv)
  | .inf n, .num n' m _ => if m = 0 then (.nan false, flIV) else (.inf (n != n'), iv)
  | .num n m _, .inf n' => if m = 0 then (.nan false, flIV) else (.inf (n != n'), iv)
  | .num n m e, .num n' m' e' => (.num (n != n') (m * m') (e + e'), iv)

/-- a × b + c, exact; a product 0 × ∞ raises IV even beside a quiet NaN (R172). -/
def FV.fma (rnd : Rnd) (a b c : FV) : FV × Nat :=
  let (p, f1) := a.mul b
  let (s, f2) := p.add rnd c
  (s, f1 ||| f2 ||| (if c.isSig then flIV else 0))

def Fmt.opRes (f : Fmt) (rnd : Rnd) (r : Nat) (ftz : Bool) (x : FV × Nat) : FRes :=
  let y := f.finish rnd r ftz x.1
  { y with flags := y.flags ||| x.2 }

/-- The largest `r` with r × r ≤ n, bit by bit from `k` down. -/
def isqrtFrom : Nat → Nat → Nat → Nat
  | 0, _, r => r
  | k + 1, n, r => isqrtFrom k n (if (r + 2 ^ k) * (r + 2 ^ k) ≤ n then r + 2 ^ k else r)
def isqrt (n : Nat) : Nat := isqrtFrom (Nat.log2 n / 2 + 1) n 0

/-- R178, a / b correctly rounded. -/
def Fmt.div (f : Fmt) (rnd : Rnd) (ftz : Bool) (a b : FV) : FRes :=
  let iv := if a.isSig || b.isSig then flIV else 0
  match a, b with
  | .nan _, _ => { bits := f.nan, flags := iv }
  | _, .nan _ => { bits := f.nan, flags := iv }
  | .inf _, .inf _ => { bits := f.nan, flags := flIV }
  | .inf n, .num n' _ _ => { bits := f.infBits (n != n') }
  | .num n _ _, .inf n' => { bits := f.signBit (n != n') }
  | .num n m e, .num n' m' e' =>
    if m' = 0 then
      if m = 0 then { bits := f.nan, flags := flIV } else { bits := f.infBits (n != n'), flags := flDZ }
    else if m = 0 then { bits := f.signBit (n != n') }
    else
      let k := f.mbits + 4 + Nat.log2 m'
      f.round rnd 0 ftz false (n != n') (m * 2 ^ k / m') (e - e' - k) (m * 2 ^ k % m' ≠ 0)

/-- R178, √a correctly rounded. -/
def Fmt.sqrt (f : Fmt) (rnd : Rnd) (ftz : Bool) (a : FV) : FRes :=
  match a with
  | .nan s => { bits := f.nan, flags := if s then flIV else 0 }
  | .inf n => if n then { bits := f.nan, flags := flIV } else { bits := f.infBits false }
  | .num n m e =>
    if m = 0 then { bits := f.signBit n }
    else if n then { bits := f.nan, flags := flIV }
    else
      let k := 2 * f.mbits + 8 + (if (e - (2 * f.mbits + 8 : Nat)) % 2 = 0 then 0 else 1)
      let x := m * 2 ^ k
      let r := isqrt x
      f.round rnd 0 ftz false false r ((e - k) / 2) (r * r ≠ x)

/-- R173: the lesser (or greater) of two values; −0 lies below +0. `a` and `b` are the encodings. -/
def Fmt.minmax (f : Fmt) (max : Bool) (ftz : Bool) (a b : Nat) : FRes :=
  let x := f.read ftz a
  let y := f.read ftz b
  let iv := if x.isSig || y.isSig then flIV else 0
  let enc (v : FV) (raw : Nat) : Nat := if v.isZero then f.signBit v.neg? else raw % 2 ^ f.width
  let r :=
    match x.isNan, y.isNan with
    | true, true => f.nan
    | true, false => enc y b
    | false, true => enc x a
    | false, false =>
      let less := x.lt y || (x.isZero && y.isZero && x.neg? && !y.neg?)
      if less != max then enc x a
      else if x.eq y && x.neg? = y.neg? then enc x a
      else enc y b
  { bits := r, flags := iv }

/-- R175 with Table 7.7's conditions. -/
def FV.cond (c : Cond) (a b : FV) : Bool :=
  let un := a.isNan || b.isNan
  match c with
  | .eq => a.eq b
  | .ne => !un && !a.eq b
  | .lt => a.lt b
  | .le => !un && !b.lt a
  | .gt => b.lt a
  | .ge => !un && !a.lt b
  | .num => !un
  | .nan => un
  | .ltu => un || a.lt b
  | .leu => un || !b.lt a
  | .gtu => un || b.lt a
  | .geu => un || !a.lt b
  | .equ => un || a.eq b
  | .neu => un || !a.eq b

/-- R176: the class of an encoding (Table 13.2). -/
def Fmt.class (f : Fmt) (ftz : Bool) (b : Nat) : Nat :=
  match f.read ftz b with
  | .nan s => if s then 0 else 1
  | .inf n => if n then 2 else 9
  | .num n m _ =>
    if m = 0 then (if n then 5 else 6)
    else if f.isSub b then (if n then 4 else 7)
    else (if n then 3 else 8)

/-- The integral value nearest in a direction (R174, R84 for integers): (value, inexact). -/
def toIntegral (rnd : Rnd) (neg : Bool) (m : Nat) (e : Int) : Nat × Bool :=
  let (lo, rem, k) := truncTo m e 0
  (if roundUp rnd 0 neg lo rem k false then lo + 1 else lo, rem ≠ 0)

/-- R174, FRND: no flag but IV for a signalling NaN; a zero result has the source's sign. -/
def Fmt.frnd (f : Fmt) (rnd : Rnd) (a : FV) : FRes :=
  match a with
  | .nan s => { bits := f.nan, flags := if s then flIV else 0 }
  | .inf n => { bits := f.infBits n }
  | .num n m e =>
    let (i, _) := toIntegral rnd n m e
    if i = 0 then { bits := f.signBit n }
    else { bits := (f.round .rz 0 false false n i 0 false).bits }

/-- A conversion into a floating format (R85, R86): infinities and NaNs by Table 5.8. -/
def Fmt.convert (f : Fmt) (rnd : Rnd) (r : Nat) (ftz sat : Bool) : FV → FRes
  | .nan s => { bits := f.nan, flags := if s then flIV else 0 }
  | .inf n =>
    if sat then { bits := f.maxBits n, flags := flNX }
    else if f.inf then { bits := f.infBits n }
    else if f.mbits = 1 then { bits := f.maxBits n, flags := flNX }
    else { bits := f.nan, flags := flIV }
  | .num n m e => if m = 0 then { bits := f.signBit n } else f.round rnd r ftz sat n m e false

/-- ro(x, FP32) with an overflowing step at the largest finite value and no flag (R87). -/
def roFp32 (x : FV) : FV :=
  match x with
  | .num n m e => if m = 0 then x else fmt32.decode (fmt32.round .ro 0 false true n m e false).bits
  | _ => x

/-- A chain through FP32 (R87, R88): the directed modes and nearest-even equal the direct rounding; .SR rounds the
intermediate value, and its flags are taken against the exact source. `k` scales exactly (127 − s for NX elements). -/
def Fmt.convertChain (f : Fmt) (rnd : Rnd) (r : Nat) (ftz sat : Bool) (k : Int) (x : FV) : FRes :=
  let y := f.convert rnd r ftz sat ((roFp32 x).scale k)
  match rnd with
  | .sr =>
    match x with
    | .num _ m _ =>
      if m = 0 then y
      else
        let same := ((f.decode y.bits).scale (-k)).eq x
        let big := y.flags &&& flOF ≠ 0
        let tiny := match (roFp32 x).scale k with
          | .num n' m' e' => f.tiny .sr r n' m' e' false
          | _ => false
        { y with flags := (if same then 0 else flNX) ||| (if big then flOF ||| flNX else 0)
            ||| (if tiny && !same then flUF else 0) }
    | _ => y
  | _ => { y with flags := (f.convert rnd r ftz sat (x.scale k)).flags }

/-- Integers of a type: width and signedness (R75). -/
def NumTy.bits (t : NumTy) : Nat := 8 * t.bytes
def NumTy.signed : NumTy → Bool
  | .i32 | .i64 | .i16 | .i8 => true
  | _ => false
/-- The integer of an encoding (R75): bits above the width are ignored. -/
def NumTy.toInt (t : NumTy) (b : Nat) : Int :=
  let w := t.bits
  let u := b % 2 ^ w
  if t.signed && 2 ^ (w - 1) ≤ u then (u : Int) - 2 ^ w else u
def NumTy.minInt (t : NumTy) : Int := if t.signed then -(2 ^ (t.bits - 1)) else 0
def NumTy.maxInt (t : NumTy) : Int := if t.signed then 2 ^ (t.bits - 1) - 1 else 2 ^ t.bits - 1
/-- The encoding of an integer, wrapped to the width. -/
def NumTy.ofInt (t : NumTy) (i : Int) : Nat := (i % 2 ^ t.bits).toNat

/-- Floating point to integer (R84–R86, Table 5.8): out of range, infinities and NaN raise IV alone. -/
def toIntTy (t : NumTy) (rnd : Rnd) : FV → FRes
  | .nan _ => { bits := 0, flags := flIV }
  | .inf n => { bits := t.ofInt (if n then t.minInt else t.maxInt), flags := flIV }
  | .num n m e =>
    let (i, inexact) := toIntegral rnd n m e
    let v : Int := if n then -(i : Int) else i
    if v < t.minInt then { bits := t.ofInt t.minInt, flags := flIV }
    else if t.maxInt < v then { bits := t.ofInt t.maxInt, flags := flIV }
    else { bits := t.ofInt v, flags := if inexact then flNX else 0 }

/-- The floating format of a type code. -/
def NumTy.fmt : NumTy → Fmt
  | .f64 => fmt64
  | .f16 => fmt16
  | .bf16 => fmtBf
  | .e4m3 => fmtE4
  | .e5m2 => fmtE5
  | _ => fmt32

/-- Does `r` hold every value of `s` (Table 13.7, first row)? -/
def NumTy.holds (r s : NumTy) : Bool :=
  r == s || (match r, s with
    | .f64, .f32 | .f64, .f16 | .f64, .bf16 | .f64, .e4m3 | .f64, .e5m2 => true
    | .f32, .f16 | .f32, .bf16 | .f32, .e4m3 | .f32, .e5m2 => true
    | .f16, .e4m3 | .f16, .e5m2 | .bf16, .e4m3 | .bf16, .e5m2 => true
    | _, _ => false)

/-- R185, CVT of one scalar: `b` is the source's encoding, `r` the draw of R90. The result is the encoding of the result
type before it is extended to the register (R75). On a widening or exact conversion .SAT has no effect. -/
def cvtScalar (rt st : NumTy) (rnd : Rnd) (r : Nat) (sat ftz : Bool) (b : Nat) : FRes :=
  if st.isFloat then
    let x := st.fmt.read (ftz && st == .f32) b
    if rt.isFloat then
      if rt.holds st then rt.fmt.convert rnd r (ftz && rt == .f32) false x
      else if st == .f64 && (rt == .f16 || rt == .bf16 || rt == .e4m3 || rt == .e5m2) then
        rt.fmt.convertChain rnd r false sat 0 x
      else rt.fmt.convert rnd r (ftz && rt == .f32) sat x
    else toIntTy rt rnd x
  else
    let i := st.toInt b
    if rt.isFloat then
      if (st == .i64 || st == .u64) && (rt == .f16 || rt == .bf16 || rt == .e4m3 || rt == .e5m2) then
        rt.fmt.convertChain rnd r false sat 0 (.ofInt i)
      else rt.fmt.convert rnd r (ftz && rt == .f32) sat (.ofInt i)
    else if sat then
      { bits := rt.ofInt (if i < rt.minInt then rt.minInt else if rt.maxInt < i then rt.maxInt else i) }
    else { bits := rt.ofInt i }

/-- A result narrower than 32 bits in its register (R75): I8 and I16 sign-extended, everything else zero-extended. -/
def NumTy.extend (t : NumTy) (b : Nat) : Nat :=
  match t with
  | .i8 | .i16 => (t.toInt b % 2 ^ 32).toNat
  | _ => b % 2 ^ t.bits

end Sys2Proof
end

