-- ==== Sys2Proof/Decode.lean ====
section
/-! DEFINITION. The decoder and the encoder (R91–R103, R109, R110). A word is split into the fields of Tables 7.1 and
7.2; a layout's fields are split further by Table 7.6; operand codes become operands by Table 7.3. Decoding is total:
it gives an instruction, or names the trap and the opcode field that SR_TRAPCAUSE receives (R95, R97). -/
namespace Sys2Proof

/-! ## Fields of a number -/

/-- The fields of the given widths, least significant first. -/
def unpack : List Nat → Nat → List Nat
  | [], _ => []
  | k :: ks, w => w % 2 ^ k :: unpack ks (w / 2 ^ k)

/-- The number made of (width, value) fields, least significant first. -/
def pack : List (Nat × Nat) → Nat
  | [] => 0
  | (k, v) :: r => v + 2 ^ k * pack r

/-- `codeOf all x`: the place of `x` in a code table. -/
def codeOf {α : Type} [DecidableEq α] (all : List α) (x : α) : Nat := all.idxOf x

def allTy : List NumTy :=
  [.i32, .u32, .i64, .u64, .i16, .u16, .i8, .u8, .f32, .f64, .f16, .bf16, .e4m3, .e5m2, .nx8, .nx4]
def allRnd : List Rnd := [.rn, .rz, .ru, .rd, .ro, .sr]
def allCond : List Cond := [.eq, .ne, .lt, .le, .gt, .ge, .num, .nan, .ltu, .leu, .gtu, .geu, .equ, .neu]
def allScope : List Scope := [.core, .clus, .die, .dev, .sys]
def allUse : List Use := [.unp, .com, .nord, .qnt, .spec]
def allAtomOp : List AtomOp := [.add, .min, .max, .and, .or, .xor, .exch, .inc, .dec]
def allComb : List CombOp := [.none, .and, .or, .xor]
def allPick : List PickMode := [.lane, .below, .above, .flip]
def allPoll : List PollMode := [.mask, .some, .every, .same]
def allWmov : List WmovMode := [.fromJ, .toJ, .front, .active]
def allFold : List FoldOp := [.add, .min, .max, .and, .or, .xor]
def allFrnd : List FrndDir := [.near, .trunc, .ceil, .floor]
def allHint : List Hint := [.normal, .strm, .nol1]
def allMSpace : List MSpace := [.team, .group, .lane]
def allQry : List QryMode := [.words, .w0, .regs]
def allNorm : List NormKind := [.n1, .ninf, .fro, .max]
def allSp : List SpPat := [.cols, .pairs, .both]
def allSpace : List Space := [.team, .group]
def allCnt : List Nat := [1, 2, 4]
def allKind : List MovKind := [.copy, .packP]

/-- Table 7.3, code to operand. -/
def Opnd.ofCode (n : Nat) : Option Opnd :=
  if n < 768 then some (.v n)
  else if n < 832 then some (.w (n - 768))
  else if n < 836 then some (.oq (n - 832))
  else if n = 1016 then some .zero
  else if n = 1017 then some .lane
  else if n = 1018 then some .warp
  else if n = 1019 then some .ones
  else none

/-- Table 7.3, operand to code; an unused field is written 0 (R103). -/
def Opnd.toCode : Opnd → Nat
  | .v n => n
  | .w n => 768 + n
  | .oq n => 832 + n
  | .zero => 1016
  | .lane => 1017
  | .warp => 1018
  | .ones => 1019
  | .none => 0

/-- An operand field under its role: an unused field is not looked at (R103). -/
def opndAt (r : Role) (code : Nat) : Option Opnd := if r.used then Opnd.ofCode code else some .none

/-! ## Words -/

/-- The fields of word 0 (Table 7.1) and of the extension word (Table 7.2); `hExt` is the extension word's H. -/
structure Raw where
  op : Nat := 0
  x : Nat := 0
  s : Nat := 0
  pg : Nat := 7
  pn : Nat := 0
  d : Nat := 0
  a : Nat := 0
  b : Nat := 0
  la : Nat := 0
  mod : Nat := 0
  c : Nat := 0
  e : Nat := 0
  hc : Nat := 0
  xmod : Nat := 0
  imm : Nat := 0
  deriving DecidableEq, Repr, Inhabited

/-- Word 0 (R91). -/
def Raw.word0 (r : Raw) : Nat :=
  pack [(15, r.mod), (4, r.la), (10, r.b), (10, r.a), (10, r.d), (1, r.pn), (3, r.pg), (8, r.op), (1, r.s), (1, r.x), (1, 1)]

/-- The extension word (R92). -/
def Raw.word1 (r : Raw) : Nat :=
  pack [(32, r.imm), (7, r.xmod), (4, r.hc), (10, r.e), (10, r.c), (1, 0)]

/-- The words of an instruction. -/
def Raw.words (r : Raw) : List Nat := if r.x = 1 then [r.word0, r.word1] else [r.word0]

/-- The fields of two words, H bits apart. The extension fields are 0 where X = 0. -/
def Raw.ofWords (w0 w1 : Nat) : Raw :=
  match unpack [15, 4, 10, 10, 10, 1, 3, 8, 1, 1] w0 with
  | [mod, la, b, a, d, pn, pg, op, s, x] =>
    if x = 1 then
      match unpack [32, 7, 4, 10, 10] w1 with
      | [imm, xmod, hc, e, c] =>
        { op, x, s, pg, pn, d, a, b, la := la, mod, c, e, hc, xmod, imm }
      | _ => {}
    else { op, x, s, pg, pn, d, a, b, la := la, mod }
  | _ => {}

def Raw.hdr (r : Raw) : Hdr := { p := r.pg, neg := r.pn = 1, safe := r.s = 1 }

/-- The bits [hi:lo] of a field. -/
def fld (w hi lo : Nat) : Nat := w / 2 ^ lo % 2 ^ (hi - lo + 1)

def bit1 (b : Bool) : Nat := if b then 1 else 0

/-- Operand B with its immediates (R99): X = 1 without BI leaves the extension word no use (R103). -/
def Raw.bArg (r : Raw) (role : Role) (bi : Nat) : Option BArg :=
  if bi = 1 then
    if r.x = 1 then some (.imm32 (BitVec.ofNat 32 r.imm)) else some (.imm10 (BitVec.ofNat 10 r.b))
  else if r.x = 1 then none
  else (opndAt role r.b).map .opnd

def Raw.tyAt (row : Row) (code : Nat) : Option NumTy := if row.types.isEmpty then some .i32 else allTy[code]?

/-- Layout A (Tables 7.5, 7.6). -/
def Raw.formA (r : Raw) (row : Row) : Option FormA := do
  let b ← r.bArg row.b (fld r.la 3 3)
  let d ← opndAt row.d r.d
  let a ← opndAt row.a r.a
  let ty ← Raw.tyAt row (fld r.mod 14 11)
  let rnd ← allRnd[fld r.mod 10 8]?
  pure { hdr := r.hdr, d, a, b, ty, rnd, ftz := fld r.mod 7 7 = 1 }

/-- Layout A3: the type comes from the form's variants; with none the field is reserved. -/
def Raw.formA3 (r : Raw) (row : Row) (variants : List NumTy) : Option FormA3 := do
  let b ← r.bArg row.b (fld r.la 3 3)
  let d ← opndAt row.d r.d
  let a ← opndAt row.a r.a
  let c ← opndAt row.c (fld r.mod 14 5)
  let ty ← if variants.isEmpty then some .i32 else variants[fld r.la 2 0]?
  let rnd ← allRnd[fld r.mod 4 2]?
  pure { hdr := r.hdr, d, a, b, c, ty, rnd, ftz := fld r.mod 1 1 = 1 }

/-- Layout P. -/
def Raw.formP (r : Raw) (row : Row) (useD useCond useComb useFtz : Bool) : Option FormP := do
  let b ← r.bArg row.b (fld r.la 3 3)
  let a ← opndAt row.a r.a
  let ty ← Raw.tyAt row (fld r.mod 14 11)
  let cond ← if useCond then allCond[fld r.mod 10 7]? else some .eq
  let comb := if useComb then (allComb[fld r.mod 3 2]?).getD .none else .none
  pure { hdr := r.hdr, d := if useD then r.d % 8 else 0, a, b, ty, cond, comb
         cp := if comb = .none then 0 else fld r.mod 6 4
         cneg := if comb = .none then false else fld r.mod 0 0 = 1
         ftz := if useFtz then fld r.mod 1 1 = 1 else false }

/-- Layout B. -/
def Raw.formB (r : Raw) (row : Row) (useLa : Bool) : Option FormB := do
  let b ← r.bArg row.b (fld r.mod 14 14)
  let d ← opndAt row.d r.d
  let a ← opndAt row.a r.a
  let ty ← if row.types.isEmpty then some .i32 else allTy[fld r.mod 13 10]?
  let rnd ← allRnd[fld r.mod 5 3]?
  pure { hdr := r.hdr, d, a, b, la := if useLa then r.la else 0, ty, rnd
         sat := fld r.mod 2 2 = 1, ftz := fld r.mod 1 1 = 1 }

/-- Layout X: descriptor fields a form does not use are not looked at. -/
def Raw.formX (r : Raw) (row : XRow) : Option FormX := do
  let d ← opndAt row.d r.d
  let a ← opndAt row.a r.a
  let b ← opndAt row.b r.b
  pure { hdr := r.hdr, d, a, b
         hd := if row.hd then fld r.mod 14 11 else 0
         ha := if row.ha then fld r.mod 10 7 else 0
         hb := if row.hb then fld r.mod 6 3 else 0
         la := if row.la then r.la else 0, ftz := fld r.mod 2 2 = 1 }

/-- A rounding code or SAT on a form that takes none traps (R189); both stand in the extension word. -/
def Raw.noRnd (r : Raw) : Bool := r.x = 0 || (fld r.xmod 6 3 = 0)

def Raw.offset (r : Raw) : Off := if r.x = 1 then .imm32 (BitVec.ofNat 32 r.imm) else .imm10 (BitVec.ofNat 10 r.b)
def Raw.imm? (r : Raw) : Option Word := if r.x = 1 then some (BitVec.ofNat 32 r.imm) else none

/-- Layout M, loads and stores; a form without a type has the code 0 in the syntax. -/
def Raw.formM (r : Raw) (d a : Role) (useTy useLa : Bool) : Option FormM := do
  let d ← opndAt d r.d
  let a ← opndAt a r.a
  let ty ← if useTy then allTy[fld r.mod 14 11]? else some .i32
  pure { hdr := r.hdr, d, a, off := r.offset, la := if useLa then r.la else 0, ty }

/-- Layout M, atomics. -/
def Raw.formAt (r : Raw) (d : Role) (useLa : Bool) : Option FormAt := do
  let d ← opndAt d r.d
  let a ← opndAt .vwz r.a
  let b ← opndAt .data r.b
  let ty ← allTy[fld r.mod 14 11]?
  let scope ← allScope[fld r.mod 10 8]?
  let use ← allUse[fld r.mod 7 5]?
  pure { hdr := r.hdr, d, a, b, off := r.imm?, la := if useLa then r.la else 0, ty, scope, use }

/-- CPY and CPS: X = 1 exactly with .LI (Table 19.1). -/
def Raw.formCp (r : Raw) : Option FormCp := do
  let d ← opndAt .vwz r.d
  let a ← opndAt .vwz r.a
  let space ← allSpace[fld r.mod 12 11]?
  let scope ← allScope[fld r.mod 10 8]?
  let len ← if fld r.mod 0 0 = 1 then (if r.x = 1 then some (.imm32 (BitVec.ofNat 32 r.imm)) else none)
            else if r.x = 1 then none else (opndAt .vwz r.b).map .opnd
  pure { hdr := r.hdr, d, a, len, space, scope }

/-- The join register of a branch: ignored with JV = 0 (R103). -/
def Raw.jv (r : Raw) : Option Nat := if fld r.mod 14 14 = 1 then some (fld r.mod 13 11) else none

/-- BI of layout Y's SLEEP, SETPRIO and DGST (R127). X = 1 with BI = 0 is none of them (log 76). -/
def Raw.yArg (r : Raw) (role : Role) (ext : Bool) : Option BArg :=
  if fld r.mod 14 14 = 1 then
    if r.x = 1 then (if ext then some (.imm32 (BitVec.ofNat 32 r.imm)) else none)
    else some (.imm10 (BitVec.ofNat 10 r.b))
  else if r.x = 1 then none else (opndAt role r.b).map .opnd

/-! ## The opcode map, read (Table 7.8) -/

/-- Layouts K and Y (0x00–0x17): X = 1 only on SLEEP (R127). -/
def decodeKY (r : Raw) : Option Instr :=
  if r.x = 1 && r.op != 0x0E then none else
  match r.op with
  | 0x00 => some (.nop r.hdr)
  | 0x01 => some (.bra r.hdr (BitVec.ofNat 30 (pack [(10, r.b), (10, r.a), (10, r.d)])) r.jv)
  | 0x02 => do let a ← Opnd.ofCode r.a; pure (.brx r.hdr a r.jv)
  | 0x03 => some (.join r.hdr (fld r.mod 13 11))
  | 0x04 => do
    let d ← Opnd.ofCode r.d
    pure (.call r.hdr d (BitVec.ofNat 20 (pack [(10, r.b), (10, r.a)])) r.jv)
  | 0x05 => do let d ← Opnd.ofCode r.d; let a ← Opnd.ofCode r.a; pure (.callx r.hdr d a r.jv)
  | 0x06 => do let a ← Opnd.ofCode r.a; pure (.ret r.hdr a r.jv)
  | 0x07 => some (.yield r.hdr)
  | 0x08 => some (.exit r.hdr)
  | 0x09 => some (.bar r.hdr (fld r.mod 1 0))
  | 0x0A => some (.barc r.hdr)
  | 0x0B => do let d ← Opnd.ofCode r.d; let a ← Opnd.ofCode r.a; pure (.launch r.hdr d a)
  | 0x0C => do let a ← Opnd.ofCode r.a; pure (.cwait r.hdr a)
  | 0x0D => do
    let a ← Opnd.ofCode r.a
    let b ← if fld r.mod 2 0 = 0 then some .none else Opnd.ofCode r.b
    pure (.regroup r.hdr a b (fld r.mod 2 0))
  | 0x0E => do let b ← r.yArg .vw true; pure (.sleep r.hdr b)
  | 0x0F => do let d ← Opnd.ofCode r.d; pure (.tstamp r.hdr d)
  | 0x10 => do let d ← Opnd.ofCode r.d; pure (.srd r.hdr d (fld r.mod 7 0))
  | 0x11 => do let a ← Opnd.ofCode r.a; pure (.swr r.hdr a (fld r.mod 7 0))
  | 0x12 => some (.trap r.hdr r.b)
  | 0x13 => some (.tret r.hdr)
  | 0x14 => some (.bkpt r.hdr r.b)
  | 0x15 => some (.rep r.hdr (fld r.mod 14 14 = 1) (fld r.mod 13 13 = 1) (fld r.mod 12 12 = 1) (fld r.mod 11 11 = 1)
      (fld r.mod 10 6 + 1) (fld r.mod 5 0 + 1))
  | 0x16 => do let b ← r.yArg .wOnly false; pure (.setprio r.hdr b)
  | 0x17 => do let a ← Opnd.ofCode r.a; let t ← r.yArg .wOnly false; pure (.dgst r.hdr a t (fld r.mod 5 0 + 1))
  | _ => none

/-- Layouts A, A3 and P, integer side (0x20–0x49). -/
def decodeInt (r : Raw) : Option Instr :=
  match r.op with
  | 0x23 => (r.formA (rowA 0x23)).map .iadd
  | 0x24 => (r.formA (rowA 0x24)).map .isub
  | 0x26 => (r.formA (rowA 0x26)).map .imul
  | 0x27 => (r.formA (rowA 0x27)).map .imulh
  | 0x2A => (r.formA (rowA 0x2A)).map .imin
  | 0x2B => (r.formA (rowA 0x2B)).map .imax
  | 0x2C => (r.formA (rowA 0x2C)).map .iabs
  | 0x2D => (r.formA (rowA 0x2D)).map .and
  | 0x2E => (r.formA (rowA 0x2E)).map .or
  | 0x2F => (r.formA (rowA 0x2F)).map .xor
  | 0x30 => (r.formA (rowA 0x30)).map .andn
  | 0x31 => (r.formA (rowA 0x31)).map .not
  | 0x32 => (r.formA (rowA 0x32)).map .shl
  | 0x33 => (r.formA (rowA 0x33)).map .shr
  | 0x34 => (r.formA (rowA 0x34)).map .sar
  | 0x35 => (r.formA (rowA 0x35)).map .rotl
  | 0x37 => (r.formA (rowA 0x37)).map .popc
  | 0x38 => (r.formA (rowA 0x38)).map .clz
  | 0x39 => (r.formA (rowA 0x39)).map .ctz
  | 0x3A => (r.formA (rowA 0x3A)).map .brev
  | 0x3B => (r.formA (rowA 0x3B)).map .bfx
  | 0x47 => (r.formA (rowA 0x47)).map .rdfl
  | 0x21 => (r.formA (rowA 0x21)).map .movi
  | 0x28 => (r.formA3 (rowA 0x28) ints).map .imad
  | 0x29 => (r.formA3 (rowA 0x29) [.i32, .u32]).map .imadw
  | 0x3C => (r.formA3 (rowA 0x3C) ints).map .bfi
  | 0x3D => (r.formA3 (rowA 0x3D) []).map .bperm
  | 0x20 => do
    let k ← allKind[fld r.mod 1 0]?
    match k with
    | .copy => (r.formA (rowA 0x20)).map (.mov · .copy)
    | .packP => (r.formA rowMovP).map (.mov · .packP)
  | 0x22 => (r.formA (rowA 0x22)).map (.sel · (fld r.la 2 0) (fld r.mod 0 0 = 1))
  | 0x25 => (r.formA (rowA 0x25)).map
      (.iaddc · (fld r.la 2 0) (fld r.mod 6 4) (fld r.mod 3 3 = 1) (fld r.mod 2 2 = 1))
  | 0x36 => (r.formA3 (rowA 0x36) []).map (.fsh · (fld r.mod 0 0 = 1))
  | 0x3E => (r.formA3 rowLea []).map (.lea · (fld r.la 2 0) (fld r.mod 0 0 = 1))
  | 0x3F => (r.formP (rowP 0x3F) true true true false).map .icmp
  | 0x40 => if fld r.la 3 3 = 1 then
      some (.plop r.hdr (r.d % 8) (r.a % 8) (fld r.mod 6 4) (fld r.la 2 0)
        (if r.x = 1 then .imm32 (BitVec.ofNat 32 r.imm) else .imm10 (BitVec.ofNat 10 r.b))) else none
  | 0x41 => match fld r.mod 1 0 with
    | 0 => (r.formP (rowP 0x41) true false false false).map (.pmov · false)
    | 1 => (r.formP rowPmovAll false false false false).map (.pmov · true)
    | _ => none
  | 0x42 => do
    let m ← allPick[fld r.mod 1 0]?
    (r.formA (rowA 0x42)).map (.lpick · (fld r.la 2 0) (fld r.mod 4 2) m)
  | 0x43 => do
    let m ← allPoll[fld r.mod 1 0]?
    (r.formA (rowA 0x43)).map (.lpoll · (r.a % 8) (fld r.la 2 0) m)
  | 0x44 => do let o ← allFold[fld r.mod 2 0]?; (r.formA (rowA 0x44)).map (.lfold · o)
  | 0x45 => do
    let o ← allFold[fld r.mod 2 0]?
    (r.formA (rowA 0x45)).map (.scan · o (fld r.mod 3 3 = 1) (fld r.mod 4 4 = 1) (fld r.la 2 0))
  | 0x46 => (r.formA (rowA 0x46)).map (.lpeer · (fld r.la 2 0))
  | 0x48 => (r.formA (rowA 0x48)).map (.lsend · (fld r.la 2 0))
  | 0x49 => do
    let m ← allWmov[fld r.mod 1 0]?
    (r.formA (rowWmov m)).map (.wmov · (fld r.mod 6 4) m)
  | _ => none

/-- Layout M, plain loads and stores (0x4A–0x53). -/
def decodeMem (r : Raw) : Option Instr :=
  match r.op with
  | 0x4A => do
    let f ← r.formM .vz .vwz true true
    let h ← allHint[fld r.mod 4 3]?
    let c ← allCnt[fld r.mod 2 1]?
    pure (.ld f h c)
  | 0x4B => do
    let f ← r.formM .stData .vwz true false
    let h ← allHint[fld r.mod 4 3]?
    let c ← allCnt[fld r.mod 2 1]?
    pure (.st f h c)
  | 0x4C => do let f ← r.formM .vz .vwz true true; let c ← allCnt[fld r.mod 2 1]?; pure (.lds f c)
  | 0x4D => do let f ← r.formM .stData .vwz true false; let c ← allCnt[fld r.mod 2 1]?; pure (.sts f c)
  | 0x4E => do let f ← r.formM .vz .vwz true true; let c ← allCnt[fld r.mod 2 1]?; pure (.ldc f c)
  | 0x4F => do let f ← r.formM .stData .vwz true false; let c ← allCnt[fld r.mod 2 1]?; pure (.stc f c)
  | 0x50 => do let f ← r.formM .vz .vwz true true; let c ← allCnt[fld r.mod 2 1]?; pure (.ldl f c)
  | 0x51 => do let f ← r.formM .stData .vwz true false; let c ← allCnt[fld r.mod 2 1]?; pure (.stl f c)
  | 0x52 => do
    let f ← r.formM .wOnly .wz true true
    let h ← allHint[fld r.mod 4 3]?
    let c ← allCnt[fld r.mod 2 1]?
    pure (.ldw f h c)
  | 0x53 => do
    let f ← r.formM .unused .vwz false false
    match fld r.mod 4 3 with
    | 0 => pure (.pref f false)
    | 1 => pure (.pref f true)
    | _ => none
  | _ => none

/-- Layouts A, A3, P and B, floating side (0x60–0x82). -/
def decodeFloat (r : Raw) : Option Instr :=
  match r.op with
  | 0x60 => (r.formA (rowA 0x60)).map .fadd
  | 0x61 => (r.formA (rowA 0x61)).map .fmul
  | 0x63 => (r.formA (rowA 0x63)).map .fmin
  | 0x64 => (r.formA (rowA 0x64)).map .fmax
  | 0x68 => (r.formA (rowA 0x68)).map .fscl
  | 0x69 => (r.formA (rowA 0x69)).map .dadd
  | 0x6A => (r.formA (rowA 0x6A)).map .dmul
  | 0x6C => (r.formA (rowA 0x6C)).map .dmin
  | 0x6D => (r.formA (rowA 0x6D)).map .dmax
  | 0x6F => (r.formA (rowA 0x6F)).map .duoadd
  | 0x70 => (r.formA (rowA 0x70)).map .duomul
  | 0x62 => (r.formA3 (rowA 0x62) [.f32]).map .ffma
  | 0x6B => (r.formA3 (rowA 0x6B) [.f64]).map .dfma
  | 0x71 => (r.formA3 (rowA 0x71) [.f16, .bf16]).map .duofma
  | 0x72 => (r.formB (rowB 0x72) true).map .fdiv
  | 0x73 => (r.formB (rowB 0x73) true).map .fsqrt
  | 0x74 => (r.formB (rowB 0x74) true).map .ddiv
  | 0x75 => (r.formB (rowB 0x75) true).map .dsqrt
  | 0x76 => (r.formB (rowB 0x76) true).map .rcp
  | 0x77 => (r.formB (rowB 0x77) true).map .rsq
  | 0x78 => (r.formB (rowB 0x78) true).map .exp2
  | 0x79 => (r.formB (rowB 0x79) true).map .log2
  | 0x7A => (r.formB (rowB 0x7A) true).map .sin
  | 0x7B => (r.formB (rowB 0x7B) true).map .cos
  | 0x7C => (r.formB (rowB 0x7C) true).map .tanh
  | 0x7D => (r.formB (rowB 0x7D) true).map .luta
  | 0x7E => (r.formB (rowB 0x7E) true).map .lutld
  | 0x7F => (r.formB (rowB 0x7F) false).map .lutsync
  | 0x65 => (r.formP (rowP 0x65) true true true true).map .fcmp
  | 0x66 => (r.formP (rowP 0x66) true false true true).map .fclass
  | 0x67 => do let m ← allFrnd[fld r.mod 1 0]?; (r.formA (rowA 0x67)).map (.frnd · m)
  | 0x6E => (r.formP (rowP 0x6E) true true true false).map .dcmp
  | 0x80 => do
    let s ← allTy[fld r.mod 9 6]?
    let t ← allTy[fld r.mod 13 10]?
    (r.formB (rowCvt t s) true).map (.cvt · s)
  | 0x81 => do let s ← allTy[fld r.mod 9 6]?; (r.formB (rowCvtblk s) true).map (.cvtblk · s)
  | 0x82 => (r.formB (rowB 0x82) false).map (.srseed · (fld r.mod 0 0 = 1))
  | _ => none

/-- Layout X (0x90–0xAC). -/
def decodeX (r : Raw) : Option Instr :=
  match r.op with
  | 0x96 => if r.x == 1 then none else (r.formX (rowX 0x96)).map .mzero
  | 0x97 => if r.x == 1 then none else (r.formX (rowX 0x97)).map .mcopy
  | 0x98 => if r.x == 1 then none else (r.formX (rowX 0x98)).map .mtrn
  | 0x9A => if r.x == 1 then none else (r.formX (rowX 0x9A)).map .mscal
  | 0x9B => if r.x == 1 then none else (r.formX (rowX 0x9B)).map .mmul
  | 0x9C => if r.x == 1 then none else (r.formX (rowX 0x9C)).map .mma
  | 0xA0 => if r.x == 1 then none else (r.formX (rowX 0xA0)).map .mchol
  | 0xA2 => if r.x == 1 then none else (r.formX (rowX 0xA2)).map .minv
  | 0xA3 => if r.x == 1 then none else (r.formX (rowX 0xA3)).map .mdet
  | 0xA4 => if r.x == 1 then none else (r.formX (rowX 0xA4)).map .mexp
  | 0xA9 => if r.x == 1 then none else (r.formX (rowX 0xA9)).map .lvmem
  | 0xAC => if r.x == 1 then none else (r.formX (rowX 0xAC)).map .lvctl
  | 0x90 => if fld r.mod 0 0 = 1 then
      (if r.x = 1 && r.noRnd then
        (r.formX rowMshapeImm).map (.mshape · (fld r.mod 1 1 = 1) (some (BitVec.ofNat 32 r.imm))) else none)
      else if r.x = 1 then none else (r.formX (rowX 0x90)).map (.mshape · (fld r.mod 1 1 = 1) none)
  | 0x91 => if r.x = 1 then none else do
      let m ← allQry[fld r.mod 1 0]?; (r.formX (rowX 0x91)).map (.mqry · m)
  | 0x92 => if !r.noRnd then none else do
      let h ← allHint[fld r.mod 1 0]?; (r.formX (rowX 0x92)).map (.mld · h r.imm?)
  | 0x93 => do
      let h ← allHint[fld r.mod 1 0]?
      let rnd ← if r.x = 1 then allRnd[fld r.xmod 6 4]? else some .rn
      (r.formX (rowX 0x93)).map (.mst · h r.imm? rnd (r.x = 1 && fld r.xmod 3 3 = 1))
  | 0x94 => if !r.noRnd then none else do
      let m ← allMSpace[fld r.mod 1 0]?; (r.formX (rowX 0x94)).map (.mlds · m r.imm?)
  | 0x95 => if !r.noRnd then none else do
      let m ← allMSpace[fld r.mod 1 0]?; (r.formX (rowX 0x95)).map (.msts · m r.imm?)
  | 0x99 => if r.x = 1 then none else (r.formX (rowX 0x99)).map (.madd · (fld r.mod 0 0 = 1))
  | 0x9D => if r.x = 1 then none else
      if fld r.mod 0 0 = 1 then (r.formX rowMmtSelf).map (.mmt · true (fld r.mod 1 1 = 1))
      else (r.formX (rowX 0x9D)).map (.mmt · false (fld r.mod 1 1 = 1))
  | 0x9E => if r.x = 1 && r.noRnd then do
      let p ← allSp[fld r.xmod 2 0]?; let c ← Opnd.ofCode r.c; (r.formX (rowX 0x9E)).map (.mspma · c p) else none
  | 0x9F => if r.x = 1 && r.noRnd then do let c ← Opnd.ofCode r.c; (r.formX (rowX 0x9F)).map (.mlu · c) else none
  | 0xA1 => if !r.noRnd then none else
      (r.formX (rowX 0xA1)).map (.mtrs · (fld r.mod 0 0 = 1) (fld r.mod 1 1 = 1)
        (if r.x = 1 then some (decide (fld r.xmod 0 0 = 1)) else none))
  | 0xA5 => if r.x = 1 && r.noRnd then do
      let c ← Opnd.ofCode r.c; let e ← Opnd.ofCode r.e
      (r.formX (rowX 0xA5)).map (.mrefine · (fld r.mod 0 0 = 1) c e r.hc) else none
  | 0xA6 => if r.x = 1 then none else do
      let k ← allNorm[fld r.mod 1 0]?; (r.formX (rowX 0xA6)).map (.mnorm · k)
  | 0xA7 => do
      let e ← if r.x = 1 then (allRnd[fld r.xmod 6 4]?).map (fun m => some (m, decide (fld r.xmod 3 3 = 1)))
              else some none
      (r.formX (rowX 0xA7)).map (.mcvt · e)
  | 0xA8 => if r.x = 1 && r.noRnd then do let c ← Opnd.ofCode r.c; (r.formX (rowX 0xA8)).map (.lvorg · c) else none
  | 0xAA => if r.x = 1 then none else (r.formX (rowX 0xAA)).map (.lveps · (fld r.mod 0 0 = 1))
  | 0xAB => if r.x = 1 && r.noRnd then do
      let c ← Opnd.ofCode r.c; (r.formX (rowX 0xAB)).map (.lvgrad · c r.hc) else none
  | _ => none

/-- CPWAIT and CPTEST: no batch register with .ALL (Table 19.1). -/
def Raw.batch (r : Raw) : Option (Option Opnd) := if fld r.mod 0 0 = 1 then some none else (Opnd.ofCode r.a).map some

/-- Layouts M and Q (0xC0–0xD7). -/
def decodeQ (r : Raw) : Option Instr :=
  match r.op with
  | 0xC0 => do let f ← r.formM .vOnly .vwz true true; let s ← allScope[fld r.mod 10 8]?; pure (.lda f s)
  | 0xC1 => do let f ← r.formM .data .vwz true false; let s ← allScope[fld r.mod 10 8]?; pure (.strl f s)
  | 0xC2 => do let f ← r.formM .vz .vwz true false; let s ← allScope[fld r.mod 10 8]?; pure (.acqr f s)
  | 0xC4 => do let f ← r.formAt .vz true; let o ← allAtomOp[fld r.mod 4 1]?; pure (.atom f o)
  | 0xC5 => if r.x = 1 then do let f ← r.formAt .vz true; let c ← Opnd.ofCode r.c; pure (.atomc f c) else none
  | 0xC6 => do let f ← r.formAt .unused false; let o ← allAtomOp[fld r.mod 4 1]?; pure (.red f o)
  | 0xC7 => r.formCp.map .cpy
  | 0xC8 => r.formCp.map .cps
  | 0xC9 => if r.x = 1 then do
      let d ← Opnd.ofCode r.d; let a ← Opnd.ofCode r.a; let b ← Opnd.ofCode r.b
      let space ← allSpace[fld r.mod 12 11]?
      let scope ← allScope[fld r.mod 10 8]?
      pure (.cpt { hdr := r.hdr, d, a, len := .opnd b, space, scope } (fld r.mod 0 0 = 1) (BitVec.ofNat 32 r.imm)) else none
  | op => if r.x = 1 then none else
    match op with
    | 0xC3 => do let s ← allScope[fld r.mod 10 8]?; pure (.fence r.hdr s)
    | 0xCA => do let d ← Opnd.ofCode r.d; pure (.cpclose r.hdr d r.la)
    | 0xCB => do let a ← r.batch; pure (.cpwait r.hdr a)
    | 0xCC => do let d ← Opnd.ofCode r.d; let a ← r.batch; pure (.cptest r.hdr d a r.la)
    | 0xCD => do let d ← Opnd.ofCode r.d; let a ← Opnd.ofCode r.a; pure (.tdesc r.hdr d a r.la)
    | 0xCE => do let a ← Opnd.ofCode r.a; pure (.tdfree r.hdr a)
    | 0xCF => do let a ← Opnd.ofCode r.a; pure (.tqinit r.hdr (fld r.mod 7 4) a (fld r.mod 14 9 + 1))
    | 0xD0 => do let a ← Opnd.ofCode r.a; pure (.qpush r.hdr (fld r.mod 7 4) a)
    | 0xD1 => do let d ← Opnd.ofCode r.d; pure (.qpop r.hdr d (fld r.mod 7 4) r.la)
    | 0xD2 => do let d ← Opnd.ofCode r.d; pure (.qtry r.hdr d (fld r.mod 7 4) (fld r.mod 2 0) r.la)
    | 0xD3 => do let a ← Opnd.ofCode r.a; let b ← Opnd.ofCode r.b; pure (.qgrant r.hdr (fld r.mod 7 4) a b)
    | 0xD4 => do let a ← Opnd.ofCode r.a; let b ← Opnd.ofCode r.b; pure (.wcfg r.hdr (fld r.mod 1 0) a b)
    | 0xD5 => some (.wstart r.hdr (fld r.mod 1 0))
    | 0xD6 => some (.wstop r.hdr (fld r.mod 1 0))
    | 0xD7 => do let d ← Opnd.ofCode r.d; pure (.wstat r.hdr d (fld r.mod 1 0) r.la)
    | _ => none

/-- Is the opcode assigned (Table 7.8)? 164 codes are. -/
def opAssigned (op : Nat) : Bool :=
  op < 0x18 || (0x20 ≤ op && op < 0x54) || (0x60 ≤ op && op < 0x83) || (0x90 ≤ op && op < 0xAD)
    || (0xC0 ≤ op && op < 0xD8)

/-- Does the instruction whose first word is `w0` have a second one that R95 looks at? An unassigned code has none (log 75). -/
def twoWords (w0 : Nat) : Bool := fld w0 63 63 = 1 && fld w0 62 62 = 1 && opAssigned (Raw.ofWords w0 0).op

/-- The forms of an assigned opcode. -/
def decodeRaw (r : Raw) : Option Instr :=
  if r.op < 0x18 then decodeKY r
  else if r.op < 0x4A then decodeInt r
  else if r.op < 0x54 then decodeMem r
  else if r.op < 0x83 then decodeFloat r
  else if r.op < 0xAD then decodeX r
  else decodeQ r

/-- What decoding gives: an instruction, or the trap that R95 or R97 names with the opcode field of SR_TRAPCAUSE. -/
inductive Decoded
  | ok (i : Instr)
  | illegalOpcode (op : Nat)
  | illegalOperand (op : Nat)
  deriving DecidableEq, Repr

/-- R95 first, then R97's ILLEGAL_OPERAND. `w1` is the word after `w0`; a word past the code section is 0 (R93). -/
def decodeWords (w0 w1 : Nat) : Decoded :=
  if fld w0 63 63 = 0 then .illegalOpcode 0
  else
    let r := Raw.ofWords w0 w1
    if !opAssigned r.op then .illegalOpcode r.op
    else if r.x = 1 && fld w1 63 63 = 1 then .illegalOpcode r.op
    else match decodeRaw r with
      | some i => if i.wf then .ok i else .illegalOperand r.op
      | none => .illegalOperand r.op

/-- A little-endian number from its bytes (R2). -/
def leNat (bs : List Byte) : Nat := bs.foldr (fun b n => b.toNat + 256 * n) 0

/-- The little-endian bytes of a number (R2). -/
def leBytes : Nat → Nat → List Byte
  | 0, _ => []
  | k + 1, n => BitVec.ofNat 8 n :: leBytes k (n / 256)

/-- Decoding any bytes: missing bytes read as 0 (R93). -/
def decodeBytes (bs : List Byte) : Decoded :=
  decodeWords (leNat (bs.take 8)) (leNat ((bs.drop 8).take 8))

/-- The host's question: the instruction whose first `nbits` bits are `w`, every higher bit 0. Bit 0 of `w` is the
least significant bit of word 0, bit 64 that of the extension word; the words are stored little-endian (R93). -/
def decodeTableWord (nbits w : Nat) : Option Instr :=
  match decodeBytes (leBytes 16 (w % 2 ^ nbits)) with
  | .ok i => some i
  | _ => none

/-! ## REP's stepped words (R110) -/

/-- Word 0 and the extension word of repeat `i`: each masked field carries its code plus i × step. C is MOD[14:5] of
layout A3, or C of the extension word. In layout P the predicate number of D steps. -/
def stepRaw (md ma mb mc : Bool) (a3 : Bool) (k : Nat) (r : Raw) : Raw :=
  { r with
    d := if md then r.d + k else r.d
    a := if ma then r.a + k else r.a
    b := if mb then r.b + k else r.b
    c := if mc && !a3 then r.c + k else r.c
    mod := if mc && a3 then r.mod + 32 * k else r.mod }

/-! ## The encoder, from the same tables -/

def rawH (op : Nat) (h : Hdr) : Raw := { op, s := bit1 h.safe, pg := h.p, pn := bit1 h.neg }

def rndCode (m : Rnd) : Nat := codeOf allRnd m
def tyCode (t : NumTy) : Nat := codeOf allTy t

/-- B with BI and X (R99): the BI bit stands at `pos` of the field the layout gives. -/
def BArg.bi : BArg → Nat
  | .opnd _ => 0
  | _ => 1
def BArg.bits : BArg → Nat
  | .opnd o => o.toCode
  | .imm10 i => i.toNat
  | .imm32 _ => 0
def BArg.imm : BArg → Nat
  | .imm32 i => i.toNat
  | _ => 0
def BArg.x : BArg → Nat
  | .imm32 _ => 1
  | _ => 0

def Off.x : Off → Nat
  | .imm32 _ => 1
  | .imm10 _ => 0
def Off.bits : Off → Nat
  | .imm10 i => i.toNat
  | .imm32 _ => 0
def Off.imm : Off → Nat
  | .imm32 i => i.toNat
  | .imm10 _ => 0

def optX : Option Word → Nat
  | some _ => 1
  | none => 0
def optImm : Option Word → Nat
  | some i => i.toNat
  | none => 0

/-- Layout A: `x3` is LA[17:15], `m7` is MOD[6:0]. -/
def rawA (op : Nat) (f : FormA) (x3 m7 : Nat) : Raw :=
  { rawH op f.hdr with
    x := f.b.x, d := f.d.toCode, a := f.a.toCode, b := f.b.bits, imm := f.b.imm
    la := pack [(3, x3), (1, f.b.bi)]
    mod := pack [(7, m7), (1, bit1 f.ftz), (3, rndCode f.rnd), (4, tyCode f.ty)] }

def rawA3 (op : Nat) (f : FormA3) (var m0 : Nat) : Raw :=
  { rawH op f.hdr with
    x := f.b.x, d := f.d.toCode, a := f.a.toCode, b := f.b.bits, imm := f.b.imm
    la := pack [(3, var), (1, f.b.bi)]
    mod := pack [(1, m0), (1, bit1 f.ftz), (3, rndCode f.rnd), (10, f.c.toCode)] }

/-- Layout P: `m2` is MOD[1:0]. -/
def rawP (op : Nat) (f : FormP) (m2 : Nat) : Raw :=
  { rawH op f.hdr with
    x := f.b.x, d := f.d, a := f.a.toCode, b := f.b.bits, imm := f.b.imm
    la := pack [(3, 0), (1, f.b.bi)]
    mod := pack [(2, m2), (2, codeOf allComb f.comb), (3, f.cp), (4, codeOf allCond f.cond), (4, tyCode f.ty)] }

/-- Layout B: `m4` is MOD[9:6], `m0` is MOD[0]. -/
def rawB (op : Nat) (f : FormB) (m4 m0 : Nat) : Raw :=
  { rawH op f.hdr with
    x := f.b.x, d := f.d.toCode, a := f.a.toCode, b := f.b.bits, imm := f.b.imm
    la := f.la
    mod := pack [(1, m0), (1, bit1 f.ftz), (1, bit1 f.sat), (3, rndCode f.rnd), (4, m4), (4, tyCode f.ty), (1, f.b.bi)] }

/-- Layout X: `m2` is MOD[1:0]. -/
def rawX (op : Nat) (f : FormX) (m2 : Nat) : Raw :=
  { rawH op f.hdr with
    d := f.d.toCode, a := f.a.toCode, b := f.b.toCode, la := f.la
    mod := pack [(2, m2), (1, bit1 f.ftz), (4, f.hb), (4, f.ha), (4, f.hd)] }

/-- Layout M: `m5` is MOD[4:0], `use` MOD[7:5], `scope` MOD[10:8]. -/
def rawM (op : Nat) (f : FormM) (m5 scope : Nat) : Raw :=
  { rawH op f.hdr with
    x := f.off.x, d := f.d.toCode, a := f.a.toCode, b := f.off.bits, imm := f.off.imm, la := f.la
    mod := pack [(5, m5), (3, 0), (3, scope), (4, tyCode f.ty)] }

def rawAt (op : Nat) (f : FormAt) (o : Nat) : Raw :=
  { rawH op f.hdr with
    x := optX f.off, imm := optImm f.off, d := f.d.toCode, a := f.a.toCode, b := f.b.toCode, la := f.la
    mod := pack [(1, 0), (4, o), (3, codeOf allUse f.use), (3, codeOf allScope f.scope), (4, tyCode f.ty)] }

def rawCp (op : Nat) (f : FormCp) : Raw :=
  { rawH op f.hdr with
    x := f.len.x, imm := f.len.imm, d := f.d.toCode, a := f.a.toCode, b := f.len.bits
    mod := pack [(8, f.len.bi), (3, codeOf allScope f.scope), (2, codeOf allSpace f.space), (2, 0)] }

/-- Layout K with a join register. -/
def jvMod (j : Option Nat) : Nat :=
  match j with
  | some k => pack [(11, 0), (3, k), (1, 1)]
  | none => 0

def hintCnt (h : Hint) (c : Nat) : Nat := pack [(1, 0), (2, codeOf allCnt c), (2, codeOf allHint h)]

/-- The fields of an instruction (Tables 7.1–7.8 and the reference tables). The steps and events have no encoding: they
carry the word 0 of no opcode, op 0x1FF. -/
def Instr.raw : Instr → Raw
  | .nop h => rawH 0x00 h
  | .bra h off j => match unpack [10, 10, 10] off.toNat with
    | [b, a, d] => { rawH 0x01 h with b := b, a := a, d := d, mod := jvMod j }
    | _ => rawH 0x01 h
  | .brx h a j => { rawH 0x02 h with a := a.toCode, mod := jvMod j }
  | .join h k => { rawH 0x03 h with mod := pack [(11, 0), (3, k)] }
  | .call h d off j => match unpack [10, 10] off.toNat with
    | [b, a] => { rawH 0x04 h with b := b, a := a, d := d.toCode, mod := jvMod j }
    | _ => rawH 0x04 h
  | .callx h d a j => { rawH 0x05 h with d := d.toCode, a := a.toCode, mod := jvMod j }
  | .ret h a j => { rawH 0x06 h with a := a.toCode, mod := jvMod j }
  | .yield h => rawH 0x07 h
  | .exit h => rawH 0x08 h
  | .bar h b => { rawH 0x09 h with mod := b }
  | .barc h => rawH 0x0A h
  | .launch h d a => { rawH 0x0B h with d := d.toCode, a := a.toCode }
  | .cwait h a => { rawH 0x0C h with a := a.toCode }
  | .regroup h a b n => { rawH 0x0D h with a := a.toCode, b := b.toCode, mod := n }
  | .sleep h b => { rawH 0x0E h with x := b.x, imm := b.imm, b := b.bits, mod := pack [(14, 0), (1, b.bi)] }
  | .tstamp h d => { rawH 0x0F h with d := d.toCode }
  | .srd h d n => { rawH 0x10 h with d := d.toCode, mod := n }
  | .swr h a n => { rawH 0x11 h with a := a.toCode, mod := n }
  | .trap h c => { rawH 0x12 h with b := c }
  | .tret h => rawH 0x13 h
  | .bkpt h c => { rawH 0x14 h with b := c }
  | .rep h md ma mb mc step count => { rawH 0x15 h with
      mod := pack [(6, count - 1), (5, step - 1), (1, bit1 mc), (1, bit1 mb), (1, bit1 ma), (1, bit1 md)] }
  | .setprio h b => { rawH 0x16 h with b := b.bits, mod := pack [(14, 0), (1, b.bi)] }
  | .dgst h a t c => { rawH 0x17 h with a := a.toCode, b := t.bits, mod := pack [(6, c - 1), (8, 0), (1, t.bi)] }
  | .mov f k => rawA 0x20 f 0 (codeOf allKind k)
  | .sel f ps neg => rawA 0x22 f ps (bit1 neg)
  | .iaddc f pi po sub ci0 => rawA 0x25 f pi (pack [(2, 0), (1, bit1 ci0), (1, bit1 sub), (3, po)])
  | .fsh f right => rawA3 0x36 f 0 (bit1 right)
  | .lea f s signed => rawA3 0x3E f s (bit1 signed)
  | .icmp f => rawP 0x3F f (bit1 f.cneg)
  | .plop h d pa pb pc t => { rawH 0x40 h with
      x := t.x, imm := t.imm, d := d, a := pa, b := t.bits, la := pack [(3, pc), (1, t.bi)], mod := pack [(4, 0), (3, pb)] }
  | .pmov f all => rawP 0x41 f (bit1 all)
  | .lpick f pv seg m => rawA 0x42 f pv (pack [(2, codeOf allPick m), (3, seg)])
  | .lpoll f pa pq m => { rawA 0x43 f pq (codeOf allPoll m) with a := pa }
  | .lfold f o => rawA 0x44 f 0 (codeOf allFold o)
  | .scan f o excl seg pg => rawA 0x45 f pg (pack [(3, codeOf allFold o), (1, bit1 excl), (1, bit1 seg)])
  | .lpeer f pe => rawA 0x46 f pe 0
  | .lsend f pv => rawA 0x48 f pv 0
  | .wmov f j m => rawA 0x49 f 0 (pack [(4, codeOf allWmov m), (3, j)])
  | .ld f h c => rawM 0x4A f (hintCnt h c) 0
  | .st f h c => rawM 0x4B f (hintCnt h c) 0
  | .lds f c => rawM 0x4C f (hintCnt .normal c) 0
  | .sts f c => rawM 0x4D f (hintCnt .normal c) 0
  | .ldc f c => rawM 0x4E f (hintCnt .normal c) 0
  | .stc f c => rawM 0x4F f (hintCnt .normal c) 0
  | .ldl f c => rawM 0x50 f (hintCnt .normal c) 0
  | .stl f c => rawM 0x51 f (hintCnt .normal c) 0
  | .ldw f h c => rawM 0x52 f (hintCnt h c) 0
  | .pref f l2 => rawM 0x53 f (pack [(3, 0), (2, bit1 l2)]) 0
  | .fcmp f => rawP 0x65 f (pack [(1, bit1 f.cneg), (1, bit1 f.ftz)])
  | .fclass f => rawP 0x66 f (pack [(1, bit1 f.cneg), (1, bit1 f.ftz)])
  | .frnd f m => rawA 0x67 f 0 (codeOf allFrnd m)
  | .dcmp f => rawP 0x6E f (bit1 f.cneg)
  | .cvt f s => rawB 0x80 f (tyCode s) 0
  | .cvtblk f s => rawB 0x81 f (tyCode s) 0
  | .srseed f w => rawB 0x82 f 0 (bit1 w)
  | .iadd f => rawA 0x23 f 0 0
  | .isub f => rawA 0x24 f 0 0
  | .imul f => rawA 0x26 f 0 0
  | .imulh f => rawA 0x27 f 0 0
  | .imin f => rawA 0x2A f 0 0
  | .imax f => rawA 0x2B f 0 0
  | .iabs f => rawA 0x2C f 0 0
  | .and f => rawA 0x2D f 0 0
  | .or f => rawA 0x2E f 0 0
  | .xor f => rawA 0x2F f 0 0
  | .andn f => rawA 0x30 f 0 0
  | .not f => rawA 0x31 f 0 0
  | .shl f => rawA 0x32 f 0 0
  | .shr f => rawA 0x33 f 0 0
  | .sar f => rawA 0x34 f 0 0
  | .rotl f => rawA 0x35 f 0 0
  | .popc f => rawA 0x37 f 0 0
  | .clz f => rawA 0x38 f 0 0
  | .ctz f => rawA 0x39 f 0 0
  | .brev f => rawA 0x3A f 0 0
  | .bfx f => rawA 0x3B f 0 0
  | .rdfl f => rawA 0x47 f 0 0
  | .movi f => rawA 0x21 f 0 0
  | .fadd f => rawA 0x60 f 0 0
  | .fmul f => rawA 0x61 f 0 0
  | .fmin f => rawA 0x63 f 0 0
  | .fmax f => rawA 0x64 f 0 0
  | .fscl f => rawA 0x68 f 0 0
  | .dadd f => rawA 0x69 f 0 0
  | .dmul f => rawA 0x6A f 0 0
  | .dmin f => rawA 0x6C f 0 0
  | .dmax f => rawA 0x6D f 0 0
  | .duoadd f => rawA 0x6F f 0 0
  | .duomul f => rawA 0x70 f 0 0
  | .imad f => rawA3 0x28 f (codeOf ints f.ty) 0
  | .imadw f => rawA3 0x29 f (codeOf [.i32, .u32] f.ty) 0
  | .bfi f => rawA3 0x3C f (codeOf ints f.ty) 0
  | .bperm f => rawA3 0x3D f (codeOf ([] : List NumTy) f.ty) 0
  | .ffma f => rawA3 0x62 f (codeOf [.f32] f.ty) 0
  | .dfma f => rawA3 0x6B f (codeOf [.f64] f.ty) 0
  | .duofma f => rawA3 0x71 f (codeOf [.f16, .bf16] f.ty) 0
  | .fdiv f => rawB 0x72 f 0 0
  | .fsqrt f => rawB 0x73 f 0 0
  | .ddiv f => rawB 0x74 f 0 0
  | .dsqrt f => rawB 0x75 f 0 0
  | .rcp f => rawB 0x76 f 0 0
  | .rsq f => rawB 0x77 f 0 0
  | .exp2 f => rawB 0x78 f 0 0
  | .log2 f => rawB 0x79 f 0 0
  | .sin f => rawB 0x7A f 0 0
  | .cos f => rawB 0x7B f 0 0
  | .tanh f => rawB 0x7C f 0 0
  | .luta f => rawB 0x7D f 0 0
  | .lutld f => rawB 0x7E f 0 0
  | .lutsync f => rawB 0x7F f 0 0
  | .mzero f => rawX 0x96 f 0
  | .mcopy f => rawX 0x97 f 0
  | .mtrn f => rawX 0x98 f 0
  | .mscal f => rawX 0x9A f 0
  | .mmul f => rawX 0x9B f 0
  | .mma f => rawX 0x9C f 0
  | .mchol f => rawX 0xA0 f 0
  | .minv f => rawX 0xA2 f 0
  | .mdet f => rawX 0xA3 f 0
  | .mexp f => rawX 0xA4 f 0
  | .lvmem f => rawX 0xA9 f 0
  | .lvctl f => rawX 0xAC f 0
  | .mshape f ext imm => { rawX 0x90 f (pack [(1, optX imm), (1, bit1 ext)]) with x := optX imm, imm := optImm imm }
  | .mqry f m => rawX 0x91 f (codeOf allQry m)
  | .mld f h off => { rawX 0x92 f (codeOf allHint h) with x := optX off, imm := optImm off }
  | .mst f h off rnd sat => { rawX 0x93 f (codeOf allHint h) with
      x := optX off, imm := optImm off, xmod := pack [(3, 0), (1, bit1 sat), (3, rndCode rnd)] }
  | .mlds f m off => { rawX 0x94 f (codeOf allMSpace m) with x := optX off, imm := optImm off }
  | .msts f m off => { rawX 0x95 f (codeOf allMSpace m) with x := optX off, imm := optImm off }
  | .madd f sub => rawX 0x99 f (bit1 sub)
  | .mmt f self acc => rawX 0x9D f (pack [(1, bit1 self), (1, bit1 acc)])
  | .mspma f c p => { rawX 0x9E f 0 with x := 1, c := c.toCode, xmod := codeOf allSp p }
  | .mlu f c => { rawX 0x9F f 0 with x := 1, c := c.toCode }
  | .mtrs f upper unit t => { rawX 0xA1 f (pack [(1, bit1 upper), (1, bit1 unit)]) with
      x := (match t with | some _ => 1 | none => 0), xmod := (match t with | some b => bit1 b | none => 0) }
  | .mrefine f lu c e hc => { rawX 0xA5 f (bit1 lu) with x := 1, c := c.toCode, e := e.toCode, hc := hc }
  | .mnorm f k => rawX 0xA6 f (codeOf allNorm k)
  | .mcvt f ext => { rawX 0xA7 f 0 with
      x := (match ext with | some _ => 1 | none => 0)
      xmod := (match ext with | some (m, s) => pack [(3, 0), (1, bit1 s), (3, rndCode m)] | none => 0) }
  | .lvorg f c => { rawX 0xA8 f 0 with x := 1, c := c.toCode }
  | .lveps f eps => rawX 0xAA f (bit1 eps)
  | .lvgrad f c hc => { rawX 0xAB f 0 with x := 1, c := c.toCode, hc := hc }
  | .lda f s => rawM 0xC0 f 0 (codeOf allScope s)
  | .strl f s => rawM 0xC1 f 0 (codeOf allScope s)
  | .acqr f s => rawM 0xC2 f 0 (codeOf allScope s)
  | .fence h s => { rawH 0xC3 h with mod := pack [(8, 0), (3, codeOf allScope s)] }
  | .atom f o => rawAt 0xC4 f (codeOf allAtomOp o)
  | .atomc f c => { rawAt 0xC5 f 0 with c := c.toCode }
  | .red f o => rawAt 0xC6 f (codeOf allAtomOp o)
  | .cpy f => rawCp 0xC7 f
  | .cps f => rawCp 0xC8 f
  | .cpt f sto box => { rawCp 0xC9 f with
      x := 1, imm := box.toNat
      mod := pack [(8, bit1 sto), (3, codeOf allScope f.scope), (2, codeOf allSpace f.space), (2, 0)] }
  | .cpclose h d la => { rawH 0xCA h with d := d.toCode, la := la }
  | .cpwait h a => { rawH 0xCB h with a := (match a with | some o => o.toCode | none => 0), mod := bit1 a.isNone }
  | .cptest h d a la => { rawH 0xCC h with
      d := d.toCode, a := (match a with | some o => o.toCode | none => 0), la := la, mod := bit1 a.isNone }
  | .tdesc h d a la => { rawH 0xCD h with d := d.toCode, a := a.toCode, la := la }
  | .tdfree h a => { rawH 0xCE h with a := a.toCode }
  | .tqinit h k a depth => { rawH 0xCF h with a := a.toCode, mod := pack [(4, 0), (4, k), (1, 0), (6, depth - 1)] }
  | .qpush h k a => { rawH 0xD0 h with a := a.toCode, mod := pack [(4, 0), (4, k)] }
  | .qpop h d k la => { rawH 0xD1 h with d := d.toCode, la := la, mod := pack [(4, 0), (4, k)] }
  | .qtry h d k pq la => { rawH 0xD2 h with d := d.toCode, la := la, mod := pack [(3, pq), (1, 0), (4, k)] }
  | .qgrant h k a b => { rawH 0xD3 h with a := a.toCode, b := b.toCode, mod := pack [(4, 0), (4, k)] }
  | .wcfg h s a b => { rawH 0xD4 h with a := a.toCode, b := b.toCode, mod := s }
  | .wstart h s => { rawH 0xD5 h with mod := s }
  | .wstop h s => { rawH 0xD6 h with mod := s }
  | .wstat h d s la => { rawH 0xD7 h with d := d.toCode, la := la, mod := s }
  | _ => { op := 0x1FF }

/-- The major opcode (Table 7.8); above 0xFF for a step or event. -/
def Instr.op (i : Instr) : Nat := i.raw.op

/-- Does the instruction have an encoding (is it one of the 164 forms)? -/
def Instr.isForm (i : Instr) : Bool := i.op < 256

/-- 8 bytes with X = 0 and 16 with X = 1 (R93). -/
def Instr.len (i : Instr) : Nat := if i.raw.x = 1 then 16 else 8

/-- The words of a well-formed instruction form. -/
def encode (i : Instr) : List Nat := i.raw.words

/-- The bytes of a well-formed instruction form, as the code section holds them (R93). -/
def encodeBytes (i : Instr) : List Byte := (encode i).flatMap (leBytes 8)

/-- The issue port of an opcode's layout (R100): 0 A, 1 B, 2 C. A word that is no instruction is offered on C (R95). -/
def portOf (op : Nat) : Nat :=
  if 0x20 ≤ op && op < 0x4A then 0
  else if 0x60 ≤ op && op < 0x72 then 0
  else if 0x72 ≤ op && op < 0x83 then 1
  else if 0x90 ≤ op && op < 0xAD then 1
  else 2

end Sys2Proof
end

