-- ==== Sys2Proof/Machine/Shape.lean ====
section
/-! DEFINITION. Shapes and formats of matrices, and where their elements lie in registers and in memory (R62–R66, R76, R77,
R194, R198). -/
namespace Sys2Proof

/-- The formats of Table 4.4, in code order. -/
inductive MFmt
  | f32 | f64 | f16 | bf16 | e4m3 | e5m2 | nx8 | nx4 | pw32 | pw16
  deriving DecidableEq, Repr, Inhabited

def allMFmt : List MFmt := [.f32, .f64, .f16, .bf16, .e4m3, .e5m2, .nx8, .nx4, .pw32, .pw16]
/-- Element width in registers (Table 4.4). -/
def MFmt.bits : MFmt → Nat
  | .f64 => 64
  | .f32 | .pw32 => 32
  | .f16 | .bf16 | .pw16 => 16
  | .e4m3 | .e5m2 | .nx8 => 8
  | .nx4 => 4
/-- Element width in memory, in bytes (R198); blocks are laid out by bytes. -/
def MFmt.bytes : MFmt → Nat
  | .f64 => 8
  | .f32 | .pw32 => 4
  | .f16 | .bf16 | .pw16 => 2
  | _ => 1
def MFmt.isNx (f : MFmt) : Bool := f == .nx8 || f == .nx4
def MFmt.isPw (f : MFmt) : Bool := f == .pw32 || f == .pw16
/-- The element format; those of the block formats are in Machine/Quant.lean. -/
def MFmt.fmt : MFmt → Fmt
  | .f64 => fmt64
  | .f16 => fmt16
  | .bf16 => fmtBf
  | .e4m3 | .nx8 => fmtE4
  | .e5m2 => fmtE5
  | .nx4 => fmtE2
  | _ => fmt32

/-- Word 0 of a descriptor (Table 4.2). `fmt` is none for a reserved code. -/
structure Shape where
  rows : Nat
  cols : Nat
  fmt? : Option MFmt
  byCol : Bool
  extent : Nat
  soff : Nat
  deriving DecidableEq, Repr, Inhabited

def shapeOf (w : Nat) : Shape :=
  { rows := w % 16 + 1, cols := w / 2 ^ 4 % 16 + 1, fmt? := allMFmt[w / 2 ^ 8 % 16]?, byCol := w / 2 ^ 12 % 2 = 1
    extent := w / 2 ^ 13 % 2 ^ 10, soff := w / 2 ^ 23 % 2 ^ 9 }

namespace Shape
def fmt (s : Shape) : MFmt := s.fmt?.getD .f32
/-- R64: the lines, the elements of a line, and the registers that a line takes. -/
def lines (s : Shape) : Nat := if s.byCol then s.cols else s.rows
def len (s : Shape) : Nat := if s.byCol then s.rows else s.cols
def perLine (s : Shape) : Nat := ceilDiv (s.len * s.fmt.bits) 32
def data (s : Shape) : Nat := s.lines * s.perLine
def elems (s : Shape) : Nat := s.rows * s.cols
/-- R65: blocks and the registers of the scale group. -/
def blocks (s : Shape) : Nat := ceilDiv s.elems 32
def group (s : Shape) : Nat :=
  match s.fmt with
  | .nx4 => ceilDiv s.blocks 2
  | .nx8 => ceilDiv s.blocks 4
  | _ => 0
/-- R197, REGS. -/
def occupies (s : Shape) : Nat := if s.fmt.isNx then s.soff + s.group else s.data
/-- One past the last register that R64 and R65 place. -/
def foot (s : Shape) : Nat := max s.data s.occupies
/-- R66: does the shape fit its extent? -/
def fits (s : Shape) : Bool :=
  decide (s.data ≤ s.extent) && (!s.fmt.isNx || (decide (s.data ≤ s.soff) && decide (s.soff + s.group ≤ s.extent)))
/-- The number of the element at a row and column, in line order (R65). -/
def num (s : Shape) (r c : Nat) : Nat := if s.byCol then c * s.rows + r else r * s.cols + c
def row (s : Shape) (e : Nat) : Nat := if s.byCol then e % s.rows else e / s.cols
def col (s : Shape) (e : Nat) : Nat := if s.byCol then e / s.rows else e % s.cols
/-- The first bit of element `e`, counted from the base register. -/
def bitOf (s : Shape) (e : Nat) : Nat := e / s.len * s.perLine * 32 + e % s.len * s.fmt.bits
end Shape

/-- The encodings of a matrix by element number, and of its blocks' scales and specials. -/
structure RawM where
  codes : List Nat
  scales : List Nat := []
  specials : List Nat := []
  deriving DecidableEq, Repr, Inhabited

/-- The bits at a bit offset of the registers that `rd` gives, `w` of them, all in one register or in a pair. -/
def bitsAt (rd : Nat → Nat) (at_ w : Nat) : Nat :=
  if w = 64 then rd (at_ / 32) + 2 ^ 32 * rd (at_ / 32 + 1) else rd (at_ / 32) / 2 ^ (at_ % 32) % 2 ^ w

/-- A matrix as it lies in registers (R64, R65); `rd` reads a register by its offset from the base. -/
def Shape.readRaw (s : Shape) (rd : Nat → Nat) : RawM :=
  { codes := (List.range s.elems).map (fun e => bitsAt rd (s.bitOf e) s.fmt.bits)
    scales := match s.fmt with
      | .nx4 => (List.range s.blocks).map (fun q => bitsAt rd (32 * s.soff + 16 * q) 8)
      | .nx8 => (List.range s.blocks).map (fun q => bitsAt rd (32 * s.soff + 8 * q) 8)
      | _ => []
    specials := match s.fmt with
      | .nx4 => (List.range s.blocks).map (fun q => bitsAt rd (32 * s.soff + 16 * q + 8) 8)
      | _ => [] }

/-- Register `o` of the data of a matrix: the elements of its line that lie in it; the rest is 0 (R64). -/
def Shape.dataReg (s : Shape) (m : RawM) (o : Nat) : Nat :=
  let line := o / s.perLine
  let first := o % s.perLine
  if s.fmt.bits = 64 then m.codes.getD (line * s.len + first / 2) 0 / 2 ^ (32 * (first % 2)) % 2 ^ 32
  else
    let w := s.fmt.bits
    let epr := 32 / w
    (List.range epr).foldl (fun x i =>
      let j := first * epr + i
      if j < s.len then x + m.codes.getD (line * s.len + j) 0 % 2 ^ w * 2 ^ (w * i) else x) 0

/-- Register `o` of the scale group (R65). -/
def Shape.groupReg (s : Shape) (m : RawM) (o : Nat) : Nat :=
  match s.fmt with
  | .nx4 => (List.range 2).foldl (fun x i =>
      x + (m.scales.getD (2 * o + i) 0 % 256 + m.specials.getD (2 * o + i) 0 % 256 * 256) * 2 ^ (16 * i)) 0
  | _ => (List.range 4).foldl (fun x i => x + m.scales.getD (4 * o + i) 0 % 256 * 2 ^ (8 * i)) 0

/-- What writing a matrix writes: offsets from the base with their values (R64, R65, R194). Where a scale group from a kernel's header lies
among the data, its value stands (log 111). -/
def Shape.regs (s : Shape) (m : RawM) : List (Nat × Nat) :=
  (List.range s.data).map (fun o => (o, s.dataReg m o)) ++ (List.range s.group).map (fun o => (s.soff + o, s.groupReg m o))

/-- A matrix from the bytes of its footprint, in order (R76, R77, R198). -/
def fromBytes (s : Shape) (bs : List Byte) : RawM :=
  match s.fmt with
  | .nx4 =>
    let at_ (i : Nat) : Nat := (bs.getD i 0).toNat
    { codes := (List.range s.elems).map (fun e => at_ (18 * (e / 32) + e % 32 / 2) / 16 ^ (e % 2) % 16)
      scales := (List.range s.blocks).map (fun q => at_ (18 * q + 16))
      specials := (List.range s.blocks).map (fun q => at_ (18 * q + 17)) }
  | .nx8 =>
    let at_ (i : Nat) : Nat := (bs.getD i 0).toNat
    { codes := (List.range s.elems).map (fun e => at_ (33 * (e / 32) + e % 32))
      scales := (List.range s.blocks).map (fun q => at_ (33 * q + 32)) }
  | f => { codes := (List.range s.elems).map (fun e => leNat ((bs.drop (f.bytes * e)).take f.bytes)) }

end Sys2Proof
end

