-- ==== Sys2Proof/Config.lean ====
section
/-! DEFINITION. What an implementation fixes and what the spec leaves open: constants without a body, of which nothing
can be proved (log 1, log 2, log 6, log 7). A statement that uses one holds for every value of it. -/
namespace Sys2Proof

/-- What takes the next step of the module (log 1, DESIGN CHOICE): a core's clock comes about, or a cluster's, the time stamp advances,
or one of the steps and events of the table takes place. A clock of a core is a run of turns that nothing comes between (log 5): it
begins, each port of its partitions may issue (R323, R324), and it ends. -/
inductive Turn
  | clk (core : Nat)
  | begin_ (core : Nat)
  | port (part port : Nat)
  | edge (core : Nat)
  | cclk (cluster : Nat)
  | gts
  | take (i : Instr)
  deriving DecidableEq, Repr, Inhabited

/-- The order in which agents act, where no agenda fixes it: the free schedule (log 1). -/
opaque Config.turn : Nat → Turn

/-- At most so many turns of the free schedule pass before one is given to what R311 says comes about after finitely many steps (log
1). -/
opaque Config.patience : Nat

/-- A free value for each value of the state's counter (log 2): every value the spec leaves undefined. -/
opaque Config.free : Nat → Nat

/-- A free byte for each value of the state's counter and each place (log 2): bytes that the device writes and whose
contents the spec does not give. -/
opaque Config.freeByte : Nat → Nat → BitVec 8

/-- The context whose grids launch queue `q` holds: the spec names "the grid's context" (R316) and no field that gives
it (log 7). -/
opaque Config.queueContext : Nat → Nat

/-- Is the firmware image signed by the key fused at manufacture (R387)? What manufacture fixes has no body (log 86). -/
opaque Config.firmwareGenuine : Bool
/-- The firmware image, whose SHA-512 ATTEST reports (R387; log 86). -/
opaque Config.firmwareImage : List (BitVec 8)
/-- The identity key's signature over the hash and the nonce, r then s (R387): its 132 bytes by position (log 86). -/
opaque Config.attestSignature : List (BitVec 8) → List (BitVec 8) → Nat → BitVec 8
/-- The soft-error count fused for a cluster (false) or stack (true) that raises replace-me (R388; log 86). -/
opaque Config.errorThreshold : Bool → Nat → Nat
/-- The place of the shadow entry that an element address is found at (R373: "found by address"). -/
opaque Config.shadowPlace : Nat → Nat → Nat

/-- Which warp slot's register a register of a partition's register file is: partition, register number v of Table 20.2;
the answer is the slot and the V register (R279: the spec gives no placement; log 11). -/
opaque Config.regPlace : Nat → Nat → Nat × Nat

end Sys2Proof
end

