-- ==== Sys2Proof/Machine/Sparse.lean ====
section
/-! DEFINITION. Sparse tables: lists of (key, value) with keys strictly rising. Memory and the register files are
tables in which no entry equals what an unlisted key reads as, so that equal contents are equal lists. -/
namespace Sys2Proof.Machine

/-- A table from numbers to values. -/
abbrev SMap (α : Type) := List (Nat × α)

namespace Table

/-- The entry at a key. -/
def find {α : Type} : SMap α → Nat → Option α
  | [], _ => none
  | (k, v) :: r, i => if i = k then some v else find r i

/-- The entry at a key, or what an unlisted key reads as. -/
def get {α : Type} (d : α) (m : SMap α) (i : Nat) : α := (find m i).getD d

/-- The table with the entry at a key put in its place. -/
def put {α : Type} : SMap α → Nat → α → SMap α
  | [], i, x => [(i, x)]
  | (k, v) :: r, i, x =>
    if i = k then (k, x) :: r else if i < k then (i, x) :: (k, v) :: r else (k, v) :: put r i x

/-- The table without the entry at a key. -/
def drop {α : Type} (m : SMap α) (i : Nat) : SMap α := m.filter (fun e => e.1 ≠ i)

/-- A write that keeps the canonical form: the default value leaves no entry. -/
def set {α : Type} [DecidableEq α] (d : α) (m : SMap α) (i : Nat) (x : α) : SMap α :=
  if x = d then drop m i else put m i x

/-- Keys strictly rising. -/
def sorted {α : Type} : SMap α → Bool
  | [] => true
  | [_] => true
  | (k, _) :: (k', v') :: r => k < k' && sorted ((k', v') :: r)

/-- The canonical form: keys strictly rising, no entry equal to the default. -/
def canonical {α : Type} [DecidableEq α] (d : α) (m : SMap α) : Bool := sorted m && m.all (fun e => e.2 ≠ d)

/-- The values of a table with their keys, changed one by one (keys kept). -/
def mapVal {α : Type} (f : Nat → α → α) (m : SMap α) : SMap α := m.map (fun e => (e.1, f e.1 e.2))

end Table

/-- An element before the first one that it does not come after. -/
def insertBy {α : Type} (le : α → α → Bool) (x : α) : List α → List α
  | [] => [x]
  | y :: r => if le x y then x :: y :: r else y :: insertBy le x r

/-- A list in order; equal elements keep theirs. -/
def sortBy {α : Type} (le : α → α → Bool) (l : List α) : List α := l.foldr (insertBy le) []

/-- Numbers in ascending order, once each. -/
def ascending (l : List Nat) : List Nat := sortBy (fun a b => decide (a ≤ b)) l.eraseDups

end Sys2Proof.Machine
end

