-- ==== Sys2Proof/Machine/State.lean ====
section
/-! DEFINITION. The state of the module as plain data: everything that INVENTORY.md lists under '## State', the reasons
a step can stop, and the state right after reset. -/
namespace Sys2Proof.Machine

/-- Why the machine stops.  Raised by the device's own reads and writes (rings, headers, records, page-table roots that
the host names): the spec gives them no outcome at a physical address it says does not exist (R277; log 8). Safe: the
model stops where hardware may go on. -/
inductive Fault
  | unassignedAddress (pa : Nat)
  deriving DecidableEq, Repr

/-- Why an instruction has no meaning. `notModelled` is raised by an arm of exec that is not written yet. Safe: nothing
is claimed of it. -/
inductive Refusal
  | notModelled (mnemonic : String)
  deriving DecidableEq, Repr

/-- The causes a slot that does not issue is charged to, in code order from 3 (Tables 28.1, 28.2). -/
inductive Cause
  | regWait | memWait | portLost | cellBusy | unitBusy | shutter | stretch | ifetch | frontSwitch | joinWait | barWait
  | queueWait | copyWait | fenceWait | tlbWait | faultWait | childWait | sleep | louvreWait | traceStall | detWait
  | noWarp | switching | unowned | priorityDefer
  deriving DecidableEq, Repr, Inhabited

/-- The trap causes of Table 26.2, in code order from 1. -/
inductive TrapCause
  | illegalOpcode | illegalOperand | illegalTarget | misaligned | accessViolation | latchConflict | staleHandle
  | shapeOverflow | singular | fpInvalid | fpDivzero | fpOverflow | fpUnderflow | fpInexact | detViolation | queueMisuse
  | nestDepth | trap | breakpoint | keyhole
  deriving DecidableEq, Repr, Inhabited

/-! ## Threads and warps -/

/-- A thread's state (Table 2.2) with what its blocking instruction recorded: the join register, the barrier and the
generation, the grids waited for, the queue, the deposit, the batch number, the wake-up time and the next PC. -/
inductive TState
  | ready
  | join (k : Nat)
  | tret
  | bar (b e : Nat)
  | barc (e : Nat)
  | cwait (grids : List Nat)
  | queue (k : Nat)
  | regroup (key : Nat) (payload : List Word)
  | copy (n : Nat)
  | sleep (wake len : Nat)
  | exited
  | deposited
  deriving DecidableEq, Repr, Inhabited

/-- The per-thread registers that are not in the register files (Tables 4.1, 4.6): the PC (a byte offset in the code
section), the remaining REP count and whether the thread stands inside a REP (R26, R111), predicates (bit 7 is P7, true
always), SR_FPF and SR_LVMEM. The default is a lane that holds no thread. -/
structure Thread where
  pc : Nat := 0
  rep : Nat := 0
  inRep : Bool := false
  st : TState := .exited
  preds : BitVec 8 := 0x80
  fpf : Word := 0
  lvmem : Word := 0
  deriving DecidableEq, Repr, Inhabited

/-- A register write still to be made by a long-latency instruction (R106, R227). -/
inductive RegW
  | v (lane reg : Nat) (x : Word)
  | w (reg : Nat) (x : Word)
  | p (lane pred : Nat) (b : Bool)
  deriving DecidableEq, Repr

/-- One lane's element of a load in flight: where its bytes go (R166). `loads` are the identifiers of its loads, one per
byte, lowest address first; `va` is the element's global address (0 for another space), which an acquire's stamp names. -/
structure LoadItem where
  lane : Nat
  va : Nat := 0
  dst : Opnd
  ty : NumTy
  cnt : Nat
  loads : List Nat
  deriving DecidableEq, Repr, Inhabited

/-- What a long-latency instruction still has to do beside its register writes. A matrix load's items are a lane, the base
register, word 0 of the shape it was issued with, and the loads of its footprint, one a byte, in the order of memory. -/
inductive FKind
  | plain
  | load (items : List LoadItem)
  | acquire (scope : Scope) (items : List LoadItem)
  | matrixLoad (items : List (Nat × Nat × Nat × List Nat))
  | fence (scope : Scope)
  | atomic (dst : Opnd) (ty : NumTy)
  | lutld (loads : List Nat)
  | lutsync
  | matrix
  deriving DecidableEq, Repr

/-- A long-latency instruction in flight (R106, R107). `win` is the window left of each issuing lane, `due` the first clock of the core in
which Table 24.5 lets it complete, `front` and `ret` what a flag trap at its completion records (R144, R330: as in `PendTrap.ret`). `at_`
is the clock of its issue, `born` its time stamp and `notBefore` the one at which it may complete (R275), `safe` and `dist` its position
(R350), and `sr` says that it steps the generator (R89). `cc` are the clocks of its cluster that are still to pass before the clocks of its
core count again (R12, R275). `dests` are the registers still to be written, by lane (32 for W
registers), `kept` those of them that an instruction of the window has written since and that keep that value (R106). -/
structure Flight where
  id : Nat
  op : Nat
  pc : Nat
  lanes : Mask
  front : Mask
  win : SMap Nat
  due : Nat
  cc : Nat := 0
  writes : List RegW := []
  dests : List (Nat × Nat) := []
  kept : List (Nat × Nat) := []
  raised : List (Nat × Nat) := []
  kind : FKind := .plain
  ret : List (Nat × Nat × Nat × Bool)
  order : Nat
  at_ : Nat := 0
  born : Nat := 0
  notBefore : Nat := 0
  safe : Option Nat := none
  dist : Nat := 0
  sr : Bool := false
  deriving DecidableEq, Repr

/-- A result of a deterministic grid that a flight has given inside its window, where a read still gives the old value (R106, R372,
log 68): the issue of its instruction, and the issues that are left of each lane's window. -/
structure Deferred where
  order : Nat
  write : RegW
  win : SMap Nat
  deriving DecidableEq, Repr

/-- What TRET resumes (Table 26.2). -/
inductive RetKind
  | next | reissue | replay
  deriving DecidableEq, Repr, Inhabited

/-- The trap in progress of a warp (R331): the handler front, each lane's return point, what TRET does there, and for a
replay the lanes active at the instruction's issue and the generator's state that it began from (R89, R144). -/
structure TrapRec where
  lanes : Mask
  ret : List (Nat × Nat × Nat × Bool)
  kind : RetKind
  replay : Option (Mask × DWord)
  cause : TrapCause
  deriving DecidableEq, Repr

/-- A trap raised and not entered yet: entry waits for the loads and atomics of R308. -/
structure PendTrap where
  cause : TrapCause
  code : Nat
  op : Nat
  planes : Mask
  front : Mask
  ret : List (Nat × Nat × Nat × Bool)
  kind : RetKind
  replay : Option (Mask × DWord)
  deriving DecidableEq, Repr

/-- A memory instruction to be replayed (R144): its code offset, the lanes that resume there, those of its first issue that were
active, and the generator's state that its draw comes from (R89). -/
structure Replay where
  pc : Nat
  lanes : Mask
  active : Mask
  seed : DWord
  deriving DecidableEq, Repr

/-- Why a save is due (R336). -/
inductive SaveWhy
  | child | switch | stop
  deriving DecidableEq, Repr, Inhabited

/-- What the hardware records of a warp that is being saved or restored (R338, R340); `stopped` is a debug stop that lasts (R335). -/
structure Frozen where
  threads : SMap Thread
  trap : Option TrapRec
  stopped : Option TrapRec := none
  done : Mask
  rot : Nat
  cur : Option Mask
  choosing : Option (Option Mask) := none
  deriving DecidableEq, Repr

/-- A save (or restore) in progress: the routines still to run, each with its entry and its front, the lanes of the one
running, and what was recorded. -/
structure Routine where
  restore : Bool
  mask : Mask
  todo : List (Nat × Mask)
  frozen : Frozen
  deriving DecidableEq, Repr

/-- Where a warp stands between its slot and memory (R25, R338, R340). -/
inductive Resid
  | resident
  | busy (r : Routine)
  | saved (f : Frozen)
  deriving DecidableEq, Repr

/-- A Wicket stream (R272): 0 UNCONFIGURED, 1 STOPPED, 2 RUNNING, 3 DONE, 4 FAULT. -/
inductive StreamSt
  | unconfigured | stopped | running | done | fault
  deriving DecidableEq, Repr, Inhabited

/-- `waits` is the absent page that its next entry waits for (R285), `early` the bytes read ahead, by address (R274). -/
structure Stream where
  st : StreamSt := .unconfigured
  desc : List (BitVec 8) := []
  popped : Nat := 0
  queued : Nat := 0
  waits : Option (Nat × Nat) := none
  early : SMap (BitVec 8) := []
  cause : TrapCause := .illegalOperand
  bad : Mask := 0
  deriving DecidableEq, Repr, Inhabited

/-- An atomic that a branch performed ahead for a lane (R306): the code offset of its instruction, and how many repeats are left when it is one
of a REP (0: none of them), where the branch ran (`Warp.level`), the number under which the old value comes back, and that value once it has. -/
structure Early where
  lane : Nat
  at_ : Nat
  rep : Nat := 0
  level : Nat := 0
  id : Nat
  old : Option Nat := none
  deriving DecidableEq, Repr, Inhabited

/-- What a walk ends in: a leaf (its entry and level), an entry with V = 0, or a malformed entry and its level (R281, R282). -/
inductive Walk
  | leaf (e level : Nat)
  | unmapped
  | malformed (level : Nat)
  deriving DecidableEq, Repr

/-- A warp (Tables 4.1, 4.6; R25–R31). `switching` holds through the clock that a front switch costs, and `aged` says that
this clock has begun (R31); `last` is 1 more than the core clock of its last issue (R323). `wait` and `waitPage` say why its
next instruction could not issue when it was last offered; `order` counts its issues, and `lat` holds the registers whose last
write a dependent may read only from a clock of the core on (Table 24.5): named as `RegW.dest` names them, 96 for a J register,
97 for a special register (SR_LVMEM is 160 above the lane), 98 for a lane's next issue, 99 for the activation table, and 256 above for a quotient or root that the
divide unit has forwarded (Table 13.3). `passKeyhole` are the lanes that pass the
Keyhole once, each with its `Warp.level` and its PC (R329); `choosing` holds while a front is still to be chosen, with the one that was left (R31, R336);
`access` are the lanes whose access has met an absent page and has neither gone on nor trapped (R285); `missing` and `walked` are the
pages, by their first address, whose walks an access waits for, and what the walks have ended in (R283). `det` says that its grid is
deterministic. -/
structure Warp where
  team : Nat
  num : Nat
  part : Nat
  slot : Nat
  threads : SMap Thread := []
  vregs : SMap Word := []
  wregs : SMap Word := []
  jregs : SMap Word := []
  hregs : SMap (BitVec 96) := []
  oqs : SMap (List (List Word)) := []
  streams : SMap Stream := []
  fpctl : Word := 0
  lvctl : Word := 0
  srstate : DWord := 0x2545F4914F6CDD1D
  done : Mask := 0
  cpnum : Nat := 0
  trapcause : Word := 0
  traplanes : Word := 0
  tvec : Word := 0xFFFFFFF8
  prio : Nat := 0
  prioCap : Nat := 0
  cur : Option Mask := none
  rot : Nat := 0
  quantum : Nat := 0
  switching : Bool := false
  parked : Mask := 0
  released : Mask := 0
  trap : Option TrapRec := none
  pend : Option PendTrap := none
  replays : List Replay := []
  flights : List Flight := []
  wait : Option Cause := none
  waitPage : Option (Nat × Nat × Nat) := none
  order : Nat := 0
  openSet : List Nat := []
  batches : List (Nat × List Nat) := []
  resid : Resid := .resident
  saveDue : List SaveWhy := []
  saveArea : Nat := 0
  stopped : Option TrapRec := none
  passKeyhole : List (Nat × Nat × Nat) := []
  safeOrd : Option Nat := none
  sinceSafe : Nat := 0
  copiesOut : List Nat := []
  aged : Bool := false
  last : Nat := 0
  early : List Early := []
  lat : List (Nat × Nat × Nat) := []
  choosing : Option (Option Mask) := none
  access : Mask := 0
  missing : List Nat := []
  walked : List (Nat × Walk) := []
  det : Bool := false
  deferred : List Deferred := []
  deriving DecidableEq, Repr

/-! ## Teams, grids, contexts -/

/-- A push or pop that waits at a team queue (R265, R266, R268): the warp, its front, the active lanes, what it pushes
or where it pops. -/
structure QWait where
  warp : Nat
  lanes : Mask
  active : Mask := 0
  push : Option (List Word)
  dst : Opnd := .none
  la : Nat := 0
  deriving DecidableEq, Repr

/-- A team queue's control block (R61, R264). -/
structure TQ where
  ring : Nat
  depth : Nat
  head : Nat := 0
  tail : Nat := 0
  count : Nat := 0
  allow : SMap Nat := []
  waiters : List QWait := []
  deriving DecidableEq, Repr

/-- A pending throttle notice of a team (R366). -/
structure Notice where
  pending : Option Bool := none
  delivered : Bool := false
  deriving DecidableEq, Repr, Inhabited

/-- A team on its core. Its record stays until its span group retires; `warps` are those not retired yet. `scratchAt` and, for each warp,
`lanesAt` are the pieces of the scratchpad and of a lane position's slice that it holds, each a start and a length (R57, R58). While the
context is switched out, `saved` holds and `poolAt` is where its scratchpad's copy lies in the save pool (R341). -/
structure Team where
  grid : Nat
  index : Nat
  core : Nat
  span : Nat
  cont : Bool := false
  scratchAt : List (Nat × Nat) := []
  lanesAt : SMap (List (Nat × Nat)) := []
  warps : List Nat := []
  bars : SMap Nat := []
  tqs : SMap TQ := []
  children : List Nat := []
  notice : Notice := {}
  clock : SMap Nat := []
  saved : Bool := false
  poolAt : Nat := 0
  deriving DecidableEq, Repr

/-- A span group with its place on a cluster (R20, R134), and its window's copy in the save pool while it is away (R341). -/
structure Span where
  grid : Nat
  cluster : Nat
  base : Nat
  size : Nat
  windowAt : List (Nat × Nat) := []
  teams : List Nat := []
  gen : Nat := 0
  poolAt : Nat := 0
  deriving DecidableEq, Repr

/-- A launch record (Table 24.2) with where its status goes and, in a child queue, the warp, the lane and the issue whose DEV marker
holds it there (R300). -/
structure Launch where
  object : Nat := 0
  arg : Nat := 0
  dims : Nat × Nat × Nat := (1, 1, 1)
  span : Nat := 1
  warps : Nat := 1
  det : Bool := false
  key : DWord := 0
  spill : Nat := 0
  spillEntries : Nat := 0
  counter : Nat := 0
  prereqs : List (Nat × Nat) := []
  at_ : Nat := 0
  device : Bool := false
  by_ : Nat × Nat × Nat := (0, 0, 0)
  deriving DecidableEq, Repr, Inhabited

/-- A kernel object's header (Table 8.3). -/
structure Kernel where
  det : Bool := false
  hasCont : Bool := false
  id : Nat := 0
  code : Nat := 0
  codeSize : Nat := 0
  entry : Nat := 0
  cont : Nat := 0xFFFFFFF8
  handler : Nat := 0xFFFFFFF8
  regs : Nat := 32
  lanebytes : Nat := 0
  scratch : Nat := 0
  clusterspan : Nat := 0
  spTable : Nat := 0
  spCount : Nat := 0
  mask : Nat := 0
  descs : List (BitVec 96) := []
  deriving DecidableEq, Repr, Inhabited

/-- A deposit (R43): key, payload, origin (team, warp, lane), the cluster whose set it belongs to, and whether it stands
in the spill area (with its place there). `wid` and `order` are the warp and the issue whose DEV marker the dispatch waits for (R300). -/
structure Deposit where
  key : Nat
  team : Nat
  warp : Nat
  lane : Nat
  payload : List Word
  cluster : Nat
  wid : Nat := 0
  order : Nat := 0
  spill : Option Nat := none
  deriving DecidableEq, Repr

/-- A continuation warp dispatched and not placed yet (R47, R322). -/
structure Cont where
  index : Nat
  cluster : Nat
  key : Nat
  entries : List Deposit
  deriving DecidableEq, Repr

/-- Where a grid stands: waiting for prerequisites, or free to place teams (R316). -/
inductive GPhase
  | waiting | running
  deriving DecidableEq, Repr, Inhabited

/-- A grid, under its identifier. `left`, `dieRange` and `clusterRange` are the span groups not placed yet: ranges, each a
first group and a count (R319, R321); `gone` its retired warps, whose EXIT releases may still be on their way (R300); `placed` and
`reported` say that its first placement, and its first unwatched continuation team, have come about (R373); `release` are the entries that
the release of its counter still waits for, once everything else of its retirement has come about (R317). -/
structure Grid where
  ctx : Nat
  ident : Nat
  depth : Nat := 0
  parent : Option Nat := none
  parentTeam : Nat := 0
  queue : Nat := 0
  cls : Nat := 0
  accepted : Nat := 0
  launch : Launch := {}
  kern : Kernel := {}
  phase : GPhase := .waiting
  placed : Bool := false
  reported : Bool := false
  left : Nat × Nat := (0, 0)
  dieRange : SMap (Nat × Nat) := []
  clusterRange : SMap (List (Nat × Nat)) := []
  nextCont : Nat := 0
  conts : List Cont := []
  deposits : List Deposit := []
  children : List Nat := []
  childq : List (Nat × Launch) := []
  gone : List Nat := []
  unwatched : Bool := false
  release : Option (List Nat) := none
  deriving DecidableEq, Repr

/-- A context (Table 34.3). `shadowSeed` tells the free bytes that the device wrote last to the shadow table (R373). -/
structure Context where
  root : Nat := 0
  pool : Nat := 0
  poolSize : Nat := 0
  handles : Nat := 0
  slots : Nat := 0
  accum : Nat := 0
  account : Nat := 0
  shadow : Nat := 0
  shadowSize : Nat := 0
  shadowSeed : Option Nat := none
  compat : Bool := false
  peephole : Bool := false
  privileged : Bool := false
  debug : Bool := false
  areas : List Nat := []
  switchMask : Option Nat := none
  deriving DecidableEq, Repr, Inhabited

/-! ## The ordering machine (R293–R311) -/

/-- The buffers of the machine (R294): a thread's TSQ, a warp's WQ, CMB, CLB, DB, XB. -/
inductive Place
  | tsq (warp lane : Nat)
  | wq (warp : Nat)
  | cmb (core : Nat)
  | clb (cluster : Nat)
  | db (die : Nat)
  | xb
  deriving DecidableEq, Repr, Inhabited

/-- An atomic's operation: ATOM and RED (R249), ATOMC (R252), the accumulator fold of DGST (R376). -/
inductive AtomFn
  | op (o : AtomOp) (t : NumTy)
  | cas (t : NumTy) (cmp : Nat)
  | fold
  deriving DecidableEq, Repr

/-- The kinds of an entry (R294). An atomic carries the group that is performed in one step, the address group it was
issued in (they differ once groups combine, R305), and the flight its old value returns to. -/
inductive EKind
  | write
  | relWrite
  | relMarker
  | fenceMarker
  | atomic (group sub : Nat) (fn : AtomFn) (use : Use) (flight : Option Nat)
  deriving DecidableEq, Repr

/-- An entry: its bytes (first location and length, 0 for a marker), value, scope, thread, warp order, and the core and
sequence number it received on entering CMB (R294). `also` are lanes of its warp that wrote one of its bytes in the same instruction, each
with the byte: it stands for their stores too (R169). Entries of one `unit` have been combined: they stand and move as one (R305). -/
structure Entry where
  id : Nat
  place : Place
  kind : EKind
  loc : Nat := 0
  len : Nat := 0
  val : Nat := 0
  scope : Scope := .core
  warp : Nat := 0
  lane : Nat := 0
  core : Nat := 0
  order : Nat := 0
  seq : Option Nat := none
  rel : Option Scope := none
  copy : Option Nat := none
  also : List (Nat × Nat) := []
  unit : Option Nat := none
  deriving DecidableEq, Repr

/-- The tag memory keeps for a location: the write that landed last (R294). -/
structure Tag where
  core : Nat := 0
  seq : Nat := 0
  rel : Option Scope := none
  deriving DecidableEq, Repr, Inhabited

/-- Who waits for a load: a flight of a warp, or a copy's byte with its destination. -/
inductive LoadFor
  | warp (w flight : Nat)
  | copy (c : Nat) (dst : Nat)
  deriving DecidableEq, Repr

/-- An issued load of one byte (R297), with its value and the tag of the write it returned once it is satisfied. `nol1` keeps it from
filling the L1 (R276); a flight of 0 is an instruction that waits to issue until it has read a record (R135, R258, R272). -/
structure Load where
  id : Nat
  for_ : LoadFor
  warp : Nat
  lane : Nat
  core : Nat
  loc : Nat
  scope : Scope
  order : Nat
  acq : Bool := false
  nol1 : Bool := false
  val : Option (BitVec 8) := none
  tag : Option Tag := none
  deriving DecidableEq, Repr

/-- A byte that a copy moves: from a location, a virtual address of an absent page, or a fill value; to a location or a
virtual address (R255, R260). -/
inductive CSrc
  | loc (l : Nat)
  | va (a : Nat)
  | fill (b : BitVec 8)
  deriving DecidableEq, Repr

inductive CDst
  | loc (l : Nat)
  | va (a : Nat)
  deriving DecidableEq, Repr

/-- A registered copy (R254–R256, R307) with its Latch entry: a scratchpad range, in the pieces in which it stands, and a global range.
`pages` are the absent pages that it waits for (R285): each one's address, size and kind of access. It starts no earlier than GTS has come
to `notBefore` (R365). -/
structure Copy where
  id : Nat
  warp : Nat
  lane : Nat
  core : Nat
  ctx : Nat
  grid : Nat
  scope : Scope
  toScratch : Bool
  direct : Bool
  order : Nat
  before : List Nat
  moves : List (CSrc × CDst)
  pages : List (Nat × Nat × Nat) := []
  scr : List (Nat × Nat)
  glob : Option (Nat × Nat)
  started : Bool := false
  latched : Bool := true
  notBefore : Nat := 0
  deriving DecidableEq, Repr

/-! ## Cores, partitions, clusters, dies -/

/-- An activation-table bank (R181): the image's bytes and the context tag (0: untagged). -/
structure Bank where
  tag : Nat := 0
  image : List (BitVec 8) := []
  deriving DecidableEq, Repr, Inhabited

/-- A Keyhole comparator (Table 28.7). -/
structure Comparator where
  enable : Bool := false
  kernel : Nat := 0
  pc : Nat := 0
  warps : Nat := 0
  queues : Nat := 0
  missed : Nat := 0
  deriving DecidableEq, Repr, Inhabited

/-- A Skylight packet (Table 28.3): its channel, source and four words. -/
structure Packet where
  channel : Nat
  source : Nat
  words : List Nat
  deriving DecidableEq, Repr

/-- Where a core stands: between two clocks; about to begin one, with what has come about by then first; with its fronts chosen for it;
or in it. -/
inductive ClkPhase
  | between | waking | chosen | running
  deriving DecidableEq, Repr, Inhabited

/-- What a port would be charged to if it issued nothing in the current clock (R345, R346): cause, kernel and PC, and the nominee
with the number of its issues. -/
structure Idle where
  cause : Cause
  kernel : Nat
  pc : Nat
  warp : Nat
  order : Nat
  deriving DecidableEq, Repr, Inhabited

/-- A core. `cyc` is the number of its current clock, or of the next one while it stands between two; `phase` counts the eighths of
a cluster clock towards the next (R12). `idles` are the charges of idle ports as the clock began, by partition and port. `halving`
counts the clocks of its halving phase that have begun (R360); `stretched` says that the current clock is a stretched one (R359),
`stallFor` counts the clocks of a trace stall (R352). `held` says that the ratio stays as the watchdog left it until firmware writes it
(R368). `placed` is the context placed on the core last (R181). -/
structure Core where
  cyc : Nat := 0
  clk : ClkPhase := .between
  phase : Nat := 0
  idles : SMap Idle := []
  placed : Nat := 0
  seq : Nat := 0
  ratio : Nat := 8
  ratioWritten : Nat := 8
  ratioPending : Option Nat := none
  held : Bool := false
  cc : SMap (BitVec 8) := []
  ccStale : List (Nat × Nat × Nat) := []
  icache : SMap Nat := []
  tlb : SMap (Nat × Nat) := []
  current : Bank := {}
  shadow : Bank := {}
  lutOrder : List (Nat × Bool) := []
  filled : Bool := false
  keyhole : SMap Comparator := []
  trace : List Packet := []
  pendingPackets : List Packet := []
  lost : SMap Nat := []
  stalled : Bool := false
  stallFor : Nat := 0
  perturb : Nat := 0
  halving : Option Nat := none
  stretched : Bool := false
  throttled : Bool := false
  deriving DecidableEq, Repr, Inhabited

/-- The run of equal charges of one port (R350): context, kernel, PC, cause, count, the GTS of its first clk. -/
structure Run where
  ctx : Nat
  kernel : Nat
  pc : Nat
  cause : Nat
  count : Nat
  since : Nat
  deriving DecidableEq, Repr

/-- One issue port (R324, R345). `due` are the slots that became due at the floor, each with the clock from which on; `charged` says
that the current clk has been charged (R343). -/
structure Port where
  pointer : Nat := 0
  floors : SMap Nat := []
  due : SMap Nat := []
  charged : Bool := false
  run : Option Run := none
  busyUntil : Nat := 0
  deriving DecidableEq, Repr, Inhabited

/-- A partition. `window` is the number of its Shutter window (R357). `pool`, `divide`, `sfu` and `louvre` are the first
clocks in which those units are free again, `factors` the clocks in which factor forms hold the divide unit, each from one clock up to
another, and `poolExt` the extension clocks of R240 with the flight they belong to. `nextOwner` is a change of ownership that waits
for the end of the clock (R343). -/
structure Part where
  owner : Nat := 0
  nextOwner : Option Nat := none
  counters : SMap Nat := []
  ports : SMap Port := []
  shutBudget : Nat := 24
  budget : Nat := 24
  used : Nat := 0
  window : Nat := 0
  refusals : Nat := 0
  pool : Nat := 0
  poolExt : List (Nat × Nat × Nat) := []
  divide : Nat := 0
  factors : List (Nat × Nat) := []
  sfu : Nat := 0
  louvre : Nat := 0
  switching : Bool := false
  releasing : Bool := false
  deriving DecidableEq, Repr, Inhabited

/-- A cluster. `stretch` is 8 when an alarm has been raised, 7 down to 2 in the six stretched cluster clocks, 1 once they are
over (R359); `bytes` counts the requests of the GTS microsecond `interval` (R365), `held` those that wait for the next one; `phase` counts thousandths of a period towards the
next cluster clock (R12). -/
structure Cluster where
  droopThr : Nat := 40
  alarms : Nat := 0
  byteBudget : Nat := 0
  bytes : Nat := 0
  held : Nat := 0
  interval : Nat := 0
  stretch : Nat := 0
  phase : Nat := 0
  fused : Bool := false
  soft : Nat := 0
  deriving DecidableEq, Repr, Inhabited

/-- A walk of a page table (R283): whose it is, for which address, the table and the level that it has come to, and the bytes that it has
read of the entry there. -/
structure PageWalk where
  id : Nat
  ctx : Nat
  va : Nat
  level : Nat
  table : Nat
  bytes : List (BitVec 8) := []
  deriving DecidableEq, Repr, Inhabited

/-- A die. `held` says that its step stays as the watchdog left it until firmware writes it (R368). The first 64 of `walks` have a walker;
the others wait in order of arrival (R283). -/
structure Die where
  stepWritten : Nat := 18
  step : Nat := 18
  stepPending : Option Nat := none
  held : Bool := false
  tripped : Bool := false
  clamped : Bool := false
  tlb : SMap (Nat × Nat) := []
  walks : List PageWalk := []
  ahead : SMap (BitVec 8) := []
  deriving DecidableEq, Repr, Inhabited

/-! ## Module, host side -/

/-- The bring-up block as the device took it (Table 34.1). -/
structure Bringup where
  queues : Nat := 0
  commands : Nat := 0
  commandEntries : Nat := 16
  faults : Nat := 0
  faultEntries : Nat := 64
  errors : Nat := 0
  errorEntries : Nat := 64
  traceOn : Nat := 0
  traceAt : List Nat := []
  traceLog : List Nat := []
  account : Nat := 0
  deriving DecidableEq, Repr, Inhabited

/-- What the device knows of a launch queue: the tail it read last, if it has read one, and whether an overrun disabled it (R313). -/
structure Queue where
  tail : Option Nat := none
  overrun : Bool := false
  deriving DecidableEq, Repr, Inhabited

/-- The last write and the last reads of an element (R373). -/
structure Access where
  team : Nat
  epoch : Nat
  ord : Nat
  dist : Nat
  atomic : Bool
  deriving DecidableEq, Repr

/-- A shadow entry (R373): which element claims it, W(x), Rd(x), S(x). -/
structure Shadow where
  addr : Nat := 0
  grid : Nat := 0
  write : Option Access := none
  read : Option Access := none
  sync : SMap Nat := []
  deriving DecidableEq, Repr, Inhabited

/-- An outstanding fault record (R285), with the size of the page that it names. -/
structure FaultRec where
  ctx : Nat
  page : Nat
  size : Nat
  deriving DecidableEq, Repr

/-- What the module holds once. An error record that finds no room is only counted (R389); `command` is a SWITCH, READMIT or
STOP that has begun and is not done (R382). `ranAbove` says that a die has run above step 18 in the current GTS microsecond, and
`boostDue` that it did in one that has ended and is not counted yet (R363). -/
structure Module where
  gts : Nat := 0
  boost : Nat := 0
  ranAbove : Bool := false
  boostDue : Bool := false
  command : Option (Nat × Cmd) := none
  boot : Nat := 0
  bringup : Option Bringup := none
  queues : SMap Queue := []
  contexts : SMap Context := []
  grids : SMap Grid := []
  spans : SMap Span := []
  teams : SMap Team := []
  nextIdent : Nat := 1
  faults : List FaultRec := []
  errorsLost : Nat := 0
  fusePending : List (Bool × Nat) := []
  stacksFused : List Nat := []
  dormerUpdating : Bool := false
  dormerHung : Bool := false
  linksDown : List Nat := []
  stackSoft : SMap Nat := []
  shadow : SMap Shadow := []
  deriving DecidableEq, Repr, Inhabited

/-- The state of the machine. `mem` holds the bytes of every storage place by canonical physical address (log 3, log 4);
`tags` the tags of R294; `agenda` the turns already decided, oldest first, and `tick` and `fresh` the counters that the
free schedule and the free values are applied to (log 1, log 2), `turns` the number of turns the agenda did not decide; `aheadOver`
whether what the walkers have read ahead is over; `cur` the warp that exec acts on. -/
structure State where
  mem : List (Nat × BitVec 8) := []
  tags : SMap Tag := []
  entries : List Entry := []
  loads : List Load := []
  copies : List Copy := []
  warps : SMap Warp := []
  cores : SMap Core := []
  parts : SMap Part := []
  clusters : SMap Cluster := []
  dies : SMap Die := []
  mod : Module := {}
  nextId : Nat := 1
  agenda : List Turn := []
  tick : Nat := 0
  turns : Nat := 0
  fresh : Nat := 0
  aheadOver : Bool := false
  cur : Nat := 0
  deriving DecidableEq, Repr, Inhabited

/-- The module right after reset, before the bring-up of R387 runs (log 3): nothing in memory that has been written, no
context, no grid, no warp; SHUTBUDGET 24, DROOPTHR 40, CLKSTEP 18, CORERATIO 8 and the other power registers 0 (Table
30.1), SR_CYC 0 (R67), SR_BOOST 0 (R363), the port pointers 0 (R324), the banks untagged (R181). -/
def State.reset : State := {}

end Sys2Proof.Machine
end

