-- ==== Sys2Proof/Machine/Store.lean ====
section
/-! DEFINITION. The parts of the state by number, the physical map and the storage behind it (R277, R278), and what the
device itself writes to memory: rings, error records and trace packets (R349–R352, R379, R389). -/
namespace Sys2Proof.Machine

/-- The outcome of a step. -/
abbrev Res := Host.Outcome State Fault Refusal

/-! ## Parts of the state -/

def State.warp? (s : State) (w : Nat) : Option Warp := Table.find s.warps w
def State.putWarp (s : State) (w : Nat) (x : Warp) : State := { s with warps := Table.put s.warps w x }
def State.dropWarp (s : State) (w : Nat) : State := { s with warps := Table.drop s.warps w }
def State.modWarp (s : State) (w : Nat) (f : Warp → Warp) : State :=
  match s.warp? w with
  | some x => s.putWarp w (f x)
  | none => s
def State.core (s : State) (c : Nat) : Core := Table.get {} s.cores c
def State.putCore (s : State) (c : Nat) (x : Core) : State := { s with cores := Table.put s.cores c x }
def State.modCore (s : State) (c : Nat) (f : Core → Core) : State := s.putCore c (f (s.core c))
def State.part (s : State) (p : Nat) : Part := Table.get {} s.parts p
def State.putPart (s : State) (p : Nat) (x : Part) : State := { s with parts := Table.put s.parts p x }
def State.modPart (s : State) (p : Nat) (f : Part → Part) : State := s.putPart p (f (s.part p))
def State.cluster (s : State) (k : Nat) : Cluster := Table.get {} s.clusters k
def State.modCluster (s : State) (k : Nat) (f : Cluster → Cluster) : State :=
  { s with clusters := Table.put s.clusters k (f (s.cluster k)) }
def State.die (s : State) (d : Nat) : Die := Table.get {} s.dies d
def State.modDie (s : State) (d : Nat) (f : Die → Die) : State := { s with dies := Table.put s.dies d (f (s.die d)) }
def State.team? (s : State) (t : Nat) : Option Team := Table.find s.mod.teams t
def State.putTeam (s : State) (t : Nat) (x : Team) : State :=
  { s with mod := { s.mod with teams := Table.put s.mod.teams t x } }
def State.modTeam (s : State) (t : Nat) (f : Team → Team) : State :=
  match s.team? t with
  | some x => s.putTeam t (f x)
  | none => s
def State.span? (s : State) (g : Nat) : Option Span := Table.find s.mod.spans g
def State.putSpan (s : State) (g : Nat) (x : Span) : State :=
  { s with mod := { s.mod with spans := Table.put s.mod.spans g x } }
def State.modSpan (s : State) (g : Nat) (f : Span → Span) : State :=
  match s.span? g with
  | some x => s.putSpan g (f x)
  | none => s
def State.grid? (s : State) (g : Nat) : Option Grid := Table.find s.mod.grids g
def State.putGrid (s : State) (g : Nat) (x : Grid) : State :=
  { s with mod := { s.mod with grids := Table.put s.mod.grids g x } }
def State.modGrid (s : State) (g : Nat) (f : Grid → Grid) : State :=
  match s.grid? g with
  | some x => s.putGrid g (f x)
  | none => s
def State.context? (s : State) (c : Nat) : Option Context := Table.find s.mod.contexts c
def State.modContext (s : State) (c : Nat) (f : Context → Context) : State :=
  match s.context? c with
  | some x => { s with mod := { s.mod with contexts := Table.put s.mod.contexts c (f x) } }
  | none => s
def State.queue (s : State) (q : Nat) : Queue := Table.get {} s.mod.queues q
def State.putQueue (s : State) (q : Nat) (x : Queue) : State :=
  { s with mod := { s.mod with queues := Table.put s.mod.queues q x } }

/-- A part that does not exist reads as an empty one; no rule reads a part that does not exist. -/
def State.team (s : State) (t : Nat) : Team := (s.team? t).getD { grid := 0, index := 0, core := 0, span := 0 }
def State.grid (s : State) (g : Nat) : Grid := (s.grid? g).getD { ctx := 0, ident := 0 }
def State.context (s : State) (c : Nat) : Context := (s.context? c).getD {}

/-- An atomic that has not been performed. -/
def EKind.isAtomic : EKind → Bool
  | .atomic _ _ _ _ _ => true
  | _ => false

/-! ## Numbers of units (R8) -/

def coreOfPart (p : Nat) : Nat := p / 4
def clusterOfCore (c : Nat) : Nat := c / 6
def dieOfCluster (k : Nat) : Nat := k / 16
def dieOfCore (c : Nat) : Nat := dieOfCluster (clusterOfCore c)
def Warp.core (w : Warp) : Nat := coreOfPart w.part

/-- The step of a die's cluster clock in force: without boost allowance at most 18 (R363). -/
def State.stepOf (s : State) (d : Nat) : Nat := if s.mod.boost = 0 then min 18 (s.die d).step else (s.die d).step
/-- The ratio of a core in force: 4/8 under the current clamp (R364). -/
def State.ratioOf (s : State) (c : Nat) : Nat := if (s.die (dieOfCore c)).clamped then 4 else (s.core c).ratio

def State.teamOf (s : State) (w : Warp) : Team := s.team w.team
def State.gridOf (s : State) (w : Warp) : Grid := s.grid (s.teamOf w).grid
def State.ctxOf (s : State) (w : Warp) : Nat := (s.gridOf w).ctx
def State.kernOf (s : State) (w : Warp) : Kernel := (s.gridOf w).kern

/-- A fresh number of the model. -/
def State.newId (s : State) : Nat × State := (s.nextId, { s with nextId := s.nextId + 1 })
/-- A free value (log 2), and the counter moved on. -/
def State.free (s : State) : Nat := Config.free s.fresh
def State.used (s : State) (n : Nat) : State := { s with fresh := s.fresh + n }

/-! ## The physical map (R277, R278) -/

def scratchBase : Nat := 0x040000000000
def sliceBase : Nat := 0x041000000000
def clusterBase : Nat := 0x042000000000
def regfileBase : Nat := 0x043000000000
def regfileEnd : Nat := 0x044000000000
def systemBase : Nat := 0x800000000000
def paTop : Nat := 0x1000000000000

/-- A die-local address as the interleaved address of the same byte (R278). -/
def dieLocalCanon (pa : Nat) : Nat :=
  let a := (pa - 2 ^ 40) % 2 ^ 37
  let stack := 2 * ((pa - 2 ^ 40) / 2 ^ 37) + a / 2 ^ 12 % 2
  a / 2 ^ 13 * 2 ^ 16 + stack * 2 ^ 12 + a % 2 ^ 12

/-- The storage place of a physical address: one for both apertures. -/
def canonPa (pa : Nat) : Nat := if 2 ^ 40 ≤ pa && pa < 2 ^ 41 then dieLocalCanon pa else pa

/-- The HBM stack of an HBM address. -/
def stackOf (pa : Nat) : Nat := canonPa pa / 2 ^ 12 % 16

/-- Does the address exist (Table 20.2, R390)? -/
def State.assigned (s : State) (pa : Nat) : Bool :=
  if pa < 2 ^ 41 then !s.mod.stacksFused.contains (stackOf pa)
  else if pa < scratchBase then false
  else if pa < sliceBase then pa < scratchBase + 768 * 2 ^ 21
  else if pa < clusterBase then pa < sliceBase + 768 * 2 ^ 20
  else if pa < regfileBase then pa < clusterBase + 128 * 2 ^ 24 && (pa - clusterBase) % 2 ^ 24 < 12 * 2 ^ 20
  else if pa < regfileEnd then pa < regfileBase + 768 * 2 ^ 21 && (pa - regfileBase) % 2 ^ 19 < 384 * 2 ^ 10
  else systemBase ≤ pa && pa < paTop

/-- Every byte of a range exists; the parts of the map that exist are unions of 4 KiB units. -/
def State.assignedRange (s : State) (pa n : Nat) : Bool :=
  (List.range (n / 4096 + 2)).all (fun i => n ≤ 4096 * i || s.assigned (pa + 4096 * i)) && (n = 0 || s.assigned (pa + n - 1))

/-- The die whose stack, or the units, hold the address; the system windows attach by R10. -/
def dieOfPa (pa : Nat) : Nat :=
  if pa < 2 ^ 41 then stackOf pa / 2
  else if pa < sliceBase then dieOfCore ((pa - scratchBase) / 2 ^ 21)
  else if pa < clusterBase then dieOfCore ((pa - sliceBase) / 2 ^ 20)
  else if pa < regfileBase then dieOfCluster ((pa - clusterBase) / 2 ^ 24)
  else if pa < regfileEnd then dieOfCore ((pa - regfileBase) / 2 ^ 21)
  else if pa < 0xC00000000000 then 0 else (pa - 0xC00000000000) / 2 ^ 43

/-! ## The die fabric (R9) -/

/-- Its ten edges, each between neighbours of a row or a column of four. -/
def fabricEdges : List (Nat × Nat) := [(0, 1), (1, 2), (2, 3), (4, 5), (5, 6), (6, 7), (0, 4), (1, 5), (2, 6), (3, 7)]

/-- The dies that a transfer passes: along its row to the target's column, then across to the target's row. -/
def fabricRoute (a b : Nat) : List Nat :=
  let row := if a % 4 ≤ b % 4 then (List.range (b % 4 - a % 4 + 1)).map (a + ·) else (List.range (a % 4 - b % 4 + 1)).map (a - ·)
  if a / 4 = b / 4 then row else row ++ [b]

/-- The edges of that way. -/
def fabricHops (a b : Nat) : Nat := (fabricRoute a b).length - 1

/-- The least latency of a home L2, in nanoseconds: 160, and 30 more for each edge on the way to it (R275). No core's ratio affects it
(R12). -/
def homeNs (core loc : Nat) : Nat := 160 + 30 * fabricHops (dieOfCore core) (dieOfPa (loc % paTop))

/-! ## Registers of a warp (R54) -/

/-- V registers are kept by lane and number. -/
def vkey (lane n : Nat) : Nat := lane * 1024 + n
def Warp.getV (w : Warp) (lane n : Nat) : Word := Table.get 0 w.vregs (vkey lane n)
def Warp.setV (w : Warp) (lane n : Nat) (x : Word) : Warp := { w with vregs := Table.set 0 w.vregs (vkey lane n) x }
def Warp.getW (w : Warp) (n : Nat) : Word := Table.get 0 w.wregs n
def Warp.setW (w : Warp) (n : Nat) (x : Word) : Warp := { w with wregs := Table.set 0 w.wregs n x }
def Warp.getJ (w : Warp) (k : Nat) : Mask := Table.get 0 w.jregs k
def Warp.putJ (w : Warp) (k : Nat) (x : Mask) : Warp := { w with jregs := Table.set 0 w.jregs k x }
def Warp.getH (w : Warp) (lane k : Nat) : BitVec 96 := Table.get 0 w.hregs (lane * 16 + k)
def Warp.setH (w : Warp) (lane k : Nat) (x : BitVec 96) : Warp := { w with hregs := Table.set 0 w.hregs (lane * 16 + k) x }
def Warp.th (w : Warp) (lane : Nat) : Thread := Table.get {} w.threads lane
def Warp.setTh (w : Warp) (lane : Nat) (t : Thread) : Warp := { w with threads := Table.put w.threads lane t }
def Warp.modTh (w : Warp) (lane : Nat) (f : Thread → Thread) : Warp := w.setTh lane (f (w.th lane))
def Warp.modLanes (w : Warp) (m : Mask) (f : Nat → Thread → Thread) : Warp :=
  m.lanes.foldl (fun w l => w.modTh l (f l)) w
/-- P0–P7; P7 is true always and a write to it is discarded (R54, R55). -/
def Thread.pred (t : Thread) (n : Nat) : Bool := n = 7 || t.preds.getLsbD n
def Thread.setPred (t : Thread) (n : Nat) (b : Bool) : Thread :=
  if n = 7 then t
  else
    let bit : BitVec 8 := BitVec.ofNat 8 (2 ^ n)
    { t with preds := if b then t.preds ||| bit else t.preds &&& ~~~bit }
def Warp.orFpf (w : Warp) (lane flags : Nat) : Warp :=
  w.modTh lane (fun t => { t with fpf := t.fpf ||| BitVec.ofNat 32 flags })

/-! ## Storage -/

/-- The register and byte that a register-file window address names (Table 20.2, R279): partition, register number,
lane position, byte. -/
def regWindow (pa : Nat) : Option (Nat × Nat × Nat × Nat) :=
  if regfileBase ≤ pa && pa < regfileEnd then
    let o := (pa - regfileBase) % 2 ^ 19
    some ((pa - regfileBase) / 2 ^ 19, o / 128, o / 4 % 32, o % 4)
  else none

/-- The warp in a slot of a partition. -/
def State.warpIn (s : State) (part slot : Nat) : Option Nat :=
  (s.warps.find? (fun e => e.2.part == part && e.2.slot == slot &&
    (match e.2.resid with | .saved _ => false | _ => true))).map (·.1)

def byteOf (x n : Nat) : Byte := BitVec.ofNat 8 (x / 256 ^ n)
def setByteOf (x : Word) (n : Nat) (b : Byte) : Word :=
  BitVec.ofNat 32 (x.toNat - x.toNat / 256 ^ n % 256 * 256 ^ n + b.toNat * 256 ^ n)

/-- What a byte of memory that nothing has written reads as (log 4, DESIGN CHOICE). -/
def unwritten : Byte := 0

/-- One byte of memory at a physical address. A location of the ordering machine is a physical address, 2^48 higher when
it is reached by a window (R279). -/
def State.peek (s : State) (loc : Nat) : Byte :=
  let pa := loc % paTop
  match regWindow pa with
  | some (p, v, q, k) =>
    let (slot, n) := Config.regPlace p v
    match (s.warpIn p slot).bind s.warp? with
    | some w => byteOf (w.getV q n).toNat k
    | none => Table.get unwritten s.mem pa
  | none => Table.get unwritten s.mem (canonPa pa)

/-- Write one byte; the canonical form is kept. -/
def State.poke (s : State) (loc : Nat) (b : Byte) : State :=
  let pa := loc % paTop
  match regWindow pa with
  | some (p, v, q, k) =>
    let (slot, n) := Config.regPlace p v
    match s.warpIn p slot with
    | some w => s.modWarp w (fun x => x.setV q n (setByteOf (x.getV q n) k b))
    | none => { s with mem := Table.set unwritten s.mem pa b }
  | none => { s with mem := Table.set unwritten s.mem (canonPa pa) b }

/-- The canonical form of memory: addresses strictly rising, no byte that reads the same unlisted. -/
def memWf (m : List Host.Cell) : Bool := Table.canonical unwritten m

/-- The little-endian number of `n` bytes at a physical address, as memory holds it (R2). -/
def State.peekN (s : State) (pa n : Nat) : Nat :=
  leNat ((List.range n).map (fun i => s.peek (pa + i)))
def State.dropTag (s : State) (loc : Nat) : State := { s with tags := Table.drop s.tags loc }
/-- A write of the device's own, or of the outside: it lands at once and carries no core's tag (R310). -/
def State.pokeBytes (s : State) (pa : Nat) (bs : List Byte) : State :=
  ((List.range bs.length).zip bs).foldl (fun s e => (s.poke (pa + e.1) e.2).dropTag (pa + e.1)) s
def State.pokeN (s : State) (pa n v : Nat) : State :=
  s.pokeBytes pa ((List.range n).map (byteOf v))

/-! ## Rings of the host (R379, R389) -/

/-- A record for the error ring, or a count while there is no room (R389). -/
def State.errorRecord (s : State) (kind ctx source detail : Nat) : State :=
  match s.mod.bringup with
  | none => { s with mod := { s.mod with errorsLost := s.mod.errorsLost + 1 } }
  | some b =>
    let w := s.peekN b.errors 4
    let r := s.peekN (b.errors + 4) 4
    if (w + 2 ^ 32 - r) % 2 ^ 32 = b.errorEntries then
      { s with mod := { s.mod with errorsLost := s.mod.errorsLost + 1 } }
    else
      let at_ := b.errors + 64 + 32 * (w % b.errorEntries)
      let s := s.pokeBytes at_ ((leBytes 1 kind) ++ (leBytes 1 0) ++ (leBytes 2 ctx) ++ (leBytes 2 source) ++ (leBytes 2 0)
        ++ (leBytes 8 detail) ++ (leBytes 8 s.mod.gts) ++ (leBytes 8 s.mod.errorsLost))
      let s := s.pokeN b.errors 4 ((w + 1) % 2 ^ 32)
      { s with mod := { s.mod with errorsLost := 0 } }

/-! ## Skylight packets (R349–R352) -/

def State.channelOn (s : State) (ch : Nat) : Bool :=
  match s.mod.bringup with
  | some b => b.traceOn / 2 ^ ch % 2 = 1
  | none => false

/-- Has the ring of a channel no room (R352)? -/
def State.ringFull (s : State) (ch : Nat) : Bool :=
  match s.mod.bringup with
  | some b =>
    let base := b.traceAt.getD ch 0
    (s.peekN base 4 + 2 ^ 32 - s.peekN (base + 4) 4) % 2 ^ 32 = 2 ^ b.traceLog.getD ch 10
  | none => true

/-- A packet's four words (Table 28.3). -/
def packetOf (ty ch source w2 w3 gts : Nat) : Packet :=
  { channel := ch, source := source, words := [ty * 2 ^ 60 + ch * 2 ^ 56 + source * 2 ^ 40, gts, w2, w3] }

/-- A packet enters the trace buffer of its core. A lossy one that meets a full sink is dropped and counted; when there
is room again, a loss-count packet goes ahead of the source's next packet. A lossless one that meets a full buffer waits
and stalls the core (R352). -/
def State.emit (s : State) (core ch source ty w2 w3 gts : Nat) : State :=
  if !s.channelOn ch then s
  else
    let x := s.core core
    let p := packetOf ty ch source w2 w3 gts
    if ch = 2 then
      let key := source * 16 + ch
      let lost := Table.get 0 x.lost key
      if 128 ≤ x.trace.length || s.ringFull ch then s.putCore core { x with lost := Table.set 0 x.lost key (lost + 1) }
      else if lost = 0 then s.putCore core { x with trace := x.trace ++ [p] }
      else if x.trace.length < 127 then
        s.putCore core { x with trace := x.trace ++ [packetOf 2 ch source lost 0 gts, p], lost := Table.drop x.lost key }
      else s.putCore core { x with trace := x.trace ++ [packetOf 2 ch source lost 0 gts], lost := Table.set 0 x.lost key 1 }
    else if x.trace.length < 128 && x.pendingPackets.isEmpty then s.putCore core { x with trace := x.trace ++ [p] }
    else s.putCore core { x with pendingPackets := x.pendingPackets ++ [p], stalled := true }

/-- An event packet of a warp (Table 28.4, type 3). -/
def State.event (s : State) (w : Warp) (source ev code : Nat) : State :=
  let t := s.teamOf w
  s.emit w.core 2 source 3
    (s.ctxOf w * 2 ^ 48 + ev * 2 ^ 40 + code * 2 ^ 32 + (w.safeOrd.getD 0xFFFFFFFF))
    ((s.kernOf w).id * 2 ^ 32 + min w.sinceSafe 65535 * 2 ^ 16 + t.index % 2 ^ 16) s.mod.gts

end Sys2Proof.Machine
end

