-- ==== Sys2Proof/Machine/Pending.lean ====
section
/-! DEFINITION. What the long-latency instructions in flight still write, and what a read or a write of such a register
gives inside their windows (R106, R166, R194, R199). -/
namespace Sys2Proof

def regsOf (wide : Bool) : Nat := if wide then 2 else 1

end Sys2Proof

namespace Sys2Proof.Machine

/-! ## Register writes -/

/-- Where a register write goes, as `Flight.dests` names it: a lane and a V register, 32 and a W register, or 64 above the lane and
a predicate. -/
def RegW.dest : RegW → Nat × Nat
  | .v l n _ => (l, n)
  | .w n _ => (32, n)
  | .p l n _ => (64 + l, n)
/-- The value written; a predicate's as 0 or 1. -/
def RegW.value : RegW → Word
  | .v _ _ x | .w _ x => x
  | .p _ _ b => if b then 1 else 0

/-- What one result writes to a destination (as `Ctx.put`). -/
def regWrites (d : Opnd) (l : Nat) (wide : Bool) (x : Nat) : List RegW :=
  match d with
  | .v n => .v l n (BitVec.ofNat 32 x) :: (if wide then [.v l (n + 1) (BitVec.ofNat 32 (x / 2 ^ 32))] else [])
  | .w n => .w n (BitVec.ofNat 32 x) :: (if wide then [.w (n + 1) (BitVec.ofNat 32 (x / 2 ^ 32))] else [])
  | _ => []

/-- The registers of a destination of `k` registers in the lanes given. -/
def destsOf (d : Opnd) (lanes : List Nat) (k : Nat) : List (Nat × Nat) :=
  match d with
  | .v n => lanes.flatMap (fun l => (List.range k).map (fun i => (l, n + i)))
  | .w n => (List.range k).map (fun i => (32, n + i))
  | _ => []

/-- A matrix into a lane's registers. -/
def matWrites (l base : Nat) (s : Shape) (m : RawM) : List RegW := (s.regs m).map (fun e => .v l (base + e.1) (BitVec.ofNat 32 e.2))

/-! ## Loads that are satisfied -/

/-- The registers that a satisfied item writes: elements narrower than 32 bits extended (R75, R166). -/
def LoadItem.writes (i : LoadItem) (bytes : List Byte) : List RegW :=
  let e := i.ty.bytes
  (List.range i.cnt).flatMap (fun k =>
    let x := leNat ((bytes.drop (e * k)).take e)
    let x := if i.ty.wide then x else i.ty.extend x
    match i.dst with
    | .v n => regWrites (.v (n + regsOf i.ty.wide * k)) i.lane i.ty.wide x
    | .w n => regWrites (.w (n + regsOf i.ty.wide * k)) i.lane i.ty.wide x
    | _ => [])

/-- The bytes of an item, when all its loads are satisfied. -/
def State.loaded (s : State) (ids : List Nat) : Option (List Byte) :=
  ids.foldr (fun id acc => match acc, s.loads.find? (fun l => l.id == id) with
    | some bs, some l => l.val.map (· :: bs)
    | _, _ => none) (some [])

/-- The register writes of items whose loads are all satisfied. -/
def State.itemWrites (s : State) (items : List LoadItem) : Option (List RegW) :=
  items.foldr (fun i acc => match acc, s.loaded i.loads with
    | some ws, some bs => some (i.writes bs ++ ws)
    | _, _ => none) (some [])

/-- What satisfied loads write (R199); none until every load is satisfied. -/
def State.matrixWritesOf (s : State) (items : List (Nat × Nat × Nat × List Nat)) : Option (List RegW) :=
  items.foldr (fun i acc => match acc, s.loaded i.2.2.2 with
    | some ws, some bs => some (matWrites i.1 i.2.1 (shapeOf i.2.2.1) (fromBytes (shapeOf i.2.2.1) bs) ++ ws)
    | _, _ => none) (some [])

/-- What a flight is known to write: what its issue or an atomic's return has fixed, and the elements whose loads are all
satisfied. -/
def State.known (s : State) (f : Flight) : List RegW :=
  f.writes ++ match f.kind with
    | .load items | .acquire _ items =>
      items.flatMap (fun i => match s.loaded i.loads with | some bs => i.writes bs | none => [])
    | .matrixLoad items => items.flatMap (fun i => ((s.matrixWritesOf [i]).getD []))
    | _ => []

/-! ## Inside a window (R106) -/

/-- What a free choice of a warp's instruction starts from: the step's own free values, or in a deterministic grid, whose
runs all write the same bits (R372), the same ones every time (log 2, log 68). -/
def State.seed (s : State) (w : Warp) : Nat := if w.det then 0 else s.fresh

/-- The values that a register may be read as: the old one and those still to be written. A lane of 32 stands for the W
registers, one of 64 on for predicates. A read in a deterministic grid gives the old value (log 68). -/
def State.owed (s : State) (w : Warp) (lane n : Nat) : List Word :=
  if w.det then []
  else w.flights.flatMap (fun f => ((s.known f).filter (fun r => r.dest == (lane, n))).map RegW.value)

/-- A read inside the window gives the old value or a new one (a free choice, log 2). -/
def windowRead (s : State) (w : Warp) (lane n : Nat) (old : Word) : Word :=
  if w.flights.isEmpty then old
  else
    let xs := old :: s.owed w lane n
    xs.getD (Config.free (s.fresh + vkey lane n) % xs.length) old

/-- After a write inside the window the register holds either value once both have completed (a free choice, log 2); in a deterministic
grid, the one written (log 68). -/
def windowWrite (s : State) (w : Warp) (lane n : Nat) : Warp :=
  if w.flights.isEmpty && w.deferred.isEmpty then w
  else { w with
    flights := w.flights.map (fun f =>
      if f.dests.contains (lane, n) && (w.det || Config.free (s.fresh + 40000 + vkey lane n) % 2 = 0) then { f with kept := (lane, n) :: f.kept } else f)
    deferred := w.deferred.filter (fun x => x.write.dest != (lane, n)) }

def RegW.apply (w : Warp) : RegW → Warp
  | .v l n x => w.setV l n x
  | .w n x => w.setW n x
  | .p l n b => w.modTh l (fun t => t.setPred n b)

/-! ## Results inside a window of a deterministic grid (R106, R372, log 68) -/

/-- A result of the issue `order` goes to its register: what it and earlier instructions still have for it is void. -/
def Warp.supersede (w : Warp) (order : Nat) (d : Nat × Nat) : Warp :=
  { w with
    flights := w.flights.map (fun g => if g.dests.contains d && decide (g.order < order) then { g with kept := d :: g.kept } else g)
    deferred := w.deferred.filter (fun x => !(x.write.dest == d && decide (x.order ≤ order))) }

/-- Is the window over, for one of its lanes? -/
def Deferred.over (x : Deferred) : Bool := x.win.isEmpty || x.win.any (fun e => e.2 == 0)

/-- The results that `p` picks reach their registers, in the order of their instructions. -/
def Warp.release (w : Warp) (p : Deferred → Bool) : Warp :=
  (sortBy (fun a b => decide (a.order ≤ b.order)) (w.deferred.filter p)).foldl (fun w x =>
    if w.deferred.contains x then x.write.apply (w.supersede x.order x.write.dest) else w) w

/-- Every window is closed: trap entry and a save wait for that (R105, R331). -/
def Warp.releaseAll (w : Warp) : Warp := w.release (fun _ => true)

/-- The front has issued once more. -/
def Warp.passDeferred (w : Warp) (front : Mask) : Warp :=
  if w.deferred.isEmpty then w
  else ({ w with deferred := w.deferred.map (fun x =>
    { x with win := Table.mapVal (fun l n => if front.has l then n - 1 else n) x.win }) } : Warp).release Deferred.over

/-- A predicate as an instruction reads it: inside a window, QTRY's old or new one (log 29). -/
def State.pred (s : State) (w : Warp) (l n : Nat) : Bool :=
  windowRead s w (64 + l) n (if (w.th l).pred n then 1 else 0) != 0

end Sys2Proof.Machine
end

