-- ==== Sys2Proof/Machine/Ops.lean ====
section
/-! DEFINITION. The operations that every meaning shares: fronts and switch points (R26–R32), what one issue does (R30,
R106), ownership of partitions (R343, R348), the end of a context (R334), and taking a trap and returning from it
(R328–R333). -/
namespace Sys2Proof.Machine

/-! ## Fronts (R26, R29, R31) -/

def TState.gone : TState → Bool
  | .exited | .deposited => true
  | _ => false
def TState.isReady : TState → Bool
  | .ready => true
  | _ => false

/-- The lanes that are neither EXITED nor DEPOSITED. -/
def Warp.living (w : Warp) : Mask := Mask.ofPred (fun l => !(w.th l).st.gone)

/-- The lanes that may be in a front now: those of the routine that runs (R338), else of the handler front (R332), else
all. -/
def Warp.allowed (w : Warp) : Mask :=
  match w.resid with
  | .busy r => r.mask
  | _ => match w.trap with
    | some t => t.lanes
    | none => Mask.all

def Warp.readyMask (w : Warp) : Mask :=
  Mask.ofPred (fun l => (w.th l).st.isReady && w.allowed.has l && !w.parked.has l)

/-- The remaining count of a thread: 0 outside a REP (R26). -/
def Thread.count (t : Thread) : Nat := if t.inRep then t.rep else 0

/-- The front of a READY lane (R29). -/
def Warp.frontOf (w : Warp) (l : Nat) : Mask :=
  Mask.ofPred (fun l' => w.readyMask.has l' && (w.th l').pc == (w.th l).pc && (w.th l').count == (w.th l).count)

/-- R31: the next front after `left`. The switch costs a clk unless the new front holds every living lane of the front that was current
until now. -/
def Warp.select (w : Warp) (left : Option Mask) : Warp :=
  let ready := w.readyMask.lanes
  match (ready.find? (fun l => decide (w.rot ≤ l))).or ready.head? with
  | none => { w with cur := none, choosing := none, quantum := 0, switching := false }
  | some l =>
    let f := w.frontOf l
    let free := match left with
      | some o => (o &&& w.living &&& ~~~f) == 0
      | none => false
    { w with cur := some f, choosing := none, rot := f.lowest.getD l, quantum := 0, switching := !free, aged := false }

/-- A switch point. `rotate` is a quantum switch or YIELD. While a save is due, the choice waits until the fronts at safe points are parked;
in a deterministic grid none is (R336). -/
def Warp.reselect (w : Warp) (rotate : Bool) : Warp :=
  let w := { w with rot := if rotate then (match w.cur.bind Mask.lowest with | some l => l + 1 | none => w.rot) else w.rot }
  if w.saveDue.isEmpty || w.det then w.select w.cur
  else { w with cur := none, choosing := some (w.choosing.getD w.cur), quantum := 0, switching := false }

/-- A choice that has waited is made. -/
def Warp.choose (w : Warp) : Warp :=
  match w.choosing with
  | some left => w.select left
  | none => w

/-- After states of threads have changed: the current front keeps its READY lanes; with none left this is switch point
3, and a warp without a current front that has a READY thread is at switch point 5 (R30). -/
def Warp.regroupFront (w : Warp) : Warp :=
  match w.cur with
  | some f => if (f &&& w.readyMask) == 0 then w.reselect false else { w with cur := some (f &&& w.readyMask) }
  | none => if w.readyMask == 0 || w.choosing.isSome then w else w.reselect false

/-! ## One issue (R26, R30, R106) -/

/-- A thread past an instruction of `len` bytes: the next repeat inside a REP, else the next address (R26, R111). -/
def Thread.next (t : Thread) (len : Nat) : Thread :=
  if t.inRep then
    if t.rep ≤ 1 then { t with pc := (t.pc + 8 + len) % 2 ^ 32, rep := 0, inRep := false }
    else { t with rep := t.rep - 1 }
  else { t with pc := (t.pc + len) % 2 ^ 32 }

/-- Does a save or restore routine of the warp run (R338, R340)? -/
def Warp.inRoutine (w : Warp) : Bool := match w.resid with
  | .busy _ => true
  | _ => false

/-- Where the warp runs: 0 in its main code, 1 in a trap handler, 2 in a routine (R306, R332, R338). -/
def Warp.level (w : Warp) : Nat := if w.inRoutine then 2 else if w.trap.isSome then 1 else 0

/-- A level has been left: no lane reaches what was performed ahead there, nor issues what it was to pass the Keyhole with. -/
def Warp.leaves (w : Warp) (level : Nat) : Warp :=
  { w with early := w.early.filter (fun e => e.level ≠ level), passKeyhole := w.passKeyhole.filter (fun e => e.1 ≠ level) }

/-- Does a front pass the Keyhole where it stands (R329, R354)? -/
def Warp.passes (w : Warp) (front : Mask) : Bool := front.lanes.any (fun l => w.passKeyhole.contains (w.level, l, (w.th l).pc))
/-- The front has issued, or its instruction has trapped: it passes nothing more. -/
def Warp.unpass (w : Warp) (front : Mask) : Warp :=
  { w with passKeyhole := w.passKeyhole.filter (fun e => !(e.1 == w.level && front.has e.2.1)) }

/-- Each issue counts once for the quantum, once for every window of its lanes, and once since the safe point. -/
def Warp.count (w : Warp) (front : Mask) : Warp :=
  { w with
    replays := if w.trap.isSome || w.inRoutine then w.replays else w.replays.filter (fun r => (front &&& r.lanes) == 0)
    released := w.released &&& ~~~front
    quantum := w.quantum + 1, order := w.order + 1, wait := none, waitPage := none, passKeyhole := (w.unpass front).passKeyhole
    access := w.access &&& ~~~front, missing := [], walked := []
    sinceSafe := w.sinceSafe + 1
    flights := w.flights.map (fun f => { f with win := Table.mapVal (fun l n => if front.has l then n - 1 else n) f.win }) }

def Warp.advance (w : Warp) (front : Mask) (len : Nat) : Warp := w.modLanes front (fun _ t => t.next len)

/-! ## Ownership of partitions (R343, R348, R350) -/

/-- The run of a port ends: its slot record is emitted on channel 0. -/
def State.endRun (s : State) (p port : Nat) : State :=
  let x := s.part p
  let q := Table.get {} x.ports port
  match q.run with
  | none => s
  | some r =>
    let s := s.putPart p { x with ports := Table.put x.ports port { q with run := none } }
    s.emit (coreOfPart p) 0 p 1 (r.ctx * 2 ^ 48 + port * 2 ^ 46 + r.cause * 2 ^ 41 + r.pc) (r.kernel * 2 ^ 32 + r.count) r.since

/-- The account of a context; context 0's is the module's (Table 34.1). -/
def State.accountAt (s : State) (ctx : Nat) : Nat :=
  if ctx = 0 then (s.mod.bringup.map (·.account)).getD 0 else (s.context ctx).account

/-- R348: the counters of a partition are added into its owner's account and cleared. A context whose record gives no account has
none (Table 34.3); the module's own may lie at any address (Table 34.1). -/
def State.flushPart (s : State) (p : Nat) : State :=
  let x := s.part p
  let base := s.accountAt x.owner
  let s := if (x.owner ≠ 0 && base = 0) || s.mod.bringup.isNone then s else
    x.counters.foldl (fun s e => s.pokeN (base + 8 * e.1) 8 ((s.peekN (base + 8 * e.1) 8 + e.2) % 2 ^ 64)) s
  s.modPart p (fun x => { x with counters := [] })

/-- A change of ownership between two clocks: runs end and the counters go to the outgoing owner (R348, R350). -/
def State.changeOwner (s : State) (p ctx : Nat) : State :=
  let s := s.modPart p (fun x => { x with nextOwner := none })
  if (s.part p).owner = ctx then s
  else
    let s := ((s.endRun p 0).endRun p 1).endRun p 2
    (s.flushPart p).modPart p (fun x => { x with owner := ctx, switching := false, releasing := false })

/-- A change of ownership; one that comes about in a clock of the core waits for its end (R343). -/
def State.setOwner (s : State) (p ctx : Nat) : State :=
  if (s.core (coreOfPart p)).clk = .running then s.modPart p (fun x => { x with nextOwner := some ctx }) else s.changeOwner p ctx

/-! ## The end of a context's grids (R334, R382) -/

/-- Every grid of the context ends at once: its threads issue nothing more, its copies and streams are abandoned, its
Latch entries released, its save areas are free, and its partitions given up (R343). What stands in the buffers stays. -/
def State.endGrids (s : State) (ctx : Nat) : State :=
  let isCtx (w : Warp) : Bool := s.ctxOf w == ctx
  let dead := (s.warps.filter (fun e => isCtx e.2)).map (·.1)
  let s := s.modContext ctx (fun c => { c with areas := [] })
  let s1 := { s with
    warps := s.warps.filter (fun e => !dead.contains e.1)
    loads := s.loads.filter (fun l => match l.for_ with | .warp w _ => !dead.contains w | .copy c _ => s.copies.all (fun x => x.id != c || x.ctx != ctx))
    copies := s.copies.filter (fun c => c.ctx != ctx)
    mod := { s.mod with
      grids := s.mod.grids.filter (fun e => e.2.ctx != ctx)
      teams := s.mod.teams.filter (fun e => (s.grid e.2.grid).ctx != ctx)
      spans := s.mod.spans.filter (fun e => (s.grid e.2.grid).ctx != ctx) } }
  (s1.parts.filter (fun e => e.2.owner == ctx && ctx != 0)).foldl (fun s e => s.setOwner e.1 0) s1

/-- R334: an error record of kind 0x10 with the cause in its detail, and every grid of the context ends. -/
def State.endContext (s : State) (ctx source cause : Nat) : State :=
  (s.errorRecord 0x10 ctx source cause).endGrids ctx

/-! ## Traps (R328–R333) -/

def TrapCause.code : TrapCause → Nat
  | .illegalOpcode => 1
  | .illegalOperand => 2
  | .illegalTarget => 3
  | .misaligned => 4
  | .accessViolation => 5
  | .latchConflict => 6
  | .staleHandle => 7
  | .shapeOverflow => 8
  | .singular => 9
  | .fpInvalid => 10
  | .fpDivzero => 11
  | .fpOverflow => 12
  | .fpUnderflow => 13
  | .fpInexact => 14
  | .detViolation => 15
  | .queueMisuse => 16
  | .nestDepth => 17
  | .trap => 18
  | .breakpoint => 19
  | .keyhole => 20

def TrapCause.isStop : TrapCause → Bool
  | .breakpoint | .keyhole => true
  | _ => false

/-- SR_TRAPCAUSE (Table 26.1). -/
def trapWord (cause : TrapCause) (code op : Nat) : Word := BitVec.ofNat 32 (code % 2 ^ 10 * 2 ^ 16 + op % 2 ^ 8 * 2 ^ 8 + cause.code)

/-- SR_TVEC without a handler (Table 4.6). -/
def noHandler : Word := 0xFFFFFFF8#32

/-- The return points of the lanes of a front as they stand: lane, PC, bytes from the PC to the instruction after a
repeated one, and whether the lane stands inside a REP. `len` is the length of the instruction at hand. -/
def Warp.retPoints (w : Warp) (front : Mask) (len : Nat) : List (Nat × Nat × Nat × Bool) :=
  front.lanes.map (fun l => let t := w.th l; (l, t.pc, 8 + len, t.inRep))

/-- Step 2 of R331: the warp's TSQ entries move to the end of WQ, in their order (R309). -/
def State.toWq (s : State) (wid : Nat) : State :=
  let mine (e : Entry) : Bool := match e.place with | .tsq w _ => w == wid | _ => false
  { s with entries := s.entries.filter (fun e => !mine e) ++ (s.entries.filter mine).map (fun e => { e with place := .wq wid }) }

/-- The entry of a trap that is due, once no load, acquire or atomic of the warp is outstanding, those that return nothing too, and every
window is closed (R308, R331). BREAKPOINT and KEYHOLE stop the warp instead of step 5 (R335). -/
def State.enterTrap (s : State) (wid : Nat) : State :=
  match s.warp? wid with
  | none => s
  | some w =>
    match w.pend with
    | none => s
    | some p =>
      if !w.flights.isEmpty || s.entries.any (fun e => e.warp == wid && e.kind.isAtomic) then s
      else if !p.cause.isStop && w.tvec == noHandler then s.endContext (s.ctxOf w) w.part p.cause.code
      else
        let r : TrapRec := { lanes := p.front, ret := p.ret, kind := p.kind, replay := p.replay, cause := p.cause }
        let w := { w.releaseAll with
          pend := none, trapcause := trapWord p.cause p.code p.op, traplanes := p.planes, wait := none, waitPage := none
          access := w.access &&& ~~~p.front, missing := [], walked := [] }
        let s := (s.toWq wid).event w w.part 1 p.cause.code
        if p.cause.isStop then
          (s.putWarp wid { w with stopped := some r }).errorRecord 0x1A (s.ctxOf w) w.part (16 * w.part + w.slot)
        else
          let live := p.front &&& w.living
          let w := w.modLanes live (fun _ t =>
            { t with st := .ready, pc := w.tvec.toNat, inRep := false, rep := if t.inRep then t.rep else 0 })
          s.putWarp wid { w with trap := some r, cur := some live, choosing := none, quantum := 0, switching := false }

/-- TAKING AN EXCEPTION: a trap of the cause is due at the warp's current point, its lanes and return points recorded.
A trap raised while another is in progress or due, or inside a routine, and one with no handler, end the context (R334). -/
def State.raise (s : State) (wid : Nat) (cause : TrapCause) (code op : Nat) (planes front : Mask)
    (ret : List (Nat × Nat × Nat × Bool)) (kind : RetKind) (replay : Option (Mask × DWord)) : State :=
  match s.warp? wid with
  | none => s
  | some w =>
    if !cause.isStop && (w.trap.isSome || w.pend.isSome || w.inRoutine) then s.endContext (s.ctxOf w) w.part cause.code
    else
      (s.putWarp wid { w with
        pend := some { cause := cause, code := code, op := op, planes := planes, front := front, ret := ret, kind := kind, replay := replay } }).enterTrap wid

/-- A lane back at its return point: inside a REP, SR_REP is the count that it resumes with (R111, R330). -/
def Thread.resume (t : Thread) (pc past : Nat) (inRep : Bool) : Thread :=
  if inRep then
    if t.rep = 0 then { t with st := .ready, pc := (pc + past) % 2 ^ 32, inRep := false }
    else { t with st := .ready, pc := pc, inRep := true }
  else { t with st := .ready, pc := pc, inRep := false, rep := 0 }

/-- R333, R144: the trap in progress ends, for every lane of the handler front that lives. Switch point 6. -/
def Warp.endTrap (w : Warp) (r : TrapRec) : Warp :=
  let live := r.lanes &&& w.living
  let w := r.ret.foldl (fun w e => if live.has e.1 then w.modTh e.1 (fun t => t.resume e.2.1 e.2.2.1 e.2.2.2) else w) w
  ({ w with trap := none, replays := match r.kind, r.replay, r.ret with
    | .replay, some a, e :: _ => if live == 0 then w.replays else w.replays ++ [({ pc := e.2.1, lanes := live, active := a.1, seed := a.2 } : Replay)]
    | _, _, _ => w.replays }).leaves 1 |>.reselect false

/-- The trap ends when every living lane of the handler front has executed TRET, or none lives (R132, R333). -/
def Warp.trapOver (w : Warp) : Option TrapRec :=
  match w.resid, w.trap with
  | .busy _, _ => none
  | _, some r =>
    if (r.lanes &&& w.living).lanes.all (fun l => match (w.th l).st with | .tret => true | _ => false) then some r else none
  | _, none => none

/-! ## One instruction of the current front -/

/-- What a meaning works on: the warp, its current front and the lanes whose guard passes (R96). -/
structure Ctx where
  s : State
  wid : Nat
  w : Warp
  front : Mask
  active : Mask
  op : Nat
  len : Nat

/-- How an issue ends. `done` moves the front past the instruction and raises the lanes' flags; `moved` has set PCs, states and counts
itself; `wait` leaves everything as it was, and so does `fault`, which waits for a page: its base, size and the fault's kind (R285);
`hold` waits too, with loads begun that it waits for, and `walk` for the walks of pages; `trap` takes a trap with its lanes, code and what TRET does. -/
inductive Iss
  | done (s : State) (raised : List (Nat × Nat) := [])
  | moved (s : State)
  | wait (c : Cause)
  | hold (s : State) (c : Cause)
  | walk (units : List Nat)
  | fault (page size kind : Nat)
  | trap (s : State) (cause : TrapCause) (lanes : Mask) (kind : RetKind := .reissue) (code : Nat := 0)

/-- The lanes of a front whose guard passes (R96). On a replay, the resumed lanes that were active at the instruction's
first issue (R144). -/
def State.activeLanes (s : State) (w : Warp) (front : Mask) (h : Hdr) : Mask :=
  Mask.ofPred (fun l => front.has l &&
    match w.replays.find? (fun r => r.lanes.has l && (w.th l).pc == r.pc) with
    | some r => r.active.has l
    | none => s.pred w l h.p != h.neg)

/-- The generator's state that an .SR instruction of the front steps: a replay's own (R89), else the warp's. -/
def Warp.srFrom (w : Warp) (front : Mask) : DWord :=
  match w.replays.find? (fun r => (r.lanes &&& front) != 0 && (w.th (front.lowest.getD 0)).pc == r.pc) with
  | some r => r.seed
  | none => w.srstate

/-- The causes of flags, in the order of R330, with the SR_FPF bit of each. -/
def flagCauses : List (TrapCause × Nat) :=
  [(.singular, 5), (.fpInvalid, 4), (.fpDivzero, 3), (.fpOverflow, 2), (.fpUnderflow, 1), (.fpInexact, 0)]

/-- R68, R330: after completion, enabled flags trap, with the first cause in order, its lanes, and all of them in the
code. `ret` are the return points, `op` the instruction. -/
def State.flagTrap (s : State) (wid op : Nat) (front : Mask) (ret : List (Nat × Nat × Nat × Bool))
    (raised : List (Nat × Nat)) : State :=
  match s.warp? wid with
  | none => s
  | some w =>
    let all := raised.foldl (fun a e => a ||| e.2) 0 &&& w.fpctl.toNat % 64
    match flagCauses.find? (fun c => all / 2 ^ c.2 % 2 = 1) with
    | none => s
    | some (cause, bit) =>
      s.raise wid cause all op (Mask.ofList ((raised.filter (fun e => e.2 / 2 ^ bit % 2 = 1)).map (·.1))) front ret .next none

/-- A lookup of a die for a page goes to a walker, or waits for one; one walk serves all lookups of the page (R283). -/
def State.startWalk (s : State) (d ctx unit : Nat) : State :=
  if (s.die d).walks.any (fun x => x.ctx == ctx && x.va == unit) then s
  else
    let (id, s) := s.newId
    s.modDie d (fun x => { x with walks := x.walks ++ [{ id := id, ctx := ctx, va := unit, level := 4, table := (s.context ctx).root }] })

/-- The state after an issue. -/
def Ctx.settle (c : Ctx) : Iss → State
  | .done s raised =>
    let s := s.modWarp c.wid (fun w =>
      raised.foldl (fun w e => w.orFpf e.1 e.2) ((w.count c.front).advance c.front c.len))
    match s.warp? c.wid with
    | some w => s.flagTrap c.wid c.op c.front (w.retPoints c.front c.len) raised
    | none => s
  | .moved s => s
  | .wait cause => c.s.modWarp c.wid (fun w => { w with wait := some cause, waitPage := none })
  | .hold s cause => s.modWarp c.wid (fun w => { w with wait := some cause, waitPage := none })
  | .walk units =>
    (units.foldl (fun s u => s.startWalk (dieOfCore c.w.core) (s.ctxOf c.w) u) c.s).modWarp c.wid (fun w => { w with
      wait := some .tlbWait, waitPage := none, missing := units })
  | .fault page size kind =>
    c.s.modWarp c.wid (fun w => { w with
      wait := some (if kind = 4 then .ifetch else .faultWait), waitPage := some (page, size, kind)
      access := if kind = 4 then w.access else w.access ||| c.front, missing := [], walked := [] })
  | .trap s cause lanes kind code =>
    match s.warp? c.wid with
    | none => s
    | some w =>
      let w' := match kind with
        | .next => (w.count c.front).advance c.front c.len
        | _ => { w.unpass c.front with wait := none }
      let replay := match kind with
        | .replay => some (c.active, c.w.srFrom c.front)
        | _ => none
      (s.putWarp c.wid w').raise c.wid cause code c.op lanes c.front (w'.retPoints c.front c.len) kind replay

/-- The warp with this issue counted, for the forms that set PCs themselves. -/
def Ctx.counted (c : Ctx) : Warp := c.w.count c.front

/-- An issue of the current front of warp `s.cur`; with no current front nothing happens (log 12). `need` is the number
of V registers the instruction names (R55): every lane of the front is reported, and nothing changes (R97). -/
def issue (op len need : Nat) (h : Hdr) (s : State) (k : Ctx → Iss) : Res :=
  match s.warp? s.cur with
  | none => .next s
  | some w =>
    match w.cur with
    | none => .next s
    | some front =>
      let c : Ctx := { s := s, wid := s.cur, w := w, front := front, active := s.activeLanes w front h, op := op, len := len }
      .next (c.settle (if need ≤ (s.kernOf w).regs then k c else .trap s .illegalOperand front))

end Sys2Proof.Machine
end

