-- ==== Sys2Proof/Machine/Operands.lean ====
section
/-! DEFINITION. Operands: what a source gives and a destination receives (Tables 7.3, 7.4, R37, R55, R60, R98, R99,
R106). Values are the encodings as numbers; a pair is its low register plus 2^32 times its high one. -/
namespace Sys2Proof

/-- How many V registers an operand of `k` registers needs allocated (R55). -/
def Opnd.need (o : Opnd) (k : Nat) : Nat :=
  match o with
  | .v n => n + k
  | _ => 0
def BArg.need (b : BArg) (k : Nat) : Nat :=
  match b with
  | .opnd o => o.need k
  | _ => 0
def BArg.src : BArg → Opnd
  | .opnd o => o
  | _ => .none

/-- Sign extension of a `k`-bit number to `w` bits. -/
def signExt (k w x : Nat) : Nat := if x / 2 ^ (k - 1) % 2 = 1 then x % 2 ^ k + (2 ^ w - 2 ^ k) else x % 2 ^ k

/-- Table 7.4: an immediate as an operand of a type. -/
def immVal (ty : NumTy) (b : BArg) : Nat :=
  match b with
  | .opnd _ => 0
  | .imm10 i =>
    match ty with
    | .f32 => i.toNat * 2 ^ 22
    | .f64 => i.toNat * 2 ^ 54
    | .f16 | .bf16 => i.toNat * 2 ^ 6 * (2 ^ 16 + 1)
    | _ => signExt 10 (if ty.wide then 64 else 32) i.toNat
  | .imm32 i =>
    match ty with
    | .f64 => i.toNat * 2 ^ 32
    | .i64 | .u64 => signExt 32 64 i.toNat
    | _ => i.toNat

end Sys2Proof

namespace Sys2Proof.Machine

/-! ## Registers inside a lookahead window (R106) -/

def Ctx.pred (c : Ctx) (lane n : Nat) : Bool := c.s.pred c.w lane n
def Ctx.getV (c : Ctx) (lane n : Nat) : Word := windowRead c.s c.w lane n (c.w.getV lane n)
def Ctx.getW (c : Ctx) (n : Nat) : Word := windowRead c.s c.w 32 n (c.w.getW n)
def Ctx.setV (c : Ctx) (w : Warp) (lane n : Nat) (x : Word) : Warp := (windowWrite c.s w lane n).setV lane n x
def Ctx.setW (c : Ctx) (w : Warp) (n : Nat) (x : Word) : Warp := (windowWrite c.s w 32 n).setW n x

/-! ## Operand queues (R60) -/

def pairVal (lo hi : Word) : Nat := lo.toNat + 2 ^ 32 * hi.toNat

/-- Which entry of its queue the source at place `i` pops: sources pop in the order A, B, C, D, E (R60, R98). -/
def popIndex (os : List Opnd) (i : Nat) : Nat :=
  match os[i]? with
  | some (.oq q) => (os.take i).countP (· == .oq q)
  | _ => 0

def oqNeed (os : List Opnd) (q : Nat) : Nat := os.countP (· == .oq q)

/-- The queues that the sources name, in the order A, B, C. -/
def oqsOf (os : List Opnd) : List Nat := os.filterMap (fun o => match o with | .oq q => some q | _ => none)

/-- The three cases of R60 at issue: none when every queue holds the entries to be popped. A queue that holds fewer counts as empty, and
of several the first that a field names decides (log 71). An empty queue of a RUNNING stream waits; one in FAULT traps with its cause and
the lanes that failed (R273); otherwise the pop traps for the active lanes, of which there must be one (R97). -/
def Ctx.popCheck (c : Ctx) (os : List Opnd) : Option Iss :=
  match (oqsOf os).find? (fun q => (Table.get [] c.w.oqs q).length < oqNeed os q) with
  | none => none
  | some q =>
    match (Table.get {} c.w.streams q).st with
    | .running => some (.wait .memWait)
    | .fault =>
      let x := Table.get {} c.w.streams q
      if c.active == 0 then none else some (.trap c.s x.cause x.bad)
    | _ => if c.active == 0 then none else some (.trap c.s .queueMisuse c.active)

/-- The popped entries leave their queues; a stream's position counts them (R272). -/
def popQueues (os : List Opnd) (w : Warp) : Warp :=
  [0, 1, 2, 3].foldl (fun w q =>
    let n := min (oqNeed os q) (Table.get [] w.oqs q).length
    if n = 0 then w
    else { w with
      oqs := Table.put w.oqs q ((Table.get [] w.oqs q).drop n)
      streams := Table.put w.streams q (let x := Table.get {} w.streams q; { x with popped := x.popped + n }) }) w

/-! ## Sources and destinations -/

/-- What the source at place `i` of `os` gives lane `l`. An OQ entry holds one 32-bit value per lane; as a 64-bit operand
its upper half is not given (a free value, log 2). -/
def Ctx.rd (c : Ctx) (os : List Opnd) (i : Nat) (wide : Bool) (l : Nat) : Nat :=
  match os[i]? with
  | some (.v n) => if wide then pairVal (c.getV l n) (c.getV l (n + 1)) else (c.getV l n).toNat
  | some (.w n) => if wide then pairVal (c.getW n) (c.getW (n + 1)) else (c.getW n).toNat
  | some (.oq q) =>
    let x := ((Table.get [] c.w.oqs q).getD (popIndex os i) []).getD l 0
    if wide then pairVal x (BitVec.ofNat 32 (Config.free (c.s.seed c.w + 80000 + 32 * i + l))) else x.toNat
  | some .lane => l
  | some .warp => c.w.num
  | some .ones => if wide then 2 ^ 64 - 1 else 2 ^ 32 - 1
  | _ => 0

/-- Operand B: the source at its place, or its immediate widened for the type (R99). -/
def Ctx.rdB (c : Ctx) (os : List Opnd) (i : Nat) (b : BArg) (ty : NumTy) (wide : Bool) (l : Nat) : Nat :=
  match b with
  | .opnd _ => c.rd os i wide l
  | _ => immVal ty b

/-- The lanes that execute: once, in the lowest active lane, for a uniform form (R37). -/
def Ctx.lanes (c : Ctx) (d : Opnd) : List Nat := if d.isW then c.active.lowest.toList else c.active.lanes

/-- A result in its destination; code 1016 discards it (Table 7.3). -/
def Ctx.put (c : Ctx) (w : Warp) (d : Opnd) (l : Nat) (wide : Bool) (x : Nat) : Warp :=
  match d with
  | .v n =>
    let w := c.setV w l n (BitVec.ofNat 32 x)
    if wide then c.setV w l (n + 1) (BitVec.ofNat 32 (x / 2 ^ 32)) else w
  | .w n =>
    let w := c.setW w n (BitVec.ofNat 32 x)
    if wide then c.setW w (n + 1) (BitVec.ofNat 32 (x / 2 ^ 32)) else w
  | _ => w

/-- A predicate written in each active lane. -/
def Ctx.putPred (c : Ctx) (w : Warp) (n : Nat) (b : Nat → Bool) : Warp :=
  (c.active.lanes.foldl (fun w l => windowWrite c.s w (64 + l) n) w).modLanes c.active (fun l t => t.setPred n (b l))

/-- The flags raised: a uniform form's in every active lane (R171). -/
def Ctx.raisedBy (c : Ctx) (d : Opnd) (res : List (Nat × FRes)) : List (Nat × Nat) :=
  if d.isW then
    match res with
    | [(_, r)] => if r.flags = 0 then [] else c.active.lanes.map (fun l => (l, r.flags))
    | _ => []
  else (res.filter (fun e => e.2.flags ≠ 0)).map (fun e => (e.1, e.2.flags))

/-- A form that reads sources and writes one destination in its lanes, at once: layouts A and A3. `sem l` gives lane
`l`'s result with its flags. -/
def Ctx.alu (c : Ctx) (d : Opnd) (wd : Bool) (os : List Opnd) (sem : Nat → FRes) : Iss :=
  match c.popCheck os with
  | some i => i
  | none =>
    let res := (c.lanes d).map (fun l => (l, sem l))
    let w := res.foldl (fun w e => c.put w d e.1 wd e.2.bits) (popQueues os c.w)
    .done (c.s.putWarp c.wid w) (c.raisedBy d res)

/-- Layout A with two sources. -/
def formA (op : Nat) (f : FormA) (wd wa wb : Bool) (s : State) (sem : Ctx → Nat → Nat → Nat → FRes) : Res :=
  let os := [f.a, f.b.src]
  issue op (if f.b.x = 1 then 16 else 8) (max (f.d.need (regsOf wd)) (max (f.a.need (regsOf wa)) (f.b.need (regsOf wb)))) f.hdr s
    (fun c => c.alu f.d wd os (fun l => sem c l (c.rd os 0 wa l) (c.rdB os 1 f.b f.ty wb l)))

/-- Layout A3 with three sources. -/
def formA3 (op : Nat) (f : FormA3) (wd wa wb wc : Bool) (s : State) (sem : Ctx → Nat → Nat → Nat → Nat → FRes) : Res :=
  let os := [f.a, f.b.src, f.c]
  issue op (if f.b.x = 1 then 16 else 8)
    (max (max (f.d.need (regsOf wd)) (f.c.need (regsOf wc))) (max (f.a.need (regsOf wa)) (f.b.need (regsOf wb)))) f.hdr s
    (fun c => c.alu f.d wd os (fun l => sem c l (c.rd os 0 wa l) (c.rdB os 1 f.b f.ty wb l) (c.rd os 2 wc l)))

end Sys2Proof.Machine
end

