-- ==== Sys2Proof/Machine/Flags.lean ====
section
/-! DEFINITION. Conditions and predicates (Table 7.7, R157, R175), and the stochastic generator (R89, R90). The flags of
arithmetic are computed with the results in Machine/Float.lean and enter SR_FPF by `Ctx.settle` (R68). -/
namespace Sys2Proof

/-- Table 7.7 on integers; the conditions 6 to 13 are of floating point only. -/
def Cond.int (c : Cond) (a b : Int) : Bool :=
  match c with
  | .eq => a = b
  | .ne => a ≠ b
  | .lt => a < b
  | .le => a ≤ b
  | .gt => b < a
  | .ge => b ≤ a
  | _ => false

/-- R157: a result combined with the combining predicate. -/
def CombOp.apply (o : CombOp) (r p : Bool) : Bool :=
  match o with
  | .none => r
  | .and => r && p
  | .or => r || p
  | .xor => r != p

/-- R89, one step of the generator. -/
def srStep (x : DWord) : DWord :=
  let x := x ^^^ (x <<< 13)
  let x := x ^^^ (x >>> 7)
  x ^^^ (x <<< 17)

/-- SR_SRSTATE is never 0 (R89). -/
def srLaunch : DWord := 0x2545F4914F6CDD1D#64
def srFix (x : DWord) : DWord := if x = 0 then srLaunch else x

/-- R90: lane l's draw for element j from the warp's draw d. -/
def srDraw (d : Word) (l j : Nat) : Nat := (rotl32 d (5 * l) ^^^ BitVec.ofNat 32 (0x9E3779B9 * j)).toNat

end Sys2Proof

namespace Sys2Proof.Machine

/-- The warp's draw for an .SR instruction, and the state it leaves (R89). -/
def Warp.srNext (w : Warp) : DWord := srStep w.srstate
def Warp.draw (w : Warp) (l j : Nat) : Nat := srDraw w.srNext.hi l j

/-- The generator advances once for an .SR instruction, whether or not a lane was active (R89, log 50); its flight is marked. -/
def srAfter (rnd : Rnd) (wid : Nat) (s : State) : State :=
  if rnd = .sr then s.modWarp wid (fun w => { w with
    srstate := w.srNext, flights := w.flights.map (fun f => if f.order = w.order then { f with sr := true } else f) }) else s

def Iss.sr (i : Iss) (rnd : Rnd) (wid : Nat) : Iss :=
  match i with
  | .done s r => .done (srAfter rnd wid s) r
  | x => x

/-- The same of a memory form, whose replay steps the state that its first issue began from (R89, log 67). -/
def Iss.srDone (i : Iss) (rnd : Rnd) (c : Ctx) : Iss :=
  match i with
  | .done s r => .done (if rnd = .sr then s.modWarp c.wid (fun w => { w with srstate := srStep (c.w.srFrom c.front) }) else s) r
  | x => x

/-- Layout P: a predicate result in each active lane, combined and written (R157). A destination of 7 discards it. -/
def formP (op : Nat) (f : FormP) (wa wb : Bool) (s : State) (sem : Ctx → Nat → Nat → Nat → Bool × Nat) : Res :=
  let os := [f.a, f.b.src]
  issue op (if f.b.x = 1 then 16 else 8) (max (f.a.need (regsOf wa)) (f.b.need (regsOf wb))) f.hdr s (fun c =>
    match c.popCheck os with
    | some i => i
    | none =>
      let res (l : Nat) : Bool × Nat := sem c l (c.rd os 0 wa l) (c.rdB os 1 f.b f.ty wb l)
      let w := c.putPred (popQueues os c.w) f.d (fun l => f.comb.apply (res l).1 (c.pred l f.cp != f.cneg))
      .done (c.s.putWarp c.wid w) ((c.active.lanes.filter (fun l => (res l).2 ≠ 0)).map (fun l => (l, (res l).2))))

end Sys2Proof.Machine
end

