-- ==== Sys2Proof/Machine/Flight.lean ====
section
/-! DEFINITION. Long-latency instructions in flight: how one starts and how one completes (R106, R107, R327). -/
namespace Sys2Proof.Machine

/-- R107: while an enable of SR_FPCTL is set, every form of layouts B and X runs as if LA were 0. -/
def Warp.lookahead (w : Warp) (la : Nat) : Nat := if w.fpctl.toNat % 64 = 0 then la else 0

/-- The instruction at hand starts its flight: its window is `la` issues of each active lane (counted from the next one),
and it may complete `lat` clocks of its core after `cc` clocks of its cluster, and `ns` nanoseconds from now at the earliest. Its number is `s.nextId`. -/
def Ctx.launch (c : Ctx) (s : State) (la lat : Nat) (kind : FKind) (writes : List RegW := []) (dests : List (Nat × Nat) := [])
    (raised : List (Nat × Nat) := []) (ns : Nat := 0) (cc : Nat := 0) : State :=
  let (id, s) := s.newId
  let f : Flight := {
    id := id, op := c.op, pc := (c.w.th (c.front.lowest.getD 0)).pc, lanes := c.active, front := c.front
    win := c.active.lanes.map (fun l => (l, la + 1))
    due := (s.core c.w.core).cyc + lat, cc := cc
    writes := writes, dests := writes.map RegW.dest ++ dests, raised := raised, kind := kind
    ret := (c.w.advance c.front c.len).retPoints c.front c.len, order := c.w.order
    at_ := (s.core c.w.core).cyc, born := s.mod.gts, notBefore := if ns = 0 then 0 else s.mod.gts + ns
    safe := c.w.safeOrd, dist := c.w.sinceSafe }
  s.modWarp c.wid (fun w => { w with flights := w.flights ++ [f] })

/-- The window in which a flight's register may be read as it was: its lane's, or for a W register that of every lane. -/
def Flight.winOf (f : Flight) (d : Nat × Nat) : SMap Nat := f.win.filter (fun e => d.1 == 32 || e.1 == d.1 || 64 + e.1 == d.1)

/-- One result of a flight. In a deterministic grid it reaches its register once no read may give the old value any more. -/
def Warp.landOne (w : Warp) (f : Flight) (r : RegW) : Warp :=
  let x : Deferred := { order := f.order, write := r, win := f.winOf r.dest }
  if f.kept.contains r.dest then w
  else if !w.det then r.apply w
  else if x.over then r.apply (w.supersede f.order r.dest)
  else { w with deferred := w.deferred ++ [x] }

/-- R106: the results of a flight reach their registers, but for those that a write of the window has replaced. -/
def Warp.land (w : Warp) (f : Flight) (more : List RegW) : Warp := (f.writes ++ more).foldl (fun w r => w.landOne f r) w

/-- A flight completes: registers, flags, an enabled flag's trap (R68), and a trap that waited for it (R331). -/
def State.complete (s : State) (wid : Nat) (f : Flight) (more : List RegW) (raised : List (Nat × Nat)) : State :=
  let s := s.modWarp wid (fun w =>
    (f.raised ++ raised).foldl (fun w e => w.orFpf e.1 e.2)
      ({ w with flights := w.flights.filter (fun g => g.id != f.id) }.land f more))
  (s.flagTrap wid f.op f.front f.ret (f.raised ++ raised)).enterTrap wid

/-- The loads of `n` bytes at a location, one a byte (R297), for the flight that is about to start. -/
def State.addLoads (s : State) (flight wid lane core loc n : Nat) (scope : Scope) (order : Nat) (acq : Bool) (nol1 : Bool := false) :
    State × List Nat :=
  let ids := (List.range n).map (s.nextId + 1 + ·)
  let news := (List.range n).map (fun i =>
    { id := s.nextId + 1 + i, for_ := .warp wid flight, warp := wid, lane := lane, core := core, loc := loc + i
      scope := scope, order := order, acq := acq, nol1 := nol1 : Load })
  ({ s with loads := s.loads ++ news, nextId := s.nextId + n }, ids)

/-- A flight's loads are no longer needed. -/
def State.dropLoads (s : State) (flight : Nat) : State :=
  { s with loads := s.loads.filter (fun l => match l.for_ with | .warp _ f => f != flight | .copy _ _ => true) }

def Warp.flight? (w : Warp) (k : Nat) : Option Flight := w.flights.find? (fun f => f.id == k)

/-- Layout B with its results known at issue: `sem l` is lane `l`'s result, `lat` the issue-to-use of Table 24.5. -/
def Ctx.formB (c : Ctx) (d : Opnd) (wd : Bool) (la lat : Nat) (os : List Opnd) (sem : Nat → FRes) : Iss :=
  match c.popCheck os with
  | some i => i
  | none =>
    let res := c.active.lanes.map (fun l => (l, sem l))
    let s := c.s.putWarp c.wid (popQueues os c.w)
    if c.active == 0 then .done s
    else .done (c.launch s (c.w.lookahead la) lat .plain (res.flatMap (fun e => regWrites d e.1 wd e.2.bits)) []
      ((res.filter (fun e => e.2.flags ≠ 0)).map (fun e => (e.1, e.2.flags))))

/-- Layout B with up to two sources. -/
def formB (op : Nat) (f : FormB) (wd wa wb : Bool) (s : State) (lat : Ctx → Nat) (sem : Ctx → Nat → Nat → Nat → FRes) : Res :=
  let os := [f.a, f.b.src]
  issue op (if f.b.x = 1 then 16 else 8) (max (f.d.need (regsOf wd)) (max (f.a.need (regsOf wa)) (f.b.need (regsOf wb)))) f.hdr s
    (fun c => c.formB f.d wd f.la (lat c) os (fun l => sem c l (c.rd os 0 wa l) (c.rdB os 1 f.b f.ty wb l)))

end Sys2Proof.Machine
end

