-- ==== Sys2Proof/Machine/Blocking.lean ====
section
/-! DEFINITION. When blocked threads become READY again: joins (R34, R35), TRET (R333), barriers (R133, R134), and the
release markers that those events wait for (R300). -/
namespace Sys2Proof.Machine

/-! ## Joins -/

/-- The release condition of R34 at address `a` for Jk. -/
def Warp.joinMet (w : Warp) (k a : Nat) : Bool :=
  (w.getJ k &&& w.living).lanes.all (fun l => match (w.th l).st with | .join _ => (w.th l).pc == a | _ => false)

/-- Every thread blocked at a JOIN whose condition holds leaves it. -/
def Warp.releaseJoins (w : Warp) : Warp :=
  w.modLanes Mask.all (fun _ t => match t.st with
    | .join k => if w.joinMet k t.pc then { t with st := .ready, pc := (t.pc + 8) % 2 ^ 32 } else t
    | _ => t)

/-- After threads have exited, deposited or arrived: joins leave, a trap ends, and the current front is what is left of
it (R30, R34, R132, R333). -/
def Warp.settle (w : Warp) : Warp :=
  let w := w.releaseJoins
  match w.trapOver with
  | some r => w.endTrap r
  | none => w.regroupFront

/-! ## Release markers (R300) -/

def EKind.isMarker : EKind → Bool
  | .relMarker | .fenceMarker => true
  | _ => false

/-- Does a lane of the warp still have a release marker on its way, of a form that `own` tells from others (R148, R300)? -/
def State.marked (s : State) (wid lane : Nat) (own : Entry → Bool) : Bool :=
  s.entries.any (fun e => e.kind == .relMarker && e.warp == wid && e.lane == lane && own e)

/-- A marker of a lane enters its TSQ. -/
def State.addMarker (s : State) (kind : EKind) (wid lane : Nat) (scope : Scope) (order core : Nat) : State :=
  let (id, s) := s.newId
  { s with entries := s.entries ++ [{ id := id, place := .tsq wid lane, kind := kind, scope := scope, warp := wid, lane := lane, core := core, order := order }] }

def State.addMarkers (s : State) (kind : EKind) (wid : Nat) (lanes : Mask) (scope : Scope) (order core : Nat) : State :=
  lanes.lanes.foldl (fun s l => s.addMarker kind wid l scope order core) s

/-- An acquire of scope CLUS or wider by a thread of core c empties CC(c) when it completes (R299, R301). -/
def State.acquire (s : State) (core : Nat) (scope : Scope) : State :=
  if scope = .core then s else s.modCore core (fun c => { c with cc := [] })

/-! ## Barriers (R133, R134) -/

/-- The threads of a warp as its barriers see them: a warp being saved or SAVED stands where it was recorded (R25). -/
def Warp.realTh (w : Warp) (l : Nat) : Thread :=
  match w.resid with
  | .resident => w.th l
  | .busy r => Table.get {} r.frozen.threads l
  | .saved f => Table.get {} f.threads l

def Warp.setRealTh (w : Warp) (l : Nat) (t : Thread) : Warp :=
  match w.resid with
  | .resident => w.setTh l t
  | .busy r => { w with resid := .busy { r with frozen := { r.frozen with threads := Table.put r.frozen.threads l t } } }
  | .saved f => { w with resid := .saved { f with threads := Table.put f.threads l t } }

/-- Every living thread of the warp is at the barrier `here` says, with its release, of the barrier's scope, complete. -/
def State.allAt (s : State) (wid : Nat) (scope : Scope) (here : TState → Bool) : Bool :=
  match s.warp? wid with
  | some w => lanes32.all (fun l => (w.realTh l).st.gone || (here (w.realTh l).st && !s.marked wid l (·.scope == scope)))
  | none => true

/-- The threads at a barrier leave it. A warp that is not RESIDENT has its condition evaluated on restore (R25), where
it is met because the generation has moved on. -/
def Warp.leave (w : Warp) (here : TState → Bool) : Warp :=
  match w.resid with
  | .resident =>
    (w.modLanes Mask.all (fun _ t => if here t.st then { t with st := .ready, pc := (t.pc + 8) % 2 ^ 32 } else t)).settle
  | _ => w

def isBar (b e : Nat) : TState → Bool
  | .bar b' e' => b' == b && e' == e
  | _ => false
def isBarc (e : Nat) : TState → Bool
  | .barc e' => e' == e
  | _ => false

/-- R133: barrier b of a team, released when every living thread of the team is at it. -/
def State.tryBar (s : State) (tid b : Nat) : State :=
  match s.team? tid with
  | none => s
  | some t =>
    let g := Table.get 0 t.bars b
    let waiting := t.warps.any (fun w => match s.warp? w with
      | some w => lanes32.any (fun l => isBar b g (w.realTh l).st)
      | none => false)
    if waiting && t.warps.all (fun w => s.allAt w .core (isBar b g)) then
      let s := s.putTeam tid { t with bars := Table.set 0 t.bars b ((g + 1) % 2 ^ 16) }
      t.warps.foldl (fun s w => s.modWarp w (fun w => w.leave (isBar b g))) s
    else s

/-- What BARC's release does to the Peephole clocks of the span group's teams (Table 32.3). -/
def State.mergeClocks (s : State) (teams : List Nat) : State :=
  let clocks := teams.map (fun t => (s.team t).clock)
  let keys := (clocks.flatMap (fun c => c.map (·.1))).eraseDups
  let top := keys.foldl (fun (m : SMap Nat) k => Table.set 0 m k (clocks.foldl (fun a c => max a (Table.get 0 c k)) 0)) []
  teams.foldl (fun s t => s.modTeam t (fun x => { x with clock := Table.put top x.index ((Table.get 0 top x.index + 1) % 2 ^ 32) })) s

/-- R134: BARC of a span group; its acquire is of scope CLUS (R148). -/
def State.tryBarc (s : State) (sp : Nat) : State :=
  match s.span? sp with
  | none => s
  | some g =>
    let warps := g.teams.flatMap (fun t => (s.team t).warps)
    let waiting := warps.any (fun w => match s.warp? w with
      | some w => lanes32.any (fun l => isBarc g.gen (w.realTh l).st)
      | none => false)
    if waiting && warps.all (fun w => s.allAt w .clus (isBarc g.gen)) then
      let s := s.putSpan sp { g with gen := (g.gen + 1) % 2 ^ 16 }
      let s := warps.foldl (fun s w => s.modWarp w (fun w => w.leave (isBarc g.gen))) s
      let s := g.teams.foldl (fun s t => s.acquire (s.team t).core .clus) s
      if (s.context (s.grid g.grid).ctx).peephole && !(s.grid g.grid).unwatched then s.mergeClocks g.teams else s
    else s

/-- Every barrier of a team and of its span group, evaluated (R133: on arrival, exit and deposit, and when a release
marker has completed). -/
def State.tryBars (s : State) (tid : Nat) : State :=
  let s := [0, 1, 2, 3].foldl (fun s b => s.tryBar tid b) s
  s.tryBarc (s.team tid).span

end Sys2Proof.Machine
end

