-- ==== Sys2Proof/Machine/Integer.lean ====
section
/-! DEFINITION. Moves, integer arithmetic, logic, shifts, bit fields, addresses, compares and predicates (R149–R158). -/
namespace Sys2Proof

/-- A result without flags. -/
def plain (n : Nat) : FRes := { bits := n }

/-- The result of exact integer arithmetic, wrapped to the type's width (R153). -/
def NumTy.wrap (t : NumTy) (i : Int) : FRes := { bits := t.ofInt i }

def popcount : Nat → Nat → Nat
  | 0, _ => 0
  | k + 1, x => x % 2 + popcount k (x / 2)
/-- Leading zeros of a w-bit value; w when it is 0 (R154). -/
def clzOf (w x : Nat) : Nat := if x = 0 then w else w - 1 - Nat.log2 x
/-- Trailing zeros of a w-bit value; w when it is 0. -/
def ctzOf : Nat → Nat → Nat
  | 0, _ => 0
  | k + 1, x => if x % 2 = 1 then 0 else 1 + ctzOf k (x / 2)
def bitrev : Nat → Nat → Nat
  | 0, _ => 0
  | k + 1, x => x % 2 * 2 ^ k + bitrev k (x / 2)

def shlOf (w a n : Nat) : Nat := if w ≤ n then 0 else a * 2 ^ n % 2 ^ w
def shrOf (w a n : Nat) : Nat := if w ≤ n then 0 else a % 2 ^ w / 2 ^ n
def sarOf (w a n : Nat) : Nat :=
  let neg := a / 2 ^ (w - 1) % 2 = 1
  let n := min n w
  if neg then a % 2 ^ w / 2 ^ n + (2 ^ w - 2 ^ (w - n)) else a % 2 ^ w / 2 ^ n
def rotlOf (w a n : Nat) : Nat :=
  let a := a % 2 ^ w
  let n := n % w
  (a * 2 ^ n + a / 2 ^ (w - n)) % 2 ^ w

/-- BFX of R155: bits at or above w read the sign bit under a signed type and 0 otherwise. -/
def bfxOf (signed : Bool) (w a b : Nat) : Nat :=
  let p := b % 256
  let n := min (b / 256 % 256) w
  let a := a % 2 ^ w
  -- enough copies of the sign bit above w for any p and n
  let wide := if signed && a / 2 ^ (w - 1) % 2 = 1 then a + (2 ^ 512 - 2 ^ w) else a
  let field := wide / 2 ^ p % 2 ^ n
  if n = 0 then 0 else if signed then signExt n w field else field

/-- BFI of R155. -/
def bfiOf (w a b c : Nat) : Nat :=
  let p := b % 256
  let n := min (b / 256 % 256) w
  if w ≤ p then c % 2 ^ w
  else
    let n := min n (w - p)
    let c := c % 2 ^ w
    c - c / 2 ^ p % 2 ^ n * 2 ^ p + a % 2 ^ n * 2 ^ p

/-- BPERM of R155. -/
def bpermOf (a b c : Nat) : Nat :=
  let byte (i : Nat) : Nat :=
    let k := b / 16 ^ i % 16
    let x := (a % 2 ^ 32 + c % 2 ^ 32 * 2 ^ 32) / 256 ^ (k % 8) % 256
    if 8 ≤ k then (if 128 ≤ x then 255 else 0) else x
  byte 0 + byte 1 * 2 ^ 8 + byte 2 * 2 ^ 16 + byte 3 * 2 ^ 24

def fshOf (right : Bool) (a b c : Nat) : Nat :=
  let t := a % 2 ^ 32 * 2 ^ 32 + b % 2 ^ 32
  let s := c % 32
  if right then t / 2 ^ s % 2 ^ 32 else t * 2 ^ s / 2 ^ 32 % 2 ^ 32

end Sys2Proof

namespace Sys2Proof.Machine

/-- P0–P7 of a thread as a byte, bit 7 set (R152). -/
def Ctx.predByte (c : Ctx) (l : Nat) : Nat := 128 + ((List.range 7).map (fun k => if c.pred l k then 2 ^ k else 0)).sum

/-- R152. -/
def execMov (f : FormA) (kind : MovKind) (s : State) : Res :=
  match kind with
  | .copy => formA 0x20 f f.ty.wide f.ty.wide false s (fun _ _ a _ => plain (f.ty.extend a))
  | .packP => formA 0x20 f false false false s (fun c l _ _ => plain (c.predByte l))
/-- R152, with R75 for the narrow types. -/
def execMovi (f : FormA) (s : State) : Res := formA 0x21 f f.ty.wide false f.ty.wide s (fun _ _ _ b => plain (f.ty.extend b))
/-- R152. -/
def execSel (f : FormA) (ps : Nat) (neg : Bool) (s : State) : Res :=
  formA 0x22 f f.ty.wide f.ty.wide f.ty.wide s (fun c l a b => plain (if c.pred l ps != neg then a else b))

/-- A two-source integer form of R153. -/
def intOp (op : Nat) (f : FormA) (s : State) (g : Int → Int → Int) : Res :=
  formA op f f.ty.wide f.ty.wide f.ty.wide s (fun _ _ a b => f.ty.wrap (g (f.ty.toInt a) (f.ty.toInt b)))

/-- R153. -/
def execIadd (f : FormA) (s : State) : Res := intOp 0x23 f s (· + ·)
def execIsub (f : FormA) (s : State) : Res := intOp 0x24 f s (· - ·)
def execImul (f : FormA) (s : State) : Res := intOp 0x26 f s (· * ·)
def execImulh (f : FormA) (s : State) : Res := intOp 0x27 f s (fun a b => Int.fdiv (a * b) (2 ^ f.ty.bits))
def execImin (f : FormA) (s : State) : Res := intOp 0x2A f s min
def execImax (f : FormA) (s : State) : Res := intOp 0x2B f s max
def execIabs (f : FormA) (s : State) : Res := intOp 0x2C f s (fun a _ => a.natAbs)

/-- The sum of IADDC: a + b' + ci, unsigned, with its carry (R153). -/
def addcOf (w a b : Nat) (sub : Bool) (ci : Nat) : Nat := a % 2 ^ w + (if sub then 2 ^ w - 1 - b % 2 ^ w else b % 2 ^ w) + ci

/-- R153: the carry-out goes to each lane's Po; a uniform form's to Po of every active lane (R151). -/
def execIaddc (f : FormA) (pi po : Nat) (sub ci0 : Bool) (s : State) : Res :=
  let wd := f.ty.wide
  let os := [f.a, f.b.src]
  issue 0x25 (if f.b.x = 1 then 16 else 8) (max (f.d.need (regsOf wd)) (max (f.a.need (regsOf wd)) (f.b.need (regsOf wd)))) f.hdr s (fun c =>
    let sum (l : Nat) : Nat := addcOf f.ty.bits (c.rd os 0 wd l) (c.rdB os 1 f.b f.ty wd l) sub
      (if ci0 then 0 else if c.pred l pi then 1 else 0)
    match c.alu f.d wd os (fun l => plain (sum l % 2 ^ f.ty.bits)) with
    | .done t r =>
      .done (t.modWarp c.wid (fun w => c.putPred w po (fun l => 2 ^ f.ty.bits ≤ sum (if f.d.isW then c.active.lowest.getD 0 else l)))) r
    | i => i)

/-- R153. -/
def execImad (f : FormA3) (s : State) : Res :=
  formA3 0x28 f f.ty.wide f.ty.wide f.ty.wide f.ty.wide s
    (fun _ _ a b c => f.ty.wrap (f.ty.toInt a * f.ty.toInt b + f.ty.toInt c))
/-- R153: the factors are 32-bit, C and D pairs. -/
def execImadw (f : FormA3) (s : State) : Res :=
  formA3 0x29 f true false false true s
    (fun _ _ a b c => plain (((f.ty.toInt a * f.ty.toInt b + c) % 2 ^ 64).toNat))

/-- A bitwise form of R154 on two sources. -/
def bitOp (op : Nat) (f : FormA) (s : State) (g : Nat → Nat → Nat) : Res :=
  formA op f f.ty.wide f.ty.wide f.ty.wide s (fun _ _ a b => plain (g (a % 2 ^ f.ty.bits) (b % 2 ^ f.ty.bits)))

/-- R154. -/
def execAnd (f : FormA) (s : State) : Res := bitOp 0x2D f s (· &&& ·)
def execOr (f : FormA) (s : State) : Res := bitOp 0x2E f s (· ||| ·)
def execXor (f : FormA) (s : State) : Res := bitOp 0x2F f s (· ^^^ ·)
def execAndn (f : FormA) (s : State) : Res := bitOp 0x30 f s (fun a b => a &&& (2 ^ f.ty.bits - 1 - b))
def execNot (f : FormA) (s : State) : Res := bitOp 0x31 f s (fun a _ => 2 ^ f.ty.bits - 1 - a)

/-- A shift or field form: the control operand B is one 32-bit register or immediate whatever the type (R150). -/
def ctlOp (op : Nat) (f : FormA) (s : State) (g : Nat → Nat → Nat) : Res :=
  formA op f f.ty.wide f.ty.wide false s (fun _ _ a b => plain (g a (b % 2 ^ 32)))

/-- R154. -/
def execShl (f : FormA) (s : State) : Res := ctlOp 0x32 f s (shlOf f.ty.bits)
def execShr (f : FormA) (s : State) : Res := ctlOp 0x33 f s (shrOf f.ty.bits)
def execSar (f : FormA) (s : State) : Res := ctlOp 0x34 f s (sarOf f.ty.bits)
def execRotl (f : FormA) (s : State) : Res := ctlOp 0x35 f s (rotlOf f.ty.bits)
/-- R154. -/
def execFsh (f : FormA3) (right : Bool) (s : State) : Res :=
  formA3 0x36 f false false false false s (fun _ _ a b c => plain (fshOf right a b c))

/-- A count form of R154: its result is 32 bits whatever the type (R150). -/
def countOp (op : Nat) (f : FormA) (s : State) (g : Nat → Nat) : Res :=
  formA op f false f.ty.wide false s (fun _ _ a _ => plain (g (a % 2 ^ f.ty.bits)))

/-- R154. -/
def execPopc (f : FormA) (s : State) : Res := countOp 0x37 f s (popcount f.ty.bits)
def execClz (f : FormA) (s : State) : Res := countOp 0x38 f s (clzOf f.ty.bits)
def execCtz (f : FormA) (s : State) : Res := countOp 0x39 f s (ctzOf f.ty.bits)
def execBrev (f : FormA) (s : State) : Res :=
  formA 0x3A f f.ty.wide f.ty.wide false s (fun _ _ a _ => plain (bitrev f.ty.bits a))

/-- R155. -/
def execBfx (f : FormA) (s : State) : Res := ctlOp 0x3B f s (bfxOf f.ty.signed f.ty.bits)
def execBfi (f : FormA3) (s : State) : Res :=
  formA3 0x3C f f.ty.wide f.ty.wide false f.ty.wide s (fun _ _ a b c => plain (bfiOf f.ty.bits a (b % 2 ^ 32) c))
def execBperm (f : FormA3) (s : State) : Res :=
  formA3 0x3D f false false false false s (fun _ _ a b c => plain (bpermOf a b c))

/-- R156. -/
def execLea (f : FormA3) (sh : Nat) (signed : Bool) (s : State) : Res :=
  formA3 0x3E f true true false false s (fun _ _ a b _ =>
    plain ((a + (if signed then signExt 32 64 b else b % 2 ^ 32) * 2 ^ sh) % 2 ^ 64))

/-- R157. -/
def execIcmp (f : FormP) (s : State) : Res :=
  formP 0x3F f f.ty.wide f.ty.wide s (fun _ _ a b => (f.cond.int (f.ty.toInt a) (f.ty.toInt b), 0))

/-- R158. -/
def execPlop (h : Hdr) (d pa pb pc : Nat) (table : BArg) (s : State) : Res :=
  issue 0x40 (if table.x = 1 then 16 else 8) 0 h s (fun c =>
    let bit (l p n : Nat) : Nat := if c.pred l p then n else 0
    .done (c.s.putWarp c.wid (c.putPred c.w d (fun l => immVal .i32 table / 2 ^ (bit l pa 4 + bit l pb 2 + bit l pc 1) % 2 = 1))))

/-- R158: one bit of A, or P0–P6 from A. -/
def execPmov (f : FormP) (all : Bool) (s : State) : Res :=
  if all then
    issue 0x41 (if f.b.x = 1 then 16 else 8) (f.a.need 1) f.hdr s (fun c =>
      let os := [f.a]
      match c.popCheck os with
      | some i => i
      | none =>
        let w := ((List.range 7).foldl (fun w n => c.active.lanes.foldl (fun w l => windowWrite c.s w (64 + l) n) w) (popQueues os c.w)).modLanes c.active (fun l t => { t with preds := BitVec.ofNat 8 (c.rd os 0 false l % 128 + 128) })
        .done (c.s.putWarp c.wid w))
  else formP 0x41 f false false s (fun _ _ a b => (a / 2 ^ (b % 32) % 2 = 1, 0))

end Sys2Proof.Machine
end

