-- ==== Sys2Proof/Machine/CrossLane.lean ====
section
/-! DEFINITION. The cross-lane forms and WMOV (R159–R165). A value read from another lane is its register as it stands
when the instruction issues; all sources are read before any destination is written (R5, R159). -/
namespace Sys2Proof.Machine

/-- R160: the lane that LPICK reads, or none outside the segment. -/
def pickFrom (mode : PickMode) (seg l b : Nat) : Option Nat :=
  let g := 2 ^ seg
  let base := l - l % g
  let j := l % g
  match mode with
  | .lane => if b < g then some (base + b) else none
  | .below => if b ≤ j then some (base + (j - b)) else none
  | .above => if j + b < g then some (base + (j + b)) else none
  | .flip => if j ^^^ b < g then some (base + (j ^^^ b)) else none

/-- R160. -/
def execLpick (f : FormA) (pv seg : Nat) (mode : PickMode) (s : State) : Res :=
  let wd := f.ty.wide
  let os := [f.a, f.b.src]
  issue 0x42 (if f.b.x = 1 then 16 else 8) (max (f.d.need (regsOf wd)) (max (f.a.need (regsOf wd)) (f.b.need 1))) f.hdr s (fun c =>
    let from_ (l : Nat) : Option Nat := pickFrom mode seg l (c.rdB os 1 f.b .u32 false l % 2 ^ 32)
    match c.alu f.d wd os (fun l => plain (c.rd os 0 wd ((from_ l).getD l))) with
    | .done t r =>
      .done (t.modWarp c.wid (fun w => c.putPred w pv (fun l => (from_ l).isSome))) r
    | i => i)

/-- The value of R161's table from the mask and the active mask. -/
def pollVal (mode : PollMode) (m active : Mask) : Nat :=
  let b2n (b : Bool) : Nat := if b then 1 else 0
  match mode with
  | .mask => m.toNat
  | .some => b2n (m != 0)
  | .every => b2n (m == active)
  | .same => b2n (m == 0 || m == active)

/-- R161. -/
def execLpoll (f : FormA) (pa pq : Nat) (mode : PollMode) (s : State) : Res :=
  issue 0x43 (if f.b.x = 1 then 16 else 8) (f.d.need 1) f.hdr s (fun c =>
    let x := pollVal mode (Mask.ofPred (fun l => c.active.has l && c.pred l pa)) c.active
    match c.alu f.d false [] (fun _ => plain x) with
    | .done t r => .done (t.modWarp c.wid (fun w => c.putPred w pq (fun _ => x ≠ 0))) r
    | i => i)

/-- One step of a fold (R162). -/
def foldStep (ty : NumTy) (ftz : Bool) (op : FoldOp) (x y : Nat) : FRes :=
  if ty = .f32 then
    match op with
    | .add => fmt32.opRes .rn 0 ftz ((fmt32.read ftz x).add .rn (fmt32.read ftz y))
    | .max => fmt32.minmax true ftz x y
    | _ => fmt32.minmax false ftz x y
  else
    let a := ty.toInt x
    let b := ty.toInt y
    match op with
    | .add => ty.wrap (a + b)
    | .min => ty.wrap (min a b)
    | .max => ty.wrap (max a b)
    | .and => plain (x % 2 ^ ty.bits &&& y % 2 ^ ty.bits)
    | .or => plain (x % 2 ^ ty.bits ||| y % 2 ^ ty.bits)
    | .xor => plain (x % 2 ^ ty.bits ^^^ y % 2 ^ ty.bits)

/-- The identities of R162. -/
def foldIdentity (ty : NumTy) (op : FoldOp) : Nat :=
  match op with
  | .add => if ty = .f32 then 0x80000000 else 0
  | .min => if ty = .f32 then 0x7F800000 else ty.ofInt ty.maxInt
  | .max => if ty = .f32 then 0xFF800000 else ty.ofInt ty.minInt
  | .and => 2 ^ ty.bits - 1
  | .or | .xor => 0

/-- A first element as a fold's accumulator, as it stands: no step has rounded it or raised a flag (R162); but under .FTZ a subnormal
source is a zero of its sign (R80). -/
def foldFirst (ty : NumTy) (ftz : Bool) (x : Nat) : FRes := plain (if ty = .f32 && ftz && fmt32.isSub x then x / 2 ^ 31 * 2 ^ 31 else x)

def foldNext (ty : NumTy) (ftz : Bool) (op : FoldOp) (acc : FRes) (x : Nat) : FRes :=
  let r := foldStep ty ftz op acc.bits x
  { r with flags := acc.flags ||| r.flags }

/-- R162, LFOLD: the fold of the active lanes in ascending order. -/
def foldAll (ty : NumTy) (ftz : Bool) (op : FoldOp) : List Nat → FRes
  | [] => plain 0
  | x :: xs => xs.foldl (foldNext ty ftz op) (foldFirst ty ftz x)

/-- R162. -/
def execLfold (f : FormA) (op : FoldOp) (s : State) : Res :=
  let wd := f.ty.wide
  let os := [f.a]
  issue 0x44 (if f.b.x = 1 then 16 else 8) (max (f.d.need (regsOf wd)) (f.a.need (regsOf wd))) f.hdr s (fun c =>
    c.alu f.d wd os (fun _ => foldAll f.ty f.ftz op (c.active.lanes.map (c.rd os 0 wd))))

/-- The lanes of `l`'s segment up to `l`, given the active lanes up to `l` in descending order (R162). -/
def segmentBack (starts : Nat → Bool) : List Nat → List Nat
  | [] => []
  | l :: r => if starts l then [l] else l :: segmentBack starts r

/-- R162. A lane's flags are those of the steps that produced its own D (log 22). -/
def execScan (f : FormA) (op : FoldOp) (excl seg : Bool) (pg : Nat) (s : State) : Res :=
  let wd := f.ty.wide
  let os := [f.a]
  issue 0x45 (if f.b.x = 1 then 16 else 8) (max (f.d.need (regsOf wd)) (f.a.need (regsOf wd))) f.hdr s (fun c =>
    c.alu f.d wd os (fun l =>
      let back := ((c.active.lanes.filter (fun k => decide (k ≤ l))).reverse)
      let lanes := (segmentBack (fun k => seg && c.pred k pg) back).reverse
      if !excl then foldAll f.ty f.ftz op (lanes.map (c.rd os 0 wd))
      else if lanes.length ≤ 1 then plain (foldIdentity f.ty op)
      else foldAll f.ty f.ftz op (lanes.dropLast.map (c.rd os 0 wd))))

/-- R163. -/
def execLpeer (f : FormA) (pe : Nat) (s : State) : Res :=
  let wd := f.ty.wide
  let os := [f.a]
  issue 0x46 (if f.b.x = 1 then 16 else 8) (max (f.d.need 1) (f.a.need (regsOf wd))) f.hdr s (fun c =>
    let a (l : Nat) : Nat := c.rd os 0 wd l
    let all := c.active.lanes.all (fun k => a k == a (c.active.lowest.getD 0))
    match c.alu f.d false os (fun l => plain (Mask.ofPred (fun k => c.active.has k && a k == a l)).toNat) with
    | .done t r => .done (t.modWarp c.wid (fun w => c.putPred w pe (fun _ => all))) r
    | i => i)

/-- R39, R163: the value of the lowest active lane. -/
def execRdfl (f : FormA) (s : State) : Res := formA 0x47 f f.ty.wide f.ty.wide false s (fun _ _ a _ => plain a)

/-- R164: the sources go to their lanes in ascending order, so a higher source wins. -/
def execLsend (f : FormA) (pv : Nat) (s : State) : Res :=
  let wd := f.ty.wide
  let os := [f.a, f.b.src]
  issue 0x48 (if f.b.x = 1 then 16 else 8) (max (f.d.need (regsOf wd)) (max (f.a.need (regsOf wd)) (f.b.need 1))) f.hdr s (fun c =>
    match c.popCheck os with
    | some i => i
    | none =>
      let sends := (c.active.lanes.map (fun l => (c.rdB os 1 f.b .u32 false l % 32, c.rd os 0 wd l))).filter
        (fun e => !(c.w.th e.1).st.gone)
      let w := sends.foldl (fun w e => c.put w f.d e.1 wd e.2) (popQueues os c.w)
      .done (c.s.putWarp c.wid (c.putPred w pv (fun l => sends.any (·.1 == l)))))

/-- R165: once for the front when a lane is active. A write of Jk evaluates the joins on it (R34). -/
def execWmov (f : FormA) (j : Nat) (mode : WmovMode) (s : State) : Res :=
  issue 0x49 (if f.b.x = 1 then 16 else 8) 0 f.hdr s (fun c =>
    if c.active == 0 then .done c.s
    else
      let dst (x : Word) : Iss := .done (c.s.putWarp c.wid (c.put c.w f.d (c.active.lowest.getD 0) false x.toNat))
      match mode with
      | .fromJ => dst (c.w.getJ j)
      | .toJ => .done (c.s.putWarp c.wid (c.w.putJ j (BitVec.ofNat 32 (c.rd [f.a] 0 false 0))).releaseJoins)
      | .front => dst c.front
      | .active => dst c.active)

end Sys2Proof.Machine
end

