-- ==== Sys2Proof/Machine/Ordering.lean ====
section
/-! DEFINITION. The ordering machine (R293–R311): homes and paths, entries and how they leave their buffers, loads and
what satisfies them, atomics and how they are performed. -/
namespace Sys2Proof.Machine

/-! ## Locations and levels (R293, Table 22.1) -/

/-- Levels: THREAD 0, CORE 1, CLUS 2, DIE 3, DEV 4, SYS 5. -/
def scopeLevel (s : Scope) : Nat :=
  match s with
  | .core => 1
  | .clus => 2
  | .die => 3
  | .dev => 4
  | .sys => 5

/-- The home level of a location; one reached by a window is 2^48 above its address and has its home at DEV (R279). -/
def homeOf (loc : Nat) : Nat :=
  if paTop ≤ loc then 4
  else if loc < 2 ^ 41 then 4
  else if loc < sliceBase then 1
  else if loc < clusterBase then 0
  else if loc < regfileBase then 2
  else if loc < regfileEnd then 4
  else 5

def placeLevel (p : Place) : Nat :=
  match p with
  | .tsq _ _ | .wq _ => 0
  | .cmb _ => 1
  | .clb _ => 2
  | .db _ => 3
  | .xb => 4

/-- HBM and system-window bytes, which CC may hold (R299). -/
def cacheable (loc : Nat) : Bool := loc < 2 ^ 41 || (systemBase ≤ loc && loc < paTop)

/-- The next buffer of an entry's path; none when what follows is memory (Table 22.1, R307). Markers travel the longest
path. -/
def Entry.nextPlace (e : Entry) : Option Place :=
  let home := if e.len = 0 then 5 else homeOf e.loc
  let cluster := clusterOfCore e.core
  match e.place with
  | .tsq _ _ | .wq _ => if home = 0 then none else some (.cmb e.core)
  | .cmb _ => if home = 1 && e.copy.isNone then none else some (.clb cluster)
  | .clb _ => if home ≤ 2 then none else some (.db (dieOfCluster cluster))
  | .db _ => if home ≤ 4 then none else some .xb
  | .xb => none

/-- Does it stand in a TSQ? -/
def Entry.inTsq (e : Entry) : Bool := match e.place with
  | .tsq _ _ => true
  | _ => false

def Entry.covers (e : Entry) (loc : Nat) : Bool := decide (e.loc ≤ loc) && decide (loc < e.loc + e.len)
def Entry.overlaps (e f : Entry) : Bool := decide (e.loc < f.loc + f.len) && decide (f.loc < e.loc + e.len)
def Entry.byteAt (e : Entry) (loc : Nat) : Byte := byteOf e.val (loc - e.loc)
def EKind.isWrite : EKind → Bool
  | .write | .relWrite => true
  | _ => false
/-- An entry that holds a value for the location. -/
def Entry.holds (e : Entry) (loc : Nat) : Bool := e.kind.isWrite && e.covers loc

def EKind.use : EKind → Use
  | .atomic _ _ _ u _ => u
  | _ => .unp

/-- R305: exceptions to the order of two entries. .COM and .QNT may leave ahead of older entries of these uses. -/
def commutes (e old : Entry) : Bool :=
  e.kind.isAtomic && old.kind.isAtomic && e.loc == old.loc && e.len == old.len &&
    (e.kind.use == .com || e.kind.use == .qnt) && (old.kind.use == .com || old.kind.use == .qnt)

/-- Does a release or fence of a scope bind at a level (R296, rule 3)? -/
def bindsAt (e : Entry) (level : Nat) : Bool :=
  match e.kind with
  | .relWrite | .relMarker | .fenceMarker => level < scopeLevel e.scope
  | _ => false

/-- Do two entries stand as one, combined (R305)? -/
def Entry.joined (e x : Entry) : Bool := e.id == x.id || (e.unit.isSome && e.unit == x.unit)

/-- The entries that stand as one with an entry, in their order. -/
def State.oneWith (s : State) (e : Entry) : List Entry := s.entries.filter e.joined

/-- The entries older than one in its buffer. -/
def State.olderThan (s : State) (e : Entry) : List Entry :=
  (s.entries.takeWhile (fun x => x.id != e.id)).filter (fun x => x.place == e.place && !e.joined x)

/-- Has the entry a byte that a lane of its warp wrote (R169)? -/
def Entry.byLane (e : Entry) (lane loc : Nat) : Bool := e.covers loc && (e.lane == lane || e.also.contains (lane, loc))

/-- Have two entries a byte that one thread wrote in both? -/
def Entry.tied (x e : Entry) : Bool :=
  x.warp == e.warp && ((x.lane == e.lane && x.overlaps e)
    || x.also.any (fun a => e.byLane a.1 a.2) || e.also.any (fun a => x.byLane a.1 a.2))

/-- The level at which an atomic is performed (R304), whether that is its home, and so memory, and whether it stands where it waits for it. -/
def Entry.level (e : Entry) : Nat := min (scopeLevel e.scope) (homeOf e.loc)
def Entry.atHome (e : Entry) : Bool := e.level == homeOf e.loc
def Entry.atLevel (e : Entry) : Bool := if e.atHome then e.nextPlace.isNone else placeLevel e.place == e.level

/-- The level of the buffer in which it waits. -/
def Entry.waitLevel (e : Entry) : Nat := if e.atHome && decide (2 < homeOf e.loc) then homeOf e.loc - 1 else e.level

/-- The entries of the group that is performed with `e`, in order of arrival. -/
def State.groupOf (s : State) (e : Entry) : List Entry :=
  match e.kind with
  | .atomic g _ _ _ _ => s.entries.filter (fun x => match x.kind with | .atomic g' _ _ _ _ => g' == g | _ => false)
  | _ => []

def Entry.ofThread (e x : Entry) : Bool := e.warp == x.warp && e.lane == x.lane

/-- The group of an atomic, and the address group in which it was issued. -/
def EKind.group : EKind → Option Nat
  | .atomic g _ _ _ _ => some g
  | _ => none
def EKind.sub : EKind → Option Nat
  | .atomic _ k _ _ _ => some k
  | _ => none

/-- Is a load of a thread of the entry, issued before it, still to be satisfied from one of its bytes? It must not see the entry (R298). An
address group that is performed at home enters its path as one: its lanes' loads come first (R311, log 15). -/
def State.loadsBefore (s : State) (e : Entry) : Bool :=
  let mates := if e.kind.isAtomic && e.atHome then (s.groupOf e).filter (fun y => y.kind.sub == e.kind.sub) else []
  s.loads.any (fun l => l.val.isNone
    && ((l.warp == e.warp && e.byLane l.lane l.loc && decide (l.order < e.order))
      || mates.any (fun y => y.warp == l.warp && y.lane == l.lane && y.covers l.loc && decide (l.order < y.order))))

/-- Does an earlier entry `x` of an atomic's thread go before it? Those below its level do, at home those of its buffer too, and every atomic
that is not performed (R298, R304). Those of its own group are performed with it (R305). -/
def Entry.precedes (x e : Entry) : Bool :=
  x.tied e && decide (x.order < e.order) && x.kind.group != e.kind.group
    && (x.kind.isAtomic || decide (placeLevel x.place < placeLevel e.place) || (x.place == e.place && e.atHome))

/-- The loads of its thread that an atomic waits for (R304). -/
def State.loadsAwaited (s : State) (e : Entry) : List Load :=
  if e.kind.use == .nord || e.kind.use == .spec then []
  else s.loads.filter (fun l => l.val.isNone && l.warp == e.warp && l.lane == e.lane && decide (l.order < e.order))

/-- Has the thread of an atomic at home not read the write `x` of its buffer? So it is where an entry ahead of `x` is of the atomic's address
group, or of that of a later atomic of its thread: the thread's loads had been satisfied when that entry came (`State.loadsBefore`). -/
def State.unseen (s : State) (e x : Entry) : Bool :=
  (s.olderThan x).any (fun z => z.kind.isAtomic && z.atHome && z.overlaps e
    && s.entries.any (fun y => y.kind.sub == z.kind.sub && y.ofThread e && decide (e.order ≤ y.order)))

/-- R304: may the atomic be performed, as far as its own entry goes? At home it may not pass an older write of its buffer that its
thread can have read (R296, R298). -/
def State.mayPerform (s : State) (e : Entry) : Bool :=
  e.atLevel && !(s.entries.any (·.precedes e))
  && (!e.atHome || (s.olderThan e).all (fun x => !x.overlaps e || !x.kind.isWrite || s.unseen e x))
  && (s.loadsAwaited e).isEmpty

/-- Must an entry `x` of a thread of an atomic's group go before the atomic: one that its group waits for, and that could not go on behind
it (R296, R298, R311, log 15)? At home these are earlier writes of its bytes, and atomics that become such; below it, earlier atomics of its
bytes that are performed further on; and a fence marker or an atomic, which a load that the group waits for waits for, with the same way to go. -/
def State.follows (s : State) (e x : Entry) : Bool :=
  decide (placeLevel x.place ≤ placeLevel e.place) && (s.groupOf e).any (fun y =>
    (decide (x.order < y.order) && x.tied y && x.kind.group != e.kind.group
      && (if e.atHome then x.kind.isWrite || (x.kind.isAtomic && !x.atHome)
        else x.kind.isAtomic && decide (e.level < x.level) && !commutes x e))
    || (x.ofThread y && (s.loadsAwaited y).any (fun l => decide (x.order < l.order)
      && ((x.kind == .fenceMarker && decide (e.waitLevel < scopeLevel x.scope))
        || (x.kind.isAtomic && x.covers l.loc && x.overlaps e && decide (e.level < x.level))))))

/-- Does an atomic of the entry's thread wait in the buffer `p`, below its home, to be performed on its bytes (R298)? -/
def State.awaitsOwn (s : State) (e : Entry) (p : Place) : Bool :=
  s.entries.any (fun x => x.kind.isAtomic && x.tied e && decide (x.order < e.order) && x.atLevel && !x.atHome
    && x.place == p && !commutes e x)

/-- The buffer of an entry's path at a level, or none when its home is at or below the level. -/
def Entry.placeAt (e : Entry) (level : Nat) : Option Place :=
  let home := if e.len = 0 then 5 else homeOf e.loc
  let k := clusterOfCore e.core
  if e.len ≠ 0 && home ≤ level then none
  else match level with
    | 1 => some (.cmb e.core)
    | 2 => some (.clb k)
    | 3 => some (.db (dieOfCluster k))
    | 4 => some .xb
    | _ => none

/-- Does the path of an entry pass a buffer? -/
def Entry.passes (e : Entry) (p : Place) : Bool :=
  match p with
  | .tsq w _ | .wq w => e.warp == w
  | _ => e.placeAt (placeLevel p) == some p

/-- May an entry stand in a buffer, as far as its group goes? Of one that has been combined, every address group with that way has then come as
far (R311, log 48). -/
def State.inStep (s : State) (e : Entry) (p : Place) : Bool :=
  let es := s.groupOf e
  es.all (fun y => !y.passes p || es.any (fun z => z.kind.sub == y.kind.sub && (e.joined z || decide (placeLevel p ≤ placeLevel z.place))))

/-- R296 and R298: may the entry leave its buffer? -/
def State.mayLeave (s : State) (e : Entry) : Bool :=
  let old := s.olderThan e
  let byBytes := old.all (fun x => !(e.overlaps x) || commutes e x)
  let byRelease := !(bindsAt e (placeLevel e.place)) || old.isEmpty
  let byNord := e.kind.use != .nord || old.all (fun x => !(x.kind.isMarker || x.kind == .relWrite))
  let byGroup := !e.kind.isAtomic || !(s.entries.any (s.follows e))
  let free := byGroup && (match e.nextPlace with
    | some p => !s.awaitsOwn e p && s.inStep e p
    | none => true)
  match e.place with
  | .tsq w _ =>
    let fifo := old.all (fun x => !(e.kind.isWrite || e.kind.isAtomic) || !(x.kind.isWrite || x.kind.isAtomic) || commutes e x
      || (!e.overlaps x && ((e.kind.use == .nord && x.kind.isWrite) || (x.kind.use == .nord && e.kind.isWrite))))
    -- what a thread has written in another's entry, or another in its own, keeps its order too (R169)
    let beside := s.entries.all (fun x => !(x.tied e && decide (x.order < e.order)) || x.place == e.place
      || (match x.place with | .tsq _ _ => false | _ => true))
    byBytes && byRelease && fifo && byNord && free && beside && !(s.entries.any (fun x => x.place == .wq w)) && !s.loadsBefore e
  | .wq _ => old.isEmpty && free && !s.loadsBefore e
  | _ => byBytes && byRelease && byNord && free

/-! ## Byte budgets (R365) -/

/-- May requests leave the cluster in this interval? While the Dormer controller's firmware hangs or is updated, no budget is in force
(R368). -/
def State.within (s : State) (k : Nat) : Bool :=
  s.mod.dormerHung || s.mod.dormerUpdating || (s.cluster k).byteBudget = 0 || decide ((s.cluster k).bytes ≤ 64 * (s.cluster k).byteBudget)
/-- Requests of `n` bytes leave the cluster. -/
def State.spend (s : State) (k n : Nat) : State :=
  if n = 0 || (s.cluster k).byteBudget = 0 then s else s.modCluster k (fun c => { c with bytes := c.bytes + n })

/-- How long requests of a cluster wait now for its next interval. -/
def State.heldFor (s : State) (k : Nat) : Nat := if s.within k then 0 else 1000 - s.mod.gts % 1000
/-- A request of `n` bytes that holds no instruction back: it leaves the cluster now, or waits for the next interval and counts there. -/
def State.ask (s : State) (k n : Nat) : State :=
  if s.within k then s.spend k n else s.modCluster k (fun c => { c with held := c.held + n })

/-! ## Moving entries -/

/-- CC(c) takes a byte's new value; a thread's knowledge of older copies of it ends (R295, R298). -/
def Core.setCc (c : Core) (loc : Nat) (b : Option Byte) : Core :=
  { c with
    cc := match b with | some b => Table.put c.cc loc b | none => Table.drop c.cc loc
    ccStale := c.ccStale.filter (fun x => x.2.2 != loc) }

def byteRange (loc len : Nat) : List Nat := (List.range len).map (loc + ·)

/-- A marker that reaches the level of its scope has completed and is removed (R296). -/
def Entry.markerDone (e : Entry) (p : Place) : Bool := e.kind.isMarker && decide (scopeLevel e.scope ≤ placeLevel p)

/-- On leaving CMB a write refreshes CC where CC holds its bytes (R295). -/
def State.refreshCc (s : State) (e : Entry) : State :=
  match e.place with
  | .cmb c =>
    if e.kind.isWrite then
      s.modCore c (fun x => (byteRange e.loc e.len).foldl (fun x b =>
        if (Table.find x.cc b).isSome then x.setCc b (some (e.byteAt b)) else x) x)
    else s
  | _ => s

/-- An entry moves into a buffer. On entering CMB it takes the core's next sequence number (R294). -/
def State.moveTo (s : State) (e : Entry) (p : Place) : State :=
  let s := s.refreshCc e
  let rest := s.entries.filter (fun x => x.id != e.id)
  if e.markerDone p then { s with entries := rest }
  else match p with
    | .cmb c =>
      let n := (s.core c).seq
      ({ s with entries := rest ++ [{ e with place := p, seq := some n }] }).modCore c (fun x => { x with seq := n + 1 })
    | _ => { s with entries := rest ++ [{ e with place := p }] }

/-- A write reaches memory, with its tag. -/
def State.landWrite (s : State) (e : Entry) : State :=
  let s := { s with entries := s.entries.filter (fun x => x.id != e.id) }
  (byteRange e.loc e.len).foldl (fun s b =>
    let s := s.poke b (e.byteAt b)
    { s with tags := Table.put s.tags b { core := e.core, seq := e.seq.getD 0, rel := e.rel } }) s

/-! ## Loads (R297, R298, R301, R303) -/

/-- Does an earlier acquire or fence of the load's thread hold it back? -/
def State.acquiring (s : State) (wid lane order : Nat) : Bool :=
  match s.warp? wid with
  | none => false
  | some w => w.flights.any (fun f => f.lanes.has lane && decide (f.order < order) &&
      match f.kind with
      | .acquire _ _ => true
      | .fence _ => true
      | _ => false)

/-- May the load be satisfied now? -/
def State.mayLoad (s : State) (l : Load) : Bool :=
  match l.for_ with
  | .copy _ _ => true
  | .warp _ _ =>
    !(s.acquiring l.warp l.lane l.order)
    && !(s.entries.any (fun e => e.kind.isAtomic && e.warp == l.warp && e.lane == l.lane && e.covers l.loc && decide (e.order < l.order)))
    && !(s.loads.any (fun m => m.val.isNone && m.warp == l.warp && m.lane == l.lane && m.loc == l.loc && decide (m.order < l.order)))

/-- The newest entry of a buffer that holds a value for the location. -/
def State.newest (s : State) (p : Place) (loc : Nat) : Option Entry :=
  s.entries.reverse.find? (fun e => e.place == p && e.holds loc)

def Entry.tag (e : Entry) : Tag := { core := e.core, seq := e.seq.getD 0, rel := e.rel }

/-- The buffers of a location's path from a core, beyond CMB (Table 22.1). -/
def pathBeyond (core loc : Nat) : List Place :=
  let k := clusterOfCore core
  [Place.clb k, .db (dieOfCluster k), .xb].filter (fun p => decide (placeLevel p < homeOf loc) || (placeLevel p == 2 && homeOf loc == 2))

/-- The value a search beyond CMB gives: CLB and CC, DB, XB, memory. The last part says that it came from beyond CMB and
not from CC, so that CC may take it. -/
def State.beyond (s : State) (core : Nat) (loc : Nat) (useCc : Bool) : Byte × Tag × Bool :=
  match (if useCc then Table.find (s.core core).cc loc else none) with
  | some b => (b, {}, false)
  | none => match (pathBeyond core loc).findSome? (fun p => s.newest p loc) with
    | some e => (e.byteAt loc, e.tag, true)
    | none => (s.peek loc, Table.get {} s.tags loc, true)

/-- R297: what a load of one byte returns now. `before` is the order of its instruction; none for a copy engine, which
starts at CMB and skips CC (R307). CC serves CORE scope, unless the thread knows a newer value (R298). -/
def State.searchByte (s : State) (wid lane core loc : Nat) (scope : Scope) (before : Option Nat) : Byte × Tag × Bool :=
  let own : Option Entry := match before with
    | some n => (s.entries.reverse.find? (fun (e : Entry) => e.inTsq && e.warp == wid && decide (e.order < n) && e.kind.isWrite && e.byLane lane loc)).or
        (s.newest (.wq wid) loc)
    | none => none
  match own with
  | some e => (e.byteAt loc, e.tag, false)
  | none => match s.newest (.cmb core) loc with
    | some e => (e.byteAt loc, e.tag, false)
    | none =>
      s.beyond core loc (before.isSome && scope == .core && !((s.core core).ccStale.contains (wid, lane, loc)))

/-- The same for a run of bytes, little-endian: reads that are made whole in one step (log 13). -/
def State.searchN (s : State) (wid lane core loc n : Nat) (scope : Scope) (before : Option Nat) : Nat :=
  leNat ((byteRange loc n).map (fun b => (s.searchByte wid lane core b scope before).1))

/-! ## Atomics (R249–R252, R304, R305) -/

/-- m ∘ v of Table 19.3, on encodings of the type; a NaN result is canonical, also of EXCH (R249, log 100). -/
def atomApply (o : AtomOp) (t : NumTy) (m v : Nat) : Nat :=
  let w := t.bits
  let a := t.toInt m
  let b := t.toInt v
  match o with
  | .add => if t.isFloat then (t.fmt.opRes .rn 0 false ((t.fmt.decode m).add .rn (t.fmt.decode v))).bits else t.ofInt (a + b)
  | .min => if t.isFloat then (t.fmt.minmax false false m v).bits else t.ofInt (min a b)
  | .max => if t.isFloat then (t.fmt.minmax true false m v).bits else t.ofInt (max a b)
  | .and => m % 2 ^ w &&& v % 2 ^ w
  | .or => m % 2 ^ w ||| v % 2 ^ w
  | .xor => m % 2 ^ w ^^^ v % 2 ^ w
  | .exch => if t.isFloat && (t.fmt.decode v).isNan then t.fmt.nan else v % 2 ^ w
  | .inc => if v ≤ m then 0 else m + 1
  | .dec => if m = 0 || v < m then v else m - 1

/-- Old values of an address group in lane order (R251). -/
def oldValues (o : AtomOp) (t : NumTy) : Nat → List Nat → List Nat
  | _, [] => []
  | m, v :: vs => m :: oldValues o t (atomApply o t m v) vs

/-- The value an address group leaves: pre-reduced in lane order for a floating-point ADD (R251). -/
def groupValue (o : AtomOp) (t : NumTy) (m : Nat) (vs : List Nat) : Nat :=
  match vs with
  | [] => m
  | v :: r =>
    if o = .add && t.isFloat then atomApply .add t m (r.foldl (atomApply .add t) v)
    else vs.foldl (atomApply o t) m

/-- ATOMC on its group: each lane compares and may write in turn (R252). -/
def casRun : Nat → List (Nat × Nat) → Nat × List Nat
  | m, [] => (m, [])
  | m, (cmp, new) :: r =>
    let (m', olds) := casRun (if m = cmp then new else m) r
    (m', m :: olds)

/-- The value an atomic reads: from its level outward, skipping CC (R304). -/
def State.atomRead (s : State) (e : Entry) : Nat :=
  leNat ((byteRange e.loc e.len).map (fun b =>
    if e.atHome then s.peek b
    else match s.newest e.place b with
      | some x => x.byteAt b
      | none => match ((pathBeyond e.core b).filter (fun p => decide (placeLevel e.place < placeLevel p))).findSome? (fun p => s.newest p b) with
        | some x => x.byteAt b
        | none => s.peek b))

/-- An old value returns to its lane's registers (R304), or waits for the lane to reach its instruction (R306). -/
def deliver (s : State) (e : Entry) (old : Nat) : State :=
  match e.kind with
  | .atomic _ _ _ _ (some fid) =>
    s.modWarp e.warp (fun w => { w with
      flights := w.flights.map (fun f =>
        if f.id = fid then
          match f.kind with
          | .atomic (.v n) t => { f with writes := f.writes ++ (.v e.lane n (BitVec.ofNat 32 old) ::
              (if t.wide then [.v e.lane (n + 1) (BitVec.ofNat 32 (old / 2 ^ 32))] else [])) }
          | _ => f
        else f)
      early := w.early.map (fun x => if x.id = fid && x.lane = e.lane then { x with old := some old } else x) })
  | _ => s

/-- R251, R252, R290 on a group's entries in arrival order: the memory value left, and each entry's old value. The
sub-groups of combined instructions are taken one after another, so that every value is one of an order of the groups (log 14). -/
def runGroup (m : Nat) (es : List Entry) : Nat × List (Entry × Nat) :=
  let subs := (es.map (fun e => match e.kind with | .atomic _ sub _ _ _ => sub | _ => 0)).eraseDups
  -- the lanes of one instruction in lane order (R251), its instructions in order of arrival (R305)
  let parts := subs.map (fun k => sortBy (fun (a b : Entry) => decide (a.lane ≤ b.lane))
    (es.filter (fun e => match e.kind with | .atomic _ sub _ _ _ => sub == k | _ => false)))
  parts.foldl (fun (acc : Nat × List (Entry × Nat)) (p : List Entry) =>
    match p.head? with
    | none => acc
    | some h => match h.kind with
      | .atomic _ _ (.op o t) _ _ =>
        (groupValue o t acc.1 (p.map (·.val)), acc.2 ++ p.zip (oldValues o t acc.1 (p.map (·.val))))
      | .atomic _ _ (.cas _ _) _ _ =>
        let r := casRun acc.1 (p.map (fun e => (match e.kind with | .atomic _ _ (.cas _ c) _ _ => c | _ => 0, e.val)))
        (r.1, acc.2 ++ p.zip r.2)
      | .atomic _ _ .fold _ _ => (p.foldl (fun m e => m ^^^ e.val) acc.1, acc.2 ++ p.map (fun e => (e, 0)))
      | _ => acc) (m, [])

/-- The perform step (R304): one indivisible read-modify-write of the group; the result is a write entry in the buffer of
its level, or lands when that is the home. The threads of the group now know a newer value than CC may hold (R298). -/
def State.performGroup (s : State) (es : List Entry) : State :=
  match es.getLast? with
  | none => s
  | some last =>
    let (v, olds) := runGroup (s.atomRead last) es
    let s := olds.foldl (fun s x => deliver s x.1 x.2) s
    let res : Entry := { last with kind := .write, val := v, unit := none }
    let s := { s with
      entries := s.entries.filter (fun x => !(es.any (fun y => y.id == x.id)))
      -- a copy that waits for one of the group's entries waits for the write that they leave (R307)
      copies := s.copies.map (fun (c : Copy) => if c.before.any (fun b => es.any (fun y => y.id == b)) then { c with before := last.id :: c.before } else c) }
    let s := es.foldl (fun s e => s.modCore e.core (fun c => { c with
      ccStale := c.ccStale ++ ((byteRange e.loc e.len).filter (fun b => placeLevel e.place ≠ 1 && (Table.find c.cc b).isSome)).map (fun b => (e.warp, e.lane, b)) })) s
    if last.atHome then s.landWrite res
    else { s with entries := s.entries ++ [res] }

/-! ## Promotion (R302) -/

/-- Entries in coherence order, each with the number that it goes by in a promotion: its own sequence number, but none later than that of an
entry of the same bytes that comes after it (R298, R302). -/
def promotionOrder : List Entry → List (Entry × Nat)
  | [] => []
  | e :: es =>
    let r := promotionOrder es
    (e, r.foldl (fun n y => if e.overlaps y.1 then min n y.2 else n) (e.seq.getD 0)) :: r

/-- The entries of core c' with a sequence below n that stand below level s, in the order of R302: by sequence, and for the same bytes as they
stand. -/
def State.toPromote (s : State) (core seq level : Nat) : List Entry :=
  let es := s.entries.filter (fun e => e.core == core
    && (match e.seq with | some n => decide (n < seq) | none => false) && decide (placeLevel e.place < level))
  let further := sortBy (fun a b => decide (placeLevel b.place ≤ placeLevel a.place)) es
  (sortBy (fun a b => decide (a.2 ≤ b.2)) (promotionOrder further)).map (·.1)

/-- One entry moved to the level; CC is refreshed as on leaving CMB. -/
def State.promoteOne (s : State) (e : Entry) (level : Nat) : State :=
  if e.kind.isMarker && (decide (scopeLevel e.scope ≤ level)) then { s with entries := s.entries.filter (fun x => x.id != e.id) }
  else match e.placeAt level with
    | some p => s.moveTo e p
    | none => if e.kind.isWrite then (s.refreshCc e).landWrite e else s

/-- The entries that stand ahead of one on its way to a level, the nearest first: those of its own buffer, then of the next ones. -/
def State.ahead (s : State) (e : Entry) (level : Nat) : List Entry :=
  let k := clusterOfCore e.core
  let further := [Place.clb k, .db (dieOfCluster k), .xb].filter (fun p => decide (placeLevel e.place < placeLevel p) && decide (placeLevel p < level))
  (s.olderThan e).reverse ++ further.flatMap (fun p => (s.entries.filter (fun x => x.place == p)).reverse)

/-- The bytes that a promotion sends past the L2 request port of the core's cluster (R365). -/
def promotedBytes (es : List Entry) (level : Nat) : Nat :=
  ((es.filter (fun e => decide (3 ≤ level) && decide (placeLevel e.place < 3) && decide (4 ≤ homeOf e.loc))).map (·.len)).sum

/-- The promote step (R302): the entries of core c' with a sequence below n reach the level. None while an atomic among them is still to be
performed, while an entry that stays stands ahead of one of them for the same bytes, or an atomic of its thread waits for them where it would
go (R298), or the cluster's budget is spent (R365). -/
def State.promote (s : State) (core seq level : Nat) : Option State :=
  let es := s.toPromote core seq level
  let n := promotedBytes es level
  let stays (x : Entry) : Bool := es.all (fun y => y.id != x.id)
  if es.any (fun e => e.kind.isAtomic || (s.ahead e level).any (fun x => stays x && e.overlaps x && x.len ≠ 0)
      || (e.placeAt level).any (s.awaitsOwn e)) then none
  else if n ≠ 0 && !s.within (clusterOfCore core) then none
  else some ((es.foldl (fun s e => s.promoteOne e level) s).spend (clusterOfCore core) n)

end Sys2Proof.Machine
end

