-- ==== Sys2Proof/Machine/Translate.lean ====
section
/-! DEFINITION. Addresses: page tables and TLBs (R280–R285), the storage of a thread's own spaces (R57, R58), the Latch
table (R288), and the causes an access is checked for (R167, R277, R286, R385). -/
namespace Sys2Proof.Machine

/-! ## Page tables (R280–R282) -/

/-- One byte as the walkers of a die read it: a load at DEV scope (R283). -/
def State.walkByte (s : State) (d loc : Nat) : Byte :=
  match s.newest (.db d) loc with
  | some e => e.byteAt loc
  | none => match s.newest .xb loc with
    | some e => e.byteAt loc
    | none => s.peek loc

/-- The same for a walk, or an access of the device, that is made in one step: it may have read the byte before (R297, log 13). -/
def State.tableByte (s : State) (d loc : Nat) : Byte := (Table.find (s.die d).ahead loc).getD (s.walkByte d loc)

def State.walkN (s : State) (d loc n : Nat) : Nat := leNat ((byteRange loc n).map (s.tableByte d))

/-- The size of a leaf's page (Table 20.3). -/
def pageSize (level : Nat) : Nat :=
  match level with
  | 0 => 2 ^ 15
  | 1 => 2 ^ 21
  | _ => 2 ^ 30

/-- The bytes that one entry of a level stands for (Table 20.3). -/
def walkSpan (level : Nat) : Nat :=
  match level with
  | 0 => 2 ^ 15
  | 1 => 2 ^ 21
  | 2 => 2 ^ 30
  | 3 => 2 ^ 39
  | _ => 2 ^ 48

/-- The index of an address in a table of a level (Table 20.3). -/
def walkIndex (level va : Nat) : Nat :=
  match level with
  | 0 => va / 2 ^ 15 % 2 ^ 6
  | 1 => va / 2 ^ 21 % 2 ^ 9
  | 2 => va / 2 ^ 30 % 2 ^ 9
  | 3 => va / 2 ^ 39 % 2 ^ 9
  | _ => va / 2 ^ 48 % 2 ^ 8

def entryBit (e n : Nat) : Bool := e / 2 ^ n % 2 = 1
/-- Fields of Table 20.4. -/
def entryLoc (e : Nat) : Nat := e / 2 ^ 6 % 2 ^ 4
def entryFrame (e : Nat) : Nat := e / 2 ^ 12 % 2 ^ 40 * 2 ^ 12
def entryNext (e level : Nat) : Nat := if level = 1 then e / 2 ^ 9 % 2 ^ 43 * 2 ^ 9 else entryFrame e

/-- Table 20.7: the base and the size of an aperture. -/
def aperture (loc : Nat) : Nat × Nat :=
  if loc = 0 then (0, 2 ^ 40)
  else if loc ≤ 8 then (2 ^ 40 + (loc - 1) * 2 ^ 37, 2 ^ 37)
  else if loc = 9 then (systemBase, 2 ^ 47)
  else (scratchBase, 2 ^ 38)

/-- Is a leaf malformed (R281)? -/
def leafBad (privileged : Bool) (e level : Nat) : Bool :=
  decide (3 ≤ level) || decide ((if privileged then 10 else 9) < entryLoc e)
    || entryFrame e % pageSize level ≠ 0
    || decide ((aperture (entryLoc e)).2 < entryFrame e + pageSize level)

/-- What an entry of a level comes to: the end of the walk, or the table of the next level. -/
def State.walkEntry (s : State) (privileged : Bool) (e level : Nat) : Walk ⊕ Nat :=
  if !entryBit e 0 then .inl .unmapped
  else if entryBit e 1 then .inl (if leafBad privileged e level then .malformed level else .leaf e level)
  else
    let next := entryNext e level
    if level = 0 || decide (2 ^ 41 ≤ next) || !s.assigned next then .inl (.malformed level) else .inr next

/-- The walk from a table of a level. -/
def State.walkFrom (s : State) (d : Nat) (privileged : Bool) (va : Nat) : Nat → Nat → Walk
  | level, table =>
    match s.walkEntry privileged (s.walkN d (table + 8 * walkIndex level va) 8) level with
    | .inl r => r
    | .inr next => match level with
      | 0 => .malformed 0
      | l + 1 => s.walkFrom d privileged va l next

/-- The walk of an address in a context's page table (R280), made in one step but for what has been read ahead. -/
def State.walk (s : State) (d ctx va : Nat) : Walk :=
  let c := s.context ctx
  s.walkFrom d c.privileged va 4 c.root

/-! ## TLBs (R283) -/

/-- The first address of the 32 KiB unit that holds an address: the smallest page that it may lie on. -/
def unitOf (va : Nat) : Nat := va / 2 ^ 15 * 2 ^ 15

/-- The key of a page in a TLB: its context and its first 32 KiB unit. -/
def tlbKey (ctx va : Nat) : Nat := ctx * 2 ^ 64 + va / 2 ^ 15

/-- The entry of a TLB for the page that holds an address, whatever the page's size. -/
def tlbFind (t : SMap (Nat × Nat)) (ctx va : Nat) : Option (Nat × Nat) :=
  [0, 1, 2].findSome? (fun level => (Table.find t (tlbKey ctx (va / pageSize level * pageSize level))).filter (fun e => e.2 == level))

/-- May an entry that a TLB holds be used, where the table has changed since (R283; a free choice, log 2)? -/
def State.usesHeld (s : State) (d ctx va pick e level : Nat) : Bool :=
  s.walk d ctx va = .leaf e level || Config.free (s.fresh + 100000 + pick) % 2 = 0

/-- What an access of a warp finds for its page: what the walk that it has waited for ended in, else the entry that the core's TLB
holds. None: it misses (R283). -/
def State.xlate (s : State) (w : Warp) (va pick : Nat) : Option Walk :=
  match Table.find w.walked (unitOf va) with
  | some r => some r
  | none => match tlbFind (s.core w.core).tlb (s.ctxOf w) va with
    | some (e, l) => if s.usesHeld (dieOfCore w.core) (s.ctxOf w) va pick e l then some (.leaf e l) else none
    | none => none

/-- What a fetch, or the Wicket, finds for its page: a miss is walked at once (log 13). -/
def State.xlateNow (s : State) (core ctx va pick : Nat) : Walk :=
  let d := dieOfCore core
  match (tlbFind (s.core core).tlb ctx va).or (tlbFind (s.die d).tlb ctx va) with
  | some (e, l) => if s.usesHeld d ctx va pick e l then .leaf e l else s.walk d ctx va
  | none => s.walk d ctx va

/-- A page enters a TLB: the oldest keys make room beyond the capacity. -/
def tlbFill (cap : Nat) (t : SMap (Nat × Nat)) (key : Nat) (v : Nat × Nat) : SMap (Nat × Nat) :=
  Table.put (if t.length < cap then t else t.drop 1) key v

/-! ## Accesses -/

/-- What an access does: read, write, atomic (with what a peer allows, R385). -/
inductive Acc
  | rd | wr | at (peer : Bool)
  deriving DecidableEq, Repr

def Acc.writes : Acc → Bool
  | .rd => false
  | _ => true
/-- The kind of a fault record (R386). -/
def Acc.kind : Acc → Nat
  | .rd => 1
  | .wr => 2
  | .at _ => 3

/-- The span window (R284, R286). -/
def spanBase : Nat := 0x00FFFF0000000000
def inSpanWindow (va : Nat) : Bool := decide (spanBase ≤ va) && decide (va < 2 ^ 56)

/-- The link a system-window address crosses: 0–7 the Casement links, 8 the Threshold link (R384). -/
def linkOf (pa : Nat) : Option Nat :=
  if pa < systemBase then none else if pa < 0xC00000000000 then some 8 else some ((pa - 0xC00000000000) / 2 ^ 43)

/-- May the access go to the physical address (R277, R385)? -/
def State.reaches (s : State) (acc : Acc) (pa : Nat) : Bool :=
  s.assigned pa && (match linkOf pa with
    | none => true
    | some l => !s.mod.linksDown.contains l && (l == 8 || acc != .at false))

/-- The outcome of a check: the location, a cause (a malformed entry also reports its address), a page that is absent
(base and size), or a translation miss with the first address of its page (of 32 KiB, as its size is not known yet). -/
inductive Chk
  | ok (loc : Nat)
  | cause (c : TrapCause) (bad : Option Nat)
  | absent (page size : Nat)
  | miss (unit : Nat)
  deriving DecidableEq, Repr

/-- The address that has met a malformed entry. -/
def Chk.bad? : Chk → Option Nat
  | .cause _ b => b
  | _ => none
def Chk.miss? : Chk → Option Nat
  | .miss u => some u
  | _ => none

/-- The location of an address whose walk has ended (R281, R282). Locations reached by LOC 10 are 2^48 higher (R279). A page that is
absent is waited for, whether or not the access may write there (log 97). -/
def State.placeAt (s : State) (va : Nat) (acc : Acc) : Walk → Chk
  | .unmapped => .cause .accessViolation none
  | .malformed _ => .cause .accessViolation (some va)
  | .leaf e l =>
    if !entryBit e 2 then .absent (va / pageSize l * pageSize l) (pageSize l)
    else if acc.writes && !entryBit e 3 then .cause .accessViolation none
    else
      let pa := (aperture (entryLoc e)).1 + entryFrame e + va % pageSize l
      if s.reaches acc pa then .ok (if entryLoc e = 10 then pa + paTop else pa) else .cause .accessViolation none

/-- The location of a global address of a warp, for one page. -/
def State.place (s : State) (w : Warp) (va : Nat) (acc : Acc) (pick : Nat) : Chk :=
  if 2 ^ 56 ≤ va || inSpanWindow va then .cause .accessViolation none
  else match s.xlate w va pick with
    | some r => s.placeAt va acc r
    | none => .miss (unitOf va)

/-- A virtual address of a context as a unit outside the cores reaches it, through the walkers of a die. -/
def State.diePlace (s : State) (d ctx va : Nat) (acc : Acc) : Chk :=
  if (s.context? ctx).isNone || 2 ^ 56 ≤ va || inSpanWindow va then .cause .accessViolation none
  else s.placeAt va acc (s.walk d ctx va)

/-- The same for the distributor: the walkers of die 0 serve it (log 17). -/
def State.devPlace (s : State) (ctx va : Nat) (acc : Acc) : Chk := s.diePlace 0 ctx va acc

/-- Of malformed entries that have been met, each a level and an address, the first address that has met each one. -/
def oneEach (met : List (Nat × Nat)) : List Nat :=
  (met.foldl (fun (seen : List (Nat × Nat)) e =>
    if seen.any (fun x => x.1 == e.1 && x.2 / walkSpan e.1 == e.2 / walkSpan e.1) then seen else seen ++ [e]) []).map (·.2)

/-- The malformed entries that the walkers of a die meet on the way to addresses of a context, for a unit outside the cores: one record for
each (R281). -/
def State.reportWalks (s : State) (d ctx : Nat) (vas : List Nat) : State :=
  let vas := if (s.context? ctx).isNone then [] else vas.filter (fun va => decide (va < 2 ^ 56) && !inSpanWindow va)
  (oneEach (vas.filterMap (fun va => match s.walk d ctx va with | .malformed l => some (l, va) | _ => none))).foldl
    (fun s va => s.errorRecord 0x13 ctx (3968 + d) va) s

def Chk.loc? : Chk → Option Nat
  | .ok l => some l
  | _ => none
def Chk.page? : Chk → Option (Nat × Nat)
  | .absent p z => some (p, z)
  | _ => none

/-! ## The thread's own spaces (R57, R58) -/

/-- The ranges in which `n` bytes from `o` on stand, of what is held in pieces, each a start and a length. -/
def partsIn : List (Nat × Nat) → Nat → Nat → List (Nat × Nat)
  | [], o, n => [(o, n)]
  | (a, k) :: r, o, n =>
    if k ≤ o then partsIn r (o - k) n
    else if n ≤ k - o then [(a + o, n)]
    else (a + o, k - o) :: partsIn r 0 (n - (k - o))

/-- Where byte `o` of what is held in pieces stands. -/
def placeIn : List (Nat × Nat) → Nat → Nat
  | [], o => o
  | (a, k) :: r, o => if k ≤ o then placeIn r (o - k) else a + o

/-- A local space: the location that its pieces are counted from, these, and how many bytes it has. -/
structure Space where
  base : Nat
  pieces : List (Nat × Nat)
  size : Nat
  deriving DecidableEq, Repr

namespace Space
/-- The location of a byte. -/
def at_ (x : Space) (o : Nat) : Nat := x.base + placeIn x.pieces o
/-- The locations of a range, piece by piece. -/
def parts (x : Space) (o n : Nat) : List (Nat × Nat) := (partsIn x.pieces o n).map (fun p => (x.base + p.1, p.2))
end Space

/-- A team's scratchpad, a span group's window, and a lane's slice. -/
def Team.space (t : Team) (k : Kernel) : Space := { base := scratchBase + t.core * 2 ^ 21, pieces := t.scratchAt, size := k.scratch }
def Span.space (x : Span) (k : Kernel) : Space := { base := clusterBase + x.cluster * 2 ^ 24, pieces := x.windowAt, size := k.clusterspan }
def State.scratchOf (s : State) (w : Warp) : Space :=
  { base := scratchBase + w.core * 2 ^ 21, pieces := (s.teamOf w).scratchAt, size := (s.kernOf w).scratch }
def State.windowOf (s : State) (w : Warp) : Space :=
  match s.span? (s.teamOf w).span with
  | some g => g.space (s.kernOf w)
  | none => { base := clusterBase, pieces := [], size := 0 }
def State.laneBytesOf (s : State) (w : Warp) (lane : Nat) : Space :=
  { base := sliceBase + w.core * 2 ^ 20 + w.part % 4 * 2 ^ 18 + lane * 2 ^ 13
    pieces := Table.get [] (s.teamOf w).lanesAt w.num, size := (s.kernOf w).lanebytes }

/-! ## The Latch table (R288) -/

def meets (a n b m : Nat) : Bool := decide (a < b + m) && decide (b < a + n)

/-- Does a range of one of two lists of ranges meet one of the other? -/
def meetAny (xs ys : List (Nat × Nat)) : Bool := xs.any (fun x => ys.any (fun y => meets x.1 x.2 y.1 y.2))

/-- Do scratchpad ranges, by location, meet an entry of the core? -/
def State.latchedScr (s : State) (core : Nat) (rs : List (Nat × Nat)) : Bool :=
  s.copies.any (fun c => c.latched && c.core == core && meetAny rs c.scr)
/-- Does a global range meet an entry, by virtual address? -/
def State.latchedVa (s : State) (core va n : Nat) : Bool :=
  s.copies.any (fun c => c.latched && c.core == core && (match c.glob with | some g => meets va n g.1 g.2 | none => false))

/-! ## Checks of a range (R167, R198) -/

/-- A space that an access names. -/
inductive Where
  | global | scratch | window | slice
  deriving DecidableEq, Repr

/-- The check of one element: `n` bytes at `a`, aligned to `align` (R167). A global element lies within one page. -/
def State.check (s : State) (w : Warp) (sp : Where) (acc : Acc) (lane a n align : Nat) : Chk :=
  if a % align ≠ 0 then .cause .misaligned none
  else
    let local_ (b : Space) : Chk :=
      if b.size < a + n then .cause .accessViolation none
      else if s.latchedScr w.core (b.parts a n) then .cause .latchConflict none
      else .ok (b.at_ a)
    match sp with
    | .scratch => local_ (s.scratchOf w)
    | .window => local_ (s.windowOf w)
    | .slice => local_ (s.laneBytesOf w lane)
    | .global =>
      match s.place w a acc lane with
      | .ok loc => if s.latchedVa w.core a n then .cause .latchConflict none else .ok loc
      | .absent p z => if s.latchedVa w.core a n then .cause .latchConflict none else .absent p z
      | r => r

/-- The pages whose walks the checks of several lanes wait for. -/
def missed (cs : List (Nat × Chk)) : List Nat := (cs.filterMap (fun e => e.2.miss?)).eraseDups

/-- The 4 KiB units that a list of ranges touches: a page is a union of them, and so is every part of the map that exists. -/
def unitsOf (ranges : List (Nat × Nat)) : List Nat :=
  (ranges.flatMap (fun r => if r.2 = 0 then [] else (List.range (r.2 / 2 ^ 12 + 2)).filterMap (fun i =>
    if (r.1 / 2 ^ 12 + i) * 2 ^ 12 < r.1 + r.2 then some (r.1 / 2 ^ 12 + i) else none))).eraseDups

/-- The first of several outcomes that counts: a miss waits, then causes in the order of R167, then absent pages. -/
def worst (cs : List Chk) : Option Chk :=
  (cs.find? (·.miss?.isSome)).or ((cs.find? (fun c => match c with | .cause .misaligned _ => true | _ => false)).or
    ((cs.find? (fun c => match c with | .cause .accessViolation _ => true | _ => false)).or
      ((cs.find? (fun c => match c with | .cause _ _ => true | _ => false)).or
        (cs.find? (fun c => match c with | .absent _ _ => true | _ => false)))))

/-- The check of a footprint of several global ranges (R198, R199): none when every page is there; the locations follow
from `State.place` unit by unit. -/
def State.checkRanges (s : State) (w : Warp) (acc : Acc) (lane : Nat) (ranges : List (Nat × Nat)) : Option Chk :=
  let pages := (unitsOf ranges).map (fun u => s.place w (u * 2 ^ 12) acc lane)
  let latch := if ranges.any (fun r => s.latchedVa w.core r.1 r.2) then [Chk.cause .latchConflict none] else []
  worst (pages ++ latch)

/-- Of addresses, the first that meets each malformed entry, where `look` says what their walks came to (R281). -/
def malformedAt (look : Nat → Option Walk) (vas : List Nat) : List Nat :=
  oneEach (vas.filterMap (fun va => match look va with | some (.malformed l) => some (l, va) | _ => none))

/-- What a footprint of global ranges has met, where the violation among its causes may be a malformed entry. -/
def State.badOf (s : State) (w : Warp) (lane : Nat) (ranges : List (Nat × Nat)) : Chk → List Nat
  | .cause .accessViolation _ => malformedAt (fun va => s.xlate w va lane)
      (((unitsOf ranges).map (· * 2 ^ 12)).filter (fun va => decide (va < 2 ^ 56) && !inSpanWindow va))
  | _ => []

/-- The location of one byte of a footprint that has been checked. -/
def State.locOf (s : State) (w : Warp) (acc : Acc) (lane va : Nat) : Nat :=
  match s.place w (va / 2 ^ 12 * 2 ^ 12) acc lane with
  | .ok l => l + va % 2 ^ 12
  | _ => 0

/-- The lanes that hold the first cause of R167's order (R191's for matrix forms). -/
def firstCause (cs : List (Nat × Chk)) : Option (TrapCause × List Nat) :=
  [TrapCause.illegalOperand, .misaligned, .accessViolation, .latchConflict].findSome? (fun k =>
    let ls := cs.filterMap (fun e => match e.2 with | .cause k' _ => if k' = k then some e.1 else none | _ => none)
    if ls.isEmpty then none else some (k, ls))

/-- A malformed entry that a thread's access met is reported (R281). -/
def State.reportBad (s : State) (w : Warp) (va : Nat) : State := s.errorRecord 0x13 (s.ctxOf w) (3968 + dieOfCore w.core) va

end Sys2Proof.Machine
end

