-- ==== Sys2Proof/Machine/Fetch.lean ====
section
/-! DEFINITION. Fetching code: words of the code section through translation and the instruction caches (R93–R95, R282),
the head-word check of branches (R104), and the safe-point table (R125). -/
namespace Sys2Proof.Machine

/-- A word of the code section, or why it cannot be had: its page is absent, or not mapped (with the address of a
malformed entry). -/
inductive CodeRes
  | word (x : Nat)
  | absent (page size : Nat)
  | unmapped (bad : Option Nat)
  deriving DecidableEq, Repr

def icacheKey (ctx va : Nat) : Nat := ctx * 2 ^ 56 + va

/-- A value read as a load at DEV scope by the core itself. -/
def State.coreRead (s : State) (core loc n : Nat) : Nat := s.searchN 0 0 core loc n .dev none

/-- 8 bytes of a context at a virtual address, as a fetch meets them: no TLB wait (the fetch waits by itself, R323). -/
def State.codeAt (s : State) (core ctx va : Nat) : CodeRes :=
  if 2 ^ 56 ≤ va || inSpanWindow va then .unmapped none
  else
    match s.xlateNow core ctx va 64 with
    | .unmapped => .unmapped none
    | .malformed _ => .unmapped (some va)
    | .leaf e l =>
      if !entryBit e 2 then .absent (va / pageSize l * pageSize l) (pageSize l)
      else
        let pa := (aperture (entryLoc e)).1 + entryFrame e + va % pageSize l
        if !s.reaches .rd pa then .unmapped none
        else
          let now := s.coreRead core (if entryLoc e = 10 then pa + paTop else pa) 8
          -- a word that has changed since the cache took it is the old one or the new one (R94; log 2)
          match Table.find (s.core core).icache (icacheKey ctx va) with
          | some old => .word (if old = now || Config.free (s.fresh + 110000 + va % 1024) % 2 = 0 then old else now)
          | none => .word now

/-- The word at a code offset of a warp's kernel; words beyond the code section read as 0 (R93). -/
def State.codeWord (s : State) (w : Warp) (off : Nat) : CodeRes :=
  let k := s.kernOf w
  if k.codeSize < off + 8 then .word 0 else s.codeAt w.core (s.ctxOf w) ((k.code + off) % 2 ^ 64)

/-- A fetch from a page that is not mapped ends the context (R282); a malformed entry is reported as well (R281). -/
def State.fetchFault (s : State) (w : Warp) (bad : Option Nat) : State :=
  let s := match bad with
    | some va => s.errorRecord 0x13 (s.ctxOf w) (3968 + dieOfCore w.core) va
    | none => s
  s.endContext (s.ctxOf w) w.part 0

/-- R104: is the target a head word? `none` while its page is absent. A target whose page is not mapped passes: the
fetch at it ends the context (R282). -/
def State.isHead (s : State) (w : Warp) (target : Int) : Except (Nat × Nat) Bool :=
  let k := s.kernOf w
  if target < 0 || (k.codeSize : Int) < target + 8 || target % 8 ≠ 0 then .ok false
  else match s.codeWord w target.toNat with
    | .word x => .ok (x / 2 ^ 63 % 2 == 1)
    | .absent p z => .error (p, z)
    | .unmapped _ => .ok true

/-- Does the core have to fetch the line of a code offset: its cache does not hold the word? -/
def State.fetches (s : State) (w : Warp) (off : Nat) : Bool :=
  let k := s.kernOf w
  decide (off + 8 ≤ k.codeSize) && (Table.find (s.core w.core).icache (icacheKey (s.ctxOf w) ((k.code + off) % 2 ^ 64))).isNone

/-- A fetch that waits for its cluster's next interval (R365). -/
def State.fetchHeld (s : State) (w : Warp) (off : Nat) : Bool := s.fetches w off && !s.within (clusterOfCore w.core)

/-- The instruction cache after a fetch: it holds the line of the word, and of the word itself what the fetch gave (R94). It holds what has
been fetched for an issue, and keeps it until it is dropped (log 90). A line that it did not hold is a request of the cluster (R365). -/
def State.cacheLine (s : State) (w : Warp) (off : Nat) : State :=
  let k := s.kernOf w
  let ctx := s.ctxOf w
  let va := (k.code + off) % 2 ^ 64
  let line := if k.codeSize < off + 8 then [] else (List.range 16).map (fun i => va / 128 * 128 + 8 * i)
  let s := if s.fetches w off then s.spend (clusterOfCore w.core) 128 else s
  s.modCore w.core (fun c => { c with
    icache := line.foldl (fun m a =>
      if a = va || (Table.find m (icacheKey ctx a)).isNone then (match s.codeAt w.core ctx a with
        | .word x => Table.put m (icacheKey ctx a) x
        | _ => m)
      else m) c.icache })

/-! ## The safe-point table (R125, Table 8.4) -/

/-- What the table says of a PC: its ordinal, save and restore routines; no entry; or that a page of it is absent. -/
inductive SafeRes
  | entry (ordinal save restore : Nat)
  | missing
  | absent (page size : Nat)
  deriving DecidableEq, Repr

/-- The entries from `i` on, read at DEV scope; the first one for the PC counts, whatever their order (log 74). An entry on a page that
is not mapped lists nothing. -/
def State.safeFrom (s : State) (w : Warp) (pc : Nat) : Nat → Nat → SafeRes
  | 0, _ => .missing
  | n + 1, i =>
    let at_ (off : Nat) : CodeRes := s.codeAt w.core (s.ctxOf w) (((s.kernOf w).spTable + 128 * i + off) % 2 ^ 64)
    match at_ 0, at_ 8 with
    | .absent p z, _ | _, .absent p z => .absent p z
    | .word a, .word b => if a % 2 ^ 32 = pc then .entry i (a / 2 ^ 32) (b % 2 ^ 32) else s.safeFrom w pc n (i + 1)
    | _, _ => s.safeFrom w pc n (i + 1)

/-- The table's answer for a PC. -/
def State.safeEntry (s : State) (w : Warp) (pc : Nat) : SafeRes := s.safeFrom w pc (s.kernOf w).spCount 0

/-- The malformed entries that a look into the table for a PC has met are reported (R281). -/
def State.safeReports (s : State) (w : Warp) (pc : Nat) : State :=
  let k := s.kernOf w
  let n := match s.safeEntry w pc with
    | .entry i _ _ => i + 1
    | _ => k.spCount
  s.reportWalks (dieOfCore w.core) (s.ctxOf w) ((List.range n).flatMap (fun i => [0, 8].filterMap (fun o =>
    match s.codeAt w.core (s.ctxOf w) ((k.spTable + 128 * i + o) % 2 ^ 64) with
    | .unmapped b => b
    | _ => none)))

end Sys2Proof.Machine
end

