-- ==== Sys2Proof/Machine/Peephole.lean ====
section
/-! DEFINITION. Peephole: stamping and reports (R373–R375, Table 32.3). -/
namespace Sys2Proof.Machine

/-- Is the warp's team watched (R373)? -/
def State.watched (s : State) (w : Warp) : Bool :=
  (s.context (s.ctxOf w)).peephole && !(s.gridOf w).unwatched && (!(s.teamOf w).cont || decide ((s.teamOf w).index < 65536))

/-- Where the shadow entry of an element of a context is. -/
def shadowKey (ctx elem : Nat) : Nat := ctx * 2 ^ 64 + Config.shadowPlace ctx elem % 2 ^ 64

/-- R373: the shadow table lies in device memory, in a layout that is not given: its bytes are free after a stamp (log 25). -/
def State.shadowed (s : State) (before : SMap Shadow) (ctx : Nat) : State :=
  let c := s.context ctx
  if s.mod.shadow = before || !c.peephole then s
  else (s.pokeBytes c.shadow ((List.range c.shadowSize).map (Config.freeByte s.fresh))).modContext ctx (fun c => { c with shadowSeed := some s.fresh })

/-- Does the shadow table hold what the device wrote there last? -/
def State.shadowIntact (s : State) (ctx : Nat) : Bool :=
  let c := s.context ctx
  match c.shadowSeed with
  | some n => (List.range c.shadowSize).all (fun i => s.peek (c.shadow + i) == Config.freeByte n i)
  | none => true

/-- What an access stands as in a table that software has written: free values (log 2, log 25). -/
def freeAccess (n : Nat) : Option Access :=
  if Config.free n % 2 = 0 then none
  else some { team := Config.free (n + 1) % 2 ^ 16, epoch := Config.free (n + 2) % 2 ^ 32, ord := Config.free (n + 3) % 2 ^ 32
              dist := Config.free (n + 4) % 2 ^ 16, atomic := Config.free (n + 5) % 2 = 1 }

/-- The shadow entry of an element; one claimed by another address, or holding another grid's history, is empty, and one of a table that
software has written is free. -/
def State.shadowOf (s : State) (w : Warp) (elem : Nat) : Shadow :=
  let gid := (s.teamOf w).grid
  let x := Table.get {} s.mod.shadow (shadowKey (s.ctxOf w) elem)
  let n := s.fresh + 3000000 + 16 * (elem % 2 ^ 16)
  if !s.shadowIntact (s.ctxOf w) then
    { addr := elem, grid := gid, write := freeAccess n, read := freeAccess (n + 6), sync := Table.set 0 [] (Config.free (n + 12) % 2 ^ 16) (Config.free (n + 13) % 2 ^ 32) }
  else if x.addr = elem && x.grid = gid then x else { addr := elem, grid := gid }

def State.putShadow (s : State) (w : Warp) (elem : Nat) (x : Shadow) : State :=
  { s with mod := { s.mod with shadow := Table.put s.mod.shadow (shadowKey (s.ctxOf w) elem) x } }

/-- R374: is an earlier access ordered before one of this team now? -/
def Team.ordered (t : Team) (a : Access) : Bool := a.team == t.index || decide (a.epoch ≤ Table.get 0 t.clock a.team)

/-- One packet of a report (R375). -/
def State.reportPacket (s : State) (w : Warp) (ev kind : Nat) (a : Access) : State :=
  s.emit w.core 1 w.part 3 (s.ctxOf w * 2 ^ 48 + ev * 2 ^ 40 + kind * 2 ^ 32 + a.ord)
    ((s.kernOf w).id * 2 ^ 32 + min a.dist 65535 * 2 ^ 16 + a.team % 2 ^ 16) s.mod.gts

/-- A report: the earlier access and the later one. -/
def State.report (s : State) (w : Warp) (k1 k2 : Nat) (old new : Access) : State :=
  (s.reportPacket w 6 k1 old).reportPacket w 7 k2 new

/-- What an operation does: a load, a store, an atomic, a release store or an acquire load of CLUS or wider. -/
inductive Stamp
  | load | store | atomic | release | acquire
  deriving DecidableEq, Repr

/-- Table 32.3 for one element; `safe` and `dist` are the access's position. -/
def State.stampElem (s : State) (w : Warp) (k : Stamp) (safe : Option Nat) (dist elem : Nat) : State :=
  let t := s.teamOf w
  let x := s.shadowOf w elem
  let now : Access := { team := t.index, epoch := Table.get 0 t.clock t.index, ord := safe.getD 0xFFFFFFFF, dist := dist
                        atomic := k == .atomic }
  let kind := match k with
    | .load | .acquire => 1
    | .store | .release => 2
    | .atomic => 3
  let check (s : State) (old : Option Access) (write : Bool) : State :=
    match old with
    | none => s
    | some a =>
      if t.ordered a || (k == .atomic && a.atomic) then s
      else s.report w (if a.atomic then 3 else if write then 2 else 1) kind a now
  let s := check s x.write true
  match k with
  | .load => s.putShadow w elem { x with read := some now }
  | .acquire => s.modTeam w.team (fun t => { t with clock := x.sync.foldl (fun m e => Table.set 0 m e.1 (max (Table.get 0 m e.1) e.2)) t.clock })
  | .store | .atomic => (check s x.read false).putShadow w elem { x with write := some now }
  | .release =>
    let s := (check s x.read false).putShadow w elem { x with sync := t.clock }
    s.modTeam w.team (fun t => { t with clock := Table.set 0 t.clock t.index ((Table.get 0 t.clock t.index + 1) % 2 ^ 32) })

/-- The stamps of an access of `n` bytes at a global address. -/
def State.stamp (s : State) (w : Warp) (k : Stamp) (safe : Option Nat) (dist va n : Nat) : State :=
  if s.watched w && n ≠ 0 then
    (List.range ((va + n - 1) / 8 - va / 8 + 1)).foldl (fun s i => s.stampElem w k safe dist (8 * (va / 8 + i))) s
  else s

end Sys2Proof.Machine
end

