-- ==== Sys2Proof/Machine/Turnstile.lean ====
section
/-! DEFINITION. The Turnstile: deposits, the spill area, dispatch and drain (R43–R48, R137). -/
namespace Sys2Proof.Machine

/-! ## Room and deposits (R43) -/

/-- The entries that a cluster's Turnstile holds, of every grid. -/
def State.held (s : State) (cluster : Nat) : Nat :=
  s.mod.grids.foldl (fun n g => n + g.2.deposits.countP (fun d => d.cluster == cluster && d.spill.isNone)) 0

/-- The lowest free entry of a grid's spill area. -/
def Grid.freeSpill (g : Grid) : Option Nat :=
  let used := g.deposits.filterMap (·.spill)
  if g.launch.spill = 0 || g.launch.spillEntries ≤ used.length then none
  else (List.range (used.length + 1)).find? (fun i => !used.contains i)

/-- Where a deposit of the grid on a cluster goes: the Turnstile, a spill entry, or nowhere. -/
def State.roomFor (s : State) (g : Grid) (cluster : Nat) : Option (Option Nat) :=
  if s.held cluster < 4096 then some none else g.freeSpill.map some

/-- A spill entry's 32 bytes in the grid's spill area: their layout is not given, so free bytes (log 2). A page that is not mapped or
not writable takes none (log 80). -/
def State.spillWrite (s : State) (core ctx va : Nat) : State :=
  match s.diePlace (dieOfCore core) ctx va .wr with
  | .ok loc => s.pokeBytes loc ((List.range 32).map (fun i => Config.freeByte s.fresh (va + i)))
  | _ => s.reportWalks (dieOfCore core) ctx [va]

/-- The first absent page among the spill entries that the next `n` deposits of a grid on a core would take (R285). -/
def State.spillWaits (s : State) (g : Grid) (core n : Nat) : Option (Nat × Nat) :=
  let used := g.deposits.filterMap (·.spill)
  let more := n - (4096 - s.held (clusterOfCore core))
  (((List.range (used.length + more)).filter (fun i => !used.contains i && decide (i < g.launch.spillEntries))).take more).findSome?
    (fun i => (s.diePlace (dieOfCore core) g.ctx (g.launch.spill + 32 * i) .wr).page?)

/-- One lane deposits, if there is room: its entry, its DEV-scope release, and its end (R43, R48, R300). -/
def State.deposit (s : State) (wid lane key : Nat) (payload : List Word) : Option State :=
  match s.warp? wid with
  | none => none
  | some w =>
    let gid := (s.teamOf w).grid
    let g := s.grid gid
    let cluster := clusterOfCore w.core
    match s.roomFor g cluster with
    | none => none
    | some sp =>
      let d : Deposit := { key := key, team := (s.teamOf w).index, warp := w.num, lane := lane, payload := payload
                           cluster := cluster, wid := wid, order := w.order, spill := sp }
      let s := s.putGrid gid { g with deposits := g.deposits ++ [d] }
      let s := match sp with
        | some i => s.spillWrite w.core g.ctx (g.launch.spill + 32 * i)
        | none => s
      some ((s.modWarp wid (fun w => w.setRealTh lane { w.realTh lane with st := .deposited })).addMarker .relMarker wid lane .dev w.order w.core)

/-! ## Dispatch (R44–R47) -/

/-- Origins in order (R44). -/
def Deposit.before (a b : Deposit) : Bool :=
  if a.team ≠ b.team then a.team < b.team else if a.warp ≠ b.warp then a.warp < b.warp else a.lane < b.lane

/-- A continuation team for the entries given, which leave the Turnstile or the spill area (R45, R47). -/
def Grid.dispatch (g : Grid) (cluster key : Nat) (entries : List Deposit) : Grid :=
  { g with
    nextCont := g.nextCont + 1
    conts := g.conts ++ [{ index := g.nextCont, cluster := cluster, key := key, entries := entries }]
    deposits := g.deposits.filter (fun d => !entries.contains d) }

/-- Entries in origin order, cut into warps of 32. -/
def cut32 : Nat → List Deposit → List (List Deposit)
  | 0, _ => []
  | _, [] => []
  | n + 1, ds => ds.take 32 :: cut32 n (ds.drop 32)

def sortDeposits (ds : List Deposit) : List Deposit := sortBy (fun a b => !b.before a) ds

/-- The keys of entries, ascending. -/
def keysOf (ds : List Deposit) : List Nat := ascending (ds.map (·.key))

/-- Every remaining entry of one set, key by key; `cluster` is that of a warp's entries (R44, R46). -/
def Grid.dispatchSet (g : Grid) (cluster : List Deposit → Nat) (ds : List Deposit) : Grid :=
  (keysOf ds).foldl (fun g k =>
    (cut32 (ds.length + 1) (sortDeposits (ds.filter (·.key == k)))).foldl (fun g es => g.dispatch (cluster es) k es) g) g

/-- Does an entry count: has its depositor's release completed (R300)? -/
def State.landed (s : State) (d : Deposit) : Bool := !s.marked d.wid d.lane (·.order == d.order)

/-- Full warps of a cluster's set, lowest key first (R44, R45). -/
def fullWarps (ok : Deposit → Bool) (cluster : Nat) : Nat → Grid → Grid
  | 0, g => g
  | n + 1, g =>
    let ds := g.deposits.filter (fun d => d.cluster == cluster && ok d)
    match (keysOf ds).find? (fun k => decide (32 ≤ ds.countP (·.key == k))) with
    | none => g
    | some k => fullWarps ok cluster n (g.dispatch cluster k ((sortDeposits (ds.filter (·.key == k))).take 32))

/-- The groups of several ranges. -/
def groupsIn (rs : List (Nat × Nat)) : Nat := (rs.map (·.2)).sum

/-- Has every team of the grid been placed, continuation teams too? -/
def Grid.allPlaced (g : Grid) : Bool :=
  g.phase == .running && g.left.2 == 0 && g.dieRange.all (fun e => e.2.2 == 0) && g.clusterRange.all (fun e => groupsIn e.2 == 0) && g.conts.isEmpty

/-- R44's drain condition. -/
def State.drains (s : State) (gid : Nat) : Bool :=
  let g := s.grid gid
  g.allPlaced && !g.deposits.isEmpty && g.deposits.all s.landed
    && s.warps.all (fun e => (s.teamOf e.2).grid != gid || lanes32.all (fun l => match (e.2.realTh l).st with
      | .exited | .deposited | .regroup _ _ => true
      | _ => false))

/-- Everything that dispatches now. At a drain the clusters come in ascending order, and so do their continuation teams' indices (log
72). In a deterministic grid a warp belongs to the cluster whose Turnstile holds its first entry (R322, log 39). -/
def State.dispatchAll (s : State) (gid : Nat) : State :=
  match s.grid? gid with
  | none => s
  | some g =>
    let clusters := ascending (g.deposits.map (·.cluster))
    let g' := if g.launch.det then g else clusters.foldl (fun g k => fullWarps s.landed k (g.deposits.length / 32 + 1) g) g
    let s := s.putGrid gid g'
    if s.drains gid then
      s.putGrid gid (if g.launch.det then g'.dispatchSet (fun es => (es.head?.map (·.cluster)).getD 0) g'.deposits
        else clusters.foldl (fun h k => h.dispatchSet (fun _ => k) (g'.deposits.filter (·.cluster == k))) g')
    else s

/-- Does the warp stand in its slot, its threads' states its own (R25)? -/
def Warp.isResident (w : Warp) : Bool := match w.resid with
  | .resident => true
  | _ => false

/-- Does a thread of the warp, which is in its slot, wait at a REGROUP? -/
def Warp.regrouping (w : Warp) : Bool :=
  w.isResident && lanes32.any (fun l => match (w.th l).st with | .regroup _ _ => true | _ => false)

/-- A lane that waits at a REGROUP deposits, if there is room by now: the key and the payload of its REGROUP's issue (log 95). -/
def State.depositLater (s : State) (wid lane : Nat) : Option State :=
  match s.warp? wid with
  | none => none
  | some w => match (w.th lane).st with
    | .regroup key payload =>
      if (s.spillWaits (s.gridOf w) w.core 1).isSome then none else s.deposit wid lane key payload
    | _ => none

/-- The threads that wait at a REGROUP, of any grid, deposit while there is room: in ascending order of warps and lanes (R45, log 72).
Those of a warp that is saved wait until it is back (R25). The answer names the grids that have deposited. -/
def State.deferred (s : State) : State × List Nat :=
  s.warps.foldl (fun acc e =>
    if !e.2.regrouping then acc
    else
      let r := lanes32.foldl (fun (a : State × Bool) l => match a.1.depositLater e.1 l with
        | some s => (s, true)
        | none => a) (acc.1, false)
      if r.2 then ((r.1.modWarp e.1 Warp.settle).tryBars e.2.team, acc.2 ++ [(s.teamOf e.2).grid]) else acc) (s, [])

/-- The Turnstile, for the grids given and then for those that deposit in the room that they leave. -/
def State.turnstiles (s : State) : Nat → List Nat → State
  | 0, _ => s
  | _, [] => s
  | n + 1, gs =>
    let r := (gs.foldl State.dispatchAll s).deferred
    r.1.turnstiles n r.2.eraseDups

/-- The Turnstile, whenever something has changed that a grid's deposits depend on. -/
def State.turnstile (s : State) (gid : Nat) : State := s.turnstiles 64 [gid]

/-- The Turnstile for whoever waits at a REGROUP while entries have freed otherwise: with the end of a context (R43, R45), or as an absent
page of the spill area is there (R285). -/
def State.retryDeposits (s : State) : State :=
  if s.warps.any (fun e => e.2.regrouping) then (let r := s.deferred; r.1.turnstiles 64 r.2.eraseDups) else s

/-- R137 for the active lanes in turn: what is left over when there is no room. -/
def depositLanes (wid : Nat) : State → List (Nat × Nat × List Word) → State × List (Nat × Nat × List Word)
  | s, [] => (s, [])
  | s, (l, key, payload) :: r =>
    match s.deposit wid l key payload with
    | some s' => depositLanes wid s' r
    | none => (s, (l, key, payload) :: r)

end Sys2Proof.Machine
end

