-- ==== Sys2Proof/Machine/Room.lean ====
section
/-! DEFINITION. Room and placement (R20, R47, R54, R56–R59, R320, R343): what a core can still take, and the launch state of a
team. -/
namespace Sys2Proof.Machine

/-! ## Free storage -/

/-- What is free below `cap` from `from_` on beside the ranges in use, these in ascending order: ranges. -/
def gaps (cap : Nat) : Nat → List (Nat × Nat) → List (Nat × Nat)
  | from_, [] => if from_ < cap then [(from_, cap - from_)] else []
  | from_, u :: us => (if from_ < u.1 then [(from_, min u.1 cap - from_)] else []) ++ gaps cap (max from_ (u.1 + u.2)) us

/-- The first `n` bytes of ranges. -/
def firstBytes : Nat → List (Nat × Nat) → List (Nat × Nat)
  | _, [] => []
  | n, g :: gs => if n = 0 then [] else (g.1, min n g.2) :: firstBytes (n - g.2) gs

/-- The lowest start at which `n` bytes fit below `cap` in one piece beside the ranges in use. -/
def firstFit (cap : Nat) (used : List (Nat × Nat)) (n : Nat) : Option Nat :=
  (ascending (0 :: used.map (fun u => u.1 + u.2))).find? (fun a =>
    decide (a + n ≤ cap) && used.all (fun u => n = 0 || u.2 = 0 || !meets a n u.1 u.2))

/-- A size in whole units of an allocation (R57, R58; log 93). -/
def inUnits (unit n : Nat) : Nat := ceilDiv n unit * unit

/-- R57, R58: `n` bytes find room below `cap` beside the ranges in use if the sum allows it. They stand in one piece where they can, else in
the lowest free ones (the place is the model's, log 16). -/
def allot (cap unit : Nat) (used : List (Nat × Nat)) (n : Nat) : Option (List (Nat × Nat)) :=
  let n := inUnits unit n
  match firstFit cap used n with
  | some a => some [(a, n)]
  | none => if (used.map (·.2)).sum + n ≤ cap then some (firstBytes n (gaps cap 0 (sortBy (fun a b => decide (a.1 ≤ b.1)) used))) else none

/-- The units of R57 and R58, and what a lane position, a core and a cluster hold. -/
def laneUnit : Nat := 64
def scratchUnit : Nat := 2 ^ 10
def laneCap : Nat := 2 ^ 13
def scratchCap : Nat := 2 ^ 21
def windowCap : Nat := 12 * 2 ^ 20

def Warp.inSlot (w : Warp) : Bool := match w.resid with
  | .saved _ => false
  | _ => true

/-- What a partition can still take: its free slots, its registers in .regs units, its lane bytes in use, and how many
warps of the team at hand it has been dealt. -/
structure Bay where
  part : Nat
  slots : List Nat
  regs : Nat
  lanes : List (Nat × Nat)
  taken : Nat := 0
  deriving DecidableEq, Repr

def emptyBay (p : Nat) : Bay := { part := p, slots := List.range 16, regs := 3072, lanes := [] }

/-- A partition as it stands for a warp of a team of a context (0: a team that is still to be placed). One that another context owns
and has a RESIDENT warp on takes nothing, nor does one that its context is being switched off (R343, R382). -/
def State.bay (s : State) (ctx team p : Nat) : Bay :=
  let here := (s.warps.filter (fun e => e.2.part == p && e.2.inSlot)).map (·.2)
  let owner := (s.part p).owner
  if (owner ≠ 0 && owner ≠ ctx && here.any (fun w => s.ctxOf w == owner)) || (s.part p).switching then { part := p, slots := [], regs := 0, lanes := [] }
  else {
    part := p
    slots := (List.range 16).filter (fun i => here.all (fun w => w.slot ≠ i))
    regs := 3072 - (here.map (fun w => (s.kernOf w).regs)).sum
    lanes := here.flatMap (fun w => if (s.kernOf w).lanebytes = 0 then [] else Table.get [] (s.teamOf w).lanesAt w.num)
    taken := here.countP (fun w => w.team == team) }

/-- Where a warp of the kernel would go in a partition: its slot and its lane bytes (R59, R320). -/
def Bay.fits (b : Bay) (k : Kernel) : Option (Nat × List (Nat × Nat)) :=
  match b.slots, allot laneCap laneUnit b.lanes k.lanebytes with
  | i :: _, some a => if b.taken < 8 && decide (k.regs ≤ b.regs) then some (i, a) else none
  | _, _ => none

def Bay.take (b : Bay) (k : Kernel) (at_ : List (Nat × Nat)) : Bay :=
  { b with slots := b.slots.drop 1, regs := b.regs - k.regs, taken := b.taken + 1
           lanes := if k.lanebytes = 0 then b.lanes else b.lanes ++ at_ }

/-- The partition with the most free slots that can take the warp; ties go to the lowest (R320). -/
def bestBay (k : Kernel) (bays : List Bay) : Option Bay :=
  bays.foldl (fun best b => if (b.fits k).isNone then best else match best with
    | none => some b
    | some x => if x.slots.length < b.slots.length then some b else best) none

/-- The warps of a team dealt out one by one: partition, slot and lane bytes of each (R320). -/
def deal (k : Kernel) : Nat → List Bay → Option (List (Nat × Nat × List (Nat × Nat)))
  | 0, _ => some []
  | n + 1, bays =>
    match bestBay k bays with
    | none => none
    | some b => match b.fits k with
      | none => none
      | some (i, a) => (deal k n (bays.map (fun x => if x.part = b.part then x.take k a else x))).map ((b.part, i, a) :: ·)

/-- The scratchpad ranges in use on a core, and the windows on a cluster. A team of a switched-out context holds none. -/
def State.scratchUsed (s : State) (core : Nat) : List (Nat × Nat) :=
  s.mod.teams.flatMap (fun e =>
    if e.2.core = core && !e.2.saved && !e.2.warps.isEmpty && (s.grid e.2.grid).kern.scratch ≠ 0 then e.2.scratchAt else [])
def State.windowsUsed (s : State) (cluster : Nat) : List (Nat × Nat) :=
  s.mod.spans.flatMap (fun e =>
    if e.2.cluster = cluster && e.2.teams.any (fun t => !(s.team t).saved) && (s.grid e.2.grid).kern.clusterspan ≠ 0 then e.2.windowAt else [])

/-- Where a team's scratchpad would stand on a core, and a span group's window on a cluster. -/
def State.scratchFor (s : State) (core : Nat) (k : Kernel) : Option (List (Nat × Nat)) :=
  allot scratchCap scratchUnit (s.scratchUsed core) k.scratch
def State.windowFor (s : State) (cluster : Nat) (k : Kernel) : Option (List (Nat × Nat)) :=
  allot windowCap scratchUnit (s.windowsUsed cluster) k.clusterspan

/-- Where a team would go on a core: its scratchpad and its warps. -/
structure Seat where
  core : Nat
  scratchAt : List (Nat × Nat)
  warps : List (Nat × Nat × List (Nat × Nat))
  deriving DecidableEq, Repr

def State.seat (s : State) (ctx core : Nat) (k : Kernel) (warps : Nat) : Option Seat :=
  match s.scratchFor core k, deal k warps ((List.range 4).map (fun i => s.bay ctx 0 (4 * core + i))) with
  | some a, some ws => some { core := core, scratchAt := a, warps := ws }
  | _, _ => none

/-- Where `n` teams of a span group would go on a cluster: on the cores of lowest index with room (R20, R320). -/
def State.seats (s : State) (ctx cluster : Nat) (k : Kernel) (warps n : Nat) : Option (List (Nat × Nat) × List Seat) :=
  match s.windowFor cluster k with
  | none => none
  | some win =>
    let found := ((List.range 6).filterMap (fun i => s.seat ctx (6 * cluster + i) k warps)).take n
    if found.length = n then some (win, found) else none

/-- May the cluster take work of the context (R382, R390)? -/
def State.open (s : State) (ctx cluster : Nat) : Bool :=
  !(s.cluster cluster).fused && !((s.context ctx).switchMask.any (fun m => m / 2 ^ cluster % 2 = 1))

/-- Does a team, or a span group, ask for more than an empty core or cluster holds (status 0x14)? Sizes that are no multiples of R56's to
R58's count as they stand (log 93). -/
def tooBig (k : Kernel) (warps : Nat) : Bool :=
  decide (scratchCap < k.scratch) || decide (windowCap < k.clusterspan) || (deal k warps ((List.range 4).map emptyBay)).isNone

/-! ## Placing -/

/-- H registers as the header gives them (R54), by bits 15 to 0 of its mask (log 91). -/
def Kernel.hregs (k : Kernel) : SMap (BitVec 96) :=
  (lanes32.flatMap (fun l => (List.range 16).map (fun i => (l * 16 + i, if k.mask / 2 ^ i % 2 = 1 then k.descs.getD i 0 else 0)))).filter (fun e => e.2 ≠ 0)

/-- A warp as it is launched (Tables 4.1, 4.6), with its first front, which has cost no clock (R30, R31, log 88), at the entry as it stands (log
92). -/
def launchWarp (g : Grid) (team num part slot entry : Nat) : Warp := {
  team := team, num := num, part := part, slot := slot
  threads := lanes32.map (fun l => (l, ({ pc := entry, st := .ready } : Thread)))
  wregs := Table.set 0 (Table.set 0 [] 2 (BitVec.ofNat 32 g.launch.arg)) 3 (BitVec.ofNat 32 (g.launch.arg / 2 ^ 32 % 2 ^ 24))
  hregs := g.kern.hregs, tvec := BitVec.ofNat 32 g.kern.handler, prio := g.cls, prioCap := g.cls, cur := some Mask.all
  det := g.launch.det }

/-- What a continuation warp differs in (R47). -/
def Warp.continues (w : Warp) (key : Nat) (entries : List Deposit) : Warp :=
  let w := entries.zipIdx.foldl (fun (w : Warp) e => e.1.payload.zipIdx.foldl (fun (w : Warp) p => w.setV e.2 p.2 p.1) w) w
  let live := Mask.ofPred (fun l => l < entries.length)
  let w := { w.setW 0 (BitVec.ofNat 32 key) with cur := if live == 0 then none else some live }
  w.modLanes (~~~live) (fun _ t => { t with st := .exited })

/-- R181: a context other than the last one is placed on the core: both banks are untagged. -/
def State.untag (s : State) (core ctx : Nat) : State :=
  s.modCore core (fun c => if c.placed = ctx then c
    else { c with placed := ctx, current := { c.current with tag := 0 }, shadow := { c.shadow with tag := 0 } })

/-- A partition takes warps of a context into slots: it is the context's from the next clock on (R343), and the slots' floor counts
start at 0 (R324). -/
def State.takeSlots (s : State) (p ctx : Nat) (slots : List Nat) : State :=
  (s.setOwner p ctx).modPart p (fun x => { x with
    ports := Table.mapVal (fun _ (q : Port) => { q with floors := slots.foldl Table.drop q.floors, due := slots.foldl Table.drop q.due }) x.ports })

/-- A warp that comes into its slot in a clock of its core issues from the next one on (R343). -/
def State.joined (s : State) (w : Warp) : Warp := { w with last := if (s.core w.core).clk == .running then (s.core w.core).cyc + 1 else 0 }

/-- A report of position 0xFFFF_FFFF (R373): both its packets; what else they name is not given (log 2). -/
def State.emptyReport (s : State) (g : Grid) (core index : Nat) : State :=
  let packet (s : State) (ev : Nat) : State :=
    s.emit core 1 (3072 + core) 3 (g.ctx * 2 ^ 48 + ev * 2 ^ 40 + Config.free (s.fresh + 140000) % 4 * 2 ^ 32 + 0xFFFFFFFF)
      (g.kern.id * 2 ^ 32 + Config.free (s.fresh + 140001) % 2 ^ 16 * 2 ^ 16 + index % 2 ^ 16) s.mod.gts
  packet (packet s 6) 7

/-- One team comes onto its seat; `body` is what its warps differ in from `launchWarp`. -/
def State.putTeamOn (s : State) (gid span index : Nat) (cont : Bool) (seat : Seat) (entry : Nat) (body : Warp → Warp) : State :=
  let g := s.grid gid
  let (tid, s) := s.newId
  let first := s.nextId
  let ws := seat.warps.zipIdx.map (fun e => (first + e.2, body (launchWarp g tid e.2 e.1.1 e.1.2.1 entry)))
  let t : Team := {
    grid := gid, index := index, core := seat.core, span := span, cont := cont, scratchAt := seat.scratchAt
    lanesAt := seat.warps.zipIdx.foldl (fun m e => Table.set [] m e.2 e.1.2.2) [], warps := ws.map (·.1) }
  let s := { (s.putTeam tid t) with nextId := first + ws.length }
  let s := (seat.warps.foldl (fun s e => s.takeSlots e.1 g.ctx [e.2.1]) s).untag seat.core g.ctx
  let s := ws.foldl (fun s e => s.putWarp e.1 (s.joined e.2)) s
  let s := s.modSpan span (fun x => { x with teams := x.teams ++ [tid] })
  -- a child's and a continuation's first instruction acquires at DEV (Table 22.3)
  if cont || decide (0 < g.depth) then s.acquire seat.core .dev else s

/-- A span group placed whole (R20, R320). -/
def State.placeSpan (s : State) (gid cluster base size : Nat) (cont : Bool) (win : List (Nat × Nat)) (seats : List Seat) (entry : Nat) (body : Warp → Warp) : State :=
  let (sp, s) := s.newId
  let s := s.putSpan sp { grid := gid, cluster := cluster, base := base, size := size, windowAt := win }
  seats.zipIdx.foldl (fun s e => s.putTeamOn gid sp (base + e.2) cont e.1 entry body) s

end Sys2Proof.Machine
end

