-- ==== Sys2Proof/Machine/Image.lean ====
section
/-! DEFINITION. A machine that is about to issue a given instruction (log 21): a context with a page table, a kernel whose code
is the instruction, and a warp at its first word. -/
namespace Sys2Proof.Machine
open Sys2Proof

namespace Image
/-- The page table, at 4 KiB, 8 KiB and 12 KiB: the first GiB of virtual memory is the first GiB of the interleaved aperture,
present and writable (Tables 20.3, 20.4). -/
def table : List (Nat × Nat) := [(0x1000, 0x2001), (0x2000, 0x3001), (0x3000, 0x0F)]
/-- Where the code section lies, and its size. -/
def code : Nat := 0x4000
def codeSize : Nat := 64
/-- The numbers of the context, the grid, the span group, the team and the warp. -/
def ctx : Nat := 1
def grid : Nat := 1
def span : Nat := 1
def team : Nat := 2
def warp : Nat := 3

def context : Context := { root := 0x1000, pool := 0x20000, poolSize := 0x20000, account := 0x8000 }
def kernel : Kernel := { code := code, codeSize := codeSize, regs := 768, hasCont := true, lanebytes := 8192, scratch := 0x10000, clusterspan := 0x10000 }
def gridOf : Grid := { ctx := ctx, ident := grid, kern := kernel, phase := .running, nextCont := 1, launch := { warps := 1, spill := 0x40000, spillEntries := 1 } }
def teamOf : Team := { grid := grid, index := 0, core := 0, span := span, warps := [warp] }
def spanOf : Span := { grid := grid, cluster := 0, base := 0, size := 1, teams := [team] }
def warpOf : Warp := launchWarp gridOf team 0 0 0 0
end Image

/-- The state with the instruction's bytes at the warp's PC, and the port of its layout next, in a clock of its core. -/
def State.withCode (s : State) (bytes : List Byte) (port : Nat) : State :=
  let s := Image.table.foldl (fun s e => s.pokeN e.1 8 e.2) s
  let s := s.pokeBytes Image.code bytes
  let s := { s with mod := { s.mod with
    contexts := Table.put s.mod.contexts Image.ctx Image.context, grids := Table.put s.mod.grids Image.grid Image.gridOf
    teams := Table.put s.mod.teams Image.team Image.teamOf, spans := Table.put s.mod.spans Image.span Image.spanOf
    nextIdent := max s.mod.nextIdent (Image.grid + 1) } }
  let s := s.putWarp Image.warp Image.warpOf
  let s := s.modPart 0 (fun p => { p with owner := Image.ctx })
  let s := s.modCore 0 (fun c => { c with clk := .running, tlb := Table.put c.tlb (tlbKey Image.ctx 0) (0x0F, 2) })
  { s with nextId := max s.nextId (Image.warp + 1), cur := Image.warp, agenda := [.port 0 port, .edge 0] }

end Sys2Proof.Machine
end

