-- ==== Sys2Proof/Machine/Quant.lean ====
section
/-! DEFINITION. Block quantisation (R186, Table 5.8): the scale, the special value and the element codes of a block of
NX8 or NX4, with the flags that each element raises. -/
namespace Sys2Proof

/-- The magnitude that R186 compares: an infinity counts as the largest finite FP32, a NaN not at all. -/
def FV.nxMag : FV → Nat × Int
  | .nan _ => (0, 0)
  | .inf _ => (2 ^ 24 - 1, 104)
  | .num _ m e => (m, e)

def nxLt (a b : Nat × Int) : Bool := magLt a.1 a.2 b.1 b.2

/-- The smallest scale in 0–254 with magnitude ≤ top × 2^(s − 127), or 254 when none is (R186). -/
def nxScale (top : Nat) (m : Nat × Int) : Nat :=
  ((List.range 255).find? (fun s => !nxLt (top, Int.ofNat s - 127) m)).getD 254

def maxMag (ms : List (Nat × Int)) : Nat × Int := ms.foldl (fun a m => if nxLt a m then m else a) (0, 0)

/-- The position of the first element that holds the largest magnitude, NaNs excluded (R186). -/
def firstMax (ys : List FV) : Nat :=
  let top := maxMag (ys.map FV.nxMag)
  (ys.findIdx? (fun y => !y.isNan && !nxLt y.nxMag top)).getD 0

/-- One element of a block, scaled by 2^(127 − s); `chain` marks an FP64 source (Table 5.9). -/
def nxElem (fm : Fmt) (rnd : Rnd) (r : Nat) (sat chain : Bool) (s : Nat) (x : FV) : FRes :=
  let k : Int := 127 - Int.ofNat s
  if chain then fm.convertChain rnd r false sat k x else fm.convert rnd r false sat (x.scale k)

/-- A block: scale, special and each element's code and flags. -/
structure NxBlock where
  s : Nat
  z : Nat
  elems : List FRes
  deriving Repr, DecidableEq

/-- R186, NX8. The largest of no magnitude, where every source is NaN, is 0, as under NX4 (log 110). -/
def nx8Block (rnd : Rnd) (sat chain : Bool) (draws : List Nat) (xs : List FV) : NxBlock :=
  let ys := if chain then xs.map roFp32 else xs
  let s := nxScale 448 (maxMag (ys.map FV.nxMag))
  { s := s, z := 0, elems := (xs.zip draws).map (fun e => nxElem fmtE4 rnd e.2 sat chain s e.1) }

/-- The flags of a lane whose block is written as NaN (R86): IV for a signalling NaN and for an infinity, NX for a finite
value, which the NaN written differs from. -/
def nanBlockFlags : FV → Nat
  | .nan s => if s then flIV else 0
  | .inf _ => flIV
  | .num _ _ _ => flNX

/-- R186, NX4. The element that holds the largest magnitude takes code 0b1000 and raises the special's flags; a −0 of
another element is written as code 0. -/
def nx4Block (rnd : Rnd) (sat chain : Bool) (draws : List Nat) (zdraw : Nat → Nat) (xs : List FV) : NxBlock :=
  if xs.any FV.isNan then { s := 255, z := 0, elems := xs.map (fun x => { bits := 0, flags := nanBlockFlags x }) }
  else
    let ys := if chain then xs.map roFp32 else xs
    let k := firstMax ys
    let ms := ys.map FV.nxMag
    let s := max (nxScale 6 (maxMag (ms.eraseIdx k))) (nxScale 448 (ms.getD k (0, 0)))
    let z := nxElem fmtE4 rnd (zdraw k) sat chain s (xs.getD k (.zero false))
    { s := s, z := z.bits
      elems := (xs.zip (draws.zipIdx)).map (fun e =>
        if e.2.2 = k then { bits := 8, flags := z.flags }
        else
          let r := nxElem fmtE2 rnd e.2.1 sat chain s e.1
          if r.bits = 8 then { r with bits := 0 } else r) }

/-- The value of an NX4 or NX8 element code (R77, R78). -/
def nxValue (nx4 : Bool) (s z code : Nat) : FV :=
  if s = 255 then .nan false
  else if nx4 then
    (if code % 16 = 8 then fmtE4.decode z else fmtE2.decode (code % 16)).scale (Int.ofNat s - 127)
  else (fmtE4.decode code).scale (Int.ofNat s - 127)

end Sys2Proof
end

