-- ==== Sys2Proof/Machine/Special.lean ====
section
/-! DEFINITION. The special functions of R180: each result is the exact value rounded once. Every function is evaluated
in fixed point with 640 fraction bits from below: the exact value lies above the number found and within 2^-590 of it,
and no FP32 rounding boundary of an inexact result lies that close (log 10, PRESUMED). -/
namespace Sys2Proof

/-- Fraction bits of the fixed-point values. -/
def fxBits : Nat := 640
/-- What is taken off a fixed-point value to stand below the exact one. -/
def fxSlack : Nat := 2 ^ 40
def fxOne : Nat := 2 ^ fxBits
def fxMul (a b : Nat) : Nat := a * b / 2 ^ fxBits

/-- π/2 with 832 fraction bits. -/
def halfPi832 : Nat :=
  0x1921fb54442d18469898cc51701b839a252049c1114cf98e804177d4c76273644a29410f31c6809bbdf2a33679a748636605614dbe4be286e9fc26adadaa3848bc90b6aecc4bcfd8de89885d34c6fdad617feb96de80d6fdbdc70d7f6b5133f4b5d3e4822f8963fcc
/-- ln 2 with 640 fraction bits. -/
def fxLn2 : Nat :=
  0xb17217f7d1cf79abc9e3b39803f2f6af40f343267298b62d8a0d175b8baafa2be7b876206debac98559552fb4afa1b10ed2eae35c138214427573b291169b8253e96ca16224ae8c51acbda11317c387e

/-- e^x for 0 ≤ x < 1 as the sum of its series: term n is `t`, `n` counts down from the fuel. -/
def expSeries (x : Nat) : Nat → Nat → Nat → Nat → Nat
  | 0, _, _, acc => acc
  | fuel + 1, n, t, acc =>
    let t' := fxMul t x / (n + 1)
    expSeries x fuel (n + 1) t' (acc + t')
def fxExp (x : Nat) : Nat := expSeries x 160 0 fxOne fxOne

/-- The alternating series of sin and cos: two factors of x between terms, `n` the degree of the term `t` before. -/
def altSeries (x2 : Nat) : Nat → Nat → Nat → Bool → Int → Int
  | 0, _, _, _, acc => acc
  | fuel + 1, n, t, minus, acc =>
    let t' := fxMul t x2 / ((n + 1) * (n + 2))
    altSeries x2 fuel (n + 2) t' (!minus) (if minus then acc - t' else acc + t')
def fxSin (x : Nat) : Nat := (altSeries (fxMul x x) 90 1 x true x).toNat
def fxCos (x : Nat) : Nat := (altSeries (fxMul x x) 90 0 fxOne true fxOne).toNat

/-- Σ z^(2k+1)/(2k+1), artanh z for 0 ≤ z ≤ 1/3. -/
def atanhSeries (z2 : Nat) : Nat → Nat → Nat → Nat → Nat
  | 0, _, _, acc => acc
  | fuel + 1, k, t, acc => atanhSeries z2 fuel (k + 2) (fxMul t z2) (acc + t / k)
/-- ln of 1 ≤ m < 2. -/
def fxLn (m : Nat) : Nat :=
  let z := (m - fxOne) * fxOne / (m + fxOne)
  2 * atanhSeries (fxMul z z) 210 1 z 0

/-- m × 2^e in fixed point, truncated. -/
def fxOf (m : Nat) (e : Int) : Nat :=
  let k := e + fxBits
  if k < 0 then m / 2 ^ (-k).toNat else m * 2 ^ k.toNat

/-- Round an inexact value that lies just above the fixed-point magnitude `v` less the slack, scaled by 2^k. -/
def fxRound (ftz neg : Bool) (v : Nat) (k : Int) : FRes :=
  fmt32.round .rn 0 ftz false neg (v - fxSlack) (k - fxBits) true

/-- 1/√(m × 2^e), m ≠ 0: exact when m × 2^e is an even power of two. -/
def rsqRes (ftz : Bool) (m : Nat) (e : Int) : FRes :=
  let (m, e) := if e % 2 = 0 then (m, e) else (2 * m, e - 1)
  let n := 2 ^ (2 * (60 + Nat.log2 m)) / m
  let r := isqrt n
  fmt32.round .rn 0 ftz false false r (-(e / 2) - (60 + Nat.log2 m : Nat)) (!(r * r == n && n * m == 2 ^ (2 * (60 + Nat.log2 m))))

/-- 2^x for x = ±(m × 2^e), m ≠ 0 (R180, R232). -/
def exp2Res (ftz : Bool) (neg : Bool) (m : Nat) (e : Int) : FRes :=
  -- beyond these bounds the result overflows, or lies below half the smallest subnormal
  if magLt 0x1000 0 m e then
    if neg then fmt32.round .rn 0 ftz false false 0x4000000 (-1000) true
    else fmt32.round .rn 0 ftz false false 0x4000000 1000 true
  else
    let x := fxOf m e
    let i : Int := if neg then -((x / fxOne : Nat) : Int) else (x / fxOne : Nat)
    let f := x % fxOne
    if f = 0 then fmt32.round .rn 0 ftz false false 1 i false
    else
      let (i, f) := if neg then (i - 1, fxOne - f) else (i, f)
      fxRound ftz false (fxExp (fxMul f fxLn2)) i

/-- log2 (m × 2^e), m ≠ 0. -/
def log2Res (ftz : Bool) (m : Nat) (e : Int) : FRes :=
  let k := Nat.log2 m
  let i : Int := e + k
  if m = 2 ^ k then
    if i = 0 then { bits := 0 } else fmt32.round .rn 0 ftz false (i < 0) i.natAbs 0 false
  else
    let frac := fxLn (m * fxOne / 2 ^ k) * fxOne / fxLn2
    if 0 ≤ i then fxRound ftz false (i.toNat * fxOne + frac) 0
    else fxRound ftz true (i.natAbs * fxOne - frac) 0

/-- The quadrant of x = m × 2^e and the remainder in [0, π/2), in fixed point; the reduction is exact to 2^-700. -/
def reduce (m : Nat) (e : Int) : Nat × Nat :=
  let x := fxOf m e * 2 ^ 192
  (x / halfPi832 % 4, x % halfPi832 / 2 ^ 192)

def sinRes (ftz neg : Bool) (m : Nat) (e : Int) : FRes :=
  let (q, r) := reduce m e
  let v := if q % 2 = 0 then fxSin r else fxCos r
  fxRound ftz (neg != decide (2 ≤ q)) v 0

def cosRes (ftz : Bool) (m : Nat) (e : Int) : FRes :=
  let (q, r) := reduce m e
  let v := if q % 2 = 0 then fxCos r else fxSin r
  fxRound ftz (q = 1 || q = 2) v 0

/-- tanh of ±(m × 2^e), m ≠ 0: (E − 1) / (E + 1) with E = e^(2x). -/
def tanhRes (ftz neg : Bool) (m : Nat) (e : Int) : FRes :=
  if magLt 64 0 m e then fxRound ftz neg fxOne 0
  else
    let y := 2 * fxOf m e
    let n := y / fxLn2
    let big := fxExp (y % fxLn2) * 2 ^ n
    fxRound ftz neg ((big - fxOne) * fxOne / (big + fxOne)) 0

/-- The forms of R180. -/
inductive SpecialFn
  | rcp | rsq | exp2 | log2 | sin | cos | tanh
  deriving DecidableEq, Repr, Inhabited

/-- R180 and Table 13.4. -/
def special (fn : SpecialFn) (ftz : Bool) (x : FV) : FRes :=
  match x with
  | .nan s => { bits := fmt32.nan, flags := if s then flIV else 0 }
  | .inf n =>
    match fn with
    | .rcp => { bits := fmt32.signBit n }
    | .rsq => if n then { bits := fmt32.nan, flags := flIV } else { bits := 0 }
    | .log2 => if n then { bits := fmt32.nan, flags := flIV } else { bits := fmt32.infBits false }
    | .exp2 => if n then { bits := 0 } else { bits := fmt32.infBits false }
    | .sin | .cos => { bits := fmt32.nan, flags := flIV }
    | .tanh => { bits := fmt32.signBit n + 0x3F800000 }
  | .num n m e =>
    if m = 0 then
      match fn with
      | .rcp | .rsq => { bits := fmt32.infBits n, flags := flDZ }
      | .log2 => { bits := fmt32.infBits true, flags := flDZ }
      | .exp2 | .cos => { bits := 0x3F800000 }
      | .sin | .tanh => { bits := fmt32.signBit n }
    else
      match fn with
      | .rcp => fmt32.div .rn ftz FV.one x
      | .rsq => if n then { bits := fmt32.nan, flags := flIV } else rsqRes ftz m e
      | .log2 => if n then { bits := fmt32.nan, flags := flIV } else log2Res ftz m e
      | .exp2 => exp2Res ftz n m e
      | .sin => sinRes ftz n m e
      | .cos => cosRes ftz m e
      | .tanh => tanhRes ftz n m e

end Sys2Proof
end

