-- ==== Sys2Proof/Machine/FloatB.lean ====
section
/-! DEFINITION. Floating point of port B: division and square root, the special functions, the activation table,
conversion, block quantisation and the generator's seed (R178–R188). -/
namespace Sys2Proof.Machine

/-! ## Division and square root (R178, Table 13.3) -/

def fdivide (op lat : Nat) (f : FormB) (s : State) : Res :=
  let fm := f.ty.fmt
  formB op f f.ty.wide f.ty.wide f.ty.wide s (fun _ => lat) (fun _ _ a b => fm.div f.rnd f.ftz (fm.read f.ftz a) (fm.read f.ftz b))

def fsquareRoot (op lat : Nat) (f : FormB) (s : State) : Res :=
  let fm := f.ty.fmt
  formB op f f.ty.wide f.ty.wide false s (fun _ => lat) (fun _ _ a _ => fm.sqrt f.rnd f.ftz (fm.read f.ftz a))

def execFdiv (f : FormB) (s : State) : Res := fdivide 0x72 14 f s
def execFsqrt (f : FormB) (s : State) : Res := fsquareRoot 0x73 14 f s
def execDdiv (f : FormB) (s : State) : Res := fdivide 0x74 28 f s
def execDsqrt (f : FormB) (s : State) : Res := fsquareRoot 0x75 28 f s

/-! ## Special functions (R180) -/

/-- The issue-to-use of the special-function unit (Table 24.5). -/
def sfuLat (c : Ctx) : Nat := 12 + ceilDiv c.active.lanes.length 8

def specialForm (op : Nat) (fn : SpecialFn) (f : FormB) (s : State) : Res :=
  formB op f false false false s sfuLat (fun _ _ a _ => special fn f.ftz (fmt32.read f.ftz a))

def execRcp (f : FormB) (s : State) : Res := specialForm 0x76 .rcp f s
def execRsq (f : FormB) (s : State) : Res := specialForm 0x77 .rsq f s
def execExp2 (f : FormB) (s : State) : Res := specialForm 0x78 .exp2 f s
def execLog2 (f : FormB) (s : State) : Res := specialForm 0x79 .log2 f s
def execSin (f : FormB) (s : State) : Res := specialForm 0x7A .sin f s
def execCos (f : FormB) (s : State) : Res := specialForm 0x7B .cos f s
def execTanh (f : FormB) (s : State) : Res := specialForm 0x7C .tanh f s

/-! ## The activation table (R181–R184) -/

/-- A 32-bit field of an image (Table 13.5). -/
def Bank.word (b : Bank) (off : Nat) : Nat := leNat ((b.image.drop off).take 4)

/-- A word of the image as the result for an infinity: NaN is canonical (R81), and under .FTZ a subnormal is a tiny result (R80).
ylo and yhi count as sources (log 66). -/
def Bank.bound (b : Bank) (ftz : Bool) (off : Nat) : FRes :=
  let v := fmt32.decode (b.word off)
  fmt32.opRes .rn 0 ftz (v, if v.isSig then flIV else 0)

/-- R184: the value of the table at x. The words a_i, b_i, xlo and inv are read as they stand, also with .FTZ (log 66). -/
def Bank.eval (b : Bank) (ftz : Bool) (x : FV) : FRes :=
  match x with
  | .nan sg => { bits := fmt32.nan, flags := if sg then flIV else 0 }
  | .inf n => b.bound ftz (if n then 8 else 12)
  | .num _ _ _ =>
    let inner (r : FV × Nat) : FV := fmt32.decode (fmt32.finish .rn 0 false r.1).bits
    let u := inner ((inner (x.add .rn (fmt32.decode (b.word 0)).negate)).mul (fmt32.decode (b.word 4)))
    let i := match u with
      | .nan _ => 0
      | .inf n => if n then 0 else 255
      | .num n m e => if n then 0 else min (truncTo m e 0).1 255
    fmt32.opRes .rn 0 ftz (FV.fma .rn (fmt32.decode (b.word (16 + 8 * i))) x (fmt32.decode (b.word (20 + 8 * i))))

/-- R184. -/
def execLuta (f : FormB) (s : State) : Res :=
  issue 0x7D (if f.b.x = 1 then 16 else 8) (max (f.d.need 1) (f.a.need 1)) f.hdr s (fun c =>
    let bank := (c.s.core c.w.core).current
    if c.active != 0 && (bank.tag == 0 || bank.tag != c.s.ctxOf c.w) then .trap c.s .illegalOperand c.active
    else c.formB f.d false f.la (sfuLat c) [f.a] (fun l => bank.eval f.ftz (fmt32.read f.ftz (c.rd [f.a] 0 false l))))

/-- Core issue order of LUTLD and LUTSYNC (R182, R183): the flight, and whether it is a LUTSYNC. -/
def State.queueLut (s : State) (core id : Nat) (sync : Bool) : State :=
  s.modCore core (fun x => { x with lutOrder := x.lutOrder ++ [(id, sync)] })

/-- R182. -/
def execLutld (f : FormB) (s : State) : Res :=
  let os := [f.a, f.b.src]
  issue 0x7E (if f.b.x = 1 then 16 else 8) (max (f.a.need 1) (f.b.need 1)) f.hdr s (fun c =>
    match c.popCheck os with
    | some i => i
    | none =>
      let s := c.s.putWarp c.wid (popQueues os c.w)
      match c.active.lowest with
      | none => .done s
      | some l =>
        let off := (c.rd os 0 false l + c.rdB os 1 f.b .u32 false l) % 2 ^ 32
        match c.s.check c.w .scratch .rd l off 2064 16 with
        | .ok _ =>
          let id := s.nextId
          let (s, ids) := ((c.s.scratchOf c.w).parts off 2064).foldl (fun (acc : State × List Nat) p =>
            let (s, ids) := acc.1.addLoads id c.wid l c.w.core p.1 p.2 .core c.w.order false
            (s, acc.2 ++ ids)) (s, [])
          let s := { c.launch { s with nextId := id } (c.w.lookahead f.la) 41 (.lutld ids) with nextId := s.nextId + 1 }
          .done (s.queueLut c.w.core id false)
        | .cause k _ => .trap c.s k c.active
        | .miss u => .walk [u]
        | .absent p z => .fault p z 1)

/-- R183. Where it waits for no LUTLD, it swaps as the clock after its issue begins (log 103). -/
def execLutsync (f : FormB) (s : State) : Res :=
  issue 0x7F (if f.b.x = 1 then 16 else 8) 0 f.hdr s (fun c =>
    if c.active == 0 then .done c.s
    else
      let id := c.s.nextId
      .done ((c.launch c.s 0 1 .lutsync).queueLut c.w.core id true))

/-- A core's LUTLDs and LUTSYNCs that have not completed, in core issue order. Those of a context that has ended no longer count. -/
def State.lutQueue (s : State) (core : Nat) : List (Nat × Bool) :=
  (s.core core).lutOrder.filter (fun e => s.warps.any (fun w => w.2.flights.any (fun f => f.id == e.1)))

/-- Is the flight the first of them? -/
def State.lutFirst (s : State) (core id : Nat) : Bool :=
  match s.lutQueue core with
  | (i, _) :: _ => i == id
  | [] => false

/-- Does a LUTLD come after a LUTSYNC, or (`sync`) a LUTSYNC after a LUTLD, that has not completed? -/
def State.lutBehind (s : State) (core id : Nat) (sync : Bool) : Bool :=
  ((s.lutQueue core).takeWhile (fun e => e.1 != id)).any (fun e => e.2 != sync)

def State.lutDone (s : State) (core id : Nat) : State :=
  s.modCore core (fun x => { x with lutOrder := x.lutOrder.filter (fun e => e.1 != id) })

/-- The image that a LUTLD's loads have read, in the shadow bank with the context's tag (R181, R182). -/
def State.fillBank (s : State) (w : Warp) (image : List Byte) : State :=
  s.modCore w.core (fun x => { x with shadow := { tag := s.ctxOf w, image := image }, filled := true })

/-- The exchange of the banks, if a LUTLD has completed since the last one (R183). -/
def State.swapBanks (s : State) (core : Nat) : State :=
  s.modCore core (fun x => if x.filled then { x with current := x.shadow, shadow := x.current, filled := false } else x)

/-! ## Conversion (R185–R187) -/

/-- R185. The generator advances once under .SR, active lanes or none (R89). -/
def execCvt (f : FormB) (src : NumTy) (s : State) : Res :=
  let os := [f.a]
  issue 0x80 (if f.b.x = 1 then 16 else 8) (max (f.d.need (regsOf f.ty.wide)) (f.a.need (regsOf src.wide))) f.hdr s (fun c =>
    (c.formB f.d f.ty.wide f.la 6 os (fun l =>
      let r := cvtScalar f.ty src f.rnd (c.w.draw l 0) f.sat f.ftz (c.rd os 0 src.wide l)
      { r with bits := if f.ty.wide then r.bits else f.ty.extend r.bits })).sr f.rnd c.wid)

/-- R186, R187. -/
def execCvtblk (f : FormB) (src : NumTy) (s : State) : Res :=
  let os := [f.a]
  issue 0x81 (if f.b.x = 1 then 16 else 8) (max (f.d.need 1) (f.a.need (regsOf src.wide))) f.hdr s (fun c =>
    let lanes := c.active.lanes
    let xs := lanes.map (fun l => src.fmt.read (f.ftz && src == .f32) (c.rd os 0 src.wide l))
    let draws := lanes.map (fun l => c.w.draw l l)
    let chain := src == .f64
    let b := if f.ty == .nx8 then nx8Block f.rnd f.sat chain draws xs
      else nx4Block f.rnd f.sat chain draws (fun k => c.w.draw (lanes.getD k 0) 32) xs
    let res := lanes.zip b.elems
    (c.formB f.d false f.la 8 os (fun l =>
      match res.find? (fun e => e.1 == l) with
      | some (_, r) => { bits := b.z % 256 * 2 ^ 16 + b.s % 256 * 2 ^ 8 + r.bits % 256, flags := r.flags }
      | none => { bits := 0 })).sr f.rnd c.wid)

/-- R188. -/
def execSrseed (f : FormB) (warp : Bool) (s : State) : Res :=
  let os := [f.a]
  issue 0x82 (if f.b.x = 1 then 16 else 8) (f.a.need 2) f.hdr s (fun c =>
    match c.popCheck os with
    | some i => i
    | none =>
      let w := popQueues os c.w
      match c.active.lowest with
      | none => .done (c.s.putWarp c.wid w)
      | some l =>
        let v : DWord := BitVec.ofNat 64 (c.rd os 0 true l)
        let mix : DWord := if warp then BitVec.ofNat 64 (((c.s.teamOf c.w).index * 32 + c.w.num) * 0x9E3779B97F4A7C15) else 0
        .done (c.s.putWarp c.wid { w with srstate := srFix (v ^^^ mix) }))

end Sys2Proof.Machine
end

