-- ==== Sys2Proof/Machine/Louvre.lean ====
section
/-! DEFINITION. The Louvre perturbation (R232–R237): the table T, the stream index and the perturbed weight. -/
namespace Sys2Proof

/-- T[512 + i] of R236: round(4096 × Φ⁻¹((512 + i + 0.5) / 1024)). -/
def louvreUpper : List Nat :=
  [ 5, 15, 25, 35, 45, 55, 65, 75, 85, 95, 105, 115, 125, 135, 145, 155 ] ++
  [ 165, 176, 186, 196, 206, 216, 226, 236, 246, 256, 266, 276, 286, 296, 306, 316 ] ++
  [ 326, 336, 346, 356, 366, 377, 387, 397, 407, 417, 427, 437, 447, 457, 467, 477 ] ++
  [ 487, 498, 508, 518, 528, 538, 548, 558, 568, 578, 589, 599, 609, 619, 629, 639 ] ++
  [ 649, 660, 670, 680, 690, 700, 710, 721, 731, 741, 751, 761, 772, 782, 792, 802 ] ++
  [ 812, 823, 833, 843, 853, 864, 874, 884, 894, 905, 915, 925, 936, 946, 956, 966 ] ++
  [ 977, 987, 997, 1008, 1018, 1028, 1039, 1049, 1059, 1070, 1080, 1091, 1101, 1111, 1122, 1132 ] ++
  [ 1143, 1153, 1163, 1174, 1184, 1195, 1205, 1216, 1226, 1237, 1247, 1258, 1268, 1279, 1289, 1300 ] ++
  [ 1310, 1321, 1332, 1342, 1353, 1363, 1374, 1385, 1395, 1406, 1416, 1427, 1438, 1448, 1459, 1470 ] ++
  [ 1480, 1491, 1502, 1513, 1523, 1534, 1545, 1556, 1566, 1577, 1588, 1599, 1610, 1620, 1631, 1642 ] ++
  [ 1653, 1664, 1675, 1686, 1697, 1708, 1719, 1729, 1740, 1751, 1762, 1773, 1784, 1795, 1807, 1818 ] ++
  [ 1829, 1840, 1851, 1862, 1873, 1884, 1895, 1907, 1918, 1929, 1940, 1951, 1963, 1974, 1985, 1996 ] ++
  [ 2008, 2019, 2030, 2042, 2053, 2064, 2076, 2087, 2099, 2110, 2122, 2133, 2144, 2156, 2168, 2179 ] ++
  [ 2191, 2202, 2214, 2225, 2237, 2249, 2260, 2272, 2284, 2295, 2307, 2319, 2331, 2343, 2354, 2366 ] ++
  [ 2378, 2390, 2402, 2414, 2426, 2438, 2450, 2462, 2474, 2486, 2498, 2510, 2522, 2534, 2546, 2558 ] ++
  [ 2571, 2583, 2595, 2607, 2620, 2632, 2644, 2657, 2669, 2681, 2694, 2706, 2719, 2731, 2744, 2756 ] ++
  [ 2769, 2782, 2794, 2807, 2820, 2832, 2845, 2858, 2871, 2884, 2896, 2909, 2922, 2935, 2948, 2961 ] ++
  [ 2974, 2987, 3000, 3013, 3027, 3040, 3053, 3066, 3080, 3093, 3106, 3120, 3133, 3146, 3160, 3173 ] ++
  [ 3187, 3201, 3214, 3228, 3242, 3255, 3269, 3283, 3297, 3311, 3325, 3338, 3352, 3367, 3381, 3395 ] ++
  [ 3409, 3423, 3437, 3452, 3466, 3480, 3495, 3509, 3524, 3538, 3553, 3567, 3582, 3597, 3612, 3626 ] ++
  [ 3641, 3656, 3671, 3686, 3701, 3716, 3731, 3747, 3762, 3777, 3793, 3808, 3823, 3839, 3855, 3870 ] ++
  [ 3886, 3902, 3917, 3933, 3949, 3965, 3981, 3997, 4014, 4030, 4046, 4062, 4079, 4095, 4112, 4129 ] ++
  [ 4145, 4162, 4179, 4196, 4213, 4230, 4247, 4264, 4281, 4299, 4316, 4334, 4351, 4369, 4387, 4405 ] ++
  [ 4422, 4440, 4459, 4477, 4495, 4513, 4532, 4550, 4569, 4588, 4607, 4625, 4644, 4664, 4683, 4702 ] ++
  [ 4722, 4741, 4761, 4781, 4800, 4820, 4840, 4861, 4881, 4901, 4922, 4943, 4964, 4985, 5006, 5027 ] ++
  [ 5048, 5070, 5091, 5113, 5135, 5157, 5179, 5202, 5224, 5247, 5270, 5293, 5316, 5339, 5363, 5387 ] ++
  [ 5411, 5435, 5459, 5483, 5508, 5533, 5558, 5583, 5609, 5634, 5660, 5687, 5713, 5740, 5766, 5794 ] ++
  [ 5821, 5849, 5877, 5905, 5933, 5962, 5991, 6021, 6050, 6080, 6111, 6141, 6172, 6204, 6235, 6268 ] ++
  [ 6300, 6333, 6366, 6400, 6434, 6469, 6504, 6540, 6576, 6612, 6650, 6687, 6726, 6765, 6804, 6844 ] ++
  [ 6885, 6927, 6969, 7012, 7056, 7100, 7146, 7192, 7240, 7288, 7337, 7388, 7439, 7492, 7546, 7602 ] ++
  [ 7658, 7717, 7777, 7838, 7902, 7967, 8035, 8105, 8177, 8252, 8330, 8411, 8495, 8583, 8675, 8772 ] ++
  [ 8874, 8982, 9096, 9218, 9349, 9490, 9643, 9812, 9998, 10208, 10449, 10732, 11079, 11529, 12186, 13505 ]

/-- T[j], with T[1023 − j] = −T[j] and T[1024] = T[1023] (R236). -/
def louvreT (j : Nat) : Int :=
  if 1024 ≤ j then (louvreUpper.getD 511 0 : Nat)
  else if 512 ≤ j then (louvreUpper.getD (j - 512) 0 : Nat)
  else -((louvreUpper.getD (511 - j) 0 : Nat) : Int)

/-- Table 17.2, one round and the key words added after an odd one (R234). -/
def mixRound (k : Nat → Word) (x : Word × Word × Word × Word) (i : Nat) : Word × Word × Word × Word :=
  let (x0, x1, x2, x3) := x
  let (a, b) := match i % 4 with
    | 0 => (16, 12)
    | 1 => (8, 7)
    | 2 => (13, 17)
    | _ => (5, 24)
  let x0 := x0 + x1
  let x3 := rotl32 (x3 ^^^ x0) a
  let x2 := x2 + x3
  let x1 := rotl32 (x1 ^^^ x2) b
  let (x0, x1, x2, x3) := (x1, x2, x3, x0)
  if i % 2 = 1 then
    let s := (i + 1) / 2
    (x0 + k (s % 3), x1 + k ((s + 1) % 3), x2 + k ((s + 2) % 3), x3 + BitVec.ofNat 32 s)
  else (x0, x1, x2, x3)

/-- R234: the 32 bits of the stream at an index. -/
def louvreU (key : DWord) (tensor member row col : Nat) : Word :=
  let k0 := key.lo
  let k1 := key.hi
  let k2 := k0 ^^^ k1 ^^^ 0x5A3C96E1#32
  let k (i : Nat) : Word := if i = 0 then k0 else if i = 1 then k1 else k2
  let x0 : Word := BitVec.ofNat 32 (col ||| (row % 2 ^ 12 * 2 ^ 20))
  let x1 : Word := BitVec.ofNat 32 (row / 2 ^ 12 % 2 ^ 8 ||| (tensor * 2 ^ 8))
  let x2 : Word := BitVec.ofNat 32 (member ||| 0x4C560000)
  let (y0, _, y2, _) := (List.range 10).foldl (mixRound k) (x0 + k0, x1 + k1, x2, 0x9E3779B9#32)
  y0 ^^^ y2

/-- ε of R235, in transparent mode of R237. Only bits 0 and 1 of SR_LVCTL count. -/
def louvreEps (ctl : Nat) (key : DWord) (tensor member row col : Nat) : Int :=
  if ctl / 2 % 2 = 1 then 0
  else if ctl % 2 = 1 then louvreT ((row * 37 + col * 11 + member * 101) % 1024)
  else
    let u := (louvreU key tensor member row col).toNat
    let i : Nat := u / 2 ^ 22
    let f : Nat := u / 2 ^ 10 % 2 ^ 12
    -- Int.fdiv rounds toward −∞, the floor of R235
    louvreT i + Int.fdiv ((louvreT (i + 1) - louvreT i) * Int.ofNat f) 4096

/-- σ = rn32(2^λ) (R232, Table 17.1). -/
def louvreSigma (lam : FV) : FV := fmt32.decode (special .exp2 false lam).bits

/-- p of R232. -/
def louvreP (ctl : Nat) (lam : FV) (eps : Int) : FV :=
  if ctl / 2 % 2 = 1 then .zero false
  else
    let (x, _) := (louvreSigma lam).mul ((FV.ofInt eps).scale (-12))
    fmt32.decode (fmt32.finish .rn 0 false x).bits

/-- w of R232, a BF16 encoding. An exact zero sum is +0. -/
def louvreW (mu p : FV) : Nat :=
  let (s, _) := mu.add .rn p
  let s := if s.isZero then .zero false else s
  let t := fmt32.decode (fmt32.finish .rn 0 false s).bits
  (fmtBf.convert .rn 0 false false t).bits

/-- μ and λ of a pair element (Table 5.5). -/
def pairOf (pw32 : Bool) (b : Nat) : FV × FV :=
  if pw32 then (fmtBf.decode (b / 2 ^ 16), fmt16.decode (b % 2 ^ 16))
  else
    let u : Nat := b % 256
    let c : Int := if u < 128 then Int.ofNat u else Int.ofNat u - 256
    (fmtE4.decode (b / 256 % 256), (FV.ofInt c).scale (-4))

end Sys2Proof
end

