-- ==== Sys2Proof/Machine/Matrix.lean ====
section
/-! DEFINITION. Matrices held in a thread's registers: their values (R73, R77, R78), arithmetic, the checks of R191,
the descriptor and structural forms (R196, R197, R201–R203), and the scalar norms (R216). -/
namespace Sys2Proof

/-- The value of element `e` (R73, R77, R78); a PW element has none of its own. -/
def Shape.val (s : Shape) (ftz : Bool) (m : RawM) (e : Nat) : FV :=
  let x := m.codes.getD e 0
  match s.fmt with
  | .nx4 => nxValue true (m.scales.getD (e / 32) 0) (m.specials.getD (e / 32) 0) x
  | .nx8 => nxValue false (m.scales.getD (e / 32) 0) 0 x
  | f => f.fmt.read (ftz && f == .f32) x

/-! ## Values by row and column -/

abbrev Mat := List (List FV)
def Mat.get (m : Mat) (i j : Nat) : FV := (m.getD i []).getD j (.nan false)
def Mat.gen (r c : Nat) (f : Nat → Nat → FV) : Mat := (List.range r).map (fun i => (List.range c).map (f i))
def Mat.put (m : Mat) (i j : Nat) (x : FV) : Mat := m.set i ((m.getD i []).set j x)
def Mat.nans (r c : Nat) : Mat := Mat.gen r c (fun _ _ => .nan false)

/-- A computation that raises flags. -/
abbrev Fl := StateM Nat
def raiseFl (f : Nat) : Fl Unit := modify (· ||| f)
/-- Run a computation: its result and the flags. -/
def Fl.run {α : Type} (x : Fl α) : α × Nat := StateT.run x 0

/-- Each element in row-major order. -/
def Mat.genM (r c : Nat) (f : Nat → Nat → Fl FV) : Fl Mat := (List.range r).mapM (fun i => (List.range c).mapM (f i))

def Shape.mat (s : Shape) (ftz : Bool) (m : RawM) : Mat := Mat.gen s.rows s.cols (fun i j => s.val ftz m (s.num i j))
/-- Values that the format holds, as encodings. -/
def Shape.encode (s : Shape) (m : Mat) : RawM :=
  { codes := (List.range s.elems).map (fun e => (s.fmt.fmt.finish .rn 0 false (m.get (s.row e) (s.col e))).bits) }

/-! ## Rounded arithmetic in a format (R172, R178) -/

/-- A format with .FTZ in force for it (R80, R192). -/
structure Arith where
  fm : Fmt
  ftz : Bool
  deriving DecidableEq, Repr, Inhabited

/-- The arithmetic that rounds into a format; .FTZ reaches FP32 only. -/
def arithOf (f : MFmt) (ftz : Bool) : Arith := { fm := f.fmt, ftz := ftz && f == .f32 }

namespace Arith
def res (a : Arith) (r : FRes) : Fl FV := do
  raiseFl r.flags
  return a.fm.decode r.bits
/-- One rounding to nearest even. -/
def rn (a : Arith) (x : FV × Nat) : Fl FV := a.res (a.fm.opRes .rn 0 a.ftz x)
def add (a : Arith) (x y : FV) : Fl FV := a.rn (x.add .rn y)
def sub (a : Arith) (x y : FV) : Fl FV := a.rn (x.add .rn y.negate)
def mul (a : Arith) (x y : FV) : Fl FV := a.rn (x.mul y)
def fma (a : Arith) (x y z : FV) : Fl FV := a.rn (FV.fma .rn x y z)
def div (a : Arith) (x y : FV) : Fl FV := a.res (a.fm.div .rn a.ftz x y)
def sqrt (a : Arith) (x : FV) : Fl FV := a.res (a.fm.sqrt .rn a.ftz x)
end Arith

/-- The largest of magnitudes; NaN if any is NaN (R214–R216). -/
def maxAbs (xs : List FV) : FV :=
  if xs.any FV.isNan then .nan false
  else xs.foldl (fun a x => if a.lt x.abs then x.abs else a) (.zero false)

/-! ## Conversion (R200, R203) -/

/-- Does the form accept the conversion (Table 14.3, R83)? -/
def convOk (src dst : MFmt) (rnd : Rnd) : Bool :=
  (if src.isPw || dst.isPw then src == dst else true) && (rnd != .sr || (decide (dst.bits ≤ 16) && !dst.isPw))

/-- Does a format hold every value of another, so that the conversion is exact (R203)? -/
def MFmt.holds (r s : MFmt) : Bool :=
  r == s || (match r, s with
    | .f64, .f32 | .f64, .f16 | .f64, .bf16 | .f64, .e4m3 | .f64, .e5m2 => true
    | .f32, .f16 | .f32, .bf16 | .f32, .e4m3 | .f32, .e5m2 => true
    | .f16, .e4m3 | .f16, .e5m2 | .bf16, .e4m3 | .bf16, .e5m2 => true
    | _, _ => false)

/-- One element into a format that has no blocks (R84–R88); .SAT has no effect on an exact conversion (R185, R203). -/
def mcvtElem (src dst : MFmt) (rnd : Rnd) (r : Nat) (sat ftz : Bool) (x : FV) : FRes :=
  if src == .f64 && (dst == .f16 || dst == .bf16 || dst == .e4m3 || dst == .e5m2) then
    dst.fmt.convertChain rnd r false sat 0 x
  else dst.fmt.convert rnd r (ftz && dst == .f32) (sat && !dst.holds src) x

/-- Formats of MADD, MSCAL and MNORM (Table 14.3). -/
def MFmt.arith (f : MFmt) : Bool := f == .f64 || f == .f32 || f == .f16 || f == .bf16

/-- A matrix converted element by element, or block by block in the destination's numbering (R186, R203). `draw j` is the
draw of element j; `d` is the destination's shape. The second part is the flags. -/
def mcvt (src d : Shape) (m : RawM) (rnd : Rnd) (sat ftz : Bool) (draw : Nat → Nat) : RawM × Nat :=
  if d.fmt.isPw then ({ codes := (List.range d.elems).map (fun e => m.codes.getD (src.num (d.row e) (d.col e)) 0) }, 0)
  else
    let xs := (List.range d.elems).map (fun e => src.val ftz m (src.num (d.row e) (d.col e)))
    if d.fmt.isNx then
      let chain := src.fmt == .f64
      let bs := (List.range d.blocks).map (fun q =>
        let ys := (xs.drop (32 * q)).take 32
        let draws := (List.range ys.length).map (fun i => draw (32 * q + i))
        if d.fmt == .nx8 then nx8Block rnd sat chain draws ys else nx4Block rnd sat chain draws (fun _ => draw (256 + q)) ys)
      let es := bs.flatMap NxBlock.elems
      ({ codes := es.map FRes.bits, scales := bs.map NxBlock.s, specials := bs.map NxBlock.z }, es.foldl (fun a r => a ||| r.flags) 0)
    else
      let es := (List.range d.elems).map (fun e => mcvtElem src.fmt d.fmt rnd (draw e) sat ftz (xs.getD e (.zero false)))
      ({ codes := es.map FRes.bits }, es.foldl (fun a r => a ||| r.flags) 0)

end Sys2Proof

namespace Sys2Proof.Machine

/-! ## Operands -/

/-- The number of a V operand. -/
def vNum (o : Opnd) : Nat :=
  match o with
  | .v n => n
  | _ => 0

/-- The shape that Hk of a lane holds now (R192). -/
def Ctx.shape (c : Ctx) (l k : Nat) : Shape := shapeOf ((c.w.getH l k).toNat % 2 ^ 32)
/-- Words 1 and 2 of Hk (Table 4.3). -/
def Ctx.origin (c : Ctx) (l k : Nat) : Nat := (c.w.getH l k).toNat / 2 ^ 32
def Ctx.rawM (c : Ctx) (o : Opnd) (l k : Nat) : RawM := (c.shape l k).readRaw (fun i => (c.getV l (vNum o + i)).toNat)
def Ctx.matM (c : Ctx) (ftz : Bool) (o : Opnd) (l k : Nat) : Mat := (c.shape l k).mat ftz (c.rawM o l k)

/-- R191, item 1: the registers of a matrix operand. An FP64 element is a pair (R55). -/
def Ctx.regsOk (c : Ctx) (o : Opnd) (s : Shape) : Bool :=
  s.fmt?.isSome && decide (vNum o + s.foot ≤ (c.s.kernOf c.w).regs) && (s.fmt != .f64 || vNum o % 2 = 0)
/-- A run of registers named beside the matrices. -/
def Ctx.runOk (c : Ctx) (o : Opnd) (n : Nat) : Bool := decide (vNum o + n ≤ (c.s.kernOf c.w).regs)

/-- R191 for forms that touch no memory: the lanes that hold the first cause trap, and no state changes. -/
def Ctx.checked (c : Ctx) (os : List Opnd) (chk : Nat → Option TrapCause) (k : Iss) : Iss :=
  match c.popCheck os with
  | some i => i
  | none =>
    let bad (t : TrapCause) : List Nat := c.active.lanes.filter (fun l => chk l == some t)
    if !(bad .illegalOperand).isEmpty then .trap c.s .illegalOperand (Mask.ofList (bad .illegalOperand))
    else if !(bad .shapeOverflow).isEmpty then .trap c.s .shapeOverflow (Mask.ofList (bad .shapeOverflow))
    else k

def refused (ok : Bool) : Option TrapCause := if ok then none else some .illegalOperand

/-- A port of the warp's partition takes no instruction for `n` clocks (Table 24.5). -/
def Ctx.busyB (c : Ctx) (s : State) (n : Nat) : State :=
  s.modPart c.w.part (fun p =>
    { p with ports := Table.put p.ports 1 { (Table.get {} p.ports 1) with busyUntil := (s.core c.w.core).cyc + max n 1 } })

/-- The results of a form: a flight that completes `lat` clocks from now. With no active lane nothing remains to be done. -/
def Ctx.results (c : Ctx) (s : State) (la lat : Nat) (kind : FKind) (res : List (Nat × List RegW × Nat)) : Iss :=
  if c.active == 0 then .done s
  else .done (c.launch s (c.w.lookahead la) lat kind (res.flatMap (fun e => e.2.1)) []
    ((res.filter (fun e => e.2.2 ≠ 0)).map (fun e => (e.1, e.2.2))))

/-- Two destinations of one instruction: where they share a register, which of the two values it keeps is not given (a
free choice, log 2, the same in every run of a deterministic grid). -/
def Ctx.both (c : Ctx) (l : Nat) (a b : List RegW) : List RegW := if Config.free (c.s.seed c.w + 125000 + l) % 2 = 0 then a ++ b else b ++ a

/-- g of Table 24.5 for the structural forms, over the lanes' shapes. -/
def Ctx.pipe (c : Ctx) (k : Nat) : Nat :=
  (c.active.lanes.map (fun l => ceilDiv (c.shape l k).elems 16 * (if (c.shape l k).fmt == .f64 then 2 else 1))).foldl max 0

/-! ## Descriptors (R196, R197) -/

/-- R196: the word 0 that a lane's MSHAPE writes, or its cause. -/
def mshapeWord (old : Nat) (ext : Bool) (v : Nat) : Nat × Option TrapCause :=
  let kept := old / 2 ^ 13 % 2 ^ 10
  let w := if ext then v else v - v / 2 ^ 13 % 2 ^ 10 * 2 ^ 13 + kept * 2 ^ 13
  let s := shapeOf w
  (w, if (ext && decide (768 < v / 2 ^ 13 % 2 ^ 10)) || s.fmt?.isNone then some .illegalOperand
    else if s.fits then none else some .shapeOverflow)

def execMshape (f : FormX) (ext : Bool) (imm : Option Word) (s : State) : Res :=
  let os := if imm.isSome then [] else [f.a]
  issue 0x90 (if imm.isSome then 16 else 8) (if imm.isSome then 0 else f.a.need 1) f.hdr s (fun c =>
    let word (l : Nat) : Nat × Option TrapCause :=
      mshapeWord ((c.w.getH l f.hd).toNat % 2 ^ 32) ext (match imm with | some i => i.toNat | none => c.rd os 0 false l)
    c.checked os (fun l => (word l).2)
      (.done (c.s.putWarp c.wid (c.active.lanes.foldl (fun w l =>
        w.setH l f.hd (BitVec.ofNat 96 ((c.w.getH l f.hd).toNat / 2 ^ 32 * 2 ^ 32 + (word l).1 % 2 ^ 32))) (popQueues os c.w)))))

/-- R197. A reserved format code has no size: REGS is then refused (R191). -/
def execMqry (f : FormX) (mode : QryMode) (s : State) : Res :=
  issue 0x91 8 (f.d.need (if mode = .words then 3 else 1)) f.hdr s (fun c =>
    c.checked [] (fun l => refused (mode != .regs || (c.shape l f.ha).fmt?.isSome))
      (c.results c.s f.la 2 .plain (c.active.lanes.map (fun l =>
        let h := (c.w.getH l f.ha).toNat
        let put (i x : Nat) : RegW := .v l (vNum f.d + i) (BitVec.ofNat 32 x)
        (l, (match mode with
          | .words => [put 0 h, put 1 (h / 2 ^ 32), put 2 (h / 2 ^ 64)]
          | .w0 => [put 0 h]
          | .regs => [put 0 (c.shape l f.ha).occupies]), 0)))))

/-! ## Structural forms (R201–R203) -/

/-- A structural form: its per-lane check, and what it writes to D with the flags. -/
def structural (op : Nat) (f : FormX) (len need : Nat) (s : State) (chk : Ctx → Nat → Bool) (sem : Ctx → Nat → RawM × Nat) : Res :=
  issue op len (max (f.d.need 1) need) f.hdr s (fun c =>
    c.checked [] (fun l => refused (chk c l)) (
      let g := c.pipe f.hd
      c.results (c.busyB c.s g) f.la (4 + g) .plain (c.active.lanes.map (fun l =>
        let r := sem c l
        (l, matWrites l (vNum f.d) (c.shape l f.hd) r.1, r.2)))))

def execMzero (f : FormX) (s : State) : Res :=
  structural 0x96 f 8 0 s (fun c l => c.regsOk f.d (c.shape l f.hd)) (fun c l =>
    let d := c.shape l f.hd
    ({ codes := List.replicate d.elems 0, scales := List.replicate d.blocks 127, specials := List.replicate d.blocks 0 }, 0))

def execMcopy (f : FormX) (s : State) : Res :=
  structural 0x97 f 8 (f.a.need 1) s (fun c l =>
    let d := c.shape l f.hd
    let a := c.shape l f.ha
    c.regsOk f.d d && c.regsOk f.a a && d.rows == a.rows && d.cols == a.cols && d.fmt == a.fmt && (!a.fmt.isNx || d.byCol == a.byCol))
    (fun c l =>
      let d := c.shape l f.hd
      let a := c.shape l f.ha
      let m := c.rawM f.a l f.ha
      ({ m with codes := (List.range d.elems).map (fun e => m.codes.getD (a.num (d.row e) (d.col e)) 0) }, 0))

def execMtrn (f : FormX) (s : State) : Res :=
  structural 0x98 f 8 (f.a.need 1) s (fun c l =>
    let d := c.shape l f.hd
    let a := c.shape l f.ha
    c.regsOk f.d d && c.regsOk f.a a && d.rows == a.cols && d.cols == a.rows && d.fmt == a.fmt && !a.fmt.isNx)
    (fun c l =>
      let d := c.shape l f.hd
      let a := c.shape l f.ha
      let m := c.rawM f.a l f.ha
      ({ codes := (List.range d.elems).map (fun e => m.codes.getD (a.num (d.col e) (d.row e)) 0) }, 0))

def execMadd (f : FormX) (sub : Bool) (s : State) : Res :=
  structural 0x99 f 8 (max (f.a.need 1) (f.b.need 1)) s (fun c l =>
    let d := c.shape l f.hd
    let a := c.shape l f.ha
    let b := c.shape l f.hb
    c.regsOk f.d d && c.regsOk f.a a && c.regsOk f.b b && a.fmt.arith && d.fmt == a.fmt && b.fmt == a.fmt
      && d.rows == a.rows && d.cols == a.cols && b.rows == a.rows && b.cols == a.cols)
    (fun c l =>
      let d := c.shape l f.hd
      let a := c.matM f.ftz f.a l f.ha
      let b := c.matM f.ftz f.b l f.hb
      let ar := arithOf d.fmt f.ftz
      let (m, fl) := (Mat.genM d.rows d.cols (fun i j =>
        if sub then ar.sub (a.get i j) (b.get i j) else ar.add (a.get i j) (b.get i j))).run
      (d.encode m, fl))

def execMscal (f : FormX) (s : State) : Res :=
  structural 0x9A f 8 (max (f.a.need 1) (f.b.need 1)) s (fun c l =>
    let d := c.shape l f.hd
    let a := c.shape l f.ha
    c.regsOk f.d d && c.regsOk f.a a && a.fmt.arith && d.fmt == a.fmt && d.rows == a.rows && d.cols == a.cols
      && (a.fmt != .f64 || (match f.b with | .v n => n % 2 = 0 && c.runOk f.b 2 | .w n => n % 2 == 0 | _ => false)))
    (fun c l =>
      let d := c.shape l f.hd
      let a := c.matM f.ftz f.a l f.ha
      let wide := d.fmt == .f64
      let x := (if wide then fmt64 else fmt32).read (f.ftz && !wide) (c.rd [f.b] 0 wide l)
      let ar := arithOf d.fmt f.ftz
      let (m, fl) := (Mat.genM d.rows d.cols (fun i j => ar.mul x (a.get i j))).run
      (d.encode m, fl))

def execMcvt (f : FormX) (ext : Option (Rnd × Bool)) (s : State) : Res :=
  let rnd := (ext.map (·.1)).getD .rn
  let sat := (ext.map (·.2)).getD false
  issue 0xA7 (if ext.isSome then 16 else 8) (max (f.d.need 1) (f.a.need 1)) f.hdr s (fun c =>
    (c.checked [] (fun l =>
      let d := c.shape l f.hd
      let a := c.shape l f.ha
      refused (c.regsOk f.d d && c.regsOk f.a a && d.rows == a.rows && d.cols == a.cols && convOk a.fmt d.fmt rnd)) (
      let g := c.pipe f.hd
      c.results (c.busyB c.s g) f.la (4 + g) .plain (c.active.lanes.map (fun l =>
        let d := c.shape l f.hd
        let r := mcvt (c.shape l f.ha) d (c.rawM f.a l f.ha) rnd sat f.ftz (c.w.draw l)
        (l, matWrites l (vNum f.d) d r.1, r.2))))).sr rnd c.wid)

/-! ## Norms (R216) -/

/-- R216: the norm of a matrix, rounded in G. -/
def matNorm (ar : Arith) (kind : NormKind) (m : Mat) (r c : Nat) : Fl FV :=
  let sums (n k : Nat) (at_ : Nat → Nat → FV) : Fl FV := do
    let ts ← (List.range n).mapM (fun i => (List.range k).foldlM (fun t j => ar.add t (at_ i j).abs) (.zero false))
    return maxAbs ts
  match kind with
  | .n1 => sums c r (fun j i => m.get i j)
  | .ninf => sums r c m.get
  | .fro => do
    let t ← ((List.range r).flatMap (fun i => (List.range c).map (m.get i))).foldlM (fun t x => ar.fma x x t) (.zero false)
    ar.sqrt t
  | .max => do
    let xs := (List.range r).flatMap (fun i => (List.range c).map (m.get i))
    raiseFl (if xs.any FV.isSig then flIV else 0)
    ar.rn (maxAbs xs, 0)

/-- A scalar result in V registers: one, or a pair in FP64. -/
def scalarWrites (d : Opnd) (l : Nat) (wide : Bool) (fm : Fmt) (x : FV) : List RegW :=
  regWrites d l wide (fm.finish .rn 0 false x).bits

def execMnorm (f : FormX) (kind : NormKind) (s : State) : Res :=
  issue 0xA6 8 (max (f.d.need 1) (f.a.need 1)) f.hdr s (fun c =>
    c.checked [] (fun l =>
      let a := c.shape l f.ha
      refused (c.regsOk f.a a && a.fmt.arith && (a.fmt != .f64 || (vNum f.d % 2 = 0 && c.runOk f.d 2)))) (
      let g := c.pipe f.ha
      c.results (c.busyB c.s g) f.la (4 + g) .plain (c.active.lanes.map (fun l =>
        let a := c.shape l f.ha
        let g := if a.fmt == .f64 then fmt64 else fmt32
        let ar : Arith := { fm := g, ftz := f.ftz && a.fmt != .f64 }
        let (x, fl) := (matNorm ar kind (c.matM f.ftz f.a l f.ha) a.rows a.cols).run
        (l, scalarWrites f.d l (a.fmt == .f64) g x, fl)))))

end Sys2Proof.Machine
end

