-- ==== Sys2Proof/Machine/LoadStore.lean ====
section
/-! DEFINITION. Loads, stores and the ordered forms (R166–R169, R246–R248, R291, R300–R303): vector memory performance
with SR_DONE, and what completes a load. -/
namespace Sys2Proof.Machine

/-! ## Addresses (R166) -/

/-- An offset sign-extended to `w` bits. -/
def Off.value (o : Off) (w : Nat) : Nat :=
  match o with
  | .imm10 b => signExt 10 w b.toNat
  | .imm32 b => signExt 32 w b.toNat

/-- The address of a lane: (A pair + offset) mod 2^64 for global memory, (A + offset) mod 2^32 for a local space. -/
def Ctx.address (c : Ctx) (sp : Where) (a : Opnd) (off : Off) (l : Nat) : Nat :=
  match sp with
  | .global => (c.rd [a] 0 true l + Off.value off 64) % 2 ^ 64
  | _ => (c.rd [a] 0 false l + Off.value off 32) % 2 ^ 32

/-- The minimum latency of a level (Table 20.1): in clocks of the core, and those of the cluster that go before them (R12, log 79). -/
def levelLat (sp : Where) : Nat :=
  match sp with
  | .global => 32
  | .scratch => 24
  | .slice => 6
  | .window => 8
def levelCc (sp : Where) : Nat :=
  match sp with
  | .window => 32
  | _ => 0

/-! ## Vector memory instructions (R168, R291) -/

/-- R168: the lanes to do are checked; those without a cause are performed; a cause traps and replays, none completes.
`chk` is a lane's check, `perform` performs lanes at their locations and gives the flags they raise; `kind` is the fault
record's. Operand queues are popped when the instruction completes. The flags of lanes that are performed are the warp's at once; where the
attempt ends in a trap, its completion later does not ask whether they are enabled (log 89). `bad` are the addresses at which a lane has met
malformed entries (R281). -/
def Ctx.vectorMem (c : Ctx) (os : List Opnd) (chk : Nat → Chk) (kind : Nat)
    (perform : State → List (Nat × Nat) → State × List (Nat × Nat)) (bad : Nat → Chk → List Nat := fun _ k => k.bad?.toList) : Iss :=
  match c.popCheck os with
  | some i => i
  | none =>
    let todo := c.active.lanes.filter (fun l => !c.w.done.has l)
    let cs := todo.map (fun l => (l, chk l))
    if !(missed cs).isEmpty then .walk (missed cs)
    else match cs.findSome? (fun e => match e.2 with | .absent p z => some (p, z) | _ => none) with
      | some (p, z) => .fault p z kind
      | none =>
        let good := cs.filterMap (fun e => match e.2 with | .ok loc => some (e.1, loc) | _ => none)
        let (s, raised) := perform c.s good
        match firstCause cs with
        | some (k, ls) =>
          let s := (cs.flatMap (fun e => bad e.1 e.2)).foldl (fun s va => s.reportBad c.w va) s
          .trap (s.modWarp c.wid (fun w =>
            { (raised.foldl (fun w e => w.orFpf e.1 e.2) w) with
              done := w.done ||| Mask.ofList (good.map (·.1)), order := w.order + 1 })) k (Mask.ofList ls) .replay
        | none => .done (s.modWarp c.wid (fun w => { popQueues os w with done := 0 })) raised

/-! ## Loads -/

/-- The registers of a load of `cnt` elements. -/
def loadDests (d : Opnd) (lane : Nat) (ty : NumTy) (cnt : Nat) : List (Nat × Nat) := destsOf d [lane] (regsOf ty.wide * cnt)

/-- Loads of lanes at their locations in a space: one flight that completes when all are satisfied. -/
def Ctx.startLoads (c : Ctx) (s : State) (sp : Where) (la : Nat) (d : Opnd) (ty : NumTy) (cnt : Nat) (scope : Scope) (acq : Bool)
    (kind : List LoadItem → FKind) (good : List (Nat × Nat)) (va : Nat → Nat := fun _ => 0) (nol1 : Bool := false) : State :=
  if good.isEmpty then s
  else
    -- the flight takes the number before those of the loads
    let fid := s.nextId
    let (s, items) := good.foldl (fun (acc : State × List LoadItem) e =>
      let (s, ids) := acc.1.addLoads fid c.wid e.1 c.w.core e.2 (ty.bytes * cnt) scope c.w.order acq nol1
      (s, acc.2 ++ [{ lane := e.1, va := va e.1, dst := d, ty := ty, cnt := cnt, loads := ids }])) (s, [])
    let last := s.nextId
    let s := { s with nextId := fid }
    let s := c.launch s la (levelLat sp) (kind items) [] (good.flatMap (fun e => loadDests d e.1 ty cnt)) (cc := levelCc sp)
    { s with nextId := max s.nextId (last + 1) }

/-- The stamps of performed elements of a global access (R374). -/
def Ctx.stamped (c : Ctx) (s : State) (sp : Where) (k : Stamp) (n : Nat) (addr : Nat → Nat) (lanes : List Nat) : State :=
  match sp with
  | .global => lanes.foldl (fun s l => s.stamp c.w k c.w.safeOrd c.w.sinceSafe (addr l) n) s
  | _ => s

/-- A plain load (R166–R169). -/
def loadForm (op : Nat) (sp : Where) (f : FormM) (cnt : Nat) (nol1 : Bool) (s : State) : Res :=
  issue op (if f.off.x = 1 then 16 else 8) (max (f.d.need (regsOf f.ty.wide * cnt)) (f.a.need (regsOf (sp == .global)))) f.hdr s (fun c =>
    let n := f.ty.bytes * cnt
    let addr (l : Nat) : Nat := c.address sp f.a f.off l
    c.vectorMem [f.a] (fun l => c.s.check c.w sp .rd l (addr l) n n) 1 (fun s good =>
      (c.stamped (c.startLoads s sp f.la f.d f.ty cnt .core false .load good (nol1 := nol1)) sp .load n addr (good.map (·.1)), [])))

/-- A hint changes no result; NOL1 keeps the loaded bytes out of the L1 (R276). -/
def execLd (f : FormM) (hint : Hint) (cnt : Nat) (s : State) : Res := loadForm 0x4A .global f cnt (hint == .nol1) s
def execLds (f : FormM) (cnt : Nat) (s : State) : Res := loadForm 0x4C .scratch f cnt false s
def execLdc (f : FormM) (cnt : Nat) (s : State) : Res := loadForm 0x4E .window f cnt false s
def execLdl (f : FormM) (cnt : Nat) (s : State) : Res := loadForm 0x50 .slice f cnt false s

/-- R166, LDW: once for the front; on a cause nothing is performed. -/
def execLdw (f : FormM) (hint : Hint) (cnt : Nat) (s : State) : Res :=
  issue 0x52 (if f.off.x = 1 then 16 else 8) 0 f.hdr s (fun c =>
    match c.active.lowest with
    | none => .done c.s
    | some l =>
      let n := f.ty.bytes * cnt
      let va := c.address .global f.a f.off l
      match c.s.check c.w .global .rd l va n n with
      | .miss u => .walk [u]
      | .absent p z => .fault p z 1
      | .cause k v => .trap (v.toList.foldl (fun s va => s.reportBad c.w va) c.s) k c.active
      | .ok loc =>
        .done ((c.startLoads c.s .global f.la f.d f.ty cnt .core false .load [(l, loc)] (nol1 := hint == .nol1)).stamp
          c.w .load c.w.safeOrd c.w.sinceSafe va n))

/-- R166, PREF: no register, no fault, no trap; which lines are held is not architectural (R276). -/
def execPref (f : FormM) (_l2 : Bool) (s : State) : Res :=
  issue 0x53 (if f.off.x = 1 then 16 else 8) (f.a.need 2) f.hdr s (fun c => .done c.s)

/-! ## Stores -/

/-- A write entry of a lane enters its TSQ (R295). It stands for the stores of the lanes in `also` too. -/
def State.addWrite (s : State) (kind : EKind) (rel : Option Scope) (wid lane core order loc len val : Nat) (scope : Scope)
    (also : List (Nat × Nat) := []) : State :=
  let (id, s) := s.newId
  let e : Entry := {
    id := id, place := .tsq wid lane, kind := kind, loc := loc, len := len, val := val % 256 ^ len, scope := scope
    warp := wid, lane := lane, core := core, order := order, rel := rel, also := also }
  { s with entries := s.entries ++ [e] }

/-- The bytes of an entry that other lanes' elements cover, each with the lane. -/
def coveredBy (loc len : Nat) (es : List (Nat × Nat × Nat)) : List (Nat × Nat) :=
  es.flatMap (fun e => ((byteRange loc len).filter (fun b => meets b 1 e.2.1 e.2.2)).map (fun b => (e.1, b)))

/-- Of lanes that write the same element, only the highest one's entry is created (R169, R294). -/
def highestOnly (good : List (Nat × Nat)) : List (Nat × Nat) :=
  good.filter (fun e => !(good.any (fun x => x.2 == e.2 && decide (e.1 < x.1))))

/-- Element `k` of a store's data (R166): the register D + k, or pair D + 2k. An operand queue holds one value a lane: the
elements after the first have no value given (a free value, log 2). The base `a` pops before the data (R98). -/
def Ctx.storeData (c : Ctx) (a d : Opnd) (ty : NumTy) (l k : Nat) : Nat :=
  match d with
  | .v n => c.rd [.v (n + regsOf ty.wide * k)] 0 ty.wide l
  | .w n => c.rd [.w (n + regsOf ty.wide * k)] 0 ty.wide l
  | .oq q => if k = 0 then c.rd [a, .oq q] 1 ty.wide l else Config.free (c.s.seed c.w + 120000 + 4 * l + k)
  | o => c.rd [o] 0 ty.wide l

/-- The entries of performed lanes, one an element (R293), in ascending lane order. -/
def Ctx.storeLanes (c : Ctx) (s : State) (kind : EKind) (rel : Option Scope) (scope : Scope) (a d : Opnd) (ty : NumTy) (cnt : Nat)
    (good : List (Nat × Nat)) : State :=
  (highestOnly good).foldl (fun s e => (List.range cnt).foldl (fun s k =>
    s.addWrite kind rel c.wid e.1 c.w.core c.w.order (e.2 + ty.bytes * k) ty.bytes (c.storeData a d ty e.1 k) scope
      (coveredBy (e.2 + ty.bytes * k) ty.bytes ((good.filter (fun x => x.2 == e.2 && decide (x.1 < e.1))).map (fun x => (x.1, x.2, ty.bytes * cnt))))) s) s

/-- A plain store (R166–R169). -/
def storeForm (op : Nat) (sp : Where) (f : FormM) (cnt : Nat) (s : State) : Res :=
  issue op (if f.off.x = 1 then 16 else 8) (max (f.d.need (regsOf f.ty.wide * cnt)) (f.a.need (regsOf (sp == .global)))) f.hdr s (fun c =>
    let n := f.ty.bytes * cnt
    let addr (l : Nat) : Nat := c.address sp f.a f.off l
    c.vectorMem [f.a, f.d] (fun l => c.s.check c.w sp .wr l (addr l) n n) 2 (fun s good =>
      (c.stamped (c.storeLanes s .write none .core f.a f.d f.ty cnt good) sp .store n addr (good.map (·.1)), [])))

def execSt (f : FormM) (_hint : Hint) (cnt : Nat) (s : State) : Res := storeForm 0x4B .global f cnt s
def execSts (f : FormM) (cnt : Nat) (s : State) : Res := storeForm 0x4D .scratch f cnt s
def execStc (f : FormM) (cnt : Nat) (s : State) : Res := storeForm 0x4F .window f cnt s
def execStl (f : FormM) (cnt : Nat) (s : State) : Res := storeForm 0x51 .slice f cnt s

/-! ## Ordered loads, stores and fences (R246–R248, R300) -/

/-- The active lanes that SR_DONE does not mark: those that a memory form still acts for (R144, R168, R332). -/
def Ctx.undone (c : Ctx) : Mask := c.active &&& ~~~c.w.done

/-- Is the scope refused in a deterministic grid (R246, log 65)? -/
def Ctx.detBad (c : Ctx) (scope : Scope) : Bool := (c.s.gridOf c.w).launch.det && scope != .core && c.undone != 0

/-- LDA and ACQR: loads that acquire at a scope (R247, R301). Their stamps are made when they complete. -/
def acquireForm (op : Nat) (f : FormM) (scope : Scope) (la : Nat) (s : State) : Res :=
  issue op (if f.off.x = 1 then 16 else 8) (max (f.d.need (regsOf f.ty.wide)) (f.a.need 2)) f.hdr s (fun c =>
    if c.detBad scope then .trap c.s .detViolation c.undone
    else
      let n := f.ty.bytes
      c.vectorMem [] (fun l => c.s.check c.w .global .rd l (c.address .global f.a f.off l) n n) 1 (fun s good =>
        (c.startLoads s .global la f.d f.ty 1 scope true (.acquire scope) good (c.address .global f.a f.off), [])))

def execLda (f : FormM) (scope : Scope) (s : State) : Res := acquireForm 0xC0 f scope f.la s
def execAcqr (f : FormM) (scope : Scope) (s : State) : Res := acquireForm 0xC2 f scope 0 s

/-- R247, STRL: a release write of the scope. -/
def execStrl (f : FormM) (scope : Scope) (s : State) : Res :=
  issue 0xC1 (if f.off.x = 1 then 16 else 8) (max (f.d.need (regsOf f.ty.wide)) (f.a.need 2)) f.hdr s (fun c =>
    let n := f.ty.bytes
    let addr (l : Nat) : Nat := c.address .global f.a f.off l
    c.vectorMem [f.a, f.d] (fun l => c.s.check c.w .global .wr l (addr l) n n) 2 (fun s good =>
      (c.stamped (c.storeLanes s .relWrite (some scope) scope f.a f.d f.ty 1 good) .global
        (if scope = .core then .store else .release) n addr (good.map (·.1)), [])))

/-- R248, R303: a fence marker for each active lane; it completes when the markers have. -/
def execFence (h : Hdr) (scope : Scope) (s : State) : Res :=
  issue 0xC3 8 0 h s (fun c =>
    if c.active == 0 then .done c.s
    else .done (c.launch (c.s.addMarkers .fenceMarker c.wid c.active scope c.w.order c.w.core) 0 1 (.fence scope)))

/-! ## Completion (R297, R301–R303) -/

/-- R303: have the markers of a fence completed? -/
def State.fenced (s : State) (wid : Nat) (f : Flight) : Bool :=
  !(s.entries.any (fun e => e.kind == .fenceMarker && e.warp == wid && f.lanes.has e.lane && e.order == f.order))

/-- The promote steps that an ACQR at a scope waits for (R302): core and sequence of each write returned that carries a
narrower release. -/
def State.promotions (s : State) (scope : Scope) (items : List LoadItem) : List (Nat × Nat) :=
  (items.flatMap (fun i => i.loads.filterMap (fun id =>
    match (s.loads.find? (fun l => l.id == id)).bind (·.tag) with
    | some t => match t.rel with
      | some q => if scopeLevel q < scopeLevel scope then some (t.core, t.seq) else none
      | none => none
    | none => none))).eraseDups

/-- The promote steps taken; none while one of them has to wait. -/
def State.promoteAll (s : State) (scope : Scope) : List (Nat × Nat) → Option State
  | [] => some s
  | (c, n) :: r => match s.promote c n (scopeLevel scope) with
    | some s' => s'.promoteAll scope r
    | none => none

end Sys2Proof.Machine
end

