-- ==== Sys2Proof/Machine/Atomics.lean ====
section
/-! DEFINITION. ATOM, ATOMC and RED (R249–R253, R289, R304): address groups and their entries; what a branch has performed ahead
of them (R306). -/
namespace Sys2Proof.Machine

/-- The issue-to-use of an atomic (Table 24.5), in clocks of the core: the latency of the level it is performed at, for the furthest of
its locations, and 8 more; and the clocks of the cluster that go before them (R12). -/
def atomLat (scope : Scope) (locs : List Nat) : Nat :=
  (locs.map (fun loc => match min (scopeLevel scope) (homeOf loc) with
    | 0 | 1 => levelLat .scratch
    | 2 => levelLat .window
    | _ => 0)).foldl max 0 + 8
def atomCc (scope : Scope) (locs : List Nat) : Nat :=
  (locs.map (fun loc => if min (scopeLevel scope) (homeOf loc) = 2 then levelCc .window else 0)).foldl max 0

/-- What the same table gives in nanoseconds: at DEV the home L2's latency; at DIE, whose figure the table does not give, that of the
L2 of the die itself (log 79). -/
def atomNs (core : Nat) (scope : Scope) (locs : List Nat) : Nat :=
  (locs.map (fun loc => match min (scopeLevel scope) (homeOf loc) with
    | 3 => 160
    | 4 => homeNs core loc
    | _ => 0)).foldl max 0

/-- The lanes of a performance with equal locations, also by two virtual addresses of one byte (log 113), form a group, numbered by its
lowest lane's entry (R251, R289); each
lane inserts its own entry, in ascending lane order (R304). `fn l` and `val l` are the lane's operation and operand. -/
def Ctx.atomEntries (c : Ctx) (s : State) (use : Use) (scope : Scope) (len : Nat) (flight : Option Nat)
    (fn : Nat → AtomFn) (val : Nat → Nat) (good : List (Nat × Nat)) : State :=
  let first := s.nextId
  let idOf (i : Nat) : Nat := first + i
  let news := good.zipIdx.map (fun e =>
    let g := idOf ((good.findIdx? (fun x => x.2 == e.1.2)).getD e.2)
    { id := idOf e.2, place := .tsq c.wid e.1.1, kind := .atomic g g (fn e.1.1) use flight, loc := e.1.2, len := len
      val := val e.1.1 % 256 ^ len, scope := scope, warp := c.wid, lane := e.1.1, core := c.w.core, order := c.w.order : Entry })
  { s with entries := s.entries ++ news, nextId := first + good.length }

/-- R246: in a deterministic grid a floating-point .COM or .QNT is performed as .UNP. -/
def Ctx.useOf (c : Ctx) (f : FormAt) : Use :=
  if (c.s.gridOf c.w).launch.det && f.ty.isFloat && (f.use == .com || f.use == .qnt) then .unp else f.use

def FormAt.address (f : FormAt) : Off := .imm32 (f.off.getD 0)

/-- R306: what a branch performed ahead for a lane that now stands at its instruction. -/
def Ctx.early (c : Ctx) (l : Nat) : Option Early :=
  c.w.early.find? (fun e => e.lane == l && e.at_ == (c.w.th l).pc && e.level == c.w.level
    && e.rep == (if (c.w.th l).inRep then (c.w.th l).rep else 0))

/-- The records of those lanes are used up: a value that has come back goes to the flight's writes, one that has not goes there
when it does. -/
def Ctx.takeEarly (c : Ctx) (s : State) (fid : Nat) : State :=
  let mine (e : Early) : Bool := c.front.has e.lane && c.early e.lane == some e
  { s.modWarp c.wid (fun w => { w with early := w.early.filter (fun e => !mine e) }) with
    entries := s.entries.map (fun e => match e.kind with
      | .atomic g sub fn u (some k) =>
        if e.warp = c.wid && c.w.early.any (fun x => mine x && x.id == k && x.lane == e.lane) then { e with kind := .atomic g sub fn u (some fid) } else e
      | _ => e) }

/-- The effect shared by the three forms: checks (R167, R385), entries, and for `old` the flight of the old values. -/
def atomForm (op : Nat) (f : FormAt) (peer old : Bool) (os : List Opnd) (need : Nat) (s : State) (fn : Ctx → Nat → AtomFn) : Res :=
  issue op (if f.off.isSome then 16 else 8) need f.hdr s (fun c =>
    if c.detBad f.scope then .trap c.s .detViolation c.undone
    else
      let n := f.ty.bytes
      let addr (l : Nat) : Nat := c.address .global f.a (FormAt.address f) l
      c.vectorMem os (fun l => if (c.early l).isSome then .ok 0 else c.s.check c.w .global (.at peer) l (addr l) n n) 3 (fun s good =>
        if good.isEmpty then (s, [])
        else
          let fid := s.nextId
          -- lanes whose atomic has been performed ahead perform nothing again (R306)
          let fresh := good.filter (fun e => (c.early e.1).isNone)
          let back := good.flatMap (fun e => match (c.early e.1).bind (·.old) with
            | some x => regWrites f.d e.1 f.ty.wide x
            | none => [])
          let s := if old then
              c.launch s f.la (atomLat f.scope (fresh.map (·.2))) (.atomic f.d f.ty) back
                ((good.filter (fun e => ((c.early e.1).bind (·.old)).isNone)).flatMap (fun e => loadDests f.d e.1 f.ty 1)) []
                (atomNs c.w.core f.scope (fresh.map (·.2))) (atomCc f.scope (fresh.map (·.2)))
            else s
          let s := if c.w.early.isEmpty then s else c.takeEarly s fid
          let s := c.atomEntries s (c.useOf f) f.scope n (if old then some fid else none) (fn c) (fun l => c.rd os 0 f.ty.wide l) fresh
          (c.stamped s .global .atomic n addr (fresh.map (·.1)), [])))

def execAtom (f : FormAt) (op : AtomOp) (s : State) : Res :=
  atomForm 0xC4 f (op == .add) true [f.b] (max (f.d.need (regsOf f.ty.wide)) (max (f.a.need 2) (f.b.need (regsOf f.ty.wide)))) s
    (fun _ _ => .op op f.ty)

/-- R252: B is the new value, C the compare value. -/
def execAtomc (f : FormAt) (cmp : Opnd) (s : State) : Res :=
  let k := regsOf f.ty.wide
  atomForm 0xC5 f true true [f.b, cmp] (max (max (f.d.need k) (cmp.need k)) (max (f.a.need 2) (f.b.need k))) s
    (fun c l => .cas f.ty (c.rd [f.b, cmp] 1 f.ty.wide l % 256 ^ f.ty.bytes))

/-- R253: complete when its entries are inserted. -/
def execRed (f : FormAt) (op : AtomOp) (s : State) : Res :=
  atomForm 0xC6 f (op == .add) false [f.b] (max (f.a.need 2) (f.b.need (regsOf f.ty.wide))) s (fun _ _ => .op op f.ty)

/-- Has every entry of a flight's atomics been performed? -/
def State.atomsDone (s : State) (flight : Nat) : Bool :=
  !(s.entries.any (fun e => match e.kind with | .atomic _ _ _ _ (some f) => f == flight | _ => false))

end Sys2Proof.Machine
end

