-- ==== Sys2Proof/Machine/Uses.lean ====
section
/-! DEFINITION. What an instruction reads and writes by name: the registers that R55's check concerns, that a dependent waits for
(R327), and that a branch looks at before it performs an atomic ahead (R306). -/
namespace Sys2Proof

/-- What an instruction names: `k` registers from an operand on, up to `k` of which the first is certain, a matrix with its
descriptor, a descriptor, a predicate or all of them, a J register, a special register whose last write may have to be waited for, or
what perturbation reads where one of the descriptors given is of a PW format (R231). -/
inductive Named
  | regs (o : Opnd) (k : Nat)
  | upTo (o : Opnd) (k : Nat)
  | mat (o : Opnd) (h : Nat)
  | hreg (n : Nat)
  | pred (n : Nat)
  | preds
  | jreg (n : Nat)
  | special (n : Nat)
  | louvre (hs : List Nat)
  deriving DecidableEq, Repr

/-- What an instruction reads beside its guard, and what it writes. -/
structure Uses where
  reads : List Named := []
  writes : List Named := []

def FormA.uses (r : Row) (f : FormA) : Uses :=
  let k (wide : Bool) : Nat := regsOf (f.ty.wide && wide)
  { reads := [.regs f.a (k r.wa), .regs f.b.src (k r.wb)], writes := [.regs f.d (k r.wd)] }
/-- `pd`, `pa` and `pc` mark operands that are pairs whatever the type. -/
def FormA3.uses (r : Row) (pd pa pc : Bool) (f : FormA3) : Uses :=
  let k (wide pair : Bool) : Nat := regsOf (f.ty.wide && wide || pair)
  { reads := [.regs f.a (k r.wa pa), .regs f.b.src (k r.wb false), .regs f.c (k r.wc pc)], writes := [.regs f.d (k r.wd pd)] }
def FormP.uses (r : Row) (f : FormP) : Uses :=
  { reads := [.regs f.a (regsOf (f.ty.wide && r.wa)), .regs f.b.src (regsOf (f.ty.wide && r.wb)), .pred f.cp], writes := [.pred f.d] }
def FormB.uses (wd wa wb : Bool) (f : FormB) : Uses :=
  { reads := [.regs f.a (regsOf wa), .regs f.b.src (regsOf wb)], writes := [.regs f.d (regsOf wd)] }
/-- A matrix that is read, with its descriptor (R192). -/
def matOf (o : Opnd) (h : Nat) : List Named := [.mat o h, .hreg h]
/-- A form that makes D's matrix out of those of A and perhaps B and D. -/
def FormX.uses (a b d : Bool) (f : FormX) (more : List Named := []) : Uses :=
  { reads := (if a then matOf f.a f.ha else []) ++ (if b then matOf f.b f.hb else []) ++ (if d then [.mat f.d f.hd] else []) ++ .hreg f.hd :: more
    writes := [.mat f.d f.hd] }
def FormX.addresses (pair : Bool) (f : FormX) : List Named := [.regs f.a (regsOf pair), .regs f.b 1, .hreg f.hd]
def FormM.loads (pair : Bool) (cnt : Nat) (f : FormM) : Uses :=
  { reads := [.regs f.a (regsOf pair)], writes := [.regs f.d (regsOf f.ty.wide * cnt)] }
def FormM.stores (pair : Bool) (cnt : Nat) (f : FormM) : Uses :=
  { reads := [.regs f.a (regsOf pair), .regs f.d (regsOf f.ty.wide * cnt)] }
def FormAt.uses (f : FormAt) (old : Bool) (c : List Named) : Uses :=
  let k := regsOf f.ty.wide
  { reads := [.regs f.a 2, .regs f.b k] ++ c, writes := if old then [.regs f.d k] else [] }

def Uses.with_ (u : Uses) (reads writes : List Named) : Uses := { reads := u.reads ++ reads, writes := u.writes ++ writes }

/-- An .SR form reads the generator's state (R89). -/
def srOf (r : Rnd) : List Named := if r = .sr then [.special 0x14] else []

def jOf (j : Option Nat) : List Named := j.toList.map Named.jreg

/-- The uses of every form; the steps and events name no register. -/
def Instr.uses (i : Instr) : Uses :=
  let a (f : FormA) : Uses := f.uses (rowA i.op)
  let a3 (f : FormA3) (pd pa pc : Bool) : Uses := f.uses (rowA i.op) pd pa pc
  let b (f : FormB) : Uses := f.uses f.ty.wide f.ty.wide f.ty.wide
  match i with
  | .bra _ _ j => { writes := jOf j }
  | .brx _ t j | .ret _ t j => { reads := [.regs t 1], writes := jOf j }
  | .call _ d _ j => { writes := .regs d 1 :: jOf j }
  | .callx _ d t j => { reads := [.regs t 1], writes := .regs d 1 :: jOf j }
  | .join _ k => { reads := [.jreg k] }
  | .launch _ d t => { reads := [.regs t 2], writes := [.regs d 1] }
  | .cwait _ t => { reads := [.regs t 1] }
  | .regroup _ k p n => { reads := [.regs k 1, .regs p n] }
  | .sleep _ t | .setprio _ t => { reads := [.regs t.src 1] }
  | .tstamp _ d => { writes := [.regs d 2] }
  | .srd _ d n => { reads := [.special n], writes := [.regs d (regsOf (srWide n))] }
  | .swr _ t n => { reads := [.regs t (regsOf (srWide n))] }
  | .dgst _ t tag n => { reads := [.regs t n, .regs tag.src 1] }
  | .mov f .packP => (a f).with_ [.preds] []
  | .sel f p _ => (a f).with_ [.pred p] []
  | .iaddc f p q _ ci0 => (a f).with_ (if ci0 then [] else [.pred p]) [.pred q]
  | .mov f _ | .movi f | .iadd f | .isub f | .imul f | .imulh f | .imin f | .imax f | .iabs f | .and f | .or f | .xor f | .andn f
  | .not f | .shl f | .shr f | .sar f | .rotl f | .popc f | .clz f | .ctz f | .brev f | .bfx f | .lfold f _ | .rdfl f | .fadd f
  | .fmul f | .fmin f | .fmax f | .frnd f _ | .fscl f | .dadd f | .dmul f | .dmin f | .dmax f => a f
  | .duoadd f | .duomul f => (a f).with_ (srOf f.rnd) []
  | .imad f | .fsh f _ | .bfi f | .bperm f | .ffma f | .dfma f => a3 f false false false
  | .duofma f => (a3 f false false false).with_ (srOf f.rnd) []
  | .imadw f => a3 f true false true
  | .lea f _ _ => f.uses rowLea true true false
  | .icmp f | .fcmp f | .fclass f | .dcmp f => f.uses (rowP i.op)
  | .plop _ d pa pb pc _ => { reads := [.pred pa, .pred pb, .pred pc], writes := [.pred d] }
  | .pmov f false => f.uses (rowP 0x41)
  | .pmov f true => { (f.uses rowPmovAll) with writes := [.preds] }
  | .lpick f p _ _ | .lpeer f p | .lsend f p => (a f).with_ [] [.pred p]
  | .lpoll f p q _ => (a f).with_ [.pred p] [.pred q]
  | .scan f _ _ seg p => (a f).with_ (if seg then [.pred p] else []) []
  | .wmov f j .fromJ => (a f).with_ [.jreg j] []
  | .wmov f j .toJ => (a f).with_ [] [.jreg j]
  | .wmov f _ _ => a f
  | .ld f _ n | .ldw f _ n => f.loads true n
  | .st f _ n => f.stores true n
  | .lds f n | .ldc f n | .ldl f n => f.loads false n
  | .sts f n | .stc f n | .stl f n => f.stores false n
  | .pref f _ => { reads := [.regs f.a 2] }
  | .lda f _ => f.loads true 1
  | .strl f _ => f.stores true 1
  | .acqr f _ => f.loads true 1
  | .fdiv f | .fsqrt f | .ddiv f | .dsqrt f | .rcp f | .rsq f | .exp2 f | .log2 f | .sin f | .cos f | .tanh f | .luta f | .lutld f
  | .lutsync f => b f
  | .cvt f t => (f.uses f.ty.wide t.wide false).with_ (srOf f.rnd) []
  | .cvtblk f t => (f.uses false t.wide false).with_ (srOf f.rnd) []
  | .srseed f _ => (f.uses false true false).with_ [] [.special 0x14]
  | .mshape f _ imm => { reads := .hreg f.hd :: (if imm.isSome then [] else [.regs f.a 1]), writes := [.hreg f.hd] }
  | .mqry f m => { reads := [.hreg f.ha], writes := [.regs f.d (if m = .words then 3 else 1)] }
  | .mld f _ _ => { reads := f.addresses true, writes := [.mat f.d f.hd] }
  | .mlds f _ _ => { reads := f.addresses false, writes := [.mat f.d f.hd] }
  | .mst f _ _ rnd _ => { reads := .mat f.d f.hd :: f.addresses true ++ srOf rnd }
  | .msts f _ _ => { reads := .mat f.d f.hd :: f.addresses false }
  | .mzero f => f.uses false false false
  | .mcopy f | .mtrn f | .mchol f | .minv f | .mexp f => f.uses true false false
  | .mcvt f ext => (f.uses true false false).with_ (ext.toList.flatMap (fun e => srOf e.1)) []
  | .lveps f _ => f.uses true false false [.louvre [f.ha]]
  | .madd f _ | .mtrs f _ _ _ => f.uses true true false
  | .mmul f => f.uses true true false [.louvre [f.ha, f.hb]]
  | .mscal f => f.uses true false false [.upTo f.b 2]
  | .mma f => f.uses true true true [.louvre [f.ha, f.hb]]
  | .mmt f self acc => f.uses true (!self) acc [.louvre (if self then [f.ha] else [f.ha, f.hb])]
  | .mspma f c _ => f.uses true true true [.upTo c 9, .louvre [f.ha, f.hb]]
  | .mlu f c => (f.uses true false false).with_ [] [.regs c 2]
  | .mdet f | .mnorm f _ => { reads := matOf f.a f.ha, writes := [.upTo f.d 2] }
  | .mrefine f _ c e k => (f.uses true true true (matOf c k ++ [.upTo e 6])).with_ [] [.upTo e 6]
  | .lvorg f c => { reads := [.regs f.a 1, .regs f.b 1, .regs c 1], writes := [.hreg f.hd] }
  | .lvmem f => { reads := [.regs f.a 1], writes := [.special 0x12] }
  | .lvctl f => { reads := [.regs f.a 1], writes := [.special 0x13] }
  | .lvgrad f c k => (f.uses true true true (matOf c k ++ [.louvre [f.ha]])).with_ [] [.mat c k]
  | .atom f _ => f.uses true []
  | .atomc f c => f.uses true [.regs c (regsOf f.ty.wide)]
  | .red f _ => f.uses false []
  | .cpy f | .cps f => { reads := [.regs f.d 1, .regs f.a 2, .regs f.len.src 1] }
  | .cpt f _ _ => { reads := [.regs f.d 1, .regs f.a 1, .regs f.len.src 4] }
  | .cpwait _ t => { reads := t.toList.map (fun o => .regs o 1) }
  | .cptest _ d t _ => { reads := t.toList.map (fun o => .regs o 1), writes := [.regs d 1] }
  | .cpclose _ d _ | .wstat _ d _ _ => { writes := [.regs d 1] }
  | .tdesc _ d t _ => { reads := [.regs t 2], writes := [.regs d 1] }
  | .tdfree _ t | .tqinit _ _ t _ => { reads := [.regs t 1] }
  | .qpush _ _ t => { reads := [.regs t 3] }
  | .qpop _ d _ _ => { writes := [.regs d 3] }
  | .qtry _ d _ p _ => { writes := [.regs d 3, .pred p] }
  | .qgrant _ _ t u => { reads := [.regs t 1, .regs u 1] }
  | .wcfg _ _ t u => { reads := [.regs t 2, .regs u 1] }
  | _ => {}

/-- The registers beside its matrices whose number an instruction takes from a shape, as `sh` gives the descriptors' (R206, R210,
R214, Table 14.3). -/
def Instr.runs (i : Instr) (sh : Nat → Shape) : List (Opnd × Nat) :=
  let wide (h : Nat) : Bool := (sh h).fmt == .f64
  match i with
  | .mscal f => [(f.b, regsOf (wide f.ha))]
  | .mdet f | .mnorm f _ => [(f.d, regsOf (wide f.ha))]
  | .mspma f c pat => [(c, if pat = .cols then 1 else 1 + ceilDiv (sh f.ha).cols 2)]
  | .mrefine f lu _ e _ => [(e, if wide f.ha then (if lu then 6 else 3) else if lu then 4 else 2)]
  | _ => []

/-- The descriptors that these counts depend on. -/
def Instr.descriptors : Instr → List Nat
  | .mscal f | .mdet f | .mnorm f _ | .mspma f _ _ | .mrefine f _ _ _ _ => [f.ha]
  | _ => []

/-- Are those registers a scalar, and so a pair in a lane of FP64 (R55)? -/
def Instr.runsPair : Instr → Bool
  | .mscal _ | .mdet _ | .mnorm _ _ => true
  | _ => false

def Instr.hdr (i : Instr) : Hdr := i.raw.hdr

/-- The V registers that a name asks to be allocated before anything else is known (R55). -/
def Named.need : Named → Nat
  | .regs o k => o.need k
  | .upTo o _ | .mat o _ => o.need 1
  | _ => 0
/-- The same for an instruction: R55's check, which depends on the kernel. -/
def Instr.need (i : Instr) : Nat := (i.uses.reads ++ i.uses.writes).foldl (fun m n => max m n.need) 0

/-- Does a name cover one of the `k` registers from `o` on? `foot` is the footprint of a matrix by its descriptor; one that is not known
covers all that follow its base. -/
def Named.covers (foot : Nat → Option Nat) (o : Opnd) (k : Nat) (n : Named) : Bool :=
  let touch (a ka b kb : Nat) : Bool := decide (a < b + kb) && decide (b < a + ka)
  match n, o with
  | .regs (.v a) ka, .v m | .upTo (.v a) ka, .v m => touch a ka m k
  | .regs (.w a) ka, .w m | .upTo (.w a) ka, .w m => touch a ka m k
  | .mat (.v a) h, .v m => match foot h with
    | some f => touch a f m k
    | none => decide (a < m + k)
  | _, _ => false

end Sys2Proof

namespace Sys2Proof.Machine

/-- A special register in a lane as `Warp.lat` numbers it: SR_LVMEM, which each thread has for itself, is 160 above the lane. -/
def specialIn (l n : Nat) : Nat × Nat := if n = 0x12 then (160 + l, n) else (97, n)

/-- The registers of a name in a lane, as `Warp.lat` and `RegW.dest` number them; descriptors are 128 above the lane. -/
def Warp.named (w : Warp) (l : Nat) : Named → List (Nat × Nat)
  | .regs o k | .upTo o k => destsOf o [l] k
  | .mat o h => destsOf o [l] (shapeOf ((w.getH l h).toNat % 2 ^ 32)).foot
  | .hreg n => [(128 + l, n)]
  | .pred n => [(64 + l, n)]
  | .preds => (List.range 8).map (fun n => (64 + l, n))
  | .jreg n => [(96, n)]
  | .special n => [specialIn l n]
  | .louvre hs => if hs.any (fun h => (shapeOf ((w.getH l h).toNat % 2 ^ 32)).fmt.isPw) then [specialIn l 0x12, specialIn l 0x13] else []

/-- A name with the number of registers that the lane's shapes give it. -/
def Warp.exactly (w : Warp) (l : Nat) (i : Instr) : Named → Named
  | .upTo o most => .regs o ((((i.runs (fun h => shapeOf ((w.getH l h).toNat % 2 ^ 32))).find? (fun r => r.1 == o)).map (·.2)).getD most)
  | n => n

/-- What the lanes of a front read (`reads`), the guard among it, or write. -/
def Warp.reading (w : Warp) (front : Mask) (i : Instr) : List (Nat × Nat) :=
  front.lanes.flatMap (fun l => (64 + l, i.hdr.p) :: i.uses.reads.flatMap (fun n => w.named l (w.exactly l i n)))
def Warp.writing (w : Warp) (front : Mask) (i : Instr) : List (Nat × Nat) :=
  front.lanes.flatMap (fun l => i.uses.writes.flatMap (fun n => w.named l (w.exactly l i n)))

end Sys2Proof.Machine
end

