-- ==== Sys2Proof/Machine/Rep.lean ====
section
/-! DEFINITION. REP (R109–R111, R145): what its repeats may be, and its start. -/
namespace Sys2Proof

/-- What REP sees of an instruction: the fields it may step (D, A, B, C; none where the form does not use them or holds an
immediate), or D's predicate number. None for the layouts that REP does not repeat (R110). -/
structure RepView where
  d : Opnd := .none
  a : Opnd := .none
  b : Opnd := .none
  c : Opnd := .none
  pred : Option Nat := none
  a3 : Bool := false

/-- A masked A of PLOP or LPOLL, which holds a predicate number there, steps nothing: it counts as a field not used (log 69). -/
def Instr.repView (i : Instr) : Option RepView :=
  let a (f : FormA) : Option RepView := some { d := f.d, a := f.a, b := f.b.src }
  let a3 (f : FormA3) : Option RepView := some { d := f.d, a := f.a, b := f.b.src, c := f.c, a3 := true }
  let p (f : FormP) (pred : Option Nat) : Option RepView := some { a := f.a, b := f.b.src, pred := pred }
  let b (f : FormB) : Option RepView := some { d := f.d, a := f.a, b := f.b.src }
  let x (f : FormX) (c : Opnd) : Option RepView := some { d := f.d, a := f.a, b := f.b, c := c }
  let m (f : FormM) : Option RepView := some { d := f.d, a := f.a }
  match i with
  | .mov f _ | .movi f | .sel f _ _ | .iadd f | .isub f | .iaddc f _ _ _ _ | .imul f | .imulh f | .imin f | .imax f
  | .iabs f | .and f | .or f | .xor f | .andn f | .not f | .shl f | .shr f | .sar f | .rotl f | .popc f | .clz f | .ctz f
  | .brev f | .bfx f | .lpick f _ _ _ | .lpoll f _ _ _ | .lfold f _ | .scan f _ _ _ _ | .lpeer f _ | .rdfl f | .lsend f _
  | .wmov f _ _ | .fadd f | .fmul f | .fmin f | .fmax f | .frnd f _ | .fscl f | .dadd f | .dmul f | .dmin f | .dmax f
  | .duoadd f | .duomul f => a f
  | .imad f | .fsh f _ | .bfi f | .bperm f | .ffma f | .dfma f | .duofma f | .imadw f | .lea f _ _ => a3 f
  | .icmp f | .fcmp f | .fclass f | .dcmp f | .pmov f false => p f (some f.d)
  | .pmov f true => p f none
  | .plop _ d _ _ _ _ => some { pred := some d }
  | .fdiv f | .fsqrt f | .ddiv f | .dsqrt f | .rcp f | .rsq f | .exp2 f | .log2 f | .sin f | .cos f | .tanh f | .luta f
  | .lutld f | .lutsync f | .cvt f _ | .cvtblk f _ | .srseed f _ => b f
  | .mqry f _ | .mshape f _ _ | .mld f _ _ | .mst f _ _ _ _ | .mlds f _ _ | .msts f _ _ | .mzero f | .mcopy f | .mtrn f | .madd f _
  | .mscal f | .mmul f | .mma f | .mmt f _ _ | .mchol f | .mtrs f _ _ _ | .minv f | .mdet f | .mexp f | .mnorm f _ | .mcvt f _
  | .lvmem f | .lveps f _ | .lvctl f => x f .none
  | .mspma f c _ | .lvorg f c | .mlu f c | .mrefine f _ c _ _ | .lvgrad f c _ => x f c
  | .ld f _ _ | .st f _ _ | .ldw f _ _ | .lds f _ | .sts f _ | .ldc f _ | .stc f _ | .ldl f _ | .stl f _
  | .pref f _ | .lda f _ | .strl f _ => m f
  | .atom f _ => some { d := f.d, a := f.a, b := f.b }
  | .atomc f c => some { d := f.d, a := f.a, b := f.b, c := c }
  | .red f _ => some { a := f.a, b := f.b }
  | _ => none

/-- Does a field stay in its starting class for every repeat (R110)? -/
def stepOk (o : Opnd) (step count : Nat) : Bool :=
  match o with
  | .v n => n + (count - 1) * step < 768
  | .w n => n + (count - 1) * step < 64
  | _ => false

end Sys2Proof

namespace Sys2Proof.Machine

/-- The word of repeat `k` (R110). -/
def repeatRaw (md ma mb mc a3 : Bool) (step k : Nat) (r : Raw) : Raw := stepRaw md ma mb mc a3 (k * step) r

/-- The instruction of repeat `k`, if it decodes (R110). -/
def repeatInstr (md ma mb mc a3 : Bool) (step k : Nat) (r : Raw) : Option Instr :=
  (decodeRaw (repeatRaw md ma mb mc a3 step k r)).bind (fun i => if i.wf then some i else none)

/-- Do the registers that the shapes of a lane place for an instruction lie in the allocation, FP64 elements and pairs in even ones
(R55)? -/
def Ctx.placed (c : Ctx) (i : Instr) (l : Nat) : Bool :=
  let regs := (c.s.kernOf c.w).regs
  let inside (o : Opnd) (n : Nat) (pair : Bool) : Bool := decide (o.need n ≤ regs) && (!pair || o.even)
  (i.uses.reads ++ i.uses.writes).all (fun n => match n with
    | .mat o h => inside o (c.shape l h).foot ((c.shape l h).fmt == .f64)
    | _ => true)
  && (i.runs (c.shape l)).all (fun r => inside r.1 r.2 (r.2 == 2 && i.runsPair))

/-- R110's checks of a repeated instruction that decodes as `i`. The shapes are those of the lanes that its guard makes active when
REP issues (log 69). -/
def Ctx.repAllowed (c : Ctx) (md ma mb mc : Bool) (step count : Nat) (r : Raw) (i : Instr) : Bool :=
  match i.repView with
  | none => false
  | some v =>
    (!md || (match v.pred with | some n => decide (n + (count - 1) * step < 8) | none => stepOk v.d step count))
    && (!ma || stepOk v.a step count) && (!mb || stepOk v.b step count) && (!mc || stepOk v.c step count)
    && (List.range count).all (fun k => match repeatInstr md ma mb mc v.a3 step k r with
      | some j => j.repView.isSome && decide (j.need ≤ (c.s.kernOf c.w).regs)
        && (c.s.activeLanes c.w c.front j.hdr).lanes.all (c.placed j)
      | none => false)

/-- A trap whose opcode is another instruction's (R110). -/
def Ctx.trapAs (c : Ctx) (s : State) (cause : TrapCause) (op : Nat) : Iss :=
  .moved (s.raise c.wid cause 0 op c.front c.front (c.w.retPoints c.front c.len) .reissue none)

/-- R109, R110: the checks before the first repeat; then every lane of the front stands in the REP with its count. The second word
of the repeated instruction is fetched where its first asks for it (R95). A word that fails decode traps with its own opcode, also
one of another layout; every other case names REP's (log 69). -/
def execRep (h : Hdr) (md ma mb mc : Bool) (step count : Nat) (s : State) : Res :=
  issue 0x15 8 0 h s (fun c =>
    let pc := (c.w.th (c.front.lowest.getD 0)).pc
    let fetched (off : Nat) (k : Nat → Iss) : Iss := match s.codeWord c.w (pc + off) with
      | .absent p z => .fault p z 4
      | .unmapped bad => .moved (s.fetchFault c.w bad)
      | .word x => k x
    fetched 8 (fun w0 =>
      let go (w1 : Nat) : Iss :=
        let r := Raw.ofWords w0 w1
        match decodeWords w0 w1 with
        | .illegalOpcode op => c.trapAs c.s .illegalOpcode op
        | .illegalOperand op => c.trapAs c.s .illegalOperand op
        | .ok i =>
          if c.repAllowed md ma mb mc step count r i then
            .moved (c.s.putWarp c.wid (c.counted.modLanes c.front (fun _ t => { t with inRep := true, rep := count })))
          else c.trapAs c.s .illegalOperand 0x15
      if twoWords w0 then fetched 16 go else go 0))

end Sys2Proof.Machine
end

