-- ==== Sys2Proof/Machine/Early.lean ====
section
/-! DEFINITION. What a branch may perform ahead (R306): the .SPEC atomics within 16 words of its two ways. -/
namespace Sys2Proof

/-! ## What an instruction may write -/

/-- Does it write predicate `n`? -/
def Instr.setsPred (i : Instr) (n : Nat) : Bool :=
  i.uses.writes.any (fun x => match x with
    | .pred m => m == n
    | .preds => true
    | _ => false)

/-- Might it write one of the `k` registers from `o` on? `ws` are the shape words that a descriptor may hold there, where they are known; a
matrix of a shape that is not counts for all registers that follow its base (log 41). -/
def Instr.mayWrite (i : Instr) (ws : Nat → Option (List Nat)) (o : Opnd) (k : Nat) : Bool :=
  let most (f : Shape → Nat) (xs : List Nat) : Nat := (xs.map (fun x => f (shapeOf x))).foldl max 0
  let exact (x : Opnd) (n : Nat) : Nat := match i.descriptors with
    | [h] => ((ws h).map (most (fun sh => (((i.runs (fun _ => sh)).find? (fun r => r.1 == x)).map (·.2)).getD n))).getD n
    | _ => n
  i.uses.writes.any (fun n => (match n with | .upTo x m => Named.regs x (exact x m) | n => n).covers (fun h => (ws h).map (most Shape.foot)) o k)

/-- The shape words that the descriptors may hold behind an instruction: MSHAPE of a word that is known leads to known ones, LVORG leaves the
word as it is (R196, R217). `val` is what an operand holds, where that is known. -/
def Instr.reshape (i : Instr) (val : Opnd → Option Nat) (ws : Nat → Option (List Nat)) (h : Nat) : Option (List Nat) :=
  match i with
  | .mshape f ext imm =>
    if h ≠ f.hd then ws h
    else match imm.map BitVec.toNat |>.or (val f.a), ws h with
      | some v, some xs => some (xs.map (fun x => (Machine.mshapeWord x ext v).1) ++ (if f.hdr.p = 7 && !f.hdr.neg then [] else xs))
      | _, _ => none
  | _ => ws h

/-- An atomic that may be performed ahead: its form, its other source, what it does (R250, R251, R252). -/
structure SpecAtomic where
  form : FormAt
  cmp : Opnd
  op : Option AtomOp

def Instr.specAtomic (i : Instr) : Option SpecAtomic :=
  match i with
  | .atom f op => if f.use = .spec then some { form := f, cmp := .none, op := some op } else none
  | .atomc f c => if f.use = .spec then some { form := f, cmp := c, op := none } else none
  | _ => none

/-- The registers of its sources, each with its count. -/
def SpecAtomic.sources (a : SpecAtomic) : List (Opnd × Nat) :=
  let k := if a.form.ty.wide then 2 else 1
  [(a.form.a, 2), (a.form.b, k), (a.cmp, k)]

/-- Does an instruction leave its guard and its sources as they are? -/
def SpecAtomic.keptBy (a : SpecAtomic) (ws : Nat → Option (List Nat)) (i : Instr) : Bool :=
  (a.form.hdr.p == 7 || !i.setsPred a.form.hdr.p) && a.sources.all (fun o => !i.mayWrite ws o.1 o.2)

/-- Do the instructions on the way leave its guard and its sources as they are, from the values and the shape words of the branch on? -/
def SpecAtomic.kept (a : SpecAtomic) : (Opnd → Option Nat) → (Nat → Option (List Nat)) → List Instr → Bool
  | _, _, [] => true
  | val, ws, i :: r => a.keptBy ws i && a.kept (fun o => if i.mayWrite ws o 1 then none else val o) (i.reshape val ws) r

/-- Where a way ends: at the next branch, and at what does not go on to the next word by itself. -/
def Instr.endsWay (i : Instr) : Bool :=
  match i with
  | .bra _ _ _ | .brx _ _ _ | .call _ _ _ _ | .callx _ _ _ _ | .ret _ _ _ | .tret _ => true
  | .exit h => h.p == 7
  | _ => false

end Sys2Proof

namespace Sys2Proof.Machine

/-- The words of the instruction at a code offset, where they are there. -/
def State.wordsAt (s : State) (w : Warp) (pc : Nat) : Option (Nat × Nat) :=
  let word (off : Nat) : Option Nat := match s.codeWord w off with
    | .word x => some x
    | _ => none
  (word pc).bind (fun w0 => if twoWords w0 then (word (pc + 8)).map (fun w1 => (w0, w1)) else some (w0, 0))

/-- The .SPEC atomics on the way from a code offset, within a number of words, repeats one by one: each with its offset and the repeats left,
and the instructions passed before it (log 41). -/
def State.specsFrom (s : State) (w : Warp) : Nat → Nat → List Instr → Nat → List ((Nat × Nat) × SpecAtomic × List Instr)
  | 0, _, _, _ => []
  | fuel + 1, words, seen, pc =>
    if words = 0 then []
    else match s.wordsAt w pc with
      | none => []
      | some (w0, w1) => match decodeWords w0 w1 with
        | .ok (.rep _ md ma mb mc step count) =>
          match s.wordsAt w (pc + 8) with
          | none => []
          | some (r0, r1) => match decodeWords r0 r1 with
            | .ok i =>
              let each := (List.range count).filterMap (fun k =>
                repeatInstr md ma mb mc ((i.repView.map (·.a3)).getD false) step k (Raw.ofWords r0 r1))
              if each.length = count && words ≠ 1 then
                each.zipIdx.filterMap (fun e => e.1.specAtomic.map (fun a => ((pc, count - e.2), a, seen ++ each.take e.2)))
                  ++ s.specsFrom w fuel (words - 1 - i.len / 8) (seen ++ each) (pc + 8 + i.len)
              else []
            | _ => []
        | .ok i =>
          (match i.specAtomic with | some a => [((pc, 0), a, seen)] | none => [])
            ++ (if i.endsWay then [] else s.specsFrom w fuel (words - i.len / 8) (seen ++ [i]) (pc + i.len))
        | _ => []

/-- One atomic performed ahead for the lanes chosen: their entries enter TSQ now, with the guard and the sources as they stand.
Lanes that go this way keep a record for when they reach it. A lane whose address fails a check performs nothing ahead. -/
def Ctx.performAhead (c : Ctx) (s : State) (at_ : Nat × Nat) (a : SpecAtomic) (chosen goes : Nat → Bool) : State :=
  let f := a.form
  let os := [f.b, a.cmp]
  let lanes := c.front.lanes.filter (fun l => chosen l && (c.pred l f.hdr.p != f.hdr.neg))
  let n := f.ty.bytes
  let addr (l : Nat) : Nat := c.address .global f.a (FormAt.address f) l
  let good := lanes.filterMap (fun l => match c.s.check c.w .global (.at (match a.op with | some op => op == .add | none => true)) l (addr l) n n with
    | .ok loc => some (l, loc)
    | _ => none)
  if good.isEmpty then s
  else
    let id := s.nextId
    let fn (l : Nat) : AtomFn := match a.op with
      | some op => .op op f.ty
      | none => .cas f.ty (c.rd os 1 f.ty.wide l % 256 ^ n)
    let s := c.atomEntries { s with nextId := id + 1 } f.use f.scope n (some id) fn (fun l => c.rd os 0 f.ty.wide l) good
    let s := s.modWarp c.wid (fun w => { w with early := w.early ++
      ((good.filter (fun e => goes e.1)).map (fun e => { lane := e.1, at_ := at_.1, rep := at_.2, level := c.w.level, id := id : Early })) })
    c.stamped s .global .atomic n addr (good.map (·.1))

/-- May the atomic be performed ahead of this branch? In a deterministic grid none is (R372, log 41); nor is one whose data a queue
gives, or the branch's link. -/
def Ctx.mayPerformAhead (c : Ctx) (link : Opnd) (a : SpecAtomic) : Bool :=
  !(c.s.gridOf c.w).launch.det && decide (a.form.d.need (regsOf a.form.ty.wide) ≤ (c.s.kernOf c.w).regs)
    && a.sources.all (fun o => decide (o.1.need o.2 ≤ (c.s.kernOf c.w).regs)
      && (match o.1, link with
        | .oq _, _ => false
        | .v n, .v m => !(decide (n ≤ m) && decide (m < n + o.2))
        | .w n, .w m => !(decide (n ≤ m) && decide (m < n + o.2))
        | _, _ => true))

/-- R306: a direct branch performs ahead, for each atomic on its two ways, a free choice among its lanes (log 41). -/
def Ctx.ahead (c : Ctx) (s : State) (link : Opnd) (target : Nat) : State :=
  let pc := (c.w.th (c.front.lowest.getD 0)).pc
  let way (taken : Bool) (start : Nat) : List (Bool × (Nat × Nat) × SpecAtomic × List Instr) :=
    ((c.s.specsFrom c.w 16 16 [] start).filter (fun a => c.mayPerformAhead link a.2.1)).map (fun a => (taken, a))
  (way true target ++ way false (pc + c.len)).zipIdx.foldl (fun s a =>
    let picks : Mask := BitVec.ofNat 32 (Config.free (c.s.fresh + 145000 + a.2))
    c.performAhead s a.1.2.1 a.1.2.2.1 (fun l => picks.has l && a.1.2.2.1.kept (fun o => match o with
        | .oq _ => none
        | o => some (c.rd [o] 0 false l)) (fun h => some [(c.w.getH l h).toNat % 2 ^ 32]) a.1.2.2.2)
      (fun l => c.active.has l == a.1.1)) s

/-- R306: a lane that branches has left the way to whatever an earlier branch performed ahead for it. -/
def Ctx.leftEarly (c : Ctx) : List Early := c.w.early.filter (fun e => !(c.front.has e.lane && e.level == c.w.level))

end Sys2Proof.Machine
end

