-- ==== Sys2Proof/Machine/Sha.lean ====
section
/-! DEFINITION. SHA-512, which DGST (R147) and ATTEST (R387) apply: the published function on byte strings. Its constants are computed
from what defines them, roots of the first primes, and its eight working words are kept as two histories of four. -/
namespace Sys2Proof

/-! ## Constants -/

/-- The greatest number below `2^n` above `r` whose `k`-th power does not exceed `x`, one bit at a time. -/
def rootBits (k x : Nat) : Nat → Nat → Nat
  | 0, r => r
  | n + 1, r => rootBits k x n (if (r + 2 ^ n) ^ k ≤ x then r + 2 ^ n else r)

/-- The first 64 bits after the binary point of the `k`-th root of a number below 2^10. -/
def rootFraction (k p : Nat) : DWord := BitVec.ofNat 64 (rootBits k (p * 2 ^ (64 * k)) 74 0)

def isPrime (p : Nat) : Bool := decide (2 ≤ p) && (List.range (p - 2)).all (fun d => p % (d + 2) != 0)

/-- The first 80 primes are those up to 409. -/
def shaPrimes : List Nat := (List.range 410).filter isPrime

/-! ## One block -/

/-- The exclusive or of a word turned right by each of some amounts. -/
def turned (x : DWord) (by_ : List Nat) : DWord := by_.foldl (fun y n => y ^^^ x.rotateRight n) 0

/-- The word that follows a message's last sixteen, of which `w` are the latest first. -/
def nextWord (w : List DWord) : DWord :=
  let ago (n : Nat) : DWord := w.getD (n - 1) 0
  ago 16 + ago 7 + (turned (ago 15) [1, 8] ^^^ ago 15 >>> 7) + (turned (ago 2) [19, 61] ^^^ ago 2 >>> 6)

/-- The working words: the last four values of each of the two that a round computes, the latest first. -/
structure Digest where
  one : List DWord
  two : List DWord
  deriving DecidableEq, Repr

def Digest.words (h : Digest) : List DWord := h.one ++ h.two
def Digest.ofWords (w : List DWord) : Digest := { one := w.take 4, two := w.drop 4 }

/-- A round, with its constant and its message word. -/
def Digest.round (h : Digest) (k w : DWord) : Digest :=
  let x (n : Nat) : DWord := h.one.getD n 0
  let y (n : Nat) : DWord := h.two.getD n 0
  let choice := y 2 ^^^ (y 0 &&& (y 1 ^^^ y 2))
  let majority := (x 0 &&& x 1) ||| (x 2 &&& (x 0 ||| x 1))
  let sum := k + w + choice + y 3 + turned (y 0) [41, 18, 14]
  { one := (sum + majority + turned (x 0) [39, 34, 28]) :: h.one.take 3, two := (x 3 + sum) :: h.two.take 3 }

/-- The rounds for the constants given: `w` are the message's words still to come and those behind, the latest first. -/
def Digest.rounds : List DWord → List DWord → List DWord → Digest → Digest
  | [], _, _, h => h
  | k :: ks, x :: xs, old, h => Digest.rounds ks xs (x :: old) (h.round k x)
  | k :: ks, [], old, h => let x := nextWord old; Digest.rounds ks [] (x :: old) (h.round k x)

/-! ## A message -/

/-- A number as bytes, the most significant first, and back. -/
def bigEndian (n x : Nat) : List Byte := (List.range n).map (fun i => BitVec.ofNat 8 (x >>> (8 * (n - 1 - i))))
def ofBigEndian (bs : List Byte) : Nat := bs.foldl (fun n b => 256 * n + b.toNat) 0

/-- A block of 16 words of 8 bytes, added into the words before it. -/
def Digest.absorb (ks : List DWord) (h : Digest) (block : List Byte) : Digest :=
  let words := (List.range 16).map (fun i => BitVec.ofNat 64 (ofBigEndian ((block.drop (8 * i)).take 8)))
  .ofWords (List.zipWith (· + ·) h.words (Digest.rounds ks words [] h).words)

/-- The digest, 64 bytes: the message, a bit 1, zeros, and its length in bits fill whole blocks of 128 bytes. -/
def sha512 (m : List Byte) : List Byte :=
  let blocks := ceilDiv (m.length + 17) 128
  let padded := m ++ 0x80 :: List.replicate (128 * blocks - m.length - 17) 0 ++ bigEndian 16 (8 * m.length)
  let start := Digest.ofWords ((shaPrimes.take 8).map (rootFraction 2))
  let ks := shaPrimes.map (rootFraction 3)
  ((List.range blocks).foldl (fun h i => h.absorb ks ((padded.drop (128 * i)).take 128)) start).words.flatMap (fun w => bigEndian 8 w.toNat)

end Sys2Proof
end

