-- ==== Sys2Proof/Machine/Control.lean ====
section
/-! DEFINITION. Control flow, synchronisation, launch and system instructions (R127–R148). -/
namespace Sys2Proof.Machine

/-! ## Shapes of a control instruction's end -/

/-- The lanes of `blocked` wait where they stand, with the state given; the rest of the front moves past (R24). The
current front is what is left, or the next one (R30, switch point 3). -/
def Ctx.block (c : Ctx) (s : State) (w : Warp) (blocked : List (Nat × TState)) : State :=
  let w := w.count c.front
  let w := w.modLanes c.front (fun l t =>
    match blocked.find? (fun b => b.1 == l) with
    | some (_, st) => { t with st := st }
    | none => t.next c.len)
  s.putWarp c.wid w.settle

/-! ## Branches (R27, R28, R104, R130) -/

/-- Which lanes' targets fail R104; or the page that must be present before that is known. -/
def failing (s : State) (w : Warp) : List (Nat × Int) → Except (Nat × Nat) (List Nat)
  | [] => .ok []
  | (l, t) :: r =>
    match s.isHead w t with
    | .error p => .error p
    | .ok b => match failing s w r with
      | .error p => .error p
      | .ok ls => .ok (if b then ls else l :: ls)

/-- The effect shared by the five branch forms. `target l` is a code offset; `direct` is that of BRA and CALL, which may perform
atomics ahead (R306). -/
def Ctx.branch (c : Ctx) (j : Option Nat) (link : Opnd) (target : Nat → Int) (direct : Option Int := none) : Iss :=
  let ts := c.active.lanes.map (fun l => (l, target l))
  match failing c.s c.w ts with
  | .error p => .fault p.1 p.2 4
  | .ok (l :: ls) => .trap c.s .illegalTarget (Mask.ofList (l :: ls))
  | .ok [] =>
    let w := c.counted
    let w := match j with
      | some k => (w.putJ k c.front).releaseJoins
      | none => w
    let pc := (c.w.th (c.front.lowest.getD 0)).pc
    let w := (c.lanes link).foldl (fun w l => c.put w link l false (pc + 8)) w
    let w := w.modLanes c.front (fun l t => if c.active.has l then { t with pc := (target l).toNat } else t.next c.len)
    -- the part that holds the lowest lane of the front stays current (R27)
    let same (a b : Nat) : Bool := c.active.has a == c.active.has b && (!c.active.has a || target a == target b)
    let low := c.front.lowest.getD 0
    let s := c.s.putWarp c.wid { w with
      cur := some (Mask.ofPred (fun l => c.front.has l && same l low)), early := c.leftEarly }
    .moved (match direct with
      | some t => c.ahead s link t.toNat
      | none => s)

/-- A target relative to the instruction (BRA, CALL). -/
def Ctx.relative (c : Ctx) (off : Int) : Int := Int.ofNat (c.w.th (c.front.lowest.getD 0)).pc + 8 * off

def execBra (h : Hdr) (off : BitVec 30) (j : Option Nat) (s : State) : Res :=
  issue 0x01 8 0 h s (fun c => c.branch j .none (fun _ => c.relative off.toInt) (some (c.relative off.toInt)))

def execBrx (h : Hdr) (a : Opnd) (j : Option Nat) (s : State) : Res :=
  issue 0x02 8 (a.need 1) h s (fun c => c.branch j .none (fun l => Int.ofNat (c.rd [a] 0 false l)))

def execCall (h : Hdr) (d : Opnd) (off : BitVec 20) (j : Option Nat) (s : State) : Res :=
  issue 0x04 8 (d.need 1) h s (fun c => c.branch j d (fun _ => c.relative off.toInt) (some (c.relative off.toInt)))

def execCallx (h : Hdr) (d a : Opnd) (j : Option Nat) (s : State) : Res :=
  issue 0x05 8 (max (d.need 1) (a.need 1)) h s (fun c => c.branch j d (fun l => Int.ofNat (c.rd [a] 0 false l)))

def execRet (h : Hdr) (a : Opnd) (j : Option Nat) (s : State) : Res :=
  issue 0x06 8 (a.need 1) h s (fun c => c.branch j .none (fun l => Int.ofNat (c.rd [a] 0 false l)))

/-! ## NOP, JOIN, YIELD, EXIT (R131, R132) -/

def execNop (h : Hdr) (s : State) : Res := issue 0x00 8 0 h s (fun c => .done c.s)

/-- R34: the front arrives; the threads whose condition holds leave. Switch point 1. -/
def execJoin (h : Hdr) (k : Nat) (s : State) : Res :=
  issue 0x03 8 0 h s (fun c =>
    let w := c.counted.modLanes c.front (fun _ t => { t with st := .join k })
    .moved (c.s.putWarp c.wid (w.releaseJoins.reselect false)))

/-- Switch point 2 (R30, R31). -/
def execYield (h : Hdr) (s : State) : Res :=
  issue 0x07 8 0 h s (fun c => .moved (c.s.putWarp c.wid ((c.counted.advance c.front c.len).reselect true)))

/-- R132, R300: each active lane is EXITED and carries a DEV-scope release. -/
def execExit (h : Hdr) (s : State) : Res :=
  issue 0x08 8 0 h s (fun c =>
    let s := c.block (c.s.addMarkers .relMarker c.wid c.active .dev c.w.order c.w.core) c.w (c.active.lanes.map (fun l => (l, .exited)))
    .moved ((s.tryBars c.w.team).turnstile (s.teamOf c.w).grid))

/-! ## Barriers (R133, R134) -/

def execBar (h : Hdr) (b : Nat) (s : State) : Res :=
  issue 0x09 8 0 h s (fun c =>
    let e := Table.get 0 (c.s.teamOf c.w).bars b
    let s := c.s.addMarkers .relMarker c.wid c.front .core c.w.order c.w.core
    .moved ((c.block s c.w (c.front.lanes.map (fun l => (l, .bar b e)))).tryBars c.w.team))

def execBarc (h : Hdr) (s : State) : Res :=
  issue 0x0A 8 0 h s (fun c =>
    if (c.s.gridOf c.w).launch.det then .trap c.s .detViolation c.active
    else
      let e := match c.s.span? (c.s.teamOf c.w).span with
        | some g => g.gen
        | none => 0
      let s := c.s.addMarkers .relMarker c.wid c.front .clus c.w.order c.w.core
      .moved ((c.block s c.w (c.front.lanes.map (fun l => (l, .barc e)))).tryBars c.w.team))

/-! ## Launch and wait (R135, R136) -/

/-- A launch record from its bytes (Table 24.2). -/
def launchOf (rd : Nat → Nat → Nat) (at_ : Nat) : Launch := {
  object := rd 0x00 8
  arg := rd 0x08 8
  dims := (rd 0x10 4 + 1, rd 0x14 4 + 1, rd 0x18 4 + 1)
  span := rd 0x1C 1
  warps := rd 0x1D 1
  det := rd 0x1E 1 % 2 = 1
  key := BitVec.ofNat 64 (rd 0x20 8)
  spill := rd 0x28 8
  spillEntries := rd 0x30 4
  counter := rd 0x38 8
  prereqs := [(rd 0x40 8, rd 0x48 8), (rd 0x50 8, rd 0x58 8), (rd 0x60 8, rd 0x68 8), (rd 0x70 8, rd 0x78 8)]
  at_ := at_ }

/-- The capacity of a child queue (R314). -/
def childQueue : Nat := 64

/-- Is a load one that an instruction of the warp waits for before it issues (R297)? -/
def Load.forRecord (l : Load) (wid : Nat) : Bool := l.for_ == .warp wid 0

/-- The bytes of a lane's record, once the loads of them are satisfied. -/
def State.recordBytes (s : State) (wid lane order loc n : Nat) : Option (List Byte) :=
  (byteRange loc n).foldr (fun b acc => match acc, s.loads.find? (fun l => l.forRecord wid && l.lane == lane && l.order == order && l.loc == b) with
    | some bs, some l => l.val.map (· :: bs)
    | _, _ => none) (some [])

def State.dropRecords (s : State) (wid : Nat) : State := { s with loads := s.loads.filter (fun l => !l.forRecord wid) }

/-- A form that reads records of `n` bytes, by lane and location, with plain loads before it does anything else: it waits until they are
satisfied, and `k` goes on with the bytes. -/
def Ctx.records (c : Ctx) (reads : List (Nat × Nat)) (n : Nat) (k : State → List (Nat × List Byte) → Iss) : Iss :=
  let got := reads.map (fun e => (e.1, c.s.recordBytes c.wid e.1 c.w.order e.2 n))
  if got.all (fun e => e.2.isSome) then k (c.s.dropRecords c.wid) (got.map (fun e => (e.1, e.2.getD [])))
  else if c.s.loads.any (fun l => l.forRecord c.wid && l.order == c.w.order) then .wait .memWait
  else .hold (reads.foldl (fun s e => (s.addLoads 0 c.wid e.1 c.w.core e.2 n .core c.w.order false).1) (c.s.dropRecords c.wid)) .memWait

/-- The stamps of record reads, which are global loads of their threads (R374). -/
def Ctx.stampRecords (c : Ctx) (s : State) (n : Nat) (addr : Nat → Nat) (lanes : List Nat) : State := c.stamped s .global .load n addr lanes

/-- A field of a record. -/
def recField (bs : List Byte) (o n : Nat) : Nat := leNat ((bs.drop o).take n)

/-- The check of a plain read that the Latch table does not refuse: alignment, then translation (R135). -/
def State.checkRead (s : State) (w : Warp) (lane a align : Nat) : Chk :=
  if a % align ≠ 0 then .cause .misaligned none else s.place w a .rd lane

/-- R135: the records of the lanes, in ascending order, enter the child queue; each child receives its identifier. In a grid of depth 10
that trap comes before those of the addresses (log 77). While the child queue has no room for every record, none enters it, and none is
read (R346, log 94). With a W destination a failed address names all active lanes (log 107). -/
def execLaunch (h : Hdr) (d a : Opnd) (s : State) : Res :=
  issue 0x0B 8 (max (d.need 1) (a.need 2)) h s (fun c =>
    let g := c.s.gridOf c.w
    let gid := (c.s.teamOf c.w).grid
    let lanes := c.lanes d
    let addr (l : Nat) : Nat := c.rd [a] 0 true l
    let cs := lanes.map (fun l => (l, c.s.checkRead c.w l (addr l) 128))
    if lanes.isEmpty then .done c.s
    else if g.depth = 10 then .trap c.s .nestDepth c.active
    else if !(missed cs).isEmpty then .walk (missed cs)
    else match firstCause cs with
      | some (k, ls) =>
        .trap ((cs.filterMap (·.2.bad?)).foldl (fun s va => s.reportBad c.w va) c.s) k (if d.isW then c.active else Mask.ofList ls)
      | none => match cs.findSome? (fun e => match e.2 with | .absent p z => some (p, z) | _ => none) with
        | some (p, z) => .fault p z 1
        | none =>
          if childQueue < g.childq.length + lanes.length then .wait .queueWait
          else
            let reads := cs.map (fun e => (e.1, match e.2 with | .ok loc => loc | _ => 0))
            c.records reads 128 (fun s recs =>
              let first := s.mod.nextIdent
              let entries := recs.zipIdx.map (fun e =>
                (first + e.2, { launchOf (recField e.1.2) (addr e.1.1) with device := true, by_ := (c.wid, e.1.1, c.w.order) }))
              let ids := entries.map (·.1)
              let w := (lanes.zip ids).foldl (fun w e => c.put w d e.1 false (e.2 % 2 ^ 32)) c.w
              let s := (c.stampRecords s 128 addr lanes).putWarp c.wid w
              let s := s.putGrid gid { g with childq := g.childq ++ entries, children := g.children ++ ids }
              let s := s.modTeam c.w.team (fun t => { t with children := t.children ++ ids })
              let s := { s with mod := { s.mod with nextIdent := first + ids.length } }
              .done (s.addMarkers .relMarker c.wid (Mask.ofList lanes) .dev c.w.order c.w.core)))

/-- The grids that a lane's CWAIT waits for (R136). -/
def cwaitFor (g : Grid) (t : Team) (a : Opnd) (x : Nat) : List Nat :=
  match a with
  | .zero => t.children
  | _ => g.children.filter (fun k => k % 2 ^ 32 == x)

/-- R136: lanes whose condition holds go on, with CWAIT's acquire (Table 10.3). -/
def execCwait (h : Hdr) (a : Opnd) (s : State) : Res :=
  issue 0x0C 8 (a.need 1) h s (fun c =>
    let for_ (l : Nat) : List Nat := cwaitFor (c.s.gridOf c.w) (c.s.teamOf c.w) a (c.rd [a] 0 false l)
    let blocked := c.active.lanes.filter (fun l => !(for_ l).isEmpty)
    let s := if c.active.lanes.length = blocked.length then c.s else c.s.acquire c.w.core .dev
    .moved (c.block s c.w (blocked.map (fun l => (l, .cwait (for_ l))))))

/-! ## REGROUP (R137) -/

/-- R137: the lanes deposit, or wait with the key and the payload of this issue (log 95). -/
def execRegroup (h : Hdr) (a b : Opnd) (n : Nat) (s : State) : Res :=
  issue 0x0D 8 (max (a.need 1) (b.need n)) h s (fun c =>
    let g := c.s.gridOf c.w
    if c.active == 0 then .done c.s
    else if !g.kern.hasCont then .trap c.s .illegalOperand c.active
    else
      let payload (l : Nat) : List Word := match b with
        | .v k => (List.range n).map (fun i => c.getV l (k + i))
        | _ => []
      let want := c.active.lanes.map (fun l => (l, c.rd [a] 0 false l % 2 ^ 16, payload l))
      match c.s.spillWaits g c.w.core want.length with
      | some (p, z) => .fault p z 2
      | none =>
        let (s, left) := depositLanes c.wid c.s want
        let gid := (c.s.teamOf c.w).grid
        match s.warp? c.wid with
        | none => .done s
        | some w =>
          if g.launch.det && !left.isEmpty then
            .trap ((s.modWarp c.wid Warp.releaseJoins).tryBars c.w.team) .detViolation (Mask.ofList (left.map (·.1)))
          else
            let gone := (want.filter (fun e => !(left.any (fun x => x.1 == e.1)))).map (fun e => (e.1, TState.deposited))
            let s := c.block s w (gone ++ left.map (fun e => (e.1, TState.regroup e.2.1 e.2.2)))
            .moved ((s.tryBars c.w.team).turnstile gid))

/-! ## Sleep and time (R138, R139) -/

def execSleep (h : Hdr) (b : BArg) (s : State) : Res :=
  issue 0x0E (if b.x = 1 then 16 else 8) (b.need 1) h s (fun c =>
    let ticks (l : Nat) : Nat := c.rdB [b.src] 0 b .u32 false l % 2 ^ 32
    .moved (c.block c.s c.w ((c.active.lanes.filter (fun l => ticks l ≠ 0)).map (fun l => (l, .sleep (c.s.mod.gts + ticks l) c.len)))))

def execTstamp (h : Hdr) (d : Opnd) (s : State) : Res :=
  issue 0x0F 8 (d.need 2) h s (fun c => c.alu d true [] (fun _ => { bits := c.s.mod.gts % 2 ^ 64 }))

/-! ## Special registers (R67, R140, R141) -/

/-- SR_FSTEP (Table 30.3). -/
def State.fstep (s : State) (core : Nat) : Nat :=
  (600 + 25 * s.stepOf (dieOfCore core)) * 2 ^ 8 + s.ratioOf core

/-- SR_SHUTSTAT (Table 30.2). -/
def Part.shutstat (p : Part) : Nat := p.refusals % 2 ^ 16 * 2 ^ 16 + p.used * 2 ^ 8 + p.budget

/-- The temperature band of a die (Table 30.3): the junction temperature comes from outside (log 6). -/
def State.tband (s : State) (die : Nat) : Nat := Config.free (s.fresh + 115000 + die) % 8

/-- The value of a special register for a lane; none where reading it is refused (Table 4.6). -/
def State.special (s : State) (w : Warp) (lane n : Nat) : Option Nat :=
  let t := s.teamOf w
  let g := s.gridOf w
  let xyz (v : Nat) : Nat := if t.cont then 2 ^ 32 - 1 else v
  let th := w.th lane
  match n with
  | 0x00 => some lane
  | 0x01 => some w.num
  | 0x02 => some (t.index % 2 ^ 64)
  | 0x03 => some (xyz (t.index % g.launch.dims.1))
  | 0x04 => some (xyz (t.index / g.launch.dims.1 % g.launch.dims.2.1))
  | 0x05 => some (xyz (t.index / g.launch.dims.1 / g.launch.dims.2.1))
  | 0x06 => some g.ident
  | 0x07 => some g.depth
  | 0x08 => some ((s.core w.core).cyc % 2 ^ 64)
  | 0x09 => some (s.fstep w.core)
  | 0x0A => some (s.tband (dieOfCore w.core))
  | 0x0B => some (s.mod.boost % 2 ^ 24)
  | 0x0C => some (s.part w.part).shutstat
  | 0x10 => some th.fpf.toNat
  | 0x11 => some w.fpctl.toNat
  | 0x12 => some th.lvmem.toNat
  | 0x13 => some w.lvctl.toNat
  | 0x14 => some w.srstate.toNat
  | 0x15 => some w.done.toNat
  | 0x16 => some th.rep
  | 0x17 => some w.cpnum
  | 0x18 => some w.trapcause.toNat
  | 0x19 => some w.traplanes.toNat
  | 0x1A => some w.tvec.toNat
  | _ => none

def execSrd (h : Hdr) (d : Opnd) (n : Nat) (s : State) : Res :=
  issue 0x10 8 (d.need (regsOf (srWide n))) h s (fun c =>
    match c.s.special c.w 0 n with
    | none => .trap c.s .illegalOperand c.front
    | some _ => c.alu d (srWide n) [] (fun l => { bits := (c.s.special c.w l n).getD 0 }))

/-- The bits of SR_LVCTL that are not reserved (Table 17.4). -/
def lvctlMask : Word := 3

/-- A write of a per-thread register in a lane (R141, Table 4.7). -/
def Thread.setSpecial (t : Thread) (n : Nat) (x : Nat) : Thread :=
  match n with
  | 0x10 => { t with fpf := BitVec.ofNat 32 (x % 64) }
  | 0x12 => { t with lvmem := BitVec.ofNat 32 (x % 2 ^ 16) }
  | _ => t

/-- A write of a per-warp register (R141). Writes to reserved bits are ignored (R67). -/
def Warp.setSpecial (w : Warp) (n : Nat) (x : Nat) : Warp :=
  match n with
  | 0x11 => { w with fpctl := BitVec.ofNat 32 (x % 64) }
  | 0x13 => { w with lvctl := BitVec.ofNat 32 x &&& lvctlMask }
  | 0x14 => { w with srstate := srFix (BitVec.ofNat 64 x) }
  | 0x15 => { w with done := BitVec.ofNat 32 x }
  | 0x17 => { w with cpnum := x % 2 ^ 16 }
  | 0x18 => { w with trapcause := BitVec.ofNat 32 (x % 2 ^ 26) }
  | 0x19 => { w with traplanes := BitVec.ofNat 32 x }
  | 0x1A => { w with tvec := BitVec.ofNat 32 (x / 8 * 8) }
  | _ => w

def srWritable (n : Nat) : Bool := (decide (0x10 ≤ n) && decide (n ≤ 0x15)) || (decide (0x17 ≤ n) && decide (n ≤ 0x1A))

/-- R67: an SRD or SWR whose register it may not access traps at decode (R97). -/
def mayAccess : Instr → Bool
  | .srd _ _ n => decide (n ≤ 0x0C) || (decide (0x10 ≤ n) && decide (n ≤ 0x1A))
  | .swr _ _ n => srWritable n
  | _ => true

def execSwr (h : Hdr) (a : Opnd) (n : Nat) (s : State) : Res :=
  issue 0x11 8 (a.need (regsOf (srWide n))) h s (fun c =>
    if !srWritable n then .trap c.s .illegalOperand c.front
    else
      let x (l : Nat) : Nat := c.rd [a] 0 (srWide n) l
      let w := match c.active.lowest with
        | none => c.w
        | some l => (c.w.modLanes c.active (fun l t => t.setSpecial n (x l))).setSpecial n (x l)
      .done (c.s.putWarp c.wid w))

/-! ## Traps (R142–R144) -/

def execTrap (h : Hdr) (code : Nat) (s : State) : Res :=
  issue 0x12 8 0 h s (fun c => if c.active == 0 then .done c.s else .trap c.s .trap c.active .next code)

/-- R143: NOP where no debug handler is attached to the context (R383). -/
def execBkpt (h : Hdr) (code : Nat) (s : State) : Res :=
  issue 0x14 8 0 h s (fun c =>
    if c.active == 0 || !(c.s.context (c.s.ctxOf c.w)).debug then .done c.s else .trap c.s .breakpoint c.active .next code)

/-- R144, R333: the front waits for the rest of the handler front; the last to arrive ends the trap. In a save or restore
routine it ends the routine for these lanes (R338). -/
def execTret (h : Hdr) (s : State) : Res :=
  issue 0x13 8 0 h s (fun c =>
    let inRoutine := match c.w.resid with
      | .busy _ => true
      | _ => false
    if c.w.trap.isNone && !inRoutine then .trap c.s .illegalOperand c.front
    else
      let w := c.counted.modLanes c.front (fun _ t => { t with st := .tret })
      let s := match c.w.trap with
        | some r => if w.trapOver.isSome then c.s.event c.w c.w.part 2 r.cause.code else c.s
        | none => c.s
      .moved (s.putWarp c.wid w.settle))

/-! ## SETPRIO (R146) -/

def execSetprio (h : Hdr) (b : BArg) (s : State) : Res :=
  issue 0x16 8 (b.need 1) h s (fun c =>
    match c.active.lowest with
    | none => .done c.s
    | some l => .done (c.s.putWarp c.wid { c.w with prio := min (c.rdB [b.src] 0 b .u32 false l % 4) c.w.prioCap }))

/-! ## DGST (R147, R376) -/

/-- The message that DGST folds (R147). -/
def dgstMessage (team num tag count : Nat) (active : Mask) (regs : List Word) : List Byte :=
  leBytes 8 team ++ leBytes 4 num ++ leBytes 4 tag ++ leBytes 4 count ++ leBytes 4 active.toNat
    ++ regs.flatMap (fun x => leBytes 4 x.toNat)

/-- R147, R376: the one entry stands in the TSQ of the lowest active lane: the issuing thread is not named (log 96). A cause that
the accumulator's access holds is trapped for all active lanes (log 108). -/
def execDgst (h : Hdr) (a : Opnd) (tag : BArg) (count : Nat) (s : State) : Res :=
  issue 0x17 8 (max (a.need count) (tag.need 1)) h s (fun c =>
    let acc := (c.s.context (c.s.ctxOf c.w)).accum
    match c.active.lowest with
    | none => .done c.s
    | some l0 =>
      if acc = 0 then .done c.s
      else match c.s.check c.w .global (.at false) l0 acc 64 64 with
        | .miss u => .walk [u]
        | .absent p z => .fault p z 3
        | .cause k v => .trap (v.toList.foldl (fun s va => s.reportBad c.w va) c.s) k c.active
        | .ok loc =>
          let first := match a with
            | .v n => n
            | _ => 0
          let regs := c.active.lanes.flatMap (fun l => (List.range count).map (fun i => c.getV l (first + i)))
          let m := dgstMessage (c.s.teamOf c.w).index c.w.num (c.rdB [tag.src] 0 tag .u32 false l0 % 2 ^ 32) count c.active regs
          let (id, s) := (c.stamped c.s .global .atomic 64 (fun _ => acc) [l0]).newId
          .done { s with entries := s.entries ++ [{
            id := id, place := .tsq c.wid l0, kind := .atomic id id .fold .unp none, loc := loc, len := 64
            val := leNat (sha512 m), scope := .dev, warp := c.wid, lane := l0, core := c.w.core, order := c.w.order }] })

end Sys2Proof.Machine
end

