-- ==== Sys2Proof/Machine/Schedule.lean ====
section
/-! DEFINITION. From launch queue to issue slot (R18, R41, R43, R47, R124, R312–R322): records, prerequisites, the distributor
tree, stealing, continuation teams, retirement; and the warp events of R30, R138 and R324. -/
namespace Sys2Proof.Machine

/-! ## The device's own reads -/

/-- The device reads or writes a physical range that the host named; one that does not exist stops the machine (log 8). -/
def State.reach (s : State) (pa n : Nat) (k : Res) : Res := if s.assignedRange pa n then k else .fault (.unassignedAddress pa)

/-- `n` bytes of a context, where they are all there. -/
def State.devRead (s : State) (ctx va n : Nat) : Nat :=
  leNat ((List.range n).map (fun i => match s.devPlace ctx (va + i) .rd with | .ok l => s.tableByte 0 (l % paTop) | _ => 0))

/-! ## Launch queues (R312, R313) -/

/-- A queue's header (Table 24.1), once the device runs. -/
def State.header (s : State) (q : Nat) : Option Nat := s.mod.bringup.map (fun b => b.queues + 128 * q)
def State.served (s : State) (h : Nat) : Bool := s.peekN (h + 0x0D) 1 % 2 = 1

/-- The source number of an agent to which Table 28.6 gives none (a free value, log 2). -/
def State.noSource (s : State) : Nat := Config.free (s.fresh + 130000) % 2 ^ 16

/-- R313: the distributor reads a queue's tail; an overrun disables the queue. -/
def execLaunchQueueTailRead (q : Nat) (s : State) : Res :=
  match s.header q with
  | none => .next s
  | some h =>
    if 64 ≤ q then .next s
    else s.reach h 128 (.next (
      if !s.served h || (s.queue q).overrun then s
      else
        let tail := s.peekN (h + 0x10) 4
        let s := s.putQueue q { s.queue q with tail := some tail }
        if s.peekN (h + 8) 4 < (tail + 2 ^ 32 - s.peekN (h + 0x14) 4) % 2 ^ 32 then
          ((s.putQueue q { s.queue q with overrun := true }).pokeN (h + 0x0D) 1 (s.peekN (h + 0x0D) 1 / 2 * 2)).errorRecord 0x12 0 s.noSource h
        else s))

/-! ## Records (R124, R314–R316) -/

/-- A kernel object's header (Table 8.3), from its bytes. Its flags say whether it has a continuation and a handler, whatever the offsets
hold (log 73); offsets and sizes are taken as they stand (log 92, log 93). -/
def kernelOf (rd : Nat → Nat → Nat) (obj : Nat) : Kernel :=
  let flags := rd 0x06 2
  { det := flags % 2 = 1
    hasCont := flags / 2 % 2 = 1
    id := rd 0x08 4
    code := (obj + rd 0x10 4) % 2 ^ 64
    codeSize := rd 0x14 4
    entry := rd 0x18 4
    cont := rd 0x1C 4
    handler := if flags / 4 % 2 = 1 then rd 0x20 4 / 8 * 8 else 0xFFFFFFF8
    regs := rd 0x24 2
    lanebytes := rd 0x28 2
    scratch := rd 0x2C 4
    clusterspan := rd 0x30 4
    spTable := (obj + rd 0x34 4) % 2 ^ 64
    spCount := rd 0x38 4
    mask := rd 0x44 4
    descs := (List.range 16).map (fun k => BitVec.ofNat 96 (rd (0x80 + 12 * k) 12)) }

/-- The header's bytes: 320. -/
def headerBytes : Nat := 320

/-- Addresses on all pages of a kernel object: those of its header, and once these are there those of all its bytes (R124). -/
def State.objectAddrs (s : State) (ctx obj : Nat) : List Nat :=
  let head := [obj, obj + headerBytes - 1]
  if head.any (fun a => (s.devPlace ctx a .rd).loc?.isNone) then head
  else
    let n := max headerBytes (s.devRead ctx (obj + 0x0C) 4)
    (List.range (n / 2 ^ 15 + 2)).map (fun i => obj + min (2 ^ 15 * i) (n - 1))

/-- What the pages of a kernel object come to. -/
def State.objectPages (s : State) (ctx obj : Nat) : List Chk := (s.objectAddrs ctx obj).map (fun a => s.devPlace ctx a .rd)

/-- Does a location stand in device memory (R124, R277)? -/
def inDevice (loc : Nat) : Bool := decide (loc < 2 ^ 41)

/-- Are the sections of an object where R124 puts them, from its header's fields? Bits 31 to 16 of its mask are not looked at (log 91). -/
def laidOut (rd : Nat → Nat → Nat) : Bool :=
  let table := headerBytes + rd 0x14 4
  rd 0x10 4 == headerBytes && rd 0x14 4 % 8 == 0 && rd 0x34 4 == table && rd 0x3C 4 == ceilDiv (table + 128 * rd 0x38 4) 64 * 64
    && rd 0x0C 4 % 64 == 0 && decide (rd 0x3C 4 + rd 0x40 4 ≤ rd 0x0C 4)

def State.kernelAt (s : State) (ctx obj : Nat) : Kernel := kernelOf (fun o n => s.devRead ctx (obj + o) n) obj

def Launch.teams (l : Launch) : Nat := l.dims.1 * l.dims.2.1 * l.dims.2.2
def Launch.groups (l : Launch) : Nat := ceilDiv l.teams (max l.span 1)
/-- The prerequisites in use (R316). -/
def Launch.used (l : Launch) : List (Nat × Nat) := l.prereqs.filter (fun p => p.1 ≠ 0)

/-- The lowest code of Table 24.3 that applies to a record. -/
def State.statusOf (s : State) (ctx : Nat) (l : Launch) : Nat :=
  if 2 ^ 48 < l.teams then 0x10
  else if l.span = 0 || 6 < l.span || l.warps = 0 || 32 < l.warps then 0x11
  else if l.object % 64 ≠ 0 || (s.objectPages ctx l.object).any (fun c => match c.loc? with | some l => !inDevice l | none => true)
      || s.devRead ctx l.object 4 ≠ 0x344B594E || s.devRead ctx (l.object + 4) 2 ≠ 1
      || !laidOut (fun o n => s.devRead ctx (l.object + o) n) then 0x12
  else
    let k := s.kernelAt ctx l.object
    if k.det ≠ l.det then 0x13
    else if tooBig k l.warps then 0x14
    else if k.hasCont && (l.spill = 0 || l.spillEntries = 0) then 0x15
    else if l.counter % 8 ≠ 0 || l.used.any (fun p => p.1 % 8 ≠ 0) then 0x16
    else if l.used.any (fun p => (s.devPlace ctx p.1 .rd).loc?.isNone) then 0x17
    else 0x01

/-- The counter that a retirement or a refusal advances (R317). -/
def Launch.counts (l : Launch) : Bool := l.counter ≠ 0 && l.counter % 8 = 0

/-- The absent page that a record waits for before its status is written (R285, R316, R317), with the fault's kind: a prerequisite's,
the kernel object's, a refused record's counter, or that of a child's record itself. -/
def State.takeWaits (s : State) (ctx : Nat) (l : Launch) : Option (Nat × Nat × Nat) :=
  let code := s.statusOf ctx l
  ((l.used.findSome? (fun p => (s.devPlace ctx p.1 .rd).page?)).or
      (if code = 0x12 && l.object % 64 = 0 then (s.objectPages ctx l.object).findSome? Chk.page? else none)).map (fun p => (p.1, p.2, 1))
  |>.or ((if code ≠ 0x01 && l.counts then (s.devPlace ctx l.counter (.at true)).page? else none).map (fun p => (p.1, p.2, 3)))
  |>.or ((if l.device then (s.devPlace ctx (l.at_ + 0x1F) .wr).page? else none).map (fun p => (p.1, p.2, 2)))

/-- R317: 1 is added to the counter, or a record says that it could not be. -/
def State.addCounter (s : State) (ctx : Nat) (l : Launch) : State :=
  if !l.counts then s
  else match s.devPlace ctx l.counter (.at true) with
    | .ok loc => s.pokeN loc 8 ((s.peekN loc 8 + 1) % 2 ^ 64)
    | _ => (s.reportWalks 0 ctx [l.counter]).errorRecord 0x1B ctx s.noSource l.counter

/-- A thread of the warp is READY again: the warp is no longer to be saved for a child's sake (R42). -/
def Warp.keeps (w : Warp) : Warp :=
  if w.saveDue.contains .child then
    let due := w.saveDue.filter (· != .child)
    { w with saveDue := due, parked := if due.isEmpty then 0 else w.parked }
  else w

/-- R136, R315: a child has retired, for its parent and for every CWAIT that waits for it. -/
def State.childRetired (s : State) (pid ident : Nat) : State :=
  let s := s.modGrid pid (fun g => { g with children := g.children.filter (· != ident) })
  let s := { s with mod := { s.mod with teams := Table.mapVal (fun _ (t : Team) =>
    if t.grid = pid then { t with children := t.children.filter (· != ident) } else t) s.mod.teams } }
  (s.warps.filter (fun e => (s.teamOf e.2).grid == pid)).foldl (fun s e =>
    let w := lanes32.foldl (fun (w : Warp) l => match (w.realTh l).st with
      | .cwait ks => w.setRealTh l { w.realTh l with st := .cwait (ks.filter (· != ident)) }
      | _ => w) e.2
    let free (t : Thread) : Bool := t.st == .cwait []
    match w.resid with
    | .resident =>
      if lanes32.any (fun l => free (w.th l)) then
        (s.putWarp e.1 (w.modLanes Mask.all (fun _ t => if free t then { t with st := .ready, pc := (t.pc + 8) % 2 ^ 32 } else t)).keeps.settle).acquire w.core .dev
      else s.putWarp e.1 w
    | _ => s.putWarp e.1 w) s

/-- The queue that a grid's record came from: the launch queue's number, or 64 and the parent's identifier for a child queue. -/
def Grid.source (g : Grid) : Nat := match g.parent with
  | some p => 64 + p
  | none => g.queue

/-- R316: the next record waits while a grid of the queue has unmet prerequisites. -/
def State.held_ (s : State) (q : Nat) : Bool := s.mod.grids.any (fun e => e.2.source == q && e.2.phase == .waiting)

/-- The prerequisites that are not met as their counters read now. -/
def State.unmet (s : State) (ctx : Nat) (ps : List (Nat × Nat)) : List (Nat × Nat) :=
  ps.filter (fun p => match s.devPlace ctx p.1 .rd with
    | .ok loc => decide (s.peekN loc 8 < p.2)
    | _ => true)

/-- R94: every instruction cache drops the lines of a kernel object. -/
def State.dropCode (s : State) (ctx lo hi : Nat) : State :=
  { s with cores := Table.mapVal (fun _ (c : Core) => { c with
      icache := c.icache.filter (fun e => !(decide (icacheKey ctx (lo / 128 * 128) ≤ e.1) && decide (e.1 < icacheKey ctx hi))) }) s.cores }

/-- The addresses that a record has been refused for, whose pages may have no entry, or a malformed one (R281, R315). -/
def State.refusedFor (s : State) (ctx : Nat) (l : Launch) : List Nat :=
  match s.statusOf ctx l with
  | 0x12 => if l.object % 64 = 0 then s.objectAddrs ctx l.object else []
  | 0x17 => l.used.map (·.1)
  | _ => []

/-- A record that has been checked: the grid it starts, or its refusal (R315). `status` writes into the record. -/
def State.taken (s : State) (g : Grid) (status : State → Nat → Nat → Nat → State) : State :=
  let l := g.launch
  let code := s.statusOf g.ctx l
  if code = 0x01 then
    let s := status (status s 0x1F 1 code) 0x34 4 (g.ident % 2 ^ 32)
    let s := s.dropCode g.ctx l.object (l.object + s.devRead g.ctx (l.object + 0x0C) 4)
    let unmet := s.unmet g.ctx l.used
    let (n, s) := s.newId
    let watchable := decide (l.teams ≤ 65536)
    s.putGrid g.ident { g with
      kern := s.kernelAt g.ctx l.object, accepted := n, left := (0, l.groups), nextCont := l.teams, unwatched := !watchable
      launch := { l with prereqs := unmet }, phase := if unmet.isEmpty then .running else .waiting }
  else
    let s := s.reportWalks 0 g.ctx (s.refusedFor g.ctx l)
    let s := ((status s 0x1F 1 code).addCounter g.ctx l).errorRecord 0x11 g.ctx s.noSource l.at_
    match g.parent with
    | some p => s.childRetired p g.ident
    | none => s

/-- The next record of a queue, with what taking it removes from the queue: host queues 0 to 63, and child queue of grid
`q - 64`. -/
def State.nextRecord (s : State) (q : Nat) : Option Grid :=
  if s.held_ q then none
  else if q < 64 then
    match s.header q with
    | none => none
    | some h =>
      let head := s.peekN (h + 0x14) 4
      if !s.served h || (s.queue q).overrun || (match (s.queue q).tail with | some t => t == head | none => true) then none
      else
        let at_ := s.peekN h 8 + 128 * (head % max (s.peekN (h + 8) 4) 1)
        some { ctx := Config.queueContext q, ident := s.mod.nextIdent, queue := q, cls := s.peekN (h + 0x0C) 1 % 4
               launch := launchOf (fun o n => s.peekN (at_ + o) n) at_ }
  else
    match s.grid? (q - 64) with
    | none => none
    | some p => match p.childq with
      | [] => none
      | (ident, l) :: _ =>
        if s.marked l.by_.1 l.by_.2.1 (·.order == l.by_.2.2) then none
        else some { ctx := p.ctx, ident := ident, depth := p.depth + 1, parent := some p.ident, queue := p.queue, cls := p.cls, launch := l }

/-- R315: the next record of a queue is taken. -/
def execRecordTake (q : Nat) (s : State) : Res :=
  match s.nextRecord q with
  | none => .next s
  | some g =>
    if (s.takeWaits g.ctx g.launch).isSome then .next s
    else match g.parent with
      | some p =>
        let s := (s.modGrid p (fun x => { x with childq := x.childq.drop 1 })).reportWalks 0 g.ctx [g.launch.at_ + 0x1F]
        .next (s.taken g (fun s o n v => match s.devPlace g.ctx (g.launch.at_ + o) .wr with
          | .ok loc => s.pokeN loc n v
          | _ => s))
      | none => s.reach g.launch.at_ 128 (
        let h := (s.header q).getD 0
        let s := (s.taken g (fun s o n v => s.pokeN (g.launch.at_ + o) n v)).pokeN (h + 0x14) 4 ((s.peekN (h + 0x14) 4 + 1) % 2 ^ 32)
        .next (if (s.grid? g.ident).isSome then { s with mod := { s.mod with nextIdent := g.ident + 1 } } else s))

/-- R316: the unmet counters of a queue's waiting grid are read again. -/
def execPrerequisiteMet (q : Nat) (s : State) : Res :=
  .next (match s.mod.grids.find? (fun e => e.2.source == q && e.2.phase == .waiting) with
    | none => s
    | some (i, g) =>
      let left := s.unmet g.ctx g.launch.prereqs
      (s.reportWalks 0 g.ctx (g.launch.prereqs.map (·.1))).putGrid i { g with launch := { g.launch with prereqs := left }, phase := if left.isEmpty then .running else .waiting })

/-! ## The distributor tree (R318–R320) -/

/-- The running grids, in the order in which they are served (R318). -/
def State.inOrder (s : State) : List (Nat × Grid) :=
  sortBy (fun a b => decide (b.2.cls < a.2.cls) || (a.2.cls == b.2.cls && decide (a.2.accepted ≤ b.2.accepted)))
    (s.mod.grids.filter (fun e => e.2.phase == .running))

/-- R43: no further team is placed while a thread of the grid waits at a REGROUP. -/
def State.regrouping (s : State) (gid : Nat) : Bool :=
  s.warps.any (fun e => (s.teamOf e.2).grid == gid && lanes32.any (fun l => match (e.2.realTh l).st with | .regroup _ _ => true | _ => false))

/-- The teams of a group: the first one's index and how many there are (R19). -/
def Launch.group (l : Launch) (i : Nat) : Nat × Nat := (l.span * i, min l.span (l.teams - l.span * i))

/-- Group `i` of the grid placed on a cluster, if it has room (R320). -/
def State.tryGroup (s : State) (gid : Nat) (g : Grid) (cluster i : Nat) : Option State :=
  let (base, n) := g.launch.group i
  if !s.open g.ctx cluster then none
  else (s.seats g.ctx cluster g.kern g.launch.warps n).map (fun r => s.placeSpan gid cluster base n false r.1 r.2 g.kern.entry id)

/-- The number of further groups that a cluster could place now, at most `n`. -/
def State.capOf (s : State) (gid : Nat) (g : Grid) (cluster : Nat) : Nat → Nat
  | 0 => 0
  | n + 1 => match s.tryGroup gid g cluster 0 with
    | some s' => s'.capOf gid g cluster n + 1
    | none => 0

/-- R319: `n` groups from `first` on, shared among units by what they could place. -/
def shares (first n : Nat) (caps : List (Nat × Nat)) : List (Nat × Nat × Nat) :=
  let total := (caps.map (·.2)).sum
  let floors := caps.map (fun c => (c.1, if total = 0 then 0 else n * c.2 / total, c.2))
  let spare := n - (floors.map (·.2.1)).sum
  let sizes := floors.foldl (fun (acc : List (Nat × Nat) × Nat) c =>
    if c.2.2 ≠ 0 && acc.2 ≠ 0 then (acc.1 ++ [(c.1, c.2.1 + 1)], acc.2 - 1) else (acc.1 ++ [(c.1, c.2.1)], acc.2)) ([], spare)
  (sizes.1.foldl (fun (acc : List (Nat × Nat × Nat) × Nat) u => (acc.1 ++ [(u.1, acc.2, u.2)], acc.2 + u.2)) ([], first)).1

def clustersOf (die : Nat) : List Nat := (List.range 16).map (16 * die + ·)

/-- The most groups that one cluster can hold: one warp in each of its 384 slots. -/
def mostGroups : Nat := 384

/-- The device distributor splits what it holds among the dies, then a die splits its range among its clusters (R319). -/
def State.handDown (s : State) (gid die : Nat) : State :=
  let g := s.grid gid
  let cap (k : Nat) : Nat := s.capOf gid g k mostGroups
  let g := if g.left.2 = 0 then g else
    let caps := (List.range 8).map (fun d => (d, ((clustersOf d).map cap).sum))
    if caps.all (fun c => c.2 = 0) then g
    else { g with left := (0, 0), dieRange := (shares g.left.1 g.left.2 caps).foldl (fun m u => Table.set (0, 0) m u.1 (u.2.1, u.2.2)) g.dieRange }
  let r := Table.get (0, 0) g.dieRange die
  let g := if r.2 = 0 then g else
    let caps := (clustersOf die).map (fun k => (k, cap k))
    if caps.all (fun c => c.2 = 0) then g
    else { g with
      dieRange := Table.drop g.dieRange die
      clusterRange := (shares r.1 r.2 caps).foldl (fun m u =>
        if u.2.2 = 0 then m else Table.put m u.1 (Table.get [] m u.1 ++ [(u.2.1, u.2.2)])) g.clusterRange }
  s.putGrid gid g

/-- R42: a warp that may be saved so that a child's team finds room. -/
def State.eligible (s : State) (w : Warp) : Bool :=
  (match w.resid with | .resident => true | _ => false)
  && lanes32.all (fun l => (w.th l).st.gone || (match (w.th l).st with | .cwait _ => true | _ => false))
  && lanes32.any (fun l => (match (w.th l).st with | .cwait _ => true | _ => false) &&
    (match s.codeWord w (w.th l).pc with | .word x => x / 2 ^ 61 % 2 = 1 | _ => false))

def Warp.due (w : Warp) (why : SaveWhy) : Warp := if w.saveDue.contains why then w else { w with saveDue := w.saveDue ++ [why] }

/-- The cores of a cluster that are short of room for a team, where `n` teams cannot be placed for want of it: not where the cluster takes
none, nor where its window alone has no place. -/
def State.shortCores (s : State) (g : Grid) (warps n cluster : Nat) : List Nat :=
  let short := ((List.range 6).map (6 * cluster + ·)).filter (fun c => (s.seat g.ctx c g.kern warps).isNone)
  if s.open g.ctx cluster && (s.windowFor cluster g.kern).isSome && decide (6 < n + short.length) then short else []

/-- A save becomes due for every eligible warp on the cores that a child's teams need room on (R42, R336). -/
def State.makeRoom (s : State) (g : Grid) (warps n cluster : Nat) : State :=
  let short := s.shortCores g warps n cluster
  { s with warps := Table.mapVal (fun _ (w : Warp) => if short.contains w.core && s.eligible w then w.due .child else w) s.warps }

/-! ## Stealing (R321) -/

/-- What is left of ranges below a group, and what lies from it on. -/
def below (cut : Nat) (rs : List (Nat × Nat)) : List (Nat × Nat) := (rs.map (fun r => (r.1, min r.2 (cut - r.1)))).filter (fun r => r.2 ≠ 0)
def upTo (cut : Nat) (rs : List (Nat × Nat)) : List (Nat × Nat) :=
  (rs.map (fun r => (max r.1 cut, r.1 + r.2 - max r.1 cut))).filter (fun r => r.2 ≠ 0)

/-- The group from which on ranges hold `n` groups; the ranges come highest first. -/
def cutFor : Nat → List (Nat × Nat) → Nat
  | _, [] => 0
  | n, r :: rs => if n ≤ r.2 then r.1 + r.2 - n else cutFor (n - r.2) rs

/-- The cut that leaves the lower half of ranges, rounded up. -/
def halfCut (rs : List (Nat × Nat)) : Nat := cutFor (groupsIn rs / 2) (sortBy (fun a b => decide (b.1 ≤ a.1)) rs)

def Grid.rangesOf (g : Grid) (cluster : Nat) : List (Nat × Nat) := Table.get [] g.clusterRange cluster

/-- The unplaced groups of a die: what its distributor and its clusters hold. -/
def Grid.unplaced (g : Grid) (die : Nat) : List (Nat × Nat) :=
  ([Table.get (0, 0) g.dieRange die].filter (fun r => r.2 ≠ 0)) ++ (clustersOf die).flatMap g.rangesOf

/-- Of numbered holders of ranges, the one with the most groups; ties go to the lowest number. None holds two. -/
def victim (hs : List (Nat × List (Nat × Nat))) : Option (Nat × List (Nat × Nat)) :=
  hs.foldl (fun best h => if groupsIn h.2 < 2 then best else match best with
    | none => some h
    | some b => if groupsIn b.2 < groupsIn h.2 then some h else best) none

/-- A steal for one grid: the upper half of the groups of a cluster of the same die, else of another die, whoever holds them there
(R321, log 18). -/
def Grid.steal (g : Grid) (thief : Nat) : Option Grid :=
  let die := dieOfCluster thief
  let drop (cut : Nat) (ks : List Nat) (m : SMap (List (Nat × Nat))) : SMap (List (Nat × Nat)) :=
    ks.foldl (fun m k => Table.set [] m k (below cut (Table.get [] m k))) m
  let give (m : SMap (List (Nat × Nat))) (rs : List (Nat × Nat)) : SMap (List (Nat × Nat)) :=
    Table.set [] m thief (sortBy (fun a b => decide (a.1 ≤ b.1)) rs)
  match victim (((clustersOf die).filter (· ≠ thief)).map (fun k => (k, g.rangesOf k))) with
  | some (k, rs) => some { g with clusterRange := give (drop (halfCut rs) [k] g.clusterRange) (upTo (halfCut rs) rs) }
  | none => match victim (((List.range 8).filter (· ≠ die)).map (fun d => (d, g.unplaced d))) with
    | none => none
    | some (d, rs) =>
      let cut := halfCut rs
      some { g with
        dieRange := Table.set (0, 0) g.dieRange d ((below cut [Table.get (0, 0) g.dieRange d]).headD (0, 0))
        clusterRange := give (drop cut (clustersOf d) g.clusterRange) (upTo cut rs) }

/-- R321: a cluster with no groups of the grid and with room for one steals, once what its die could hand it is handed down; the first
grid in order that has any to give. -/
def State.stealFirst (s : State) (cluster : Nat) : List (Nat × Grid) → State
  | [] => s
  | (gid, g) :: rest =>
    if s.regrouping gid || (s.tryGroup gid g cluster 0).isNone then s.stealFirst cluster rest
    else
      let s := s.handDown gid (dieOfCluster cluster)
      let g := s.grid gid
      if !(g.rangesOf cluster).isEmpty then s.stealFirst cluster rest
      else match g.steal cluster with
        | some g' => s.putGrid gid g'
        | none => s.stealFirst cluster rest

def execWorkSteal (cluster : Nat) (s : State) : Res := .next (if 128 ≤ cluster then s else s.stealFirst cluster s.inOrder)

/-! ## Continuation teams (R47, R322) -/

/-- A continuation team placed on a cluster, if it has room. -/
def State.tryCont (s : State) (gid : Nat) (g : Grid) (cluster : Nat) (c : Cont) : Option State :=
  if !s.open g.ctx cluster then none
  else (s.seats g.ctx cluster g.kern 1 1).map (fun r =>
    s.placeSpan gid cluster c.index 1 true r.1 r.2 g.kern.cont (fun w => w.continues c.key c.entries))

/-- The cluster that a continuation team goes to now: its own, or the lowest of its die with room. -/
def State.contPlace (s : State) (gid : Nat) (g : Grid) (c : Cont) : Option Nat :=
  if (s.tryCont gid g c.cluster c).isSome then some c.cluster
  else (clustersOf (dieOfCluster c.cluster)).find? (fun k => (s.tryCont gid g k c).isSome)

/-! ## Placement in order (R42, R318, R320, R322) -/

/-- The head of a cluster's ranges of one grid, placed, if it has room. -/
def State.placeHead (s : State) (gid cluster : Nat) : Option State :=
  let g := s.grid gid
  match g.rangesOf cluster with
  | [] => none
  | r :: rs => (s.tryGroup gid g cluster r.1).map (fun s =>
    let s := s.modGrid gid (fun g => { g with
      placed := true, clusterRange := Table.set [] g.clusterRange cluster (if r.2 ≤ 1 then rs else (r.1 + 1, r.2 - 1) :: rs) })
    if (s.context g.ctx).peephole && g.unwatched && !g.placed then s.emptyReport g (6 * cluster) (g.launch.group r.1).1 else s)

/-- Does a distributor above the cluster, or the cluster, hold groups of the grid for it? -/
def Grid.forCluster (g : Grid) (cluster : Nat) : Bool :=
  g.left.2 ≠ 0 || (Table.get (0, 0) g.dieRange (dieOfCluster cluster)).2 ≠ 0 || !(g.rangesOf cluster).isEmpty

/-- The size of the next group that a cluster holds, or may be handed. -/
def Grid.nextSize (g : Grid) (cluster : Nat) : Nat :=
  let r := Table.get (0, 0) g.dieRange (dieOfCluster cluster)
  (g.launch.group (match g.rangesOf cluster with
    | x :: _ => x.1
    | [] => if r.2 ≠ 0 then r.1 else g.left.1)).2

/-- A try at a grid's next group on a cluster, and whether it has been placed. For a child's team without room, room is made (R42). -/
def State.tryLaunch (s : State) (cluster gid : Nat) : State × Bool :=
  if !(s.grid gid).forCluster cluster then (s, false)
  else
    let s := s.handDown gid (dieOfCluster cluster)
    match s.placeHead gid cluster with
    | some s' => (s', true)
    | none =>
      let g := s.grid gid
      (if 0 < g.depth && g.forCluster cluster then s.makeRoom g g.launch.warps (g.nextSize cluster) cluster else s, false)

/-- The same for a grid's first continuation team whose place is the cluster. -/
def State.tryConts (s : State) (cluster gid : Nat) : State × Bool :=
  let g := s.grid gid
  match g.conts.find? (fun c => s.contPlace gid g c == some cluster) with
  | none =>
    (if 0 < g.depth && g.conts.any (fun c => c.cluster == cluster && (s.contPlace gid g c).isNone) then s.makeRoom g 1 1 cluster else s, false)
  | some c => match s.tryCont gid g cluster c with
    | none => (s, false)
    | some s' =>
      let far := (s.context g.ctx).peephole && !g.unwatched && !g.reported && decide (65536 ≤ c.index)
      let s' := s'.modGrid gid (fun x => { x with conts := x.conts.filter (fun y => y.index != c.index), reported := x.reported || far })
      (if far then s'.emptyReport g (6 * cluster) c.index else s', true)

/-- The grids in order (R318): the first team that finds room on the cluster is placed. `cont` says whether a grid's continuation teams
are tried before the teams of its launch, of which the spec gives no order (log 81). -/
def State.placeFirst (s : State) (cont : Bool) (cluster : Nat) : List Nat → State
  | [] => s
  | gid :: rest =>
    if s.regrouping gid then s.placeFirst cont cluster rest
    else
      let a := if cont then s.tryConts cluster gid else s.tryLaunch cluster gid
      if a.2 then a.1
      else
        let b := if cont then a.1.tryLaunch cluster gid else a.1.tryConts cluster gid
        if b.2 then b.1 else b.1.placeFirst cont cluster rest

def State.placeNext (s : State) (cont : Bool) (cluster : Nat) : State :=
  if 128 ≤ cluster then s else s.placeFirst cont cluster (s.inOrder.map (·.1))

def execTeamPlacement (cluster : Nat) (s : State) : Res := .next (s.placeNext false cluster)
def execContinuationPlacement (cluster : Nat) (s : State) : Res := .next (s.placeNext true cluster)

/-! ## Retirement (R25, R41, R317) -/

/-- R25: a warp with no living thread and no outstanding copy leaves; its team and its span group may go with it. -/
def execWarpRetire (wid : Nat) (s : State) : Res :=
  .next (match s.warp? wid with
    | none => s
    | some w =>
      if w.living ≠ 0 || !w.copiesOut.isEmpty || !w.flights.isEmpty || w.pend.isSome || w.trap.isSome || (match w.resid with | .resident => false | _ => true) then s
      else
        let sp := (s.teamOf w).span
        let gid := (s.teamOf w).grid
        let s := (s.dropWarp wid).modTeam w.team (fun t => { t with warps := t.warps.filter (· != wid) })
        let s := s.modGrid gid (fun g => { g with gone := g.gone ++ [wid] })
        match s.span? sp with
        | none => s
        | some x =>
          -- the group's last team has retired
          if x.teams.all (fun t => (s.team t).warps.isEmpty) then
            { s with mod := { s.mod with spans := Table.drop s.mod.spans sp, teams := s.mod.teams.filter (fun e => !x.teams.contains e.1) } }
          else s)

/-- Has the grid completed, its children too, and every EXIT's release (R41, R300)? -/
def State.mayRetire (s : State) (g : Grid) : Bool :=
  g.allPlaced && g.deposits.isEmpty && g.children.isEmpty && g.childq.isEmpty
    && s.mod.teams.all (fun t => t.2.grid ≠ g.ident)
    && !(s.entries.any (fun e => g.gone.contains e.warp && e.kind == .relMarker))

/-- The counter's release at SYS scope (R317): it follows those of every EXIT at DEV scope, and so stands in XB behind what stood there
when the last of these had completed, whatever thread made it (R296). -/
def State.releasing (s : State) (g : Grid) : List Nat :=
  if g.launch.counts then g.release.getD ((s.entries.filter (fun e => e.place == .xb)).map (·.id)) else []

/-- R41, R317: a grid retires: its counter, its parent's children and their CWAITs. -/
def execGridRetire (gid : Nat) (s : State) : Res :=
  .next (match s.grid? gid with
    | none => s
    | some g =>
      if !s.mayRetire g then s
      else if s.entries.any (fun e => (s.releasing g).contains e.id) then s.putGrid gid { g with release := some (s.releasing g) }
      else if g.launch.counts && (s.devPlace g.ctx g.launch.counter (.at true)).page?.isSome then s
      else
        let s := s.addCounter g.ctx g.launch
        let s := { s with mod := { s.mod with grids := Table.drop s.mod.grids gid } }
        match g.parent with
        | some p => s.childRetired p g.ident
        | none => s)

/-! ## Switch by quantum, sleep, floor counts (R30, R138, R324) -/

/-- R30 point 4: 64 issues, and another front READY. An access that waits for its page proceeds or traps first (R285, log 102). -/
def Warp.quantumOver (w : Warp) : Bool :=
  match w.cur with
  | some f => decide (64 ≤ w.quantum) && (w.readyMask &&& ~~~f) != 0 && w.waitPage.isNone && (w.access &&& f) == 0
  | none => false

def execQuantumSwitch (wid : Nat) (s : State) : Res :=
  .next (s.modWarp wid (fun w => if w.quantumOver then w.reselect true else w))

/-- R138: lanes whose wake-up time has come. -/
def execSleepExpiry (wid : Nat) (s : State) : Res :=
  .next (s.modWarp wid (fun w =>
    let awake (t : Thread) : Bool := match t.st with
      | .sleep wake _ => decide (wake ≤ s.mod.gts)
      | _ => false
    match w.resid with
    | .resident =>
      if lanes32.any (fun l => awake (w.th l)) then
        (w.modLanes Mask.all (fun _ t => if awake t then (match t.st with
          | .sleep _ len => { t with st := .ready, pc := (t.pc + len) % 2 ^ 32 }
          | _ => t) else t)).settle
      else w
    | _ => w))

/-- R324: a slot whose floor count has reached 240 is due from this clock of the core on. -/
def execFloorCountDue (part port slot : Nat) (s : State) : Res :=
  .next (
    let q := Table.get {} (s.part part).ports port
    if 240 ≤ Table.get 0 q.floors slot && (Table.find q.due slot).isNone then
      s.modPart part (fun p => { p with ports := Table.put p.ports port { q with due := Table.put q.due slot (s.core (coreOfPart part)).cyc } })
    else s)

end Sys2Proof.Machine
end

