-- ==== Sys2Proof/Machine/Copies.lean ====
section
/-! DEFINITION. Asynchronous copies, tensor handles and batches (R254–R263, R286, R307), and the start and the completion
of a copy. -/
namespace Sys2Proof.Machine

/-! ## Checks before registration (R254, R286) -/

/-- A byte of a copy's global range: its location, or its address while its page is absent; a malformed entry's level and the address
that has met it. -/
inductive CByte
  | at (loc : Nat)
  | away (page size : Nat)
  | bad (report : Option (Nat × Nat))
  | miss (unit : Nat)
  deriving DecidableEq, Repr

/-- The 4 KiB unit of a global address for a copy. What no part of the map holds is found by the engine (R277). -/
def State.copyUnit (s : State) (w : Warp) (va : Nat) (write : Bool) : CByte :=
  if 2 ^ 56 ≤ va then .bad none
  else match s.xlate w va (va / 2 ^ 12 % 64) with
    | some .unmapped => .bad none
    | some (.malformed l) => .bad (some (l, va))
    | none => .miss (unitOf va)
    | some (.leaf e l) =>
      if !entryBit e 2 then .away (va / pageSize l * pageSize l) (pageSize l)
      else if write && !entryBit e 3 then .bad none
      else
        let pa := (aperture (entryLoc e)).1 + entryFrame e + va % pageSize l
        match linkOf pa with
        | some k => if s.mod.linksDown.contains k then .bad none else .at pa
        | none => .at (if entryLoc e = 10 then pa + paTop else pa)

/-- A range of the span window (R286), when all of it lies in one rank's allocation: the address of its byte 0, and the allocation. -/
def State.spanRange (s : State) (w : Warp) (va n : Nat) : Option (Nat × Space) :=
  if va < spanBase then none
  else
    let r := (va - spanBase) / 2 ^ 21
    let o := (va - spanBase) % 2 ^ 21
    match s.span? (s.teamOf w).span with
    | none => none
    | some g =>
      match g.teams.find? (fun t => (s.team t).index == g.base + r) with
      | some t =>
        if o + n ≤ (s.kernOf w).scratch then some (va - o, (s.team t).space (s.kernOf w)) else none
      | none => none

/-- The units of a copy's global bytes, found one by one; a range that meets the span window is of one piece. -/
structure Plan where
  span : Option (Nat × Space) := none
  units : SMap CByte := []
  deriving Repr

def State.plan (s : State) (w : Warp) (write : Bool) (ranges : List (Nat × Nat)) : Option Plan :=
  let ranges := ranges.filter (fun r => r.2 ≠ 0)
  if ranges.any (fun r => decide (spanBase < r.1 + r.2) && decide (r.1 < 2 ^ 56)) then
    let lo := ranges.foldl (fun a r => min a r.1) (2 ^ 64)
    let hi := ranges.foldl (fun a r => max a (r.1 + r.2)) 0
    (s.spanRange w lo (hi - lo)).map (fun r => { span := some r })
  else some { units := (unitsOf ranges).map (fun u => (u, s.copyUnit w (u * 2 ^ 12) write)) }

/-- One byte's place under a plan. -/
def Plan.byte (p : Plan) (va : Nat) : Nat ⊕ Nat :=
  match p.span with
  | some (at_, x) => .inl (x.at_ (va - at_))
  | none => match p.units.find? (fun e => e.1 == va / 2 ^ 12) with
    | some (_, CByte.at l) => .inl (l + va % 2 ^ 12)
    | _ => .inr va
def Plan.src (p : Plan) (va : Nat) : CSrc :=
  match p.byte va with
  | .inl l => .loc l
  | .inr a => .va a
def Plan.dst (p : Plan) (va : Nat) : CDst :=
  match p.byte va with
  | .inl l => .loc l
  | .inr a => .va a
/-- The absent pages of a plan, once each. -/
def Plan.pages (p : Plan) (kind : Nat) : List (Nat × Nat × Nat) :=
  (p.units.filterMap (fun e => match e.2 with | .away a z => some (a, z, kind) | _ => none)).eraseDups
def Plan.bad (p : Plan) : Bool := p.units.any (fun e => match e.2 with | .bad _ => true | _ => false)
def Plan.miss (p : Plan) : List Nat := p.units.filterMap (fun e => match e.2 with | .miss u => some u | _ => none)
/-- The first address that has met each malformed entry: its record names one (R281). -/
def Plan.reports (p : Plan) : List Nat := oneEach (p.units.filterMap (fun e => match e.2 with | .bad b => b | _ => none))

/-- What one lane asks for: its scratchpad range and, for each of its elements, where it lies (offset in the scratchpad
range, global address or none when outside, bytes), or the cause of R254's order that it already holds. -/
inductive Want
  | cause (k : TrapCause)
  | copy (off len : Nat) (elems : List (Nat × Option Nat × Nat))

def Want.ranges : Want → List (Nat × Nat)
  | .copy _ _ es => es.filterMap (fun e => e.2.1.map (fun va => (va, e.2.2)))
  | _ => []

/-- The scratchpad bytes that a copy accesses: all of its range when it writes there, else those of the elements inside (R254, R260). -/
def Want.held (toScratch : Bool) : Want → List (Nat × Nat)
  | .copy off len es => if toScratch then [(off, len)] else es.filterMap (fun e => e.2.1.map (fun _ => (off + e.1, e.2.2)))
  | _ => []

/-- The lowest to the highest accessed byte. -/
def hull (rs : List (Nat × Nat)) : Option (Nat × Nat) :=
  match rs.filter (fun r => r.2 ≠ 0) with
  | [] => none
  | r :: rest =>
    let lo := rest.foldl (fun a x => min a x.1) r.1
    let hi := rest.foldl (fun a x => max a (x.1 + x.2)) (r.1 + r.2)
    some (lo, hi - lo)

/-- The bytes that a copy moves; `at_ o` is the place of byte `o` of its scratchpad range. -/
def movesOf (toScratch : Bool) (at_ : Nat → Nat) (p : Plan) (fill : Nat) (elems : List (Nat × Option Nat × Nat)) : List (CSrc × CDst) :=
  elems.flatMap (fun e => (List.range e.2.2).flatMap (fun i =>
    match e.2.1, toScratch with
    | some va, true => [(p.src (va + i), .loc (at_ (e.1 + i)))]
    | some va, false => [(.loc (at_ (e.1 + i)), p.dst (va + i))]
    | none, true => [(.fill (byteOf fill i), .loc (at_ (e.1 + i)))]
    | none, false => []))

/-- The first cause in R254's order among the lanes, with the lanes that hold it. -/
def copyCause (cs : List (Nat × Option TrapCause)) : Option (TrapCause × List Nat) :=
  [TrapCause.illegalOperand, .staleHandle, .misaligned, .accessViolation].findSome? (fun k =>
    let ls := cs.filterMap (fun e => if e.2 = some k then some e.1 else none)
    if ls.isEmpty then none else some (k, ls))

/-- The entries of a thread that a copy it issues now waits for (R307). -/
def State.entriesOf (s : State) (wid lane : Nat) : List Nat :=
  (s.entries.filter (fun e => e.warp == wid && (e.lane == lane || e.also.any (·.1 == lane)) && e.copy.isNone && !e.kind.isMarker)).map (·.id)

/-- The shared part of CPY, CPS and CPT: R254's checks over every active lane, then the registration of each copy. `asks` bytes of each lane
pass the L2 request port before its copy starts (R365). -/
def Ctx.copies (c : Ctx) (f : FormCp) (toScratch : Bool) (asks : Nat) (fill : Nat → Nat) (want : Nat → Want) : Iss :=
  let lanes := c.active.lanes
  let ws := lanes.map (fun l => (l, want l))
  let early := ws.map (fun e => (e.1, match e.2 with | .cause k => some k | .copy _ _ _ => none))
  match copyCause early with
  | some (k, ls) => .trap c.s k (Mask.ofList ls)
  | none =>
    let space := match f.space with
      | .team => c.s.scratchOf c.w
      | .group => c.s.windowOf c.w
    let plans := ws.map (fun e => (e.1, e.2, c.s.plan c.w (!toScratch) e.2.ranges))
    let lost := (plans.flatMap (fun e => match e.2.2 with | some p => p.miss | none => [])).eraseDups
    if !lost.isEmpty then .walk lost
    else
      let late := plans.map (fun e => (e.1, match e.2.1 with
        | .copy _ len _ =>
          if len ≠ 0 && ((e.2.1.held toScratch).any (fun r => decide (space.size < r.1 + r.2))
              || (match e.2.2 with | some p => p.bad | none => true)) then some TrapCause.accessViolation
          else none
        | .cause k => some k))
      match copyCause late with
      | some (k, ls) =>
        let bad := plans.flatMap (fun e => match e.2.2 with | some p => p.reports | none => [])
        .trap (bad.foldl (fun s va => s.reportBad c.w va) c.s) k (Mask.ofList ls)
      | none =>
        let todo := plans.filterMap (fun e => match e.2.1, e.2.2 with
          | .copy off len es, some p => if len = 0 then none else some (e.1, off, len, es, p)
          | _, _ => none)
        if 64 < c.s.copies.countP (fun x => x.latched && x.core == c.w.core) + todo.length then .wait .copyWait
        else
          let s := todo.foldl (fun s e =>
            let (l, off, len, es, p) := e
            let (id, s) := s.newId
            let copy : Copy := {
              id := id, warp := c.wid, lane := l, core := c.w.core, ctx := s.ctxOf c.w, grid := (s.teamOf c.w).grid, scope := f.scope
              toScratch := toScratch, direct := toScratch && f.space == .team, order := c.w.order, before := s.entriesOf c.wid l
              moves := movesOf toScratch (fun o => space.at_ (off + o)) p (fill l) es, pages := p.pages (if toScratch then 1 else 2)
              scr := space.parts off len, glob := hull (Want.copy off len es).ranges
              notBefore := if asks = 0 then 0 else c.s.mod.gts + c.s.heldFor (clusterOfCore c.w.core) }
            ({ s with copies := s.copies ++ [copy] }).modWarp c.wid (fun w =>
              { w with openSet := w.openSet ++ [id], copiesOut := w.copiesOut ++ [id] })) c.s
          .done (s.ask (clusterOfCore c.w.core) (asks * lanes.length))

/-- 2 MiB: the longest copy (R254). -/
def copyMax : Nat := 2 ^ 21

/-- CPY and CPS (R255). -/
def copyForm (op : Nat) (f : FormCp) (toScratch : Bool) (s : State) : Res :=
  issue op (match f.len with | .opnd _ => 8 | _ => 16) (max (f.d.need 1) (max (f.a.need 2) (f.len.need 1))) f.hdr s (fun c =>
    c.copies f toScratch 0 (fun _ => 0) (fun l =>
      let off := c.rd [f.d] 0 false l
      let va := c.rd [f.a] 0 true l
      let len := c.rdB [f.len.src] 0 f.len .u32 false l % 2 ^ 32
      if copyMax < len then .cause .illegalOperand
      else if off % 16 ≠ 0 || va % 16 ≠ 0 || len % 16 ≠ 0 then .cause .misaligned
      else .copy off len [(0, some va, len)]))

def execCpy (f : FormCp) (s : State) : Res := copyForm 0xC7 f true s
def execCps (f : FormCp) (s : State) : Res := copyForm 0xC8 f false s

/-! ## Tensor handles (R257–R260) -/

/-- The address of a slot's entry (Table 19.8). -/
def Context.slotAt (x : Context) (slot : Nat) : Nat := x.handles + 128 * slot

/-- What the entries of the handle table ask of the L2 request port: the word of a slot, and its descriptor (R365). -/
def handleWord : Nat := 4
def handleEntry : Nat := 68

/-- R259: the slot that a handle names, unless it is stale. -/
def State.handleSlot (s : State) (ctx h : Nat) : Option Nat :=
  let x := s.context ctx
  let slot := h % 2 ^ 20
  if x.slots ≤ slot then none
  else
    let st := s.peekN (x.slotAt slot) 4
    if st % 2 = 1 && st / 2 ^ 20 = h / 2 ^ 20 % 2 ^ 12 then some slot else none

/-- A tensor descriptor (Table 19.5). -/
structure Tensor where
  base : Nat
  extents : List Nat
  strides : List Nat
  fill : Nat
  es : Nat
  dims : Nat
  deriving DecidableEq, Repr

def tensorOf (bs : List Byte) : Tensor :=
  let f (o n : Nat) : Nat := leNat ((bs.drop o).take n)
  { base := f 0 8, extents := [f 8 4, f 12 4, f 16 4, f 20 4], strides := [f 24 8, f 32 8, f 40 8], fill := f 0x30 8
    es := 2 ^ (f 0x38 1 % 4), dims := f 0x39 1 }

/-- Does the descriptor keep Table 19.5? -/
def Tensor.ok (t : Tensor) : Bool :=
  decide (1 ≤ t.dims) && decide (t.dims ≤ 4) && decide (t.base < 2 ^ 56) && t.base % t.es = 0
    && (List.range t.dims).all (fun d => decide (1 ≤ t.extents.getD d 0) && decide (t.extents.getD d 0 ≤ 2 ^ 31))
    && (List.range (t.dims - 1)).all (fun d => t.strides.getD d 0 % t.es = 0)

/-- R258, in ascending lane order: the lowest free slot, or 0xFFFF_FFFF. The installation is made in this step. -/
def installAll (ctx : Nat) : State → List (Nat × List Byte) → State × List (Nat × Nat)
  | s, [] => (s, [])
  | s, (l, bs) :: r =>
    let x := s.context ctx
    match (List.range x.slots).find? (fun i => s.peekN (x.slotAt i) 4 % 2 = 0) with
    | none => let (s', out) := installAll ctx s r; (s', (l, 0xFFFFFFFF) :: out)
    | some i =>
      let gen := s.peekN (x.slotAt i) 4 / 2 ^ 20
      let s := (s.pokeN (x.slotAt i) 4 (gen * 2 ^ 20 + 1)).pokeBytes (x.slotAt i + 64) bs
      let (s', out) := installAll ctx s r
      (s', (l, i + gen * 2 ^ 20) :: out)

/-- R258. D is written when the home L2s of the slots have been reached (Table 24.5). -/
def execTdesc (h : Hdr) (d a : Opnd) (la : Nat) (s : State) : Res :=
  issue 0xCD 8 (max (d.need 1) (a.need 2)) h s (fun c =>
    let lanes := c.lanes d
    let addr (l : Nat) : Nat := c.rd [a] 0 true l
    let cs := lanes.map (fun l => (l, c.s.check c.w .global .rd l (addr l) 64 64))
    let failed (s : State) (k : TrapCause) (ls : List Nat) : Iss := .trap s k (if d.isW then c.active else Mask.ofList ls)
    if lanes.isEmpty then .done c.s
    else if !(missed cs).isEmpty then .walk (missed cs)
    else match firstCause cs with
      | some (k, ls) => failed ((cs.filterMap (·.2.bad?)).foldl (fun s va => s.reportBad c.w va) c.s) k ls
      | none => match cs.findSome? (fun e => match e.2 with | .absent p z => some (p, z) | _ => none) with
        | some (p, z) => .fault p z 1
        | none =>
          c.records (cs.map (fun e => (e.1, match e.2 with | .ok loc => loc | _ => 0))) 64 (fun s recs =>
            let s := c.stampRecords s 64 addr lanes
            match recs.filter (fun e => !(tensorOf e.2).ok) with
            | e :: es => failed s .illegalOperand ((e :: es).map (·.1))
            | [] =>
              let ctx := s.ctxOf c.w
              let held := s.heldFor (clusterOfCore c.w.core)
              let (s, out) := installAll ctx s recs
              let s := s.ask (clusterOfCore c.w.core) (handleEntry * out.length)
              let ns := held + out.foldl (fun m e => max m (homeNs c.w.core ((s.context ctx).slotAt (e.2 % 2 ^ 20)))) 160
              .done (c.launch s la 0 .plain (out.flatMap (fun e => regWrites d e.1 false e.2)) [] [] ns)))

/-- R259. -/
def execTdfree (h : Hdr) (a : Opnd) (s : State) : Res :=
  issue 0xCE 8 (a.need 1) h s (fun c =>
    let ctx := c.s.ctxOf c.w
    let x := c.s.context ctx
    -- each lane in turn: a slot that an earlier lane has freed is stale (R245, R259)
    let run := c.active.lanes.foldl (fun (acc : State × List Nat) l =>
      match acc.1.handleSlot ctx (c.rd [a] 0 false l) with
      | none => (acc.1, acc.2 ++ [l])
      | some i =>
        let gen := acc.1.peekN (x.slotAt i) 4 / 2 ^ 20
        (acc.1.pokeN (x.slotAt i) 4 ((gen + 1) % 4096 * 2 ^ 20), acc.2)) (c.s, [])
    if run.2.isEmpty then .done (run.1.ask (clusterOfCore c.w.core) (handleWord * c.active.lanes.length))
    else .trap c.s .staleHandle (Mask.ofList run.2))

/-- The elements of a tile, dimension 0 fastest: position in the tile and coordinates. -/
def tileCoords : List Nat → List (List Nat)
  | [] => [[]]
  | b :: bs => (tileCoords bs).flatMap (fun rest => (List.range b).map (fun i => i :: rest))

/-- The global address of a tile element, if it is inside (R260). -/
def Tensor.elemAt (t : Tensor) (x : List Int) (i : List Nat) : Option Nat :=
  let at_ := (List.range t.dims).map (fun d => x.getD d 0 + Int.ofNat (i.getD d 0))
  if (at_.zip t.extents).all (fun e => decide (0 ≤ e.1) && decide (e.1 < Int.ofNat e.2)) then
    some (t.base + (at_.getD 0 0).toNat * t.es + ((at_.drop 1).zip t.strides).foldl (fun a e => a + e.1.toNat * e.2) 0)
  else none

/-- R260. `box` holds b_d − 1 in byte d. -/
def execCpt (f : FormCp) (st : Bool) (box : Word) (s : State) : Res :=
  issue 0xC9 16 (max (f.d.need 1) (max (f.a.need 1) (f.len.need 4))) f.hdr s (fun c =>
    let ctx := c.s.ctxOf c.w
    let tensor (l : Nat) : Option Tensor := (c.s.handleSlot ctx (c.rd [f.a] 0 false l)).map (fun i =>
      tensorOf ((List.range 64).map (fun k => c.s.peek ((c.s.context ctx).slotAt i + 64 + k))))
    let coord (l d : Nat) : Int :=
      NumTy.toInt .i32 (match f.len.src with
        | .v n => c.rd [.v (n + d)] 0 false l
        | .w n => c.rd [.w (n + d)] 0 false l
        | _ => 0)
    c.copies f (!st) handleEntry (fun l => ((tensor l).map (·.fill)).getD 0) (fun l =>
      let off := c.rd [f.d] 0 false l
      match tensor l with
      | none => .cause .staleHandle
      | some t =>
        let bs := (List.range t.dims).map (fun d => box.toNat / 256 ^ d % 256 + 1)
        let size := bs.foldl (· * ·) t.es
        if box.toNat / 256 ^ t.dims ≠ 0 || copyMax < size then .cause .illegalOperand
        else if off % 16 ≠ 0 || size % 16 ≠ 0 then .cause .misaligned
        else
          let x := (List.range t.dims).map (coord l)
          .copy off size ((tileCoords bs).zipIdx.map (fun e => (e.2 * t.es, t.elemAt x e.1, t.es)))))

/-! ## Batches (R261–R263) -/

/-- The batches whose copies have not all completed. -/
def Warp.pendingBatches (w : Warp) : List (Nat × List Nat) := w.batches.filter (fun b => !b.2.isEmpty)

/-- R262's condition for the number n. -/
def Warp.batchesDone (w : Warp) (n : Nat) : Bool :=
  w.pendingBatches.all (fun b => !decide ((n + 2 ^ 16 - b.1) % 2 ^ 16 < 2 ^ 15))

/-- The number a CPWAIT or CPTEST names. -/
def Ctx.batchOf (c : Ctx) (a : Option Opnd) : Nat :=
  match a with
  | some o => c.rd [o] 0 false (c.active.lowest.getD 0) % 2 ^ 16
  | none => (c.w.cpnum + 2 ^ 16 - 1) % 2 ^ 16

/-- R261. -/
def execCpclose (h : Hdr) (d : Opnd) (la : Nat) (s : State) : Res :=
  issue 0xCA 8 0 h s (fun c =>
    match c.active.lowest with
    | none => .done c.s
    | some l =>
      if 8 ≤ c.w.pendingBatches.length then .wait .copyWait
      else
        let b := c.w.cpnum
        let w := { c.w with
          batches := if c.w.openSet.isEmpty then c.w.batches else c.w.batches ++ [(b, c.w.openSet)]
          openSet := [], cpnum := (b + 1) % 2 ^ 16 }
        .done (c.launch (c.s.putWarp c.wid w) la 4 .plain (regWrites d l false b)))

/-- R262. -/
def execCpwait (h : Hdr) (a : Option Opnd) (s : State) : Res :=
  issue 0xCB 8 0 h s (fun c =>
    if c.active == 0 then .done c.s
    else
      let n := c.batchOf a
      .moved (c.block c.s c.w (if c.w.batchesDone n then [] else c.front.lanes.map (fun l => (l, .copy n)))))

/-- R263. -/
def execCptest (h : Hdr) (d : Opnd) (a : Option Opnd) (la : Nat) (s : State) : Res :=
  issue 0xCC 8 0 h s (fun c =>
    match c.active.lowest with
    | none => .done c.s
    | some l => .done (c.launch c.s la 4 .plain (regWrites d l false (if c.w.batchesDone (c.batchOf a) then 1 else 0))))

/-! ## The engine (R255, R256, R277, R285, R307) -/

/-- The source and destination ranges of a copy, as the Latch table holds them. -/
def Copy.overlapsEarlier (c e : Copy) : Bool :=
  let overL := meetAny
  let overG (a b : Option (Nat × Nat)) : Bool := meetAny a.toList b.toList
  -- destination against the earlier copy's source or destination, then source against its destination
  match c.toScratch, e.toScratch with
  | true, true => overL c.scr e.scr
  | true, false => overL c.scr e.scr || overG c.glob e.glob
  | false, true => overG c.glob e.glob || overL c.scr e.scr
  | false, false => overG c.glob e.glob

/-- Has what the copy's thread did before it been ordered before the engine's accesses (R255, R307)? Its entries have reached the level
of the copy's scope or their home, its atomics have been performed, its loads have been satisfied. -/
def State.ordersBefore (s : State) (c : Copy) : Bool :=
  s.entries.all (fun e => !c.before.contains e.id
      || (!e.kind.isAtomic && decide (min (scopeLevel c.scope) (homeOf e.loc) ≤ placeLevel e.place)))
  && s.loads.all (fun l => l.val.isSome || l.warp != c.warp || l.lane != c.lane || !decide (l.order < c.order)
      || (match l.for_ with | .copy _ _ => true | _ => false))

/-- Is a location in a core's or a cluster's scratchpad? -/
def isScratch (loc : Nat) : Bool :=
  (decide (scratchBase ≤ loc) && decide (loc < sliceBase)) || (decide (clusterBase ≤ loc) && decide (loc < regfileBase))

/-- Does no buffer hold an entry for a scratchpad byte that the copy writes (R307)? -/
def State.scratchFree (s : State) (c : Copy) : Bool :=
  c.moves.all (fun m => match m.2 with
    | .loc d => !isScratch d || s.entries.all (fun e => !e.covers d)
    | .va _ => true)

/-- R256, R307: may the engine start the copy? It also waits for its absent pages (R254). -/
def State.mayStart (s : State) (c : Copy) : Bool :=
  !c.started
  && (s.copies.takeWhile (fun x => x.id != c.id)).all (fun e => e.core != c.core || !c.overlapsEarlier e)
  && s.ordersBefore c && s.scratchFree c && decide (c.notBefore ≤ s.mod.gts)
  && c.moves.all (fun m => (match m.1 with | .va _ => false | _ => true) && (match m.2 with | .va _ => false | _ => true))

/-- Is a byte of a span-window source (another team's scratchpad)? It is read from memory (R307). -/
def Copy.spanLoc (c : Copy) (loc : Nat) : Bool :=
  decide (scratchBase ≤ loc) && decide (loc < sliceBase) && !(meetAny [(loc, 1)] c.scr)

/-- A byte arrives at its destination: at once in the team's scratchpad, else as an entry in CMB (R307). -/
def State.copyByte (s : State) (c : Copy) (dst : Nat) (b : Byte) : State :=
  if c.direct then (s.poke dst b).dropTag dst
  else
    let (id, s) := s.newId
    let e : Entry := {
      id := id, place := .tsq c.warp c.lane, kind := .write, loc := dst, len := 1, val := b.toNat, scope := c.scope
      warp := c.warp, lane := c.lane, core := c.core, order := c.order, copy := some c.id }
    ({ s with entries := s.entries ++ [e] }).moveTo e (.cmb c.core)

/-- The partition that a copy's error records name. -/
def State.copySource (s : State) (c : Copy) : Nat :=
  match s.warp? c.warp with
  | some w => w.part
  | none => 4 * c.core

/-- The locations of a copy's bytes. -/
def Copy.locs (c : Copy) : List Nat :=
  c.moves.flatMap (fun m => (match m.1 with | .loc l => [l] | _ => []) ++ (match m.2 with | .loc l => [l] | _ => []))

/-- Is the link that a location lies behind down (R385)? A copy asks when its pages are looked up and when it starts (log 87). -/
def State.cutOff (s : State) (loc : Nat) : Bool := match linkOf (loc % paTop) with
  | some k => s.mod.linksDown.contains k
  | none => false

/-- R255, R307: the copy starts. An access to a part of the map that does not exist ends the context (R277), and so does one over a link
that has gone down since it was checked (R385, R334). -/
def State.startCopy (s : State) (c : Copy) : State :=
  match c.locs.find? (fun l => !s.assigned (l % paTop) || s.cutOff l) with
  | some l =>
    let s := if s.assigned (l % paTop) then s else s.errorRecord 0x14 c.ctx (s.copySource c) (l % paTop)
    s.endContext c.ctx (s.copySource c) (if s.assigned (l % paTop) then TrapCause.accessViolation.code else 0)
  | none =>
    let s := { s with copies := s.copies.map (fun x => if x.id = c.id then { x with started := true } else x) }
    c.moves.foldl (fun s m =>
      match m.1, m.2 with
      | .fill b, .loc d => s.copyByte c d b
      | .loc l, .loc d =>
        let (id, s) := s.newId
        { s with loads := s.loads ++ [{
          id := id, for_ := .copy c.id d, warp := c.warp, lane := c.lane, core := c.core, loc := l, scope := c.scope, order := c.order }] }
      | _, _ => s) s

/-- R255: has everything that the copy writes arrived? -/
def State.copyDone (s : State) (c : Copy) : Bool :=
  c.started
  && !(s.loads.any (fun l => match l.for_ with | .copy i _ => i == c.id | _ => false))
  && s.entries.all (fun e => e.copy != some c.id ||
      (!c.toScratch && decide (min (scopeLevel c.scope) (homeOf e.loc) ≤ placeLevel e.place)))

/-- A thread waiting at CPWAIT whose condition holds goes on (R262). -/
def Warp.copyWake (w : Warp) : Warp :=
  let ready (t : Thread) : Bool := match t.st with
    | .copy n => w.batchesDone n
    | _ => false
  if lanes32.any (fun l => ready (w.th l)) then
    (w.modLanes Mask.all (fun _ t => if ready t then { t with st := .ready, pc := (t.pc + 8) % 2 ^ 32 } else t)).settle
  else w

/-- The copy completes: its Latch entry is released, its batch counts it off, and waiting threads are looked at. -/
def State.finishCopy (s : State) (c : Copy) : State :=
  let s := { s with copies := s.copies.filter (fun x => x.id != c.id) }
  s.modWarp c.warp (fun w =>
    let w := { w with
      openSet := w.openSet.filter (· != c.id)
      copiesOut := w.copiesOut.filter (· != c.id)
      batches := (w.batches.map (fun (b : Nat × List Nat) => (b.1, b.2.filter (· != c.id)))).filter (fun b => !b.2.isEmpty) }
    match w.resid with
    | .resident => w.copyWake
    | _ => w)

/-- The virtual addresses that a copy still waits for, with whether it writes there. -/
def Copy.away (c : Copy) : List (Nat × Bool) :=
  c.moves.flatMap (fun m => (match m.1 with | .va a => [(a, false)] | _ => []) ++ (match m.2 with | .va a => [(a, true)] | _ => []))

/-- R285: the page that holds an address has been resolved for a copy; its bytes are looked up again. One that is unmapped or protected
by now ends the context, with the page's address in the record (R254); so does one over a link that is down (R385), and a malformed
entry, which is reported as such too (R281). -/
def State.copyPage (s : State) (c : Copy) (page size : Nat) : State :=
  let inPage (a : Nat) : Bool := decide (page ≤ a) && decide (a < page + size)
  let look (e : Nat × Bool) : Chk :=
    match s.walk (dieOfCore c.core) c.ctx e.1 with
    | .leaf x l =>
      if !entryBit x 2 then .absent (e.1 / pageSize l * pageSize l) (pageSize l)
      else if e.2 && !entryBit x 3 then .cause .accessViolation none
      else
        let pa := (aperture (entryLoc x)).1 + entryFrame x + e.1 % pageSize l
        if s.cutOff pa then .cause .accessViolation none else .ok (if entryLoc x = 10 then pa + paTop else pa)
    | .unmapped => .cause .accessViolation none
    | .malformed _ => .cause .accessViolation (some e.1)
  match (c.away.filter (fun e => inPage e.1)).findSome? (fun e => match look e with | .cause _ b => some b | _ => none) with
  | some bad =>
    let s := match bad with
      | some va => s.errorRecord 0x13 c.ctx (3968 + dieOfCore c.core) va
      | none => s
    (s.errorRecord 0x10 c.ctx (s.copySource c) page).endGrids c.ctx
  | none =>
    let at_ (a : Nat) (write : Bool) : Option Nat := if inPage a then (look (a, write)).loc? else none
    let moves := c.moves.map (fun m =>
      (match m.1 with | .va a => ((at_ a false).map CSrc.loc).getD (.va a) | x => x,
       match m.2 with | .va a => ((at_ a true).map CDst.loc).getD (.va a) | x => x))
    let still := (c.away.filter (fun e => inPage e.1)).filterMap (fun e => match look e with | .absent p z => some (p, z, if e.2 then 2 else 1) | _ => none)
    let pages := (c.pages.filter (fun e => !inPage e.1) ++ still).eraseDups
    { s with copies := s.copies.map (fun x => if x.id = c.id then { x with moves := moves, pages := pages } else x) }

end Sys2Proof.Machine
end

