-- ==== Sys2Proof/Machine/Queues.lean ====
section
/-! DEFINITION. Team queues (R61, R264–R268). -/
namespace Sys2Proof.Machine

/-- The location of a queue's entry. -/
def State.ringAt (s : State) (w : Warp) (q : TQ) (i : Nat) : Nat := (s.scratchOf w).at_ (q.ring + 16 * i)

/-- A queue step's write of 8 bytes: it enters CMB as a write at CORE scope (R264). -/
def State.ringWrite (s : State) (wid lane core order loc val : Nat) : State :=
  let (id, s) := s.newId
  let e : Entry := {
    id := id, place := .tsq wid lane, kind := .write, loc := loc, len := 8, val := val, scope := .core
    warp := wid, lane := lane, core := core, order := order }
  ({ s with entries := s.entries ++ [e] }).moveTo e (.cmb core)

/-- A queue step's read: the newest entry of CMB for each byte, else memory (R264). -/
def State.ringRead (s : State) (core loc n : Nat) : Nat :=
  leNat ((byteRange loc n).map (fun b => match s.newest (.cmb core) b with
    | some e => e.byteAt b
    | none => s.peek b))

/-- R265's condition. -/
def TQ.canPush (q : TQ) (num : Nat) : Bool := decide (0 < Table.get 0 q.allow num) && decide (q.count < q.depth)

/-- R265's step. -/
def State.push (s : State) (w : Warp) (wid lane k : Nat) (words : List Word) : State :=
  let t := s.teamOf w
  match Table.find t.tqs k with
  | none => s
  | some q =>
    let at_ := s.ringAt w q q.tail
    let x (i : Nat) : Nat := (words.getD i 0).toNat
    let s := s.ringWrite wid lane w.core w.order at_ (x 0 + 2 ^ 32 * x 1)
    let s := s.ringWrite wid lane w.core w.order (at_ + 8) (x 2 + 2 ^ 32 * w.num)
    let q := { q with tail := (q.tail + 1) % q.depth, count := q.count + 1, allow := Table.set 0 q.allow w.num (Table.get 0 q.allow w.num - 1) }
    s.modTeam w.team (fun t => { t with tqs := Table.put t.tqs k q })

/-- R266's step: the payload words. -/
def State.pop (s : State) (w : Warp) (k : Nat) : State × List Word :=
  match Table.find (s.teamOf w).tqs k with
  | none => (s, [])
  | some q =>
    let at_ := s.ringAt w q q.head
    let x (i : Nat) : Nat := s.ringRead w.core (at_ + 4 * i) 4
    let from_ := x 3 % 32
    let q := { q with head := (q.head + 1) % q.depth, count := q.count - 1, allow := Table.set 0 q.allow from_ (min 255 (Table.get 0 q.allow from_ + 1)) }
    (s.modTeam w.team (fun t => { t with tqs := Table.put t.tqs k q }), [BitVec.ofNat 32 (x 0), BitVec.ofNat 32 (x 1), BitVec.ofNat 32 (x 2)])

/-- The register writes of a pop: every active lane's V registers, or W registers once (R245). -/
def popWrites (d : Opnd) (active : Mask) (words : List Word) : List RegW :=
  match d with
  | .v n => active.lanes.flatMap (fun l => words.zipIdx.map (fun e => .v l (n + e.2) e.1))
  | .w n => words.zipIdx.map (fun e => .w (n + e.2) e.1)
  | _ => []

/-- Does a waiting front's condition hold (R265, R266)? -/
def TQ.met (q : TQ) (num : Nat) (x : QWait) : Bool := if x.push.isSome then q.canPush num else decide (0 < q.count)

/-- A front that leaves a queue: its threads go on past the instruction. -/
def Warp.leaveQueue (w : Warp) (k : Nat) (lanes : Mask) : Warp :=
  (w.modLanes lanes (fun _ t => match t.st with
    | .queue k' => if k' = k then { t with st := .ready, pc := (t.pc + 8) % 2 ^ 32 } else t
    | _ => t)).settle

/-- The first waiting front that may be served: its condition holds, its release has completed (R300), and no earlier
front of its kind whose condition holds is still waiting (R268). -/
def State.servable (s : State) (q : TQ) : List QWait → List QWait → Option QWait
  | _, [] => none
  | before, x :: r =>
    match s.warp? x.warp with
    | none => s.servable q before r
    | some w =>
      let resident := match w.resid with | .resident => true | _ => false
      if resident && q.met w.num x && x.active.lanes.all (fun l => !s.marked x.warp l (·.scope == .core) || x.push.isNone) && before.all (fun y => y.push.isSome != x.push.isSome)
      then some x
      else s.servable q (if q.met w.num x then before ++ [x] else before) r

/-- One waiting front served. -/
def State.serve (s : State) (tid k : Nat) (x : QWait) : State :=
  let s := s.modTeam tid (fun t => match Table.find t.tqs k with
    | some q => { t with tqs := Table.put t.tqs k { q with waiters := q.waiters.filter (· != x) } }
    | none => t)
  match s.warp? x.warp with
  | none => s
  | some w =>
    match x.push with
    | some words =>
      (s.push w x.warp (x.active.lowest.getD 0) k words).modWarp x.warp (fun w => w.leaveQueue k x.lanes)
    | none =>
      let (s, words) := s.pop w k
      let (id, s) := s.newId
      let pc := (w.th (x.lanes.lowest.getD 0)).pc
      let f : Flight := {
        id := id, op := 0xD1, pc := pc, lanes := x.active, front := x.lanes, win := x.active.lanes.map (fun l => (l, x.la))
        due := (s.core w.core).cyc + 24, writes := popWrites x.dst x.active words
        dests := (popWrites x.dst x.active words).map RegW.dest
        ret := x.lanes.lanes.map (fun l => (l, (pc + 8) % 2 ^ 32, 16, false)), order := w.order
        at_ := (s.core w.core).cyc, born := s.mod.gts, safe := w.safeOrd, dist := w.sinceSafe }
      s.modWarp x.warp (fun w => ({ w with flights := w.flights ++ [f] }).leaveQueue k x.lanes)

/-- Every waiting front of a queue that may be served, in order (R268). -/
def State.tryQueue (s : State) (tid k : Nat) : Nat → State
  | 0 => s
  | n + 1 =>
    match Table.find (s.team tid).tqs k with
    | none => s
    | some q => match s.servable q [] q.waiters with
      | none => s
      | some x => (s.serve tid k x).tryQueue tid k n

/-- Every queue of a team. -/
def State.tryQueues (s : State) (tid : Nat) : State :=
  (s.team tid).tqs.foldl (fun s e => s.tryQueue tid e.1 (e.2.waiters.length + 1)) s

/-- A warp form on a queue that must be initialised (R245, R267): the lowest active lane and the queue. -/
def Ctx.onQueue (c : Ctx) (k : Nat) (f : Nat → TQ → Iss) : Iss :=
  match c.active.lowest with
  | none => .done c.s
  | some l => match Table.find (c.s.teamOf c.w).tqs k with
    | none => .trap c.s .queueMisuse c.active
    | some q => f l q

/-- R264. -/
def execTqinit (h : Hdr) (k : Nat) (a : Opnd) (depth : Nat) (s : State) : Res :=
  issue 0xCF 8 (a.need 1) h s (fun c =>
    match c.active.lowest with
    | none => .done c.s
    | some l =>
      let off := c.rd [a] 0 false l
      if off % 16 ≠ 0 then .trap c.s .misaligned c.active
      else if (s.kernOf c.w).scratch < off + 16 * depth then .trap c.s .accessViolation c.active
      else match Table.find (c.s.teamOf c.w).tqs k with
        | some q =>
          if q.count ≠ 0 || !q.waiters.isEmpty then .trap c.s .queueMisuse c.active
          else .done (c.s.modTeam c.w.team (fun t => { t with tqs := Table.put t.tqs k { ring := off, depth := depth } }))
        | none => .done (c.s.modTeam c.w.team (fun t => { t with tqs := Table.put t.tqs k { ring := off, depth := depth } })))

/-- A front that waits at a queue. -/
def Ctx.waitAt (c : Ctx) (s : State) (k : Nat) (x : QWait) : State :=
  let s := c.block s c.w (c.front.lanes.map (fun l => (l, .queue k)))
  let s := s.modTeam c.w.team (fun t => match Table.find t.tqs k with
    | some q => { t with tqs := Table.put t.tqs k { q with waiters := q.waiters ++ [x] } }
    | none => t)
  s.tryQueue c.w.team k 64

/-- R265: each active lane releases at CORE; the push takes place when that has completed, and the front is BLOCKED.QUEUE until then (log
70). The payload is that of the issue (log 114). -/
def execQpush (h : Hdr) (k : Nat) (a : Opnd) (s : State) : Res :=
  issue 0xD0 8 (a.need 3) h s (fun c => c.onQueue k (fun l _ =>
    let word (i : Nat) : Word := BitVec.ofNat 32 (match a with
      | .v n => c.rd [.v (n + i)] 0 false l
      | .w n => c.rd [.w (n + i)] 0 false l
      | _ => 0)
    .moved (c.waitAt (c.s.addMarkers .relMarker c.wid c.active .core c.w.order c.w.core) k
      { warp := c.wid, lanes := c.front, active := c.active, push := some [word 0, word 1, word 2] })))

/-- R266. -/
def execQpop (h : Hdr) (d : Opnd) (k la : Nat) (s : State) : Res :=
  issue 0xD1 8 (d.need 3) h s (fun c => c.onQueue k (fun _ q =>
    if 0 < q.count && q.waiters.all (fun x => x.push.isSome) then
      let (s, words) := c.s.pop c.w k
      .done ((c.launch s la 24 .plain (popWrites d c.active words)).tryQueue c.w.team k 64)
    else .moved (c.waitAt c.s k { warp := c.wid, lanes := c.front, active := c.active, push := none, dst := d, la := la })))

/-- R266, QTRY. -/
def execQtry (h : Hdr) (d : Opnd) (k pq la : Nat) (s : State) : Res :=
  issue 0xD2 8 (d.need 3) h s (fun c => c.onQueue k (fun _ q =>
    let flag (b : Bool) : List RegW := c.active.lanes.map (fun l => .p l pq b)
    if 0 < q.count then
      let (s, words) := c.s.pop c.w k
      .done ((c.launch s la 24 .plain (popWrites d c.active words ++ flag true)).tryQueue c.w.team k 64)
    else .done (c.launch c.s la 24 .plain (flag false))))

/-- R267. -/
def execQgrant (h : Hdr) (k : Nat) (a b : Opnd) (s : State) : Res :=
  issue 0xD3 8 (max (a.need 1) (b.need 1)) h s (fun c => c.onQueue k (fun l q =>
    let num := c.rd [a] 0 false l
    if 32 ≤ num || (if (c.s.teamOf c.w).cont then 1 else (c.s.gridOf c.w).launch.warps) ≤ num then .trap c.s .queueMisuse c.active
    else
      let q := { q with allow := Table.set 0 q.allow num (min (c.rd [b] 0 false l) 255) }
      .done ((c.s.modTeam c.w.team (fun t => { t with tqs := Table.put t.tqs k q })).tryQueue c.w.team k 64)))

/-! ## What a completed marker releases (R300) -/

/-- The grids that the turnstile is looked at for: the warp's, or those that hold deposits of a warp that has retired. -/
def State.gridsOf (s : State) (wid : Nat) : List Nat :=
  match s.warp? wid with
  | some w => [(s.teamOf w).grid]
  | none => (s.mod.grids.filter (fun g => g.2.deposits.any (fun d => d.wid == wid))).map (·.1)

/-- A marker of the warp has completed: barriers, queues and the Turnstile are looked at again. -/
def State.markerGone (s : State) (wid : Nat) : State :=
  let gs := s.gridsOf wid
  let s := match s.warp? wid with
    | some w => (s.tryBars w.team).tryQueues w.team
    | none => s
  gs.foldl (fun s g => s.turnstile g) s

end Sys2Proof.Machine
end

