-- ==== Sys2Proof/Machine/Wicket.lean ====
section
/-! DEFINITION. The Wicket: stream descriptors, their entries, and the forms that run them (R269–R274). -/
namespace Sys2Proof.Machine

/-! ## Descriptors (R269, R270) -/

def field (bs : List Byte) (o n : Nat) : Nat := leNat ((bs.drop o).take n)

namespace Wick
def base (d : List Byte) : Nat := field d 0 8
def aux (d : List Byte) : Nat := field d 8 8
def count (d : List Byte) (i : Nat) : Nat := field d (16 + 4 * i) 4
def stride (d : List Byte) (i : Nat) : Int := NumTy.toInt .i32 (field d (32 + 4 * i) 4)
def laneStride (d : List Byte) : Int := NumTy.toInt .i32 (field d 48 4)
def kind (d : List Byte) : Nat := field d 0x34 1
def size (d : List Byte) : Nat := 2 ^ (field d 0x35 1 % 4)
def signed (d : List Byte) : Bool := field d 0x35 1 / 4 % 2 = 1
def dims (d : List Byte) : Nat := field d 0x36 1
def shift (d : List Byte) : Nat := field d 0x37 1

/-- Does the descriptor keep R269? -/
def ok (d : List Byte) : Bool :=
  decide (kind d ≤ 2) && field d 0x35 1 % 4 ≠ 3
    && (kind d ≠ 0 || (decide (1 ≤ dims d) && decide (dims d ≤ 4))) && (kind d ≠ 1 || decide (shift d ≤ 7))

/-- An element narrower than 32 bits, extended (R270). -/
def extend (d : List Byte) (x : Nat) : Word :=
  BitVec.ofNat 32 (if signed d then signExt (8 * size d) 32 x else x)
end Wick

/-! ## Reading (R273, R274) -/

/-- Why an element cannot be had; a malformed entry also names the address that met it, and a byte whose load is still to be satisfied its
location. -/
inductive SFail
  | wanted (loc : Nat)
  | absent (page size : Nat)
  | misaligned
  | violation (bad : Option Nat)
  | broken
  deriving DecidableEq, Repr

/-- The location of a stream's byte. A walk fills no TLB before the unit's own translation is known, so a miss is walked here. -/
def State.streamLoc (s : State) (w : Warp) (va : Nat) : Except SFail Nat :=
  let va := va % 2 ^ 64
  if 2 ^ 56 ≤ va || inSpanWindow va then .error (.violation none)
  else
    match s.xlateNow w.core (s.ctxOf w) va 65 with
    | .leaf e l =>
      if !entryBit e 2 then .error (.absent (va / pageSize l * pageSize l) (pageSize l))
      else
        let pa := (aperture (entryLoc e)).1 + entryFrame e + va % pageSize l
        if !s.reaches .rd pa then .error (.violation none) else .ok (if entryLoc e = 10 then pa + paTop else pa)
    | .malformed _ => .error (.violation (some va))
    | .unmapped => .error (.violation none)

/-- One byte of a location for the streams of a warp: the newest of the warp's own stores, else a relaxed load at CORE scope (R274);
and whether it comes from beyond CMB and the L1. -/
def State.streamLoad (s : State) (wid : Nat) (w : Warp) (loc : Nat) : Byte × Bool :=
  match s.entries.reverse.find? (fun (x : Entry) => (match x.place with | .tsq v _ => v == wid | .wq v => v == wid | _ => false) && x.holds loc) with
  | some e => (e.byteAt loc, false)
  | none =>
    let r := s.searchByte wid 32 w.core loc .core (some 0)
    (r.1, r.2.2 && decide (4 ≤ homeOf loc))

/-- One byte at a global address as a stream reads it now. -/
def State.streamByte (s : State) (wid : Nat) (w : Warp) (va : Nat) : Except SFail Byte :=
  (s.streamLoc w va).map (fun loc => (s.streamLoad wid w loc).1)

/-- The same for a stream, which may have read the byte at an earlier moment since its WSTART (R274). -/
def State.streamRead (s : State) (wid : Nat) (w : Warp) (x : Stream) (va : Nat) : Except SFail Byte :=
  match Table.find x.early (va % 2 ^ 64) with
  | some b => .ok b
  | none => s.streamByte wid w va

/-- `n` bytes, little-endian; the first byte that fails decides. -/
def readN (rd : Nat → Except SFail Byte) : Nat → Nat → Except SFail Nat
  | 0, _ => .ok 0
  | n + 1, va => match rd va, readN rd n (va + 1) with
    | .ok b, .ok r => .ok (b.toNat + 256 * r)
    | .error e, _ => .error e
    | _, .error e => .error e

/-- An element: its address must be a multiple of its size (R270). -/
def readElem (rd : Nat → Except SFail Byte) (d : List Byte) (va : Nat) : Except SFail Word :=
  let va := va % 2 ^ 64
  if va % Wick.size d ≠ 0 then .error .misaligned else (readN rd (Wick.size d) va).map (Wick.extend d)

def intAddr (i : Int) : Nat := (i % 2 ^ 64).toNat

/-- AFFINE: the address of lane `l`'s element of entry `e` (R270). -/
def affineAt (d : List Byte) (e l : Nat) : Nat :=
  let steps := (List.range (Wick.dims d)).foldl (fun (acc : Nat × Int) i =>
    (acc.1 / max (Wick.count d i) 1, acc.2 + Int.ofNat (acc.1 % max (Wick.count d i) 1) * Wick.stride d i)) (e, 0)
  intAddr (Int.ofNat (Wick.base d) + steps.2 + Int.ofNat l * Wick.laneStride d)

/-! ## Doubly compressed tiles (R271) -/

/-- The rows of a record: each pointer's local row and cumulative count; `last` is the count before. -/
def dctRows (rd : Nat → Except SFail Byte) : Nat → Nat → Nat → Except SFail (List (Nat × Nat))
  | 0, _, _ => .ok []
  | n + 1, at_, last =>
    match readN rd 2 at_ with
    | .error e => .error e
    | .ok p =>
      let cum := p / 16 % 512
      if p / 2 ^ 13 ≠ 0 || cum ≤ last || 256 < cum then .error .broken
      else (dctRows rd n (at_ + 2) cum).map (fun r => (p % 16, cum) :: r)

/-- A tile: its row and column, its rows, where its columns and its values begin. -/
structure Tile where
  row : Nat
  col : Nat
  rows : List (Nat × Nat)
  cols : Nat
  vals : Nat
  deriving DecidableEq, Repr

def Tile.elems (t : Tile) : Nat := (t.rows.getLast?.map (·.2)).getD 0

def dctTile (rd : Nat → Except SFail Byte) (d : List Byte) (i : Nat) : Except SFail Tile :=
  match readN rd 8 (Wick.aux d + 8 * i) with
  | .error e => .error e
  | .ok p =>
    let row := p % 2 ^ 16
    let col := p / 2 ^ 16 % 2 ^ 16
    let off := p / 2 ^ 32
    if off % 4 ≠ 0 || 4096 ≤ row || 4096 ≤ col then .error .broken
    else
      let rec_ := Wick.base d + off
      match rd rec_ with
      | .error e => .error e
      | .ok r =>
        if r.toNat = 0 || 16 < r.toNat then .error .broken
        else match dctRows rd r.toNat (rec_ + 2) 0 with
          | .error e => .error e
          | .ok rows =>
            let n := (rows.getLast?.map (·.2)).getD 0
            let cols := 2 + 2 * r.toNat
            .ok { row := row, col := col, rows := rows, cols := rec_ + cols
                  vals := rec_ + ceilDiv (cols + n) (Wick.size d) * Wick.size d }

/-- Element `j` of the whole array, counted from tile `i` (of `n` left): its tile and its place there, or how many
elements there are. -/
def dctFind (rd : Nat → Except SFail Byte) (d : List Byte) : Nat → Nat → Nat → Except SFail (Option (Tile × Nat))
  | 0, _, _ => .ok none
  | n + 1, i, j =>
    match dctTile rd d i with
    | .error e => .error e
    | .ok t => if j < t.elems then .ok (some (t, j)) else dctFind rd d n (i + 1) (j - t.elems)

/-- How many elements are stored. -/
def dctCount (rd : Nat → Except SFail Byte) (d : List Byte) : Nat → Nat → Except SFail Nat
  | 0, _ => .ok 0
  | n + 1, i =>
    match dctTile rd d i with
    | .error e => .error e
    | .ok t => (dctCount rd d n (i + 1)).map (· + t.elems)

/-- Entry `e` for lane `l` of a DCT stream (R270). -/
def dctEntry (rd : Nat → Except SFail Byte) (d : List Byte) (e l : Nat) : Except SFail Word :=
  let value := e % 2 = 1
  match dctFind rd d (Wick.count d 0) 0 (32 * (e / 2) + l) with
  | .error f => .error f
  | .ok none => .ok (if value then 0 else BitVec.ofNat 32 0xFFFFFFFF)
  | .ok (some (t, j)) =>
    if value then readElem rd d (t.vals + j * Wick.size d)
    else match rd (t.cols + j) with
      | .error f => .error f
      | .ok b =>
        if 16 ≤ b.toNat then .error .broken
        else
          let local_ := ((t.rows.find? (fun r => decide (j < r.2))).map (·.1)).getD 0
          .ok (BitVec.ofNat 32 ((16 * t.row + local_) * 2 ^ 16 + 16 * t.col + b.toNat))

/-! ## Entries -/

/-- N of R270; for DCT the stored elements are counted as they stand. -/
def streamCount (rd : Nat → Except SFail Byte) (d : List Byte) : Except SFail Nat :=
  match Wick.kind d with
  | 0 => .ok ((List.range (Wick.dims d)).foldl (fun n i => n * Wick.count d i) 1)
  | 1 => .ok (Wick.count d 0)
  | _ => (dctCount rd d (Wick.count d 0) 0).map (fun n => 2 * ceilDiv n 32)

/-- Lane `l`'s value of entry `e`. -/
def entryValue (rd : Nat → Except SFail Byte) (d : List Byte) (e l : Nat) : Except SFail Word :=
  match Wick.kind d with
  | 0 => readElem rd d (affineAt d e l)
  | 1 => match readN rd 4 (Wick.aux d + 4 * (32 * e + l)) with
    | .error f => .error f
    | .ok x => readElem rd d (Wick.base d + x * 2 ^ Wick.shift d)
  | _ => dctEntry rd d e l

/-- What a fetch of a stream's next entry comes to: the values, a page that is absent, or a cause with its lanes and the addresses that
met malformed entries. -/
inductive SNext
  | entry (xs : List Word)
  | absent (page size : Nat)
  | fault (c : TrapCause) (lanes : Mask) (bad : List Nat)
  deriving DecidableEq, Repr

/-- Entry `e` of a descriptor, read by `rd`. -/
def nextEntry (rd : Nat → Except SFail Byte) (d : List Byte) (e : Nat) : SNext :=
  let vs := lanes32.map (fun l => (l, entryValue rd d e l))
  let failing (p : SFail → Bool) : Mask := Mask.ofList (vs.filterMap (fun v => match v.2 with | .error f => if p f then some v.1 else none | _ => none))
  let violates : SFail → Bool := fun f => match f with
    | .violation _ => true
    | _ => false
  -- every malformed entry is reported, whichever cause is the stream's (R281)
  let bad := (vs.filterMap (fun v => match v.2 with | .error (.violation b) => b | _ => none)).eraseDups
  if failing (· == .broken) != 0 then .fault .illegalOperand Mask.all bad
  else if failing (· == .misaligned) != 0 then .fault .misaligned (failing (· == .misaligned)) bad
  else if failing violates != 0 then .fault .accessViolation (failing violates) bad
  else match vs.findSome? (fun v => match v.2 with | .error (.absent p z) => some (p, z) | _ => none) with
    | some (p, z) => .absent p z
    | none => .entry (vs.map (fun v => match v.2 with | .ok x => x | .error _ => 0))

/-- The addresses of `n` bytes. -/
def byteAddrs (at_ n : Nat) : List Nat := (List.range n).map (fun i => (at_ + i) % 2 ^ 64)

/-- The addresses of the tiles of a DCT array that the Wicket passes as it counts the elements: their pointers, row counts and rows. -/
def tileAddrs (rd : Nat → Except SFail Byte) (d : List Byte) : Nat → Nat → List Nat
  | 0, _ => []
  | n + 1, i =>
    let p := Wick.aux d + 8 * i
    byteAddrs p 8 ++ (match readN rd 8 p with
      | .error _ => []
      | .ok x =>
        let rec_ := Wick.base d + x / 2 ^ 32
        byteAddrs rec_ 1 ++ (match rd rec_, dctTile rd d i with
          | .ok r, .ok _ => byteAddrs (rec_ + 2) (2 * r.toNat) ++ tileAddrs rd d n (i + 1)
          | _, _ => []))

/-- The addresses that lane `l`'s part of an entry is read from, but for the tiles of a DCT array. -/
def entryAddrs (rd : Nat → Except SFail Byte) (d : List Byte) (e l : Nat) : List Nat :=
  match Wick.kind d with
  | 0 => byteAddrs (affineAt d e l) (Wick.size d)
  | 1 => byteAddrs (Wick.aux d + 4 * (32 * e + l)) 4 ++ (match readN rd 4 (Wick.aux d + 4 * (32 * e + l)) with
    | .ok x => byteAddrs (Wick.base d + x * 2 ^ Wick.shift d) (Wick.size d)
    | .error _ => [])
  | _ => match dctFind rd d (Wick.count d 0) 0 (32 * (e / 2) + l) with
    | .ok (some (t, j)) => if e % 2 = 1 then byteAddrs (t.vals + j * Wick.size d) (Wick.size d) else byteAddrs (t.cols + j) 1
    | _ => []

/-- The locations of an entry's bytes that come from beyond CMB and the L1: requests of the cluster (R365), which CC may take (R295). -/
def State.entryFar (s : State) (wid : Nat) (w : Warp) (x : Stream) (e : Nat) : List Nat :=
  let rd := s.streamRead wid w x
  let tiles := if Wick.kind x.desc ≤ 1 then [] else tileAddrs rd x.desc (Wick.count x.desc 0) 0
  ((tiles ++ lanes32.flatMap (entryAddrs rd x.desc e)).filter (fun va => (Table.find x.early va).isNone)).eraseDups.filterMap
    (fun va => match s.streamLoc w va with
      | .ok loc => if (s.streamLoad wid w loc).2 then some loc else none
      | .error _ => none)

/-- Requests of a stream pass the L2 request port; CC takes the bytes that it may hold (R299). -/
def State.streamFill (s : State) (wid : Nat) (w : Warp) (locs : List Nat) : State :=
  let got := (locs.filter cacheable).map (fun loc => (loc, (s.streamLoad wid w loc).1))
  (s.spend (clusterOfCore w.core) locs.length).modCore w.core (fun c => got.foldl (fun c e => c.setCc e.1 (some e.2)) c)

/-- Does the Wicket read for the warp? It does not while the warp is away, or its save routine runs (R338). -/
def Warp.fetches (w : Warp) : Bool := match w.resid with
  | .resident => true
  | .busy r => r.restore
  | .saved _ => false

/-- May a stream queue an entry now, and which (R272)? One that waits for an absent page queues none until it is resolved (R285). -/
def Warp.nextIndex (w : Warp) (st : Nat) : Option Nat :=
  let x := Table.get {} w.streams st
  let q := Table.get [] w.oqs st
  if w.fetches && x.st == .running && x.waits.isNone && decide (q.length < 8) then some (x.popped + q.length) else none

/-- R272, R273: the fetch of a RUNNING stream's next entry; none when there is nothing to do now. -/
def State.fetchEntry (s : State) (wid st : Nat) : Option State :=
  match s.warp? wid with
  | none => none
  | some w =>
    match w.nextIndex st with
    | none => none
    | some e =>
      let x := Table.get {} w.streams st
      let set (s : State) (y : Stream) (oqs : SMap (List (List Word))) : State :=
        s.modWarp wid (fun w => { w with streams := Table.put w.streams st y, oqs := oqs })
      -- a DCT array that cannot be walked to its end has more entries to find out about
      let last := match streamCount (s.streamRead wid w x) x.desc with
        | .ok n => some n
        | .error _ => none
      if (match last with | some n => decide (n ≤ e) | none => false) then some (set s { x with st := .done } w.oqs)
      else match nextEntry (s.streamRead wid w x) x.desc e with
        | .absent p z => some (set s { x with waits := some (p, z) } w.oqs)
        | r =>
          let far := s.entryFar wid w x e
          let filled := s.streamFill wid w far
          if !far.isEmpty && !s.within (clusterOfCore w.core) then none
          else match r with
            | .fault c lanes bad =>
              some (set ((malformedAt (fun va => some (s.xlateNow w.core (s.ctxOf w) va 65)) bad).foldl (fun s va => s.reportBad w va) filled) { x with st := .fault, cause := c, bad := lanes } w.oqs)
            | .entry xs =>
              some (set filled { x with queued := e + 1, st := if last = some (e + 1) then .done else .running }
                (Table.put w.oqs st (Table.get [] w.oqs st ++ [xs])))
            | .absent _ _ => none

/-- R274: a RUNNING stream reads a byte ahead of its entry, whichever (log 2): the entry's value is that byte's then. -/
def State.readAhead (s : State) (wid st : Nat) : State :=
  match s.warp? wid with
  | none => s
  | some w =>
    let x := Table.get {} w.streams st
    let va := Config.free (s.fresh + 140001) % 2 ^ 56
    match s.streamLoc w va with
    | .ok loc =>
      let far := if (s.streamLoad wid w loc).2 then [loc] else []
      if x.st == .running && w.fetches && (far.isEmpty || s.within (clusterOfCore w.core)) then
        (s.streamFill wid w far).modWarp wid (fun w => { w with
          streams := Table.put w.streams st { x with early := Table.put x.early va (s.streamLoad wid w loc).1 } })
      else s
    | .error _ => s

/-- Is the turn at hand one of those that must come (R51, R311)? -/
def State.onDuty (s : State) : Bool := decide ((s.turns - 1) % (Config.patience + 1) = 0)

/-- Does the Wicket read ahead, and not fetch, in this step? In a deterministic grid it reads each entry when it queues it (log 68). -/
def State.readsAhead (s : State) (wid : Nat) : Bool :=
  match s.warp? wid with
  | some w => !(s.gridOf w).launch.det && !s.onDuty && decide (Config.free (s.fresh + 140000) % 2 = 1)
  | none => false

/-! ## The forms (R272) -/

/-- A byte of the tiles that WCFG counts: a plain load of the issuing lane (R297, log 13). -/
def Ctx.tileByte (c : Ctx) (lane va : Nat) : Except SFail Byte :=
  match c.s.streamLoc c.w va with
  | .error e => .error e
  | .ok loc => match c.s.recordBytes c.wid lane c.w.order loc 1 with
    | some (b :: _) => .ok b
    | _ => .error (.wanted loc)

/-- WCFG waits for a byte of the tiles. -/
def Ctx.wants (c : Ctx) (lane loc : Nat) : Iss :=
  if c.s.loads.any (fun x => x.forRecord c.wid && x.lane == lane && x.order == c.w.order && x.loc == loc) then .wait .memWait
  else .hold (c.s.addLoads 0 c.wid lane c.w.core loc 1 .core c.w.order false).1 .memWait

/-- R272, WCFG. A DCT stream's tiles are counted, byte by byte, before the descriptor is captured; where they break R271, or a byte of them
cannot be had, N is not known and the stream is STOPPED (log 83). -/
def execWcfg (h : Hdr) (st : Nat) (a b : Opnd) (s : State) : Res :=
  issue 0xD4 8 (max (a.need 2) (b.need 1)) h s (fun c =>
    match c.active.lowest with
    | none => .done c.s
    | some l =>
      let va := c.rd [a] 0 true l
      if (Table.get {} c.w.streams st).st == .running then .trap c.s .queueMisuse c.active
      else match c.s.checkRead c.w l va 64 with
        | .miss u => .walk [u]
        | .absent p z => .fault p z 1
        | .cause k v => .trap (v.toList.foldl (fun s va => s.reportBad c.w va) c.s) k c.active
        | .ok loc =>
          c.records [(l, loc)] 64 (fun s recs =>
            let s := c.stampRecords s 64 (fun _ => va) [l]
            let d := recs.flatMap (·.2)
            let pos := c.rd [b] 0 false l
            let sets (s : State) (done : Bool) : Iss :=
              let x : Stream := { st := if done then .done else .stopped, desc := d, popped := pos, queued := pos }
              .done (s.putWarp c.wid { c.w with streams := Table.put c.w.streams st x, oqs := Table.drop c.w.oqs st })
            if !Wick.ok d then .trap s .illegalOperand c.active
            else match streamCount (c.tileByte l) d with
              | .ok n => if 2 ^ 29 ≤ n then .trap s .illegalOperand c.active else sets s (decide (n ≤ pos))
              | .error (.wanted loc) => c.wants l loc
              | .error (.absent p z) => .fault p z 1
              | .error (.violation bad) => sets (bad.toList.foldl (fun s va => s.reportBad c.w va) s) false
              | .error _ => sets s false))

/-- A configured stream moves from one state to another; any other configured state stays (R272). What one has read ahead counts from
its WSTART on (R274). -/
def streamMove (op : Nat) (h : Hdr) (st : Nat) (old new : StreamSt) (s : State) : Res :=
  issue op 8 0 h s (fun c =>
    let x := Table.get {} c.w.streams st
    if c.active == 0 then .done c.s
    else if x.st == .unconfigured then .trap c.s .queueMisuse c.active
    else .done (c.s.putWarp c.wid { c.w with
      streams := Table.put c.w.streams st (if x.st == old then { x with st := new, early := [], waits := none } else x) }))

def execWstart (h : Hdr) (st : Nat) (s : State) : Res := streamMove 0xD5 h st .stopped .running s
def execWstop (h : Hdr) (st : Nat) (s : State) : Res := streamMove 0xD6 h st .running .stopped s

def StreamSt.code : StreamSt → Nat
  | .unconfigured => 0
  | .stopped => 1
  | .running => 2
  | .done => 3
  | .fault => 4

/-- R272, WSTAT. -/
def execWstat (h : Hdr) (d : Opnd) (st la : Nat) (s : State) : Res :=
  issue 0xD7 8 0 h s (fun c =>
    match c.active.lowest with
    | none => .done c.s
    | some l =>
      let x := Table.get {} c.w.streams st
      .done (c.launch c.s la 4 .plain (regWrites d l false (x.st.code * 2 ^ 29 ||| x.popped % 2 ^ 32))))

end Sys2Proof.Machine
end

