-- ==== Sys2Proof/Machine/Saves.lean ====
section
/-! DEFINITION. The command ring (R379, R382), and saving and restoring warps (R25, R335–R342). -/
namespace Sys2Proof.Machine

/-! ## The command ring -/

/-- The entry at the ring's read index, if the host has written one. -/
def State.commandAt (s : State) : Option Nat :=
  match s.mod.bringup with
  | none => none
  | some b =>
    let r := s.peekN (b.commands + 4) 4
    if s.peekN b.commands 4 = r then none else some (b.commands + 64 + 64 * (r % max b.commandEntries 1))

/-- A command's opcode and arguments (Table 34.2). -/
def State.commandOf (s : State) (at_ : Nat) : Nat × Cmd :=
  (s.peekN at_ 1, { ctx := s.peekN (at_ + 2) 2, arg0 := s.peekN (at_ + 8) 8, arg1 := s.peekN (at_ + 16) 8 })

/-- The command at hand is done or refused: its status, the read index, and for a refusal an error record. -/
def State.endCommand (s : State) (done : Bool) : State :=
  match s.mod.bringup, s.commandAt with
  | some b, some at_ =>
    let ctx := s.peekN (at_ + 2) 2
    let s := (s.pokeN (at_ + 1) 1 (if done then 1 else 2)).pokeN (b.commands + 4) 4 ((s.peekN (b.commands + 4) 4 + 1) % 2 ^ 32)
    let s := { s with mod := { s.mod with command := none } }
    if done then s else s.errorRecord 0x18 ctx s.noSource at_
  | _, _ => { s with mod := { s.mod with command := none } }

/-! ## Safe points (R105, R336, R337) -/

/-- Does an instruction with S = 1 stand at a code offset? Words that R95 makes no instruction have no S. -/
def State.safeAt (s : State) (w : Warp) (pc : Nat) : Bool :=
  match s.codeWord w pc with
  | .word x => x / 2 ^ 61 % 2 = 1 && (match (if twoWords x then s.codeWord w (pc + 8) else .word 0) with
    | .word y => match decodeWords x y with
      | .illegalOpcode _ => false
      | _ => true
    | _ => false)
  | _ => false

/-- Does a lane stand at a safe point? Between two repeats it does not (R105, R111). -/
def State.standsSafe (s : State) (w : Warp) (l : Nat) : Bool := !(w.th l).inRep && s.safeAt w (w.th l).pc

/-- R337. A warp with results still on their way has instructions before the safe point that have not completed (R105). An access that has
met an absent page proceeds or traps first, also once the page is there (R285). -/
def State.savable (s : State) (w : Warp) : Bool :=
  w.isResident && w.living.lanes.all (s.standsSafe w)
    && w.copiesOut.isEmpty && w.flights.isEmpty && w.pend.isNone && w.access == 0
    && (match w.waitPage with | some (_, _, k) => k == 4 | none => true)

/-- The READY lanes whose fronts park now (R336): at S instructions, but where a lane has just been released or has an access under way. -/
def State.parking (s : State) (w : Warp) : Mask :=
  if w.saveDue.isEmpty || (s.gridOf w).launch.det || !w.isResident then 0
  else Mask.ofPred (fun l => w.readyMask.has l && (w.frontOf l &&& (w.released ||| w.access)) == 0 && s.standsSafe w l)

/-- R336, R31: fronts at S instructions are parked while a save is due; then a choice that has waited for that is made. -/
def State.park (s : State) (wid : Nat) : State :=
  s.modWarp wid (fun w =>
    let m := s.parking w
    (if m == 0 then w else { w with parked := w.parked ||| m }.regroupFront).choose)

/-- R336: with no READY thread unparked and the warp not savable, every parked front goes on. -/
def State.unpark (s : State) (wid : Nat) (w : Warp) : State :=
  if w.parked != 0 && w.readyMask == 0 && !s.savable w then
    s.putWarp wid ({ w with released := w.released ||| w.parked, parked := 0 }).regroupFront
  else s

/-! ## Routines (R338, R340) -/

/-- The distinct PCs of the living threads, ascending, with their lanes. -/
def Warp.places (w : Warp) : List (Nat × Mask) :=
  (ascending (w.living.lanes.map (fun l => (w.th l).pc))).map (fun pc => (pc, Mask.ofPred (fun l => w.living.has l && (w.th l).pc == pc)))

/-- The routines of a warp's safe points, entry and front; or that the table does not list one of them (R105), or has it on a page that
is absent (R285). -/
inductive Routines
  | run (rs : List (Nat × Mask))
  | missing
  | absent (page size : Nat)
  deriving DecidableEq, Repr

def State.routines (s : State) (w : Warp) (restore : Bool) : Routines :=
  w.places.foldr (fun p acc => match s.safeEntry w p.1, acc with
    | .absent p z, _ => .absent p z
    | _, .absent p z => .absent p z
    | .entry _ save rest, .run r => .run ((if restore then rest else save, p.2) :: r)
    | _, _ => .missing) (.run [])

/-- What the routines come to for a warp whose save, stop or restoring is due: they run, the table's page is waited for, or the context
ends (R105). Malformed entries on the way to the table are reported (R281). -/
def State.withRoutines (s : State) (wid : Nat) (w : Warp) (rs : Routines) (k : State → List (Nat × Mask) → State) : State :=
  let told := w.places.foldl (fun s p => s.safeReports w p.1) s
  match rs with
  | .run r => k told r
  | .absent p z => s.modWarp wid (fun x => { x with waitPage := some (p, z, 1) })
  | .missing => told.endContext (s.ctxOf w) w.part 0

/-- The next routine starts: its front, every thread active (R338), at the offset as the table has it (log 92). -/
def Warp.startRoutine (w : Warp) (r : Routine) : Warp :=
  match r.todo with
  | [] => w
  | (pc, m) :: todo =>
    let w := w.modLanes m (fun _ t => { t with st := .ready, pc := pc, inRep := false })
    { w with
      resid := .busy { r with mask := m, todo := todo }, cur := some m, choosing := none, quantum := 0, switching := false
      parked := 0, wait := none, waitPage := none }

/-- The area's address in V(.regs − 2):V(.regs − 1). -/
def Warp.setArea (w : Warp) (regs area : Nat) (lanes : List Nat) : Warp :=
  lanes.foldl (fun w l => (w.setV l (regs - 2) (BitVec.ofNat 32 area)).setV l (regs - 1) (BitVec.ofNat 32 (area / 2 ^ 32))) w

/-- Has every thread of the routine that runs ended it? -/
def Warp.routineOver (w : Warp) (r : Routine) : Bool :=
  w.flights.isEmpty && r.mask.lanes.all (fun l => (w.th l).st.gone || (w.th l).st == .tret)

/-- The size of a save area (R339). -/
def areaBytes : Nat := 2 ^ 17

/-- The areas of a stretch. -/
def areasOf (at_ n : Nat) : List Nat := (List.range n).map (fun i => at_ + areaBytes * i)

/-- The lowest place of `n` free areas in a row in a context's save pool (log 16). -/
def Context.freeStretch (c : Context) (n : Nat) : Option Nat :=
  (ascending (c.pool :: c.areas.map (· + areaBytes))).find? (fun a =>
    (areasOf a n).all (fun x => !c.areas.contains x) && decide (a + areaBytes * n ≤ c.pool + c.poolSize))
def Context.freeArea (c : Context) : Option Nat := c.freeStretch 1

/-- Steps 1 to 3 of R338. With no area free in the pool the save waits (log 19). The streams stay as the routine's WSTAT reads them
(R274), with their entries discarded (R60). -/
def State.beginSave (s : State) (wid : Nat) (w₀ : Warp) : State :=
  let w := w₀.releaseAll
  s.withRoutines wid w (s.routines w false) (fun s todo =>
    match (s.context (s.ctxOf w)).freeArea with
    | none => s
    | some area =>
      let frozen : Frozen := {
        threads := w.threads, trap := w.trap, stopped := w.stopped, done := w.done, rot := w.rot, cur := w.cur, choosing := w.choosing }
      let w' := { w with
        oqs := [], streams := Table.mapVal (fun _ (x : Stream) => { x with queued := x.popped }) w.streams
        released := 0, trap := none, stopped := none, saveArea := area }
      let w' := w'.setArea (s.kernOf w).regs area w.living.lanes
      (s.modContext (s.ctxOf w) (fun c => { c with areas := c.areas ++ [area] })).putWarp wid
        (w'.startRoutine { restore := false, mask := 0, todo := todo, frozen := frozen }))

/-- The partitions that a switched-off context holds without a warp in a slot are given up (R343, R382). -/
def State.giveUp (s : State) (ctx : Nat) : State :=
  ((s.parts.filter (fun e => e.2.switching && e.2.owner == ctx
    && s.warps.all (fun w => w.2.part ≠ e.1 || !w.2.inSlot || s.ctxOf w.2 ≠ ctx))).map (·.1)).foldl (fun s p => s.setOwner p 0) s

/-- Step 5 of R338: the warp is SAVED. The release that its restoring waits for starts (R339). A stop that has become due meanwhile stays
due. -/
def State.endSave (s : State) (wid : Nat) (w : Warp) (r : Routine) : State :=
  let ctx := s.ctxOf w
  let lanes := Mask.ofPred (fun l => !(Table.get {} r.frozen.threads l).st.gone)
  let s := s.event w w.part 3 0
  let s := s.putWarp wid { w.leaves 2 with
    resid := .saved r.frozen, saveDue := w.saveDue.filter (· == .stop), streams := [], cur := none, parked := 0, released := 0 }
  (s.addMarkers .relMarker wid lanes .dev w.order w.core).giveUp ctx

/-- The STOP command is done: its warp has stopped, at the command's behest or before (R382). -/
def State.stopDone (s : State) (wid : Nat) : State :=
  let s := s.modWarp wid (fun w => { w with saveDue := w.saveDue.filter (· != .stop) })
  match s.mod.command with
  | some (0x0B, _) => s.endCommand true
  | _ => s

/-- R335: a debug stop falls where the warp becomes savable; no routine runs. -/
def State.stopHere (s : State) (wid : Nat) (w₀ : Warp) : State :=
  let w := w₀.releaseAll
  s.withRoutines wid w (s.routines w false) (fun s _ =>
    let w := { w with parked := 0, released := 0 }
    let s := s.putWarp wid { w.regroupFront with stopped := some { lanes := 0, ret := [], kind := .reissue, replay := none, cause := .breakpoint } }
    (s.errorRecord 0x1A (s.ctxOf w) w.part (16 * w.part + w.slot)).stopDone wid)

/-- R336–R338: what there is to do now for a warp whose save is due: start it, end a routine, or release parked fronts. -/
def execWarpSave (wid : Nat) (s : State) : Res :=
  .next (match s.warp? wid with
    | none => s
    | some w => match w.resid with
      | .saved _ => s
      | .busy r =>
        if r.restore || !w.routineOver r then s
        else if r.todo.isEmpty then s.endSave wid w r
        else s.putWarp wid (w.startRoutine r)
      | .resident =>
        -- a warp with no living thread retires, and is not saved (R25)
        if w.saveDue.isEmpty || w.living == 0 then s
        else if w.saveDue.contains .stop && w.stopped.isSome then s.stopDone wid
        else if !s.savable w then s.unpark wid w
        else if w.saveDue.contains .stop then s.stopHere wid w
        else s.beginSave wid w)

/-! ## Restoring (R340) -/

/-- May a SAVED warp come back (R42, R339, R341)? One that holds a thread whose CWAIT is over, or a READY one, does; and READMIT wants
every one back. -/
def State.mayRestore (s : State) (wid : Nat) (w : Warp) (f : Frozen) : Bool :=
  let ctx := s.ctxOf w
  lanes32.all (fun l => !s.marked wid l (·.order == w.order)) && !(s.teamOf w).saved && s.open ctx (clusterOfCore w.core) && w.waitPage.isNone
    && ((match s.mod.command with | some (0x0A, c) => c.ctx == ctx | _ => false)
      || lanes32.any (fun l => (Table.get {} f.threads l).st == .cwait [] || (Table.get {} f.threads l).st.isReady))

/-- Step 1 of R340 in a slot of a partition. SR_DONE and SR_REP, of which it gives no value before step 3, are 0 and as frozen (log 105). -/
def State.beginRestore (s : State) (wid : Nat) (w : Warp) (f : Frozen) (p slot : Nat) (lanesAt : List (Nat × Nat)) : State :=
  let g := s.gridOf w
  let fresh := launchWarp g w.team w.num p slot 0
  let w' : Warp := { fresh with
    threads := Table.mapVal (fun _ (t : Thread) => { t with preds := 0x80, fpf := 0, lvmem := 0 }) f.threads
    wregs := [], hregs := [], cur := none, prioCap := w.prioCap, prio := w.prioCap, order := w.order
    safeOrd := w.safeOrd, sinceSafe := w.sinceSafe, replays := w.replays, saveArea := w.saveArea, saveDue := w.saveDue
    early := w.early, passKeyhole := w.passKeyhole }
  let w' := w'.setArea g.kern.regs w.saveArea lanes32
  s.withRoutines wid w' (s.routines w' true) (fun s todo =>
    let s := s.modTeam w.team (fun t => { t with lanesAt := Table.set [] t.lanesAt w.num lanesAt })
    let s := (s.takeSlots p g.ctx [slot]).untag w.core g.ctx
    s.putWarp wid (s.joined (w'.startRoutine { restore := true, mask := 0, todo := todo, frozen := f })))

/-- A blocked thread of a restored warp whose condition has come about while it was away (R25, R340). -/
def State.wake (s : State) (w : Warp) : Warp :=
  let t := s.teamOf w
  let gen := (s.span? t.span).map (·.gen)
  w.modLanes Mask.all (fun _ th =>
    let go : Bool := match th.st with
      | .bar b e => decide (Table.get 0 t.bars b ≠ e)
      | .barc e => decide (gen ≠ some e)
      | .cwait ks => ks.isEmpty
      | .copy n => w.batchesDone n
      | _ => false
    if go then { th with st := .ready, pc := (th.pc + 8) % 2 ^ 32 } else th)

/-- Are all warps and teams of a context back (R382)? -/
def State.allBack (s : State) (ctx : Nat) : Bool :=
  s.warps.all (fun e => s.ctxOf e.2 ≠ ctx || e.2.isResident)
    && s.mod.teams.all (fun e => (s.grid e.2.grid).ctx ≠ ctx || !e.2.saved)

def State.readmitted (s : State) (ctx : Nat) : State :=
  match s.mod.command with
  | some (0x0A, c) => if c.ctx = ctx && s.allBack ctx then s.endCommand true else s
  | _ => s

/-- Steps 2 and 3 of R340 are over: the warp goes on where it was. -/
def State.endRestore (s : State) (wid : Nat) (w : Warp) (r : Routine) : State :=
  let ctx := s.ctxOf w
  let f := r.frozen
  let w' := { w.leaves 2 with
    threads := Table.mapVal (fun l (t : Thread) =>
      let o := Table.get {} f.threads l
      { t with pc := o.pc, rep := o.rep, inRep := o.inRep, st := o.st }) w.threads
    trap := f.trap, stopped := f.stopped, done := f.done, rot := f.rot, cur := f.cur, choosing := f.choosing, quantum := 0
    switching := false, resid := .resident, saveArea := 0 }
  let acquires := w'.living.lanes.any (fun l => (w'.th l).st == .cwait [])
  let w' := (s.wake w').settle
  let s := s.modContext ctx (fun c => { c with areas := c.areas.filter (· != w.saveArea) })
  let s := (s.putWarp wid w').event w' w'.part 4 0
  let s := if acquires then s.acquire w.core .dev else s
  (((s.tryBars w.team).tryQueues w.team).turnstile (s.teamOf w).grid).readmitted ctx

/-- R340: a SAVED warp starts coming back in slot `slot` of its core, 16 to a partition; or its next routine starts, or it
goes on. -/
def execWarpRestore (wid slot : Nat) (s : State) : Res :=
  .next (match s.warp? wid with
    | none => s
    | some w => match w.resid with
      | .resident => s
      | .busy r =>
        if !r.restore || !w.routineOver r then s
        else if r.todo.isEmpty then s.endRestore wid w r
        else s.putWarp wid (w.startRoutine r)
      | .saved f =>
        let p := 4 * w.core + slot / 16
        let b := s.bay (s.ctxOf w) w.team p
        if 64 ≤ slot || !b.slots.contains (slot % 16) || !s.mayRestore wid w f then s
        else match ({ b with slots := [slot % 16] }).fits (s.kernOf w) with
          | some (i, a) => s.beginRestore wid w f p i a
          | none => s)

/-! ## Context switches (R341, R382) -/

def inMask (m k : Nat) : Bool := m / 2 ^ k % 2 = 1

/-- The bytes of a range of storage. -/
def State.bytesAt (s : State) (pa n : Nat) : List Byte := (List.range n).map (fun i => s.peek (pa + i))

/-- Bytes written at a virtual address of a context, where its pages take them. -/
def State.devWrite (s : State) (ctx va : Nat) (bs : List Byte) : State :=
  bs.zipIdx.foldl (fun s b => match s.devPlace ctx (va + b.2) .wr with
    | .ok loc => s.pokeBytes loc [b.1]
    | _ => s) s

/-- Is a switched context off its clusters: every warp SAVED, and every store of its routines out? -/
def State.offClusters (s : State) (ctx mask : Nat) : Bool :=
  s.warps.all (fun e => s.ctxOf e.2 ≠ ctx || !inMask mask (clusterOfCore e.2.core)
    || ((match e.2.resid with | .saved _ => true | _ => false) && lanes32.all (fun l => !s.marked e.1 l (·.order == e.2.order))))

/-- The first absent page that a copy of `n` bytes to or from a context's save pool meets (R285). -/
def State.poolWaits (s : State) (ctx at_ n : Nat) (acc : Acc) : Option (Nat × Nat) :=
  (unitsOf [(at_, n)]).findSome? (fun u => (s.devPlace ctx (u * 2 ^ 12) acc).page?)

/-- The addresses that a copy of `n` bytes of a save pool walks for, one to a unit. -/
def poolAddrs (at_ n : Nat) : List Nat := (unitsOf [(at_, n)]).map (· * 2 ^ 12)

/-- The state after a move to the save pool, or what keeps it: no room, or an absent page. -/
abbrev Moved := Except (Option (Nat × Nat)) State

/-- Bytes copied into free areas of a context's save pool, and the place. It waits while the pool has no room (log 19, log 38), and for an
absent page, which it names. -/
def State.toPool (s : State) (ctx : Nat) (bs : List Byte) : Except (Option (Nat × Nat)) (State × Nat) :=
  let n := ceilDiv bs.length areaBytes
  match (s.context ctx).freeStretch n with
  | none => .error none
  | some a => match s.poolWaits ctx a bs.length .wr with
    | some page => .error (some page)
    | none =>
      let s := s.modContext ctx (fun c => { c with areas := c.areas ++ areasOf a n })
      .ok ((s.devWrite ctx a bs).reportWalks 0 ctx (poolAddrs a bs.length), a)

/-- `n` bytes of the save pool, whose areas are free again. -/
def State.fromPool (s : State) (ctx at_ n : Nat) : State × List Byte :=
  ((s.modContext ctx (fun c => { c with areas := c.areas.filter (fun a => !(areasOf at_ (ceilDiv n areaBytes)).contains a) })).reportWalks 0 ctx
    (poolAddrs at_ n), (List.range n).map (fun i => BitVec.ofNat 8 (s.devRead ctx (at_ + i) 1)))

/-! The layout of what a switch copies (log 38): a scratchpad or a window as it stands, then the words of R61, R133 and R134. -/

/-- A team queue's control block (R264): initialised or not, the ring's place, depth, head, tail, count, and the allowances. -/
def tqBytes : Option TQ → List Byte
  | none => leBytes 60 0
  | some q => leBytes 4 1 ++ leBytes 4 q.ring ++ leBytes 4 q.depth ++ leBytes 4 q.head ++ leBytes 4 q.tail ++ leBytes 4 q.count
      ++ lanes32.flatMap (fun i => leBytes 1 (Table.get 0 q.allow i)) ++ leBytes 4 0

def Team.control (t : Team) : List Byte :=
  (List.range 16).flatMap (fun k => tqBytes (Table.find t.tqs k)) ++ (List.range 4).flatMap (fun b => leBytes 2 (Table.get 0 t.bars b))

/-- The bytes of `Team.control`: 16 blocks of 60, and 4 generations. -/
def controlBytes : Nat := 968

/-- A control block read back; who waits at the queue is in the threads' states, and stays. -/
def TQ.ofBytes (bs : List Byte) (waiters : List QWait) : Option TQ :=
  if field bs 0 4 = 0 then none
  else some {
    ring := field bs 4 4, depth := field bs 8 4, head := field bs 12 4, tail := field bs 16 4, count := field bs 20 4
    allow := lanes32.foldl (fun m i => Table.set 0 m i (field bs (24 + i) 1)) [], waiters := waiters }

def Team.withControl (t : Team) (bs : List Byte) : Team :=
  { t with
    tqs := (List.range 16).foldl (fun m k => match TQ.ofBytes ((bs.drop (60 * k)).take 60) (((Table.find t.tqs k).map (·.waiters)).getD []) with
      | some q => Table.put m k q
      | none => m) []
    bars := (List.range 4).foldl (fun m b => Table.set 0 m b (field bs (960 + 2 * b) 2)) [] }

/-- All bytes of a local space, and all of them written. -/
def State.spaceBytes (s : State) (x : Space) : List Byte := (x.parts 0 x.size).flatMap (fun p => s.bytesAt p.1 p.2)
def State.fillSpace (s : State) (x : Space) (bs : List Byte) : State :=
  ((x.parts 0 x.size).foldl (fun (a : State × List Byte) p => (a.1.pokeBytes p.1 (a.2.take p.2), a.2.drop p.2)) (s, bs)).1

/-- What is copied of a team and of a span group. -/
def State.teamBytes (s : State) (t : Team) : Nat := (s.grid t.grid).kern.scratch + controlBytes
def State.spanBytes (s : State) (x : Span) : Nat := (s.grid x.grid).kern.clusterspan + 2

/-- One team leaves for the save pool with its scratchpad, queues and barriers, or a span group with its window and barrier. -/
def State.teamOut (s : State) (ctx tid : Nat) (t : Team) : Moved :=
  (s.toPool ctx (s.spaceBytes (t.space (s.grid t.grid).kern) ++ t.control)).map (fun r =>
    r.1.modTeam tid (fun t => { t with saved := true, poolAt := r.2 }))
def State.spanOut (s : State) (ctx sp : Nat) (x : Span) : Moved :=
  (s.toPool ctx (s.spaceBytes (x.space (s.grid x.grid).kern) ++ leBytes 2 x.gen)).map (fun r =>
    r.1.modSpan sp (fun x => { x with poolAt := r.2 }))

/-- One team returns to the pieces `at_` of its core's scratchpad, or a span group's window to its cluster's. -/
def State.teamBack (s : State) (ctx tid : Nat) (t : Team) (at_ : List (Nat × Nat)) : State :=
  let k := (s.grid t.grid).kern
  let r := s.fromPool ctx t.poolAt (s.teamBytes t)
  (r.1.modTeam tid (fun y => { y.withControl (r.2.drop k.scratch) with saved := false, scratchAt := at_ })).fillSpace
    (({ t with scratchAt := at_ } : Team).space k) (r.2.take k.scratch)
def State.spanBack (s : State) (ctx sp : Nat) (x : Span) (at_ : List (Nat × Nat)) : State :=
  let k := (s.grid x.grid).kern
  let r := s.fromPool ctx x.poolAt (s.spanBytes x)
  (r.1.modSpan sp (fun y => { y with windowAt := at_, gen := field r.2 k.clusterspan 2 })).fillSpace
    (({ x with windowAt := at_ } : Span).space k) (r.2.take k.clusterspan)

/-- Teams and span groups leave for the save pool, once all of them can. -/
def State.copyOut (s : State) (ctx mask : Nat) : Moved :=
  let mine (cluster grid : Nat) : Bool := (s.grid grid).ctx == ctx && inMask mask cluster
  let spans := s.mod.spans.filter (fun e => mine e.2.cluster e.2.grid && e.2.teams.any (fun t => !(s.team t).saved))
  let teams := s.mod.teams.filter (fun e => mine (clusterOfCore e.2.core) e.2.grid && !e.2.saved)
  let out : Moved := spans.foldl (fun (a : Moved) e => a.bind (fun s => s.spanOut ctx e.1 e.2)) (.ok s)
  teams.foldl (fun (a : Moved) e => a.bind (fun s => s.teamOut ctx e.1 e.2)) out

/-- The first absent page that the way back of a span group's window and scratchpads meets (R285). -/
def State.backWaits (s : State) (x : Span) : Option (Nat × Nat) :=
  let g := s.grid x.grid
  (s.poolWaits g.ctx x.poolAt (s.spanBytes x) .rd).or (x.teams.findSome? (fun t => s.poolWaits g.ctx (s.team t).poolAt (s.teamBytes (s.team t)) .rd))

/-- The span groups of a context with teams that are away. -/
def State.spansAway (s : State) (ctx : Nat) : SMap Span :=
  s.mod.spans.filter (fun e => (s.grid e.2.grid).ctx == ctx && e.2.teams.any (fun t => (s.team t).saved))

/-- The absent page, with the kind of access, that a SWITCH or READMIT of the context waits for (R285, R341). -/
def State.poolAway (s : State) (ctx : Nat) : Option (Nat × Nat × Nat) :=
  match s.mod.command with
  | some (0x09, c) =>
    let mask := ((s.context ctx).switchMask).getD 0
    if c.ctx = ctx && s.offClusters ctx mask then (match s.copyOut ctx mask with
      | .error (some p) => some (p.1, p.2, 2)
      | _ => none)
    else none
  | some (0x0A, c) => if c.ctx = ctx then ((s.spansAway ctx).findSome? (fun e => s.backWaits e.2)).map (fun p => (p.1, p.2, 1)) else none
  | _ => none

/-- The teams of a span group return to their cores and their window to its cluster, if all of them find room. -/
def State.copyBack (s : State) (sp : Nat) (x : Span) : State :=
  let g := s.grid x.grid
  match (if (s.backWaits x).isSome then none else s.windowFor x.cluster g.kern) with
  | none => s
  | some win =>
    let back := x.teams.foldl (fun (acc : Option State) t => acc.bind (fun s =>
      let tm := s.team t
      (s.scratchFor tm.core g.kern).map (s.teamBack g.ctx t tm))) (some s)
    match back with
    | none => s
    | some s => s.spanBack g.ctx sp x win

/-- R341: the copy to the save pool is complete, and with it SWITCH; or (`back`) what has room has come back. -/
def execSavePoolCopyComplete (ctx : Nat) (back : Bool) (s : State) : Res :=
  .next (match s.mod.command, back with
    | some (0x09, c), false =>
      let mask := ((s.context ctx).switchMask).getD 0
      if c.ctx = ctx && s.offClusters ctx mask then (match s.copyOut ctx mask with
        | .ok s => (s.giveUp ctx).endCommand true
        | .error _ => s)
      else s
    | some (0x0A, c), true =>
      if c.ctx ≠ ctx then s
      else
        ((s.spansAway ctx).foldl (fun s e => s.copyBack e.1 e.2) s).readmitted ctx
    | _, _ => s)

end Sys2Proof.Machine
end

