-- ==== Sys2Proof/Machine/Offer.lean ====
section
/-! DEFINITION. What a warp offers for issue and what holds it back (R95, R106, R108–R111, R129, R179, R225, R228, R240, R245,
R323, R326, R327), the Keyhole's match (R354), and the selection of a port (R324). -/
namespace Sys2Proof

/-! ## Its timing (Table 24.5) -/

/-- The type and the destination of a port A form. -/
def Instr.typed : Instr → Option (NumTy × Opnd)
  | .mov f _ | .movi f | .sel f _ _ | .iadd f | .isub f | .iaddc f _ _ _ _ | .imul f | .imulh f | .imin f | .imax f | .iabs f
  | .and f | .or f | .xor f | .andn f | .not f | .shl f | .shr f | .sar f | .rotl f | .popc f | .clz f | .ctz f | .brev f | .bfx f
  | .lpick f _ _ _ | .lpoll f _ _ _ | .lfold f _ | .scan f _ _ _ _ | .lpeer f _ | .rdfl f | .lsend f _ | .wmov f _ _ | .fadd f
  | .fmul f | .fmin f | .fmax f | .frnd f _ | .fscl f | .dadd f | .dmul f | .dmin f | .dmax f | .duoadd f | .duomul f => some (f.ty, f.d)
  | .imad f | .imadw f | .fsh f _ | .bfi f | .bperm f | .lea f _ _ | .ffma f | .dfma f | .duofma f => some (f.ty, f.d)
  | .icmp f | .fcmp f | .fclass f | .dcmp f => some (f.ty, .none)
  | .pmov f _ => some (f.ty, .none)
  | .plop _ _ _ _ _ _ => some (.i32, .none)
  | _ => none

/-- The clocks that a port A form holds its port (Table 24.5). -/
def Instr.clocksA (i : Instr) : Nat :=
  match i.typed with
  | none => 1
  | some (ty, d) =>
    if d.isW then 1
    else match i with
      | .imadw _ | .lfold _ _ | .scan _ _ _ _ _ | .dadd _ | .dmul _ | .dfma _ | .dmin _ | .dmax _ | .dcmp _ => 2
      | .lpick _ _ _ _ | .lpoll _ _ _ _ | .lpeer _ _ | .rdfl _ | .lsend _ _ | .wmov _ _ _ => 1
      | .fadd _ | .fmul _ | .ffma _ | .fmin _ | .fmax _ | .frnd _ _ | .fscl _ | .fcmp _ | .fclass _ | .duoadd _ | .duomul _ | .duofma _ => 1
      | _ => if ty.wide then 2 else 1

/-- Issue to use of the forms that write when they issue: the clocks until a dependent may issue. -/
def Instr.useClocks (i : Instr) : Nat :=
  match i with
  | .rdfl _ | .wmov _ _ _ | .srseed _ _ => 6
  | .srd _ _ _ | .tstamp _ _ => 4
  | .mshape _ _ _ | .lvorg _ _ | .lvmem _ | .lvctl _ => 2
  | _ => match i.typed with
    | none => 1
    | some (ty, d) =>
      if d.isW then 2
      else match i with
        | .lfold _ _ | .scan _ _ _ _ _ => 10
        | .lpick _ _ _ _ | .lpoll _ _ _ _ | .lpeer _ _ | .lsend _ _ => 6
        | .imul _ | .imulh _ | .imad _ | .imadw _ | .dadd _ | .dmul _ | .dfma _ | .dmin _ | .dmax _ | .dcmp _ => 6
        | .fadd _ | .fmul _ | .ffma _ | .fmin _ | .fmax _ | .frnd _ _ | .fscl _ | .fcmp _ | .fclass _ | .duoadd _ | .duomul _ | .duofma _ => 4
        | _ => if ty.wide then 6 else 4

/-- A form that may change PCs: its front issues again two clocks later when a lane has branched. -/
def Instr.isBranch : Instr → Bool
  | .bra _ _ _ | .brx _ _ _ | .call _ _ _ _ | .callx _ _ _ _ | .ret _ _ _ => true
  | _ => false

/-- The accesses that Peephole stamps (Table 32.3). -/
def Instr.stamps : Instr → Bool
  | .ld _ _ _ | .st _ _ _ | .ldw _ _ _ | .mld _ _ _ | .mst _ _ _ _ _ | .lda _ _ | .strl _ _ | .acqr _ _ | .atom _ _ | .atomc _ _ | .red _ _
  | .dgst _ _ _ _ | .launch _ _ _ | .tdesc _ _ _ _ | .wcfg _ _ _ _ => true
  | _ => false

/-- The instructions that wait for every earlier long-latency instruction of their threads (R108, R129). -/
def Instr.closes (i : Instr) (inRep : Bool) : Bool :=
  (i.hdr.safe && !inRep) || (match i with
    | .exit _ | .regroup _ _ _ _ | .trap _ _ | .bkpt _ _ | .tret _ | .bar _ _ | .barc _ | .launch _ _ _ | .cwait _ _ | .dgst _ _ _ _ => true
    | _ => false)

end Sys2Proof

namespace Sys2Proof.Machine

/-! ## The offered instruction -/

/-- The next instruction at a lane's PC: an instruction with the PC that it is charged to, a word that traps at decode
(R95, R97), a page that is absent, or one that is not mapped (R282). -/
inductive Offered
  | ok (i : Instr) (pc : Nat)
  | bad (opcode : Bool) (op pc : Nat)
  | absent (page size : Nat)
  | unmapped (bad : Option Nat)
  deriving DecidableEq, Repr

/-- Repeat `count − left` of the REP whose word is `wr` (R109–R111). -/
def repeated (wr w0 w1 left pc : Nat) : Offered :=
  match decodeWords wr 0 with
  | .ok (.rep _ md ma mb mc step count) =>
    match decodeWords w0 w1 with
    | .ok i =>
      let a3 := match i.repView with
        | some v => v.a3
        | none => false
      match repeatInstr md ma mb mc a3 step (count - left) (Raw.ofWords w0 w1) with
      | some j => .ok j (pc + 8)
      | none => .bad false i.op (pc + 8)
    | .illegalOpcode op => .bad true op (pc + 8)
    | .illegalOperand op => .bad false op (pc + 8)
  | _ => .bad false 0x15 pc

def State.offer (s : State) (w : Warp) (lane : Nat) : Offered :=
  let t := w.th lane
  let at_ (k : Nat) : CodeRes := s.codeWord w (t.pc + k)
  let fetched (r : CodeRes) (k : Nat → Offered) : Offered := match r with
    | .word x => k x
    | .absent p z => .absent p z
    | .unmapped b => .unmapped b
  let second (w0 k : Nat) (f : Nat → Offered) : Offered := if twoWords w0 then fetched (at_ k) f else f 0
  if t.inRep then fetched (at_ 0) (fun wr => fetched (at_ 8) (fun w0 => second w0 16 (fun w1 => repeated wr w0 w1 t.rep t.pc)))
  else fetched (at_ 0) (fun w0 => second w0 8 (fun w1 => match decodeWords w0 w1 with
    | .ok i => .ok i t.pc
    | .illegalOpcode op => .bad true op t.pc
    | .illegalOperand op => .bad false op t.pc))

/-- The port of an offered word; none while it is not fetched (R95, R100). -/
def Offered.port : Offered → Option Nat
  | .ok i _ => some (portOf i.op)
  | .bad _ op _ => some (if opAssigned op then portOf op else 2)
  | .absent _ _ => none
  | .unmapped _ => none
/-- The PC of the offered instruction, which in a REP is that of the repeated one (R344, R345). -/
def Offered.pc (o : Offered) (w : Warp) (lane : Nat) : Nat := match o with
  | .ok _ pc => pc
  | .bad _ _ pc => pc
  | _ => if (w.th lane).inRep then (w.th lane).pc + 8 else (w.th lane).pc

def isMatrixOp (op : Nat) : Bool := decide (0x90 ≤ op) && decide (op ≤ 0xAC)
def Offered.isMatrix : Offered → Bool
  | .ok i _ => isMatrixOp i.op
  | .bad _ op _ => isMatrixOp op
  | _ => false

/-! ## What holds it back -/

/-- Is it one of the four forms of the divide unit that forwards their results (R179)? -/
def isDivideOp (op : Nat) : Bool := decide (0x72 ≤ op) && decide (op ≤ 0x75)

/-- What the cut of a flight's window is charged to (R106, R182, R183, R245, R248, R302). -/
def State.cutCause (s : State) (core : Nat) (f : Flight) : Cause :=
  match f.kind with
  | .fence _ => .fenceWait
  | .acquire _ _ => if f.op = 0xC2 then .fenceWait else .regWait
  | .lutld _ => if s.lutBehind core f.id false then .unitBusy else .regWait
  | .lutsync => if s.lutBehind core f.id true then .unitBusy else .regWait
  | _ => .regWait

/-- Is a clock one of a flight's extension clocks (R240)? -/
def Part.extended (p : Part) (flight : Option Nat) (t : Nat) : Bool :=
  p.poolExt.any (fun e => decide (e.1 ≤ t) && decide (t ≤ e.2.1) && (match flight with | some k => k == e.2.2 | none => true))

/-- The V registers of other lanes that a form reads, or writes: LPICK's sources and LSEND's destinations (R160, R164). -/
def State.crossLane (s : State) (w : Warp) (front : Mask) (i : Instr) (writes : Bool) : List (Nat × Nat) :=
  let regs (o : Opnd) (wide : Bool) (l : Nat) : List (Nat × Nat) := match o with
    | .v n => (List.range (regsOf wide)).map (fun k => (l, n + k))
    | _ => []
  let c (f : FormA) : Ctx := { s := s, wid := 0, w := w, front := front, active := s.activeLanes w front f.hdr, op := i.op, len := i.len }
  let other (f : FormA) (l : Nat) : Nat := (c f).rdB [f.a, f.b.src] 1 f.b .u32 false l % 2 ^ 32
  match i, writes with
  | .lpick f _ seg mode, false =>
    (c f).active.lanes.flatMap (fun l => match pickFrom mode seg l (other f l) with
      | some k => regs f.a f.ty.wide k
      | none => [])
  | .lsend f _, true => (c f).active.lanes.flatMap (fun l => regs f.d f.ty.wide (other f l % 32))
  | _, _ => []

/-- The warp as an issue of the front finds it: of what a deterministic grid's flights have given inside their windows, the instruction
sees what it waits for (R106, R108, log 68). -/
def State.opened (s : State) (w : Warp) (front : Mask) (i : Instr) : Warp :=
  if w.deferred.isEmpty then w
  else
    let cross := s.crossLane w front i false ++ s.crossLane w front i true
    let closes := i.closes ((w.th (front.lowest.getD 0)).inRep || w.inRoutine)
    let named (n : Nat) : Bool := (i.uses.reads ++ i.uses.writes).any (·.covers (fun _ => none) (.w n) 1)
    w.release (fun x =>
      let mine := x.win.any (fun e => front.has e.1)
      let d := x.write.dest
      (mine && closes) || (!mine && d.1 == 32 && named d.2) || (decide (d.1 < 32) && !front.has d.1 && cross.contains d))

/-- The forms in flight that may raise flags: layout B's arithmetic and conversions, and the matrix forms but those that only move or
question (R80, R81, R201, R219). -/
def raisesFlags (op : Nat) : Bool :=
  (decide (0x72 ≤ op) && decide (op ≤ 0x7D)) || op == 0x80 || op == 0x81 || (decide (0x99 ≤ op) && decide (op ≤ 0xA7)) || op == 0xAB

/-- May a flight still change a special register that SRD or SWR names (R69)? SR_FPF is changed by what raises flags, SR_SRSTATE by the
.SR forms, SR_DONE by the vector memory forms, which clear it as they complete (R70), and SR_CPNUM by CPCLOSE. -/
def Flight.changes (f : Flight) (n : Nat) : Bool :=
  match n with
  | 0x10 => raisesFlags f.op
  | 0x14 => f.sr
  | 0x15 => match f.kind with
    | .load _ => f.op != 0x52
    | .acquire _ _ | .matrixLoad _ | .atomic _ _ => true
    | _ => false
  | 0x17 => f.op == 0xCA
  | _ => false

/-- Will the flight's completion take a trap for its flags (R68)? Then the warp issues nothing more before it (R229). -/
def Flight.traps (f : Flight) (w : Warp) : Bool := (f.raised.foldl (fun a e => a ||| e.2) 0 &&& w.fpctl.toNat % 64) != 0

/-- In an extension clock of a flight, a wait for its result is LOUVRE_WAIT and not REG_WAIT (R240). -/
def State.resultWait (s : State) (w : Warp) (f : Flight) (c : Cause) : Cause :=
  if c = .regWait && (s.part w.part).extended (some f.id) (s.core w.core).cyc then .louvreWait else c

/-- Has a lane of the front used up its window (R106)? -/
def Flight.cuts (f : Flight) (front : Mask) : Bool := f.win.any (fun e => front.has e.1 && e.2 == 0)

/-- The waits for flights: the cut, the closing of windows, registers of another front's flight (R106) with `cross` those in other
lanes, a trap to come (R229), port C and matrix stores inside an LDA's window (R245), special registers (R69). -/
def State.flightWaits (s : State) (w : Warp) (front : Mask) (inRep : Bool) (i : Instr) (cross : List (Nat × Nat)) (f : Flight) : List Cause :=
  let mine := (f.lanes &&& front) != 0
  let named (n : Nat) : Bool := (i.uses.reads ++ i.uses.writes).any (·.covers (fun _ => none) (.w n) 1)
  let reg : Cause := s.resultWait w f .regWait
  (if f.cuts front then [s.resultWait w f (s.cutCause w.core f)] else [])
  ++ (if (mine && i.closes inRep) || f.traps w then [reg] else [])
  ++ (if !mine && f.dests.any (fun d => d.1 == 32 && named d.2) then [reg] else [])
  ++ (if f.dests.any (fun d => d.1 < 32 && !front.has d.1 && cross.contains d) then [reg] else [])
  ++ (match f.kind with
    | .acquire _ _ => if mine && (portOf i.op == 2 || i.op == 0x93 || i.op == 0x95) then [.fenceWait] else []
    | _ => [])
  ++ (match i with
    | .srd _ _ n | .swr _ _ n => if f.changes n then [reg] else []
    | _ => [])

/-- R327: what a front reads, or its next issue, that an earlier instruction's latency still holds back; of what the divide unit forwards
to its own forms, every other consumer waits for the rest (R179). -/
def Warp.latWaits (w : Warp) (t : Nat) (front : Mask) (i : Instr) (cross : List (Nat × Nat)) : List Cause :=
  let due := w.lat.filter (fun e => decide (t < e.2.2))
  if due.isEmpty then []
  else
    let reads := w.reading front i ++ cross ++ (match i with | .luta _ => [(99, 0)] | _ => [])
    if due.any (fun e => reads.contains (e.1, e.2.1) || (e.1 == 98 && front.has e.2.1)
      || (decide (256 ≤ e.1) && !isDivideOp i.op && reads.contains (e.1 - 256, e.2.1))) then [.regWait] else []

/-- The active lanes at the offer. -/
def State.offering (s : State) (w : Warp) (front : Mask) (i : Instr) : Nat := (s.activeLanes w front i.hdr).lanes.length

/-- The clocks for which a form holds the divide unit or the special-function unit (Tables 13.3, 24.5). -/
def divideClocks (op lanes : Nat) : Nat :=
  if op = 0x72 || op = 0x73 then ceilDiv lanes 8 else if op = 0x74 || op = 0x75 then ceilDiv lanes 2 else 0
def sfuClocks (op lanes : Nat) : Nat := if 0x76 ≤ op && op ≤ 0x7D then ceilDiv lanes 8 else 0

/-- Does a product form read perturbed elements (R231)? `b` says that it has an operand B. -/
def State.readsPw (s : State) (w : Warp) (front : Mask) (f : FormX) (b : Bool) : Bool :=
  let pw (l k : Nat) : Bool := (shapeOf ((w.getH l k).toNat % 2 ^ 32)).fmt.isPw
  (s.activeLanes w front f.hdr).lanes.any (fun l => pw l f.ha || (b && pw l f.hb))

/-- The waits for units: the port itself, the divide and special-function units (R179, R228), the pool (R225), the Louvre
unit (R240, R241), which a form with PW operands needs also where it forms no product (log 112). -/
def State.unitWaits (s : State) (p : Part) (t : Nat) (w : Warp) (front : Mask) (i : Instr) : List Cause :=
  let op := i.op
  let n := s.offering w front i
  let pool : List Cause := if t + 3 < p.pool then [if p.extended none t then .louvreWait else .cellBusy] else []
  let product (f : FormX) (b : Bool) : List Cause :=
    if n = 0 then [] else pool ++ (if s.readsPw w front f b && decide (t + 3 < p.louvre) then [.louvreWait] else [])
  -- only the divide unit holds it back: UNIT_BUSY (R228)
  let factor : List Cause :=
    if n = 0 then [] else pool ++ (if t + 3 < p.divide || p.factors.any (fun e => decide (t + 3 < e.2)) then [.unitBusy] else [])
  (if t < (Table.get {} p.ports (portOf op)).busyUntil then [.unitBusy] else [])
  ++ (match i with
    | .mmul f | .mma f | .mspma f _ _ => product f true
    | .mmt f self _ => product f (!self)
    | .mlu _ _ | .mchol _ | .mtrs _ _ _ _ | .minv _ | .mdet _ | .mexp _ | .mrefine _ _ _ _ _ => factor
    | .lveps _ _ | .lvgrad _ _ _ => if t + 1 < p.louvre then [.louvreWait] else []
    | _ =>
      let d := divideClocks op n
      let u := sfuClocks op n
      (if d ≠ 0 && (decide (t < p.divide) || p.factors.any (fun e => decide (t < e.2) && decide (e.1 < t + d))) then [.unitBusy] else [])
      ++ (if u ≠ 0 && decide (t < p.sfu) then [.unitBusy] else []))

/-- What one flight holds a front's offered instruction back for. A word that traps at decode names no register: the cuts of its lanes'
windows do. -/
def State.flightHolds (s : State) (w : Warp) (front : Mask) (o : Offered) (f : Flight) : List Cause :=
  match o with
  | .ok i _ =>
    -- where a set S bit means nothing: at a repeat (R105) and in a routine (R338)
    let inRep := (w.th (front.lowest.getD 0)).inRep || w.inRoutine
    s.flightWaits w front inRep i (s.crossLane w front i false ++ s.crossLane w front i true) f
  | .bad _ _ _ => if f.traps w || f.cuts front then [s.resultWait w f (s.cutCause w.core f)] else []
  | _ => []

/-- Everything that holds a front's offered instruction back. -/
def State.holds (s : State) (w : Warp) (front : Mask) (o : Offered) : List Cause :=
  let w := match o with
    | .ok i _ => s.opened w front i
    | _ => w
  let p := s.part w.part
  let t := (s.core w.core).cyc
  -- a trap that is due waits for what is in flight (R108, R331)
  w.wait.toList ++ w.flights.flatMap (s.flightHolds w front o)
  ++ (if w.pend.isSome then w.flights.map (fun f => s.resultWait w f .regWait) else []) ++ (match o with
    | .ok i _ => w.latWaits t front i (s.crossLane w front i false) ++ s.unitWaits p t w front i
    | .bad _ _ _ =>
        (if w.lat.any (fun e => decide (t < e.2.2) && e.1 == 98 && front.has e.2.1) then [.regWait] else [])
        ++ (if t < (Table.get {} p.ports (o.port.getD 2)).busyUntil then [.unitBusy] else [])
    | _ => [])

/-- R326, R357: does the budget refuse matrix issue in this clk? A window that has not been started yet issues none. -/
def State.refuses (s : State) (p : Nat) : Bool :=
  decide ((s.part p).budget ≤ (s.part p).used) || (s.part p).window ≠ (s.core (coreOfPart p)).cyc / 32

/-- Does a warp hold a READY thread, as it stands or as it was recorded when its routine began (R25, R366)? -/
def Warp.holdsReady (w : Warp) : Bool :=
  lanes32.any (fun l => (match w.resid with
    | .busy r => (Table.get ({} : Thread) r.frozen.threads l).st
    | _ => (w.th l).st).isReady)

/-- The team's elected warp (R366): the lowest-numbered one that is RESIDENT, in a routine too, and holds a READY thread. -/
def State.elected (s : State) (t : Team) : Option Nat :=
  (sortBy (fun a b => decide (((s.warp? a).map (·.num)).getD 0 ≤ ((s.warp? b).map (·.num)).getD 0)) t.warps).find? (fun i =>
    match s.warp? i with
    | some v => (match v.resid with | .saved _ => false | _ => true) && v.holdsReady
    | none => false)

/-- A throttle notice that this warp is to receive before it issues again (R366, R367). It waits while a trap, a stop, a save or a
routine is in progress, and while a completion is to take a trap for its flags (R229, Table 26.3). -/
def State.noticeFor (s : State) (wid : Nat) (w : Warp) : Option Bool :=
  let t := s.teamOf w
  match t.notice.pending with
  | none => none
  | some b =>
    if s.elected t == some wid && w.cur.isSome && w.trap.isNone && w.pend.isNone && w.stopped.isNone && !w.inRoutine
        && !(w.flights.any (·.traps w)) && w.tvec != noHandler then some b else none

/-- Is the warp ready on a port in this clk (R323)? -/
def State.readyOn (s : State) (wid : Nat) (w : Warp) (port : Nat) : Bool :=
  match w.cur with
  | none => false
  | some f =>
    let o := s.offer w (f.lowest.getD 0)
    let free := w.inSlot && !w.switching && w.stopped.isNone && w.pend.isNone && w.waitPage.isNone && !w.quantumOver
      && decide (w.last < (s.core w.core).cyc + 1) && !(!w.saveDue.isEmpty && s.savable w) && (s.noticeFor wid w).isNone
    free && o.port == some port && !s.fetchHeld w (w.th (f.lowest.getD 0)).pc && (s.holds w f o).isEmpty && !(port == 1 && o.isMatrix && s.refuses w.part)

/-! ## Keyhole (R354) -/

/-- The comparators of the warp's core that match an issue at a PC, lowest first. -/
def State.matches_ (s : State) (w : Warp) (pc : Nat) : List Nat :=
  let g := s.gridOf w
  if !(s.context g.ctx).debug then []
  else ((s.core w.core).keyhole.filter (fun e =>
    e.2.enable && e.2.kernel == g.kern.id && e.2.pc / 8 == pc / 8 && e.2.warps / 2 ^ w.num % 2 == 1 && e.2.queues / 2 ^ g.queue % 2 == 1)).map (·.1)

/-! ## Selection (R324) -/

/-- The first slot at or after the pointer that satisfies `ok`. -/
def firstFrom (pointer : Nat) (ok : Nat → Bool) : Option Nat := ((List.range 16).map (fun i => (pointer + i) % 16)).find? ok

/-- The choice among the ready slots: their classes by slot. -/
def Port.choose (q : Port) (ready : SMap Nat) : Option Nat :=
  let due := q.due.filter (fun e => (Table.find ready e.1).isSome && decide (240 ≤ Table.get 0 q.floors e.1))
  match due with
  | e :: r =>
    let first := r.foldl (fun m x => min m x.2) e.2
    firstFrom q.pointer (fun i => Table.find due i == some first)
  | [] =>
    let top := ready.foldl (fun m e => max m e.2) 0
    firstFrom q.pointer (fun i => Table.find ready i == some top)

/-- The port after slot `w` has issued: pointer and floor counts. -/
def Port.issued (q : Port) (ready : SMap Nat) (w : Nat) : Port :=
  { q with
    pointer := (w + 1) % 16, due := Table.drop q.due w
    floors := ready.foldl (fun m e => if e.1 = w then m else Table.set 0 m e.1 (Table.get 0 m e.1 + 1)) (Table.drop q.floors w) }

end Sys2Proof.Machine
end

