-- ==== Sys2Proof/Machine/Accounting.lean ====
section
/-! DEFINITION. Slot accounting and Skylight (R343–R352, R358): the charge of a slot, slot records, the trace buffer. -/
namespace Sys2Proof.Machine

/-! ## Charging (R343, R344, R348, R350) -/

/-- Cause codes (Table 28.2). -/
def Cause.code : Cause → Nat
  | .regWait => 3
  | .memWait => 4
  | .portLost => 5
  | .cellBusy => 6
  | .unitBusy => 7
  | .shutter => 8
  | .stretch => 9
  | .ifetch => 10
  | .frontSwitch => 11
  | .joinWait => 12
  | .barWait => 13
  | .queueWait => 14
  | .copyWait => 15
  | .fenceWait => 16
  | .tlbWait => 17
  | .faultWait => 18
  | .childWait => 19
  | .sleep => 20
  | .louvreWait => 21
  | .traceStall => 22
  | .detWait => 23
  | .noWarp => 24
  | .switching => 25
  | .unowned => 26
  | .priorityDefer => 27

/-- The null PC (R343). -/
def nullPc : Nat := 0xFFFFFFF8

/-- The most clocks that one slot record covers (R350). -/
def runMax : Nat := 65535

/-- The slot of a port in this clk is charged to the partition's owner: its counter, and the run that it continues or
begins. A run that has reached its longest is recorded next. -/
def State.charge (s : State) (p port cause kernel pc : Nat) : State :=
  let ctx := (s.part p).owner
  let same (r : Run) : Bool := r.ctx == ctx && r.kernel == kernel && r.pc == pc && r.cause == cause
  let s := match (Table.get {} (s.part p).ports port).run with
    | some r => if same r && decide (r.count < runMax) then s else s.endRun p port
    | none => s
  let s : State := s.modPart p (fun (x : Part) =>
    let q : Port := Table.get {} x.ports port
    let run : Run := match q.run with
      | some r => { r with count := r.count + 1 }
      | none => { ctx := ctx, kernel := kernel, pc := pc, cause := cause, count := 1, since := s.mod.gts }
    { x with
      counters := Table.set 0 x.counters cause (Table.get 0 x.counters cause + 1)
      ports := Table.put x.ports port { q with charged := true, run := some run } })
  match (Table.get {} (s.part p).ports port).run with
  | some r => if r.count = runMax then { s with agenda := s.agenda ++ [.take (.slotRecord p port)] } else s
  | none => s

/-! ## The nominee (R345) -/

/-- The lane at whose instruction a warp stands: the lowest of its current front, else its lowest blocked or parked lane. -/
def Warp.standing (w : Warp) : Option Nat :=
  match w.cur with
  | some f => f.lowest
  | none => lanes32.find? (fun l => w.allowed.has l && !(w.th l).st.gone && (!(w.th l).st.isReady || w.parked.has l))

/-- A candidate's slot, warp, lane and next instruction. -/
structure Nominee where
  wid : Nat
  w : Warp
  lane : Nat
  offered : Offered

def State.nominee (s : State) (p port : Nat) : Option Nominee :=
  let cands := (s.warps.filter (fun e => e.2.part == p && e.2.inSlot)).filterMap (fun e =>
    e.2.standing.map (fun l => ({ wid := e.1, w := e.2, lane := l, offered := s.offer e.2 l } : Nominee)))
  let here := cands.filter (fun c => c.offered.port == some port)
  let cands := if here.isEmpty then cands else here
  let top := cands.foldl (fun m c => max m c.w.prio) 0
  let cands := cands.filter (fun c => c.w.prio == top)
  match firstFrom (Table.get {} (s.part p).ports port).pointer (fun i => cands.any (fun c => c.w.slot == i)) with
  | some i => cands.find? (fun c => c.w.slot == i)
  | none => none

/-! ## The cause (R346) -/

/-- What a blocked lane's state is charged to (Table 2.2). -/
def TState.cause : TState → Option Cause
  | .join _ | .tret => some .joinWait
  | .bar _ _ | .barc _ => some .barWait
  | .cwait _ => some .childWait
  | .queue _ | .regroup _ _ => some .queueWait
  | .copy _ => some .copyWait
  | .sleep _ _ => some .sleep
  | .ready | .exited | .deposited => none

/-- The waits of ranks 12 to 22, in order. -/
def waitRanks : List Cause :=
  [.tlbWait, .faultWait, .detWait, .fenceWait, .copyWait, .queueWait, .louvreWait, .cellBusy, .unitBusy, .memWait, .regWait]

/-- Is the current clk of a core removed by the halving phase (R360)? -/
def Core.removed (c : Core) : Bool := match c.halving with
  | some n => decide (2 ≤ n) && decide (n ≤ 64) && n % 2 = 0
  | none => false

/-- The cause of a nominee's slot from rank 6 on. -/
def State.nomineeCause (s : State) (p port : Nat) (n : Nominee) : Cause :=
  if port = 1 && n.offered.isMatrix && n.w.cur.isSome && s.refuses p then .shutter
  else match n.w.cur with
    | none =>
      if n.w.parked.has n.lane then .priorityDefer else ((n.w.th n.lane).st.cause).getD .regWait
    | some f =>
      if n.w.switching then .frontSwitch
      else match n.offered with
        | .absent _ _ | .unmapped _ => .ifetch
        | o =>
          if n.w.wait = some .ifetch || s.fetchHeld n.w (n.w.th n.lane).pc then .ifetch
          else if o.port ≠ some port then .portLost
          else (waitRanks.find? (fun c => (s.holds n.w f o).contains c)).getD .regWait

/-- The slot of a port that would issue nothing, as the clock begins (R345, R346). -/
def State.idle (s : State) (p port : Nat) : Idle :=
  let x := s.part p
  let c := s.core (coreOfPart p)
  let null (k : Cause) : Idle := { cause := k, kernel := 0, pc := nullPc, warp := 0, order := 0 }
  if x.owner = 0 then null .unowned
  else if x.switching then null .switching
  else match s.nominee p port with
    | none => null .noWarp
    | some n =>
      let at_ (k : Cause) : Idle :=
        { cause := k, kernel := (s.kernOf n.w).id, pc := n.offered.pc n.w n.lane, warp := n.wid, order := n.w.order }
      if n.w.stopped.isSome then at_ .switching
      else if c.stallFor ≠ 0 then at_ .traceStall
      else if c.stretched || c.removed then at_ .stretch
      else at_ (s.nomineeCause p port n)

/-- The number of a port among those of its core. -/
def portKey (p port : Nat) : Nat := 3 * (p % 4) + port

/-- The rank of Table 28.2 of a cause that a nominee's front meets, or a lane's state where `blocked` (rank 8). -/
def Cause.rank (blocked : Bool) (c : Cause) : Nat :=
  match c with
  | .unowned => 1
  | .switching => 2
  | .noWarp => 3
  | .traceStall => 4
  | .stretch => 5
  | .shutter => 6
  | .priorityDefer => 7
  | .joinWait | .barWait | .childWait | .sleep => 8
  | .frontSwitch => 9
  | .ifetch => 10
  | .portLost => 11
  | c => if blocked && (c == .queueWait || c == .copyWait) then 8 else 12 + waitRanks.findIdx (· == c)

/-- What the nominee of a port has met since the clock began: the Keyhole, which stopped it, a change of its front, or something that its
instruction has to wait for. -/
def State.found (s : State) (i : Idle) : List Cause :=
  match s.warp? i.warp with
  | none => []
  | some w => if w.order ≠ i.order then [] else (if w.stopped.isSome then [.switching] else []) ++ (if w.switching then [.frontSwitch] else []) ++ w.wait.toList

/-- What a port that has issued nothing in the running clock is charged to: the first condition of Table 28.2 that the nominee met as the
clock began, or has met in it (R346). -/
def State.idleCharge (s : State) (p port : Nat) : Option (Cause × Nat × Nat) :=
  (Table.find (s.core (coreOfPart p)).idles (portKey p port)).map (fun i =>
    let met := if i.cause.rank true ≤ 5 then [] else s.found i
    (met.foldl (fun k c => if c.rank false < k.rank true then c else k) i.cause, i.kernel, i.pc))

/-- The charge of a port that has not issued in the current clk, once (R343); a refused matrix form counts (R358). -/
def State.chargeIdle (s : State) (p port : Nat) : State :=
  if (Table.get {} (s.part p).ports port).charged then s
  else match s.idleCharge p port with
    | none => s
    | some (k, kernel, pc) =>
      let s := if k = .shutter then s.modPart p (fun x => { x with refusals := (x.refusals + 1) % 2 ^ 16 }) else s
      s.charge p port k.code kernel pc

/-- Is a core in one of its clocks? -/
def Core.inClk (c : Core) : Bool := c.clk == .running

def execSlotCharge (part port : Nat) (s : State) : Res :=
  .next (if 3072 ≤ part || 3 ≤ port || !(s.core (coreOfPart part)).inClk then s else s.chargeIdle part port)

/-- R350: a run of the longest length is recorded; every other run is when it ends. -/
def execSlotRecord (part port : Nat) (s : State) : Res :=
  .next (match (Table.get {} (s.part part).ports port).run with
    | some r => if runMax ≤ r.count then s.endRun part port else s
    | none => s)

/-! ## The trace buffer (R349, R352) -/

/-- The first packet of a core's trace buffer goes to its channel's ring: it lands, then the write index advances. Before a
full ring a lossless packet waits, and a lossy one is dropped and counted. -/
def State.drainTrace (s : State) (core : Nat) (b : Bringup) (p : Packet) (rest : List Packet) : State :=
  let drop (s : State) : State := s.modCore core (fun c => { c with trace := rest })
  if s.ringFull p.channel then
    if p.channel = 2 then
      -- a loss-count packet that is dropped counts for the packets that it stood for (Table 28.3)
      let n := if p.words.headD 0 / 2 ^ 60 = 2 then p.words.getD 2 0 else 1
      (drop s).modCore core (fun c => { c with lost := Table.set 0 c.lost (p.source * 16 + p.channel) (Table.get 0 c.lost (p.source * 16 + p.channel) + n) })
    else s
  else
    let base := b.traceAt.getD p.channel 0
    let w := s.peekN base 4
    let at_ := base + 64 + 32 * (w % 2 ^ b.traceLog.getD p.channel 10)
    (drop (s.pokeBytes at_ (p.words.flatMap (leBytes 8)))).pokeN base 4 ((w + 1) % 2 ^ 32)

def execTraceDrain (core : Nat) (s : State) : Res :=
  .next (match s.mod.bringup, (s.core core).trace with
    | some b, p :: rest => s.drainTrace core b p rest
    | _, _ => s)

/-- R352: waiting packets enter a buffer that has room; when the last one has, the stall ends and a perturbation packet
follows. The stall's last clock is over by then. -/
def execTraceStallEnd (core : Nat) (s : State) : Res :=
  .next (
    let c := s.core core
    let n := min c.pendingPackets.length (128 - c.trace.length)
    if !c.stalled || n = 0 || c.inClk then s
    else
      let c := { c with trace := c.trace ++ c.pendingPackets.take n, pendingPackets := c.pendingPackets.drop n }
      if !c.pendingPackets.isEmpty then s.putCore core c
      else (s.putCore core { c with stalled := false, stallFor := 0 }).emit core 0 (3072 + core) 4 c.stallFor c.perturb s.mod.gts)

end Sys2Proof.Machine
end

