-- ==== Sys2Proof/Machine/MatrixMem.lean ====
section
/-! DEFINITION. Matrices to and from memory (R198–R200): footprints, checks, loads and stores. -/
namespace Sys2Proof.Machine
open Sys2Proof

/-- A matrix in memory as a lane's instruction names it: the memory format, the address of byte 0 and the pitch. -/
structure Footprint where
  sh : Shape
  fmt : MFmt
  base : Nat
  pitch : Nat
  deriving DecidableEq, Repr

namespace Footprint
/-- Bytes of a block in memory (R76, R77). -/
def blockBytes (p : Footprint) : Nat := if p.fmt == .nx4 then 18 else 33
/-- The runs of bytes: one a line, or all blocks (R198). -/
def ranges (p : Footprint) : List (Nat × Nat) :=
  if p.fmt.isNx then [(p.base, p.blockBytes * p.sh.blocks)]
  else (List.range p.sh.lines).map (fun i => (p.base + i * p.pitch, p.sh.len * p.fmt.bytes))
/-- The bytes of the footprint in order. -/
def addrs (p : Footprint) : List Nat := p.ranges.flatMap (fun r => (List.range r.2).map (r.1 + ·))
/-- Is the pitch refused (R198)? -/
def pitchOk (p : Footprint) (packed : Bool) : Bool :=
  if p.fmt.isNx then packed else packed || (p.pitch % p.fmt.bytes = 0 && decide (p.sh.len * p.fmt.bytes ≤ p.pitch))
/-- The elements stored, each as its first byte, its length and its value: one an element, and one a byte of a block (R76,
R77, R198, R293). -/
def elements (p : Footprint) (m : RawM) : List (Nat × Nat × Nat) :=
  if p.fmt.isNx then
    (List.range (p.blockBytes * p.sh.blocks)).map (fun a =>
      let q := a / p.blockBytes
      let i := a % p.blockBytes
      let code (k : Nat) : Nat := if 32 * q + k < p.sh.elems then m.codes.getD (32 * q + k) 0 else 0
      (p.base + a, 1,
        if p.fmt == .nx4 then
          (if i < 16 then code (2 * i) % 16 + code (2 * i + 1) % 16 * 16 else if i = 16 then m.scales.getD q 0 else m.specials.getD q 0)
        else if i < 32 then code i else m.scales.getD q 0))
  else
    (List.range p.sh.elems).map (fun e =>
      (p.base + e / p.sh.len * p.pitch + e % p.sh.len * p.fmt.bytes, p.fmt.bytes, m.codes.getD e 0))
end Footprint

/-- The footprint of a lane. -/
def Ctx.footprint (c : Ctx) (sp : Where) (f : FormX) (off : Option Word) (fmt : MFmt) (l : Nat) : Footprint :=
  let sh := c.shape l f.hd
  { sh := sh, fmt := fmt, base := c.address sp f.a (.imm32 (off.getD 0)) l
    pitch := if f.b = .zero then sh.len * fmt.bytes else c.rd [f.b] 0 false l }

/-- R191 items 1 and 2, then R198's checks over every byte of the footprint (R199). `ok` is what the form asks of its
operands beside the registers. -/
def Ctx.matrixChk (c : Ctx) (sp : Where) (acc : Acc) (f : FormX) (l : Nat) (p : Footprint) (ok : Bool) : Chk :=
  if !(c.regsOk f.d p.sh && ok && p.pitchOk (f.b == .zero)) then .cause .illegalOperand none
  else if p.base % p.fmt.bytes ≠ 0 then .cause .misaligned none
  else
    let local_ (b : Space) : Chk :=
      if p.ranges.any (fun r => decide (b.size < r.1 + r.2)) then .cause .accessViolation none
      else if p.ranges.any (fun r => c.s.latchedScr c.w.core (b.parts r.1 r.2)) then .cause .latchConflict none
      else .ok 0
    match sp with
    | .scratch => local_ (c.s.scratchOf c.w)
    | .window => local_ (c.s.windowOf c.w)
    | .slice => local_ (c.s.laneBytesOf c.w l)
    | .global => (c.s.checkRanges c.w acc l p.ranges).getD (.ok 0)

/-- The location of a byte of a footprint that has been checked. -/
def Ctx.matrixLoc (c : Ctx) (sp : Where) (acc : Acc) (l a : Nat) : Nat :=
  match sp with
  | .scratch => (c.s.scratchOf c.w).at_ a
  | .window => (c.s.windowOf c.w).at_ a
  | .slice => (c.s.laneBytesOf c.w l).at_ a
  | .global => c.s.locOf c.w acc l a

def spaceOf (m : MSpace) : Where :=
  match m with
  | .team => .scratch
  | .group => .window
  | .lane => .slice

/-- The registers that R64 and R65 place. -/
def placedRegs (s : Shape) : Nat := s.data + s.group

/-- m of Table 24.5: the most registers that a lane's matrix takes, in clocks of eight. -/
def Ctx.matrixClocks (c : Ctx) (k : Nat) : Nat :=
  (c.active.lanes.map (fun l => ceilDiv (placedRegs (c.shape l k)) 8)).foldl max 0

/-- MLD, MLDS. -/
def matrixLoadForm (op : Nat) (sp : Where) (f : FormX) (off : Option Word) (nol1 : Bool) (s : State) : Res :=
  issue op (if off.isSome then 16 else 8)
    (max (f.d.need 1) (max (f.a.need (regsOf (sp == .global))) (f.b.need 1))) f.hdr s (fun c =>
    let print (l : Nat) : Footprint := c.footprint sp f off (c.shape l f.hd).fmt l
    c.vectorMem [] (fun l => c.matrixChk sp .rd f l (print l) true) 1 (fun s good =>
      if good.isEmpty then (c.busyB s (c.matrixClocks f.hd), [])
      else
        let fid := s.nextId
        let (s, items) := good.foldl (fun (acc : State × List (Nat × Nat × Nat × List Nat)) e =>
          let l := e.1
          let (s, ids) := (print l).addrs.foldl (fun (a : State × List Nat) va =>
            let (s, i) := a.1.addLoads fid c.wid l c.w.core (c.matrixLoc sp .rd l va) 1 .core c.w.order false nol1
            (s, a.2 ++ i)) (acc.1, [])
          (s, acc.2 ++ [(l, vNum f.d, (c.w.getH l f.hd).toNat % 2 ^ 32, ids)])) (s, [])
        let last := s.nextId
        let s := { s with nextId := fid }
        let s := c.launch s (c.w.lookahead f.la) (levelLat sp + c.matrixClocks f.hd) (.matrixLoad items) []
          (good.flatMap (fun e =>
            ((c.shape e.1 f.hd).regs { codes := [] }).map (fun r => (e.1, vNum f.d + r.1)))) (cc := levelCc sp)
        let s := { s with nextId := max s.nextId (last + 1) }
        let s := c.busyB s (c.matrixClocks f.hd)
        (if sp == .global then
          good.foldl (fun s e => (print e.1).ranges.foldl (fun s r => s.stamp c.w .load c.w.safeOrd c.w.sinceSafe r.1 r.2) s) s else s, []))
      (bad := fun l k => if sp == .global then c.s.badOf c.w l (print l).ranges k else []))

def execMld (f : FormX) (hint : Hint) (off : Option Word) (s : State) : Res := matrixLoadForm 0x92 .global f off (hint == .nol1) s
def execMlds (f : FormX) (space : MSpace) (off : Option Word) (s : State) : Res := matrixLoadForm 0x94 (spaceOf space) f off false s

/-- The entries of one lane's matrix: an element that a higher lane writes into is split, and keeps the bytes that no higher
lane writes (R200). `all` are the elements that all lanes write: lane, location and length. -/
def Ctx.matrixEntries (c : Ctx) (s : State) (sp : Where) (l : Nat) (es : List (Nat × Nat × Nat)) (all : List (Nat × Nat × Nat)) : State :=
  let higher := all.filter (fun r => decide (l < r.1))
  let lower := all.filter (fun r => decide (r.1 < l))
  es.foldl (fun s e =>
    let loc := c.matrixLoc sp .wr l e.1
    let put (s : State) (at_ n v : Nat) : State := s.addWrite .write none c.wid l c.w.core c.w.order at_ n v .core (coveredBy at_ n lower)
    if higher.any (fun r => meets loc e.2.1 r.2.1 r.2.2) then
      (List.range e.2.1).foldl (fun s i =>
        if higher.any (fun r => meets (loc + i) 1 r.2.1 r.2.2) then s else put s (loc + i) 1 (e.2.2 / 256 ^ i % 256)) s
    else put s loc e.2.1 e.2.2) s

/-- MST, MSTS. `data l` is the lane's matrix in the memory format with its flags. -/
def matrixStoreForm (op : Nat) (sp : Where) (f : FormX) (off : Option Word) (len : Nat) (s : State)
    (fmt : Ctx → Nat → MFmt) (ok : Ctx → Nat → Bool) (data : Ctx → Nat → RawM × Nat) (rnd : Rnd) : Res :=
  issue op len (max (f.d.need 1) (max (f.a.need (regsOf (sp == .global))) (f.b.need 1))) f.hdr s (fun c =>
    let print (l : Nat) : Footprint := c.footprint sp f off (fmt c l) l
    (c.vectorMem [] (fun l => c.matrixChk sp .wr f l (print l) (ok c l)) 2 (fun s good =>
      let es := good.map (fun e => (e.1, (print e.1).elements (data c e.1).1))
      let all := es.flatMap (fun h => h.2.map (fun y => (h.1, c.matrixLoc sp .wr h.1 y.1, y.2.1)))
      let s := es.foldl (fun s x => c.matrixEntries s sp x.1 x.2 all) s
      let s := c.busyB s (c.matrixClocks f.hd)
      (if sp == .global then
        good.foldl (fun s e => (print e.1).ranges.foldl (fun s r => s.stamp c.w .store c.w.safeOrd c.w.sinceSafe r.1 r.2) s) s else s,
       (good.map (fun e => (e.1, (data c e.1).2))).filter (fun e => e.2 ≠ 0)))
      (bad := fun l k => if sp == .global then c.s.badOf c.w l (print l).ranges k else [])).srDone rnd c)

/-- R200: the memory format of MST; 15 is the lane's own. -/
def memFormat (code : Nat) (own : MFmt) : MFmt := if code = 15 then own else allMFmt.getD code own

/-- FP32 elements as an instruction under .FTZ reads them: a subnormal is a zero of its sign, and no other bit changes (R80). -/
def flushed (ftz : Bool) (m : RawM) : RawM :=
  if ftz then { m with codes := m.codes.map (fun x => if fmt32.isSub x then x / 2 ^ 31 * 2 ^ 31 else x) } else m

/-- R200. The draw of an .SR form that is replayed is that of its first issue (R89). -/
def execMst (f : FormX) (_hint : Hint) (off : Option Word) (rnd : Rnd) (sat : Bool) (s : State) : Res :=
  let fmt (c : Ctx) (l : Nat) : MFmt := memFormat f.hb (c.shape l f.hd).fmt
  matrixStoreForm 0x93 .global f off (if off.isSome then 16 else 8) s fmt
    (fun c l => convOk (c.shape l f.hd).fmt (fmt c l) rnd)
    (fun c l =>
      let sh := c.shape l f.hd
      if fmt c l == sh.fmt then (flushed (f.ftz && sh.fmt == .f32) (c.rawM f.d l f.hd), 0)
      else mcvt sh { sh with fmt? := some (fmt c l) } (c.rawM f.d l f.hd) rnd sat f.ftz (fun j => srDraw (srStep (c.w.srFrom c.front)).hi l j)) rnd

def execMsts (f : FormX) (space : MSpace) (off : Option Word) (s : State) : Res :=
  matrixStoreForm 0x95 (spaceOf space) f off (if off.isSome then 16 else 8) s
    (fun c l => (c.shape l f.hd).fmt) (fun _ _ => true) (fun c l => (c.rawM f.d l f.hd, 0)) .rn

end Sys2Proof.Machine
end

