-- ==== Sys2Proof/Machine/Complete.lean ====
section
/-! DEFINITION. The completion of long-latency instructions (R106, R179, R182, R183, R225, R297, R301–R304, R327, R372). -/
namespace Sys2Proof.Machine

/-! ## When (R106, R179, R275, R327) -/

/-- Does the divide unit forward the flight's result now, to one of its own forms that reads it (Table 13.3)? -/
def State.forwards (s : State) (w : Warp) (f : Flight) : Bool :=
  isDivideOp f.op && decide (f.due ≤ (s.core w.core).cyc + (if f.op < 0x74 then 6 else 10)) && (match w.cur with
    | some front => match s.offer w (front.lowest.getD 0) with
      | .ok i _ => isDivideOp i.op && (w.reading front i).any f.dests.contains
      | _ => false
    | none => false)

/-- May the flight complete now, as far as Table 24.5 and the home L2 (R275) go? -/
def State.mayComplete (s : State) (w : Warp) (f : Flight) : Bool :=
  (f.cc == 0 && decide (f.due ≤ (s.core w.core).cyc) && decide (f.notBefore ≤ s.mod.gts)) || s.forwards w f

/-! ## What -/

/-- The stamps of an acquiring load's elements (Table 32.3); its position is that of its issue (R378). -/
def State.stampItems (s : State) (w : Warp) (f : Flight) (scope : Scope) (items : List LoadItem) : State :=
  items.foldl (fun s i => s.stamp w (if scope = .core then .load else .acquire) f.safe f.dist i.va (i.ty.bytes * i.cnt)) s

/-- Markers that a step has taken away have completed, and what waits for one of their warps is looked at again (R300, R302). -/
def State.markersGone (old s : State) : State :=
  ((old.entries.filter (fun e => e.kind.isMarker && !(s.entries.any (fun x => x.id == e.id)))).map (·.warp)).eraseDups.foldl State.markerGone s

/-- Loads that are all satisfied are written to their registers. -/
def State.landLoads (s : State) (wid : Nat) (f : Flight) (ws : List RegW) : State := (s.dropLoads f.id).complete wid f ws []

/-- One flight's completion, where what it waits for has come about. -/
def State.finish? (s : State) (wid : Nat) (w : Warp) (f : Flight) : Option State :=
  match f.kind with
  | .plain => some (s.complete wid f [] [])
  | .load items => (s.itemWrites items).map (s.landLoads wid f)
  | .matrixLoad items => (s.matrixWritesOf items).map (s.landLoads wid f)
  | .acquire scope items =>
    (s.itemWrites items).bind (fun ws =>
      -- only ACQR promotes (R301, R302)
      (s.promoteAll scope (if f.op = 0xC2 then s.promotions scope items else [])).map (fun s' =>
        ((((s.markersGone s').acquire w.core scope).stampItems w f scope items).shadowed s.mod.shadow (s.ctxOf w)).landLoads wid f ws))
  | .fence scope => if s.fenced wid f then some ((s.acquire w.core scope).complete wid f [] []) else none
  | .atomic _ _ => if s.atomsDone f.id then some (s.complete wid f [] []) else none
  | .lutld ids =>
    (s.loaded ids).bind (fun image =>
      if s.lutFirst w.core f.id then some ((((s.fillBank w image).lutDone w.core f.id).dropLoads f.id).complete wid f [] []) else none)
  | .lutsync =>
    if s.lutFirst w.core f.id then
      -- the warp's own LUTA may issue two clocks after the swap (Table 24.5)
      some ((((s.swapBanks w.core).lutDone w.core f.id).modWarp wid (fun w =>
        { w with lat := w.lat ++ [(99, 0, (s.core w.core).cyc + 2)] })).complete wid f [] [])
    else none
  | .matrix => none

def State.finish (s : State) (wid : Nat) (w : Warp) (f : Flight) : State := (s.finish? wid w f).getD s

/-- A result that the divide unit forwards early is every other consumer's only when it is due (Table 13.3). -/
def State.forwarded (s : State) (wid : Nat) (w : Warp) (f : Flight) : State :=
  if (s.core w.core).cyc < f.due then s.putWarp wid { w with lat := w.lat ++ f.dests.map (fun d => (256 + d.1, d.2, f.due)) } else s

/-- R106: flight `k` of warp `wid` completes, in the first clock that Table 24.5 allows or later (log 5). -/
def execLongLatencyComplete (wid k : Nat) (s : State) : Res :=
  .next (match s.warp? wid with
    | none => s
    | some w => match w.flight? k with
      | none => s
      | some f => if s.mayComplete w f then (s.forwarded wid w f).finish wid w f else s)

/-- R225, R227: the writeback of a pool form, after its passes; all its registers in one step. -/
def execMatrixWriteback (wid k : Nat) (s : State) : Res :=
  .next (match s.warp? wid with
    | none => s
    | some w => match w.flight? k with
      | none => s
      | some f =>
        if f.kind == .matrix && s.mayComplete w f then
          (s.modPart w.part (fun p => { p with poolExt := p.poolExt.filter (fun e => e.2.2 != k) })).complete wid f [] []
        else s)

end Sys2Proof.Machine
end

