-- ==== Sys2Proof/Machine/Products.lean ====
section
/-! DEFINITION. The matrix products (R195, R204–R207), the cell pool that runs them (R221–R227, R240), and the Louvre unit's
reading of pair operands (R231–R235). -/
namespace Sys2Proof

/-! ## Accumulation (R204) -/

/-- The exact sum of the products of a block, with its special values. -/
def blockSum (ps : List (FV × Nat)) : FV × Nat :=
  let fl := ps.foldl (fun a p => a ||| p.2) 0
  let both := ps.any (fun p => p.1 == .inf true) && ps.any (fun p => p.1 == .inf false)
  let fl := if both then fl ||| flIV else fl
  if both || ps.any (fun p => p.1.isNan) then (.nan false, fl)
  else match ps with
    | [] => (.zero true, fl)
    | p :: r => (r.foldl (fun a q => (a.add .rn q.1).1) p.1, fl)

def sum32 (ar : Arith) (c : FV) (k : Nat) (a b : Nat → FV) : Fl FV :=
  (List.range (ceilDiv k 4)).foldlM (fun acc q => do
    let (s, fl) := blockSum ((List.range (min 4 (k - 4 * q))).map (fun i => (a (4 * q + i)).mul (b (4 * q + i))))
    raiseFl fl
    ar.add acc s) c

def sum64 (ar : Arith) (c : FV) (k : Nat) (a b : Nat → FV) : Fl FV :=
  (List.range k).foldlM (fun acc i => ar.fma (a i) (b i) acc) c

/-- One element of a product in the result's format. -/
def sumOf (ar : Arith) (c : FV) (k : Nat) (a b : Nat → FV) : Fl FV :=
  if ar.fm == fmt64 then sum64 ar c k a b else sum32 ar c k a b

/-- MMUL's product of two n × n matrices (R204), as MEXP uses it. -/
def mmSquare (ar : Arith) (n : Nat) (a b : Mat) : Fl Mat :=
  Mat.genM n n (fun i j => sumOf ar (.zero true) n (a.get i) (fun kk => b.get kk j))

/-! ## Formats, classes and cells (Tables 14.3, 15.1, R223) -/

/-- Formats that may stand together as A and B of a product. -/
def MFmt.kin (f : MFmt) : Nat :=
  match f with
  | .f64 => 0
  | .f32 => 1
  | .f16 => 2
  | .bf16 | .pw32 | .pw16 => 3
  | .e4m3 | .e5m2 => 4
  | .nx8 => 5
  | .nx4 => 6

def productFormats (a b d : MFmt) : Bool := a.kin == b.kin && d == (if a == .f64 then .f64 else .f32)

/-- The format classes of Table 15.1. -/
inductive PoolClass
  | f64 | f32 | f16 | f8 | f4
  deriving DecidableEq, Repr

def MFmt.poolClass (f : MFmt) : PoolClass :=
  match f with
  | .f64 => .f64
  | .f32 => .f32
  | .f16 | .bf16 | .pw32 | .pw16 => .f16
  | .e4m3 | .e5m2 | .nx8 => .f8
  | .nx4 => .f4

/-- d(k) of Table 15.1. -/
def PoolClass.clocks (c : PoolClass) (k : Nat) : Nat :=
  match c with
  | .f64 | .f16 => k
  | .f32 => 2 * k
  | .f8 => ceilDiv k 2
  | .f4 => ceilDiv k 4

/-- A thread of a product form as the regrouper sees it (R222, R223): the key of its shape group, whether it takes a
quadrant, its cells, its clocks and the elements that the Louvre unit perturbs for it. -/
structure PoolThread where
  key : PoolClass × Nat × Nat × Nat
  quad : Bool
  cells : Nat
  clocks : Nat
  louvre : Nat
  deriving DecidableEq, Repr

def dimClass (q x : Nat) : Nat := if x ≤ 2 then 0 else ceilDiv x q

/-- R223; `pairs` is MSPMA under PAIRS or BOTH. A thread with k = 0 is in no group. -/
def poolThread (cls : PoolClass) (m n k : Nat) (pairs : Bool) (louvre : Nat) : PoolThread :=
  let small := decide (m ≤ 2) && decide (n ≤ 2)
  { key := (cls, dimClass (if pairs then 8 else 4) m, dimClass 4 n, k)
    quad := small && cls != .f64
    cells :=
      if k = 0 then 0
      else if small then 1
      else if cls = .f64 then ceilDiv m (if pairs then 4 else 2) * ceilDiv n 2
      else ceilDiv m (if pairs then 8 else 4) * ceilDiv n 4
    clocks := cls.clocks k
    louvre := louvre }

/-- The placement of R224 as it goes on: passes closed, the current one (its length and its perturbed elements), free
cells, and the quadrants taken of the open cell. -/
structure Passes where
  closed : List (Nat × Nat) := []
  cur : Nat × Nat := (0, 0)
  free : Nat := 128
  open_ : Option Nat := none
  deriving DecidableEq, Repr

def Passes.join (p : Passes) (t : PoolThread) : Passes := { p with cur := (max p.cur.1 t.clocks, p.cur.2 + t.louvre) }

/-- R224: a thread that takes new cells. -/
def Passes.open (p : Passes) (t : PoolThread) : Passes :=
  let p := if p.free < t.cells then { p with closed := p.closed ++ [p.cur], cur := (0, 0), free := 128, open_ := none } else p
  let p := { p.join t with free := p.free - t.cells }
  if t.quad then { p with open_ := some 1 } else p

/-- R224, one thread. -/
def Passes.place (p : Passes) (t : PoolThread) : Passes :=
  if t.cells = 0 then p
  else match t.quad, p.open_ with
    | true, some q => if q < 4 then { p.join t with open_ := some (q + 1) } else p.open t
    | _, _ => p.open t

/-- The passes of a product form: length and perturbed elements (R224). The threads stand in ascending lane order. -/
def poolPasses (ts : List PoolThread) : List (Nat × Nat) :=
  let p := ((ts.map PoolThread.key).eraseDups).foldl (fun p k =>
    (ts.filter (fun t => t.key == k)).foldl Passes.place { p with open_ := none }) ({} : Passes)
  p.closed ++ [p.cur]

/-- P, and the extension clocks of R240 counted from the first clock of the first pass. -/
def poolRun (ps : List (Nat × Nat)) : Nat × List (Nat × Nat) :=
  ps.foldl (fun a p =>
    let q := ceilDiv p.2 512
    (a.1 + max p.1 q, if p.1 < q then a.2 ++ [(a.1 + p.1, a.1 + q - 1)] else a.2)) (0, [])

end Sys2Proof

namespace Sys2Proof.Machine

/-! ## The Louvre unit's indices (R233) -/

/-- ε of element (r, c) of an operand whose descriptor is Hk, in a lane. -/
def Ctx.eps (c : Ctx) (l k r cc : Nat) : Int :=
  let o := c.origin l k
  louvreEps c.w.lvctl.toNat (c.s.gridOf c.w).launch.key (o % 2 ^ 24) ((c.w.th l).lvmem.toNat % 2 ^ 16)
    ((o / 2 ^ 24 % 2 ^ 20 + r) % 2 ^ 20) ((o / 2 ^ 44 % 2 ^ 20 + cc) % 2 ^ 20)

/-- Element (r, c) of a pair operand as its mean and log-deviation. -/
def Ctx.pair (c : Ctx) (l k : Nat) (m : RawM) (r cc : Nat) : FV × FV :=
  let s := c.shape l k
  pairOf (s.fmt == .pw32) (m.codes.getD (s.num r cc) 0)

/-- The perturbed weight (R195, R232). -/
def Ctx.weight (c : Ctx) (l k : Nat) (m : RawM) (r cc : Nat) : FV :=
  let (mu, lam) := c.pair l k m r cc
  fmtBf.decode (louvreW mu (louvreP c.w.lvctl.toNat lam (c.eps l k r cc)))

/-- An operand of a product form: PW elements perturbed (R195), .FTZ on FP32 (R80). -/
def Ctx.factor (c : Ctx) (ftz : Bool) (o : Opnd) (l k : Nat) : Mat :=
  let s := c.shape l k
  if s.fmt.isPw then
    let m := c.rawM o l k
    Mat.gen s.rows s.cols (c.weight l k m)
  else c.matM ftz o l k

/-! ## The pool's time (R225, R228, R240) -/

/-- The pool and the units that run with it are held from t + 3 to t + 2 + P; nothing is held when P = 0. `ext` are
extension clocks of the flight about to start. -/
def Ctx.holdPool (c : Ctx) (s : State) (run : Nat) (louvre divide : Bool) (ext : List (Nat × Nat)) : State :=
  if run = 0 then s
  else
    let t := (s.core c.w.core).cyc
    s.modPart c.w.part (fun p => { p with
      pool := t + 3 + run
      poolExt := p.poolExt ++ ext.map (fun e => (t + 3 + e.1, t + 3 + e.2, s.nextId))
      louvre := if louvre then t + 3 + run else p.louvre
      factors := p.factors.filter (fun e => decide (t < e.2)) ++ (if divide then [(t + 3, t + 3 + run)] else []) })

/-! ## MMUL, MMA, MMT, MSPMA -/

/-- What a product form does in a lane: m, n, k, its two factors by (i, kk) and (kk, j), the starting values, the k that the
pool sees, the elements perturbed, and whether it has a PW operand. -/
structure Product where
  m : Nat
  n : Nat
  k : Nat
  a : Nat → Nat → FV
  b : Nat → Nat → FV
  start : Nat → Nat → FV
  live : Nat
  perturbed : Nat
  pw : Bool

/-- A product form: the check of a lane, and its product. -/
def productForm (op : Nat) (f : FormX) (len need : Nat) (pairs : Bool) (s : State) (chk : Ctx → Nat → Bool)
    (sem : Ctx → Nat → Product) : Res :=
  issue op len (max (f.d.need 1) (max (f.a.need 1) need)) f.hdr s (fun c =>
    c.checked [] (fun l => refused (chk c l)) (
      let lanes := c.active.lanes.map (fun l => (l, sem c l))
      let ts := lanes.map (fun e => poolThread (c.shape e.1 f.ha).fmt.poolClass e.2.m e.2.n e.2.live pairs e.2.perturbed)
      let (run, ext) := poolRun (poolPasses ts)
      let s := c.holdPool c.s run (lanes.any (·.2.pw)) false ext
      c.results s f.la (7 + run) .matrix (lanes.map (fun e =>
        let d := c.shape e.1 f.hd
        let ar := arithOf d.fmt f.ftz
        let p := e.2
        let (m, fl) := (Mat.genM p.m p.n (fun i j => sumOf ar (p.start i j) p.k (p.a i) (fun kk => p.b kk j))).run
        (e.1, matWrites e.1 (vNum f.d) d (d.encode m), fl)))))

/-- The elements of an operand that the Louvre unit perturbs (R231). -/
def Shape.perturbed (s : Shape) : Nat := if s.fmt.isPw then s.elems else 0

/-- MMUL and MMA: D is m × n, A m × k, B k × n (Tables 14.4, 14.5). -/
def denseChk (f : FormX) (c : Ctx) (l : Nat) : Bool :=
  let d := c.shape l f.hd
  let a := c.shape l f.ha
  let b := c.shape l f.hb
  c.regsOk f.d d && c.regsOk f.a a && c.regsOk f.b b && productFormats a.fmt b.fmt d.fmt
    && d.rows == a.rows && d.cols == b.cols && a.cols == b.rows

def denseProduct (f : FormX) (acc : Bool) (c : Ctx) (l : Nat) : Product :=
  let sa := c.shape l f.ha
  let sb := c.shape l f.hb
  let a := c.factor f.ftz f.a l f.ha
  let b := c.factor f.ftz f.b l f.hb
  let d := c.matM f.ftz f.d l f.hd
  { m := sa.rows, n := sb.cols, k := sa.cols, a := a.get, b := b.get
    start := fun i j => if acc then d.get i j else .zero true
    live := sa.cols, perturbed := Shape.perturbed sa + Shape.perturbed sb, pw := sa.fmt.isPw || sb.fmt.isPw }

def execMmul (f : FormX) (s : State) : Res :=
  productForm 0x9B f 8 (f.b.need 1) false s (denseChk f) (denseProduct f false)
def execMma (f : FormX) (s : State) : Res :=
  productForm 0x9C f 8 (f.b.need 1) false s (denseChk f) (denseProduct f true)

/-- MMT: B is n × k and is read by rows; with SELF it is A itself (Tables 14.4, 14.5, R231). -/
def execMmt (f : FormX) (self acc : Bool) (s : State) : Res :=
  let ob := if self then f.a else f.b
  let hb := if self then f.ha else f.hb
  productForm 0x9D f 8 (if self then 0 else f.b.need 1) false s
    (fun c l =>
      let d := c.shape l f.hd
      let a := c.shape l f.ha
      let b := c.shape l hb
      c.regsOk f.d d && c.regsOk f.a a && c.regsOk ob b && productFormats a.fmt b.fmt d.fmt
        && d.rows == a.rows && d.cols == b.rows && a.cols == b.cols)
    (fun c l =>
      let sa := c.shape l f.ha
      let sb := c.shape l hb
      let a := c.factor f.ftz f.a l f.ha
      let b := c.factor f.ftz ob l hb
      let d := c.matM f.ftz f.d l f.hd
      { m := sa.rows, n := sb.rows, k := sa.cols, a := a.get, b := fun kk j => b.get j kk
        start := fun i j => if acc then d.get i j else .zero true
        live := sa.cols, perturbed := Shape.perturbed sa + (if self then 0 else Shape.perturbed sb)
        pw := sa.fmt.isPw || sb.fmt.isPw })

/-- Table 14.6: is column `cc` live, and what are the two kept offsets of its group `g`? `rd` reads the metadata. -/
def spLive (pat : SpPat) (rd : Nat → Nat) (cc : Nat) : Bool := pat == .pairs || rd 0 / 2 ^ cc % 2 = 1
def spOffsets (rd : Nat → Nat) (cc g : Nat) : Nat × Nat :=
  let w := rd (1 + cc / 2) / 2 ^ (16 * (cc % 2)) % 2 ^ 16
  (w / 2 ^ (4 * g) % 4, w / 2 ^ (4 * g + 2) % 4)
/-- Is row `i` of column `cc` part of A′ (R207)? -/
def spKept (pat : SpPat) (rd : Nat → Nat) (i cc : Nat) : Bool :=
  spLive pat rd cc && (pat == .cols || (let o := spOffsets rd cc (i / 4); i % 4 == o.1 || i % 4 == o.2))

def execMspma (f : FormX) (cm : Opnd) (pat : SpPat) (s : State) : Res :=
  let meta_ (c : Ctx) (l i : Nat) : Nat := (c.getV l (vNum cm + i)).toNat
  productForm 0x9E f 16 (max (f.b.need 1) (cm.need 1)) (pat != .cols) s
    (fun c l =>
      let a := c.shape l f.ha
      denseChk f c l && (pat == .cols || (c.runOk cm (1 + ceilDiv a.cols 2)
        && (List.range a.cols).all (fun cc => (List.range (ceilDiv a.rows 4)).all (fun g =>
          let o := spOffsets (meta_ c l) cc g
          decide (o.1 < o.2))))))
    (fun c l =>
      let sa := c.shape l f.ha
      let sb := c.shape l f.hb
      let p := denseProduct f true c l
      let kept := spKept pat (meta_ c l)
      { p with
        a := fun i kk => if kept i kk then p.a i kk else .zero false
        live := if pat = .pairs then sa.cols else ((List.range sa.cols).filter (spLive pat (meta_ c l))).length
        perturbed :=
          (if sa.fmt.isPw then ((List.range sa.rows).flatMap (fun i => (List.range sa.cols).filter (kept i))).length else 0)
            + Shape.perturbed sb })

end Sys2Proof.Machine
end

