-- ==== Sys2Proof/Machine/Factors.lean ====
section
/-! DEFINITION. Factor, solve, inverse, refinement and exponential of a thread's matrices (R208–R215), and the time that
they hold the pool and the divide unit (R228). -/
namespace Sys2Proof

/-! ## Factorisation (R209, R210) -/

/-- R209: |x| larger than |y|, where a NaN counts larger than any number. -/
def pivotLarger (x y : FV) : Bool := !y.isNan && (x.isNan || y.abs.lt x.abs)

/-- The numbers from `a` to `b` − 1. -/
def span (a b : Nat) : List Nat := (List.range (b - a)).map (a + ·)

/-- Where a factorisation stands: the matrix, the permutation, the exchanges with p ≠ k, and the column of a zero pivot. -/
structure Lu where
  m : Mat
  perm : List Nat
  swaps : Nat := 0
  fail : Option Nat := none
  deriving DecidableEq, Repr

/-- One stage of R209. -/
def Lu.stage (ar : Arith) (n : Nat) (s : Lu) (k : Nat) : Fl Lu :=
  match s.fail with
  | some _ => return s
  | none =>
    let p := (span (k + 1) n).foldl (fun p i => if pivotLarger (s.m.get i k) (s.m.get p k) then i else p) k
    if (s.m.get p k).isZero then return { s with fail := some k }
    else do
      let m : Mat := (s.m.set k (s.m.getD p [])).set p (s.m.getD k [])
      let m ← (span (k + 1) n).foldlM (fun (m : Mat) i => do
        let x ← ar.div (m.get i k) (m.get k k)
        (span (k + 1) n).foldlM (fun (m : Mat) j => do
          let y ← ar.fma x.negate (m.get k j) (m.get i j)
          return m.put i j y) (m.put i k x)) m
      return { s with
        m := m, perm := (s.perm.set k (s.perm.getD p 0)).set p (s.perm.getD k 0)
        swaps := if p = k then s.swaps else s.swaps + 1 }

def lu (ar : Arith) (n : Nat) (a : Mat) : Fl Lu :=
  (List.range n).foldlM (Lu.stage ar n) { m := a, perm := List.range n }

/-- What MLU and MINV write on a zero pivot at column k: NaN from there on (R209). -/
def Lu.result (s : Lu) (n : Nat) : Mat :=
  match s.fail with
  | some k => Mat.gen n n (fun i j => if j < k then s.m.get i j else .nan false)
  | none => s.m

/-- The permutation as nibbles (R209). -/
def Lu.nibbles (s : Lu) : Nat := (s.perm.zipIdx).foldl (fun a e => a + e.1 % 16 * 16 ^ e.2) 0

/-- R210: L, and the column at which d ≤ 0 stopped it. -/
def chol (ar : Arith) (n : Nat) (a : Mat) : Fl (Mat × Option Nat) :=
  (List.range n).foldlM (fun s j =>
    match s.2 with
    | some _ => return s
    | none => do
      let d ← (List.range j).foldlM (fun d k => ar.fma (s.1.get j k).negate (s.1.get j k) d) (a.get j j)
      if !d.isNan && !(FV.zero false).lt d then return (s.1, some j)
      else
        let r ← ar.sqrt d
        let m ← (span (j + 1) n).foldlM (fun (m : Mat) i => do
          let t ← (List.range j).foldlM (fun t k => ar.fma (m.get i k).negate (m.get j k) t) (a.get i j)
          let x ← ar.div t r
          return Mat.put m i j x) (s.1.put j j r)
        return (m, none)) (Mat.gen n n (fun _ _ => .zero false), none)

def cholResult (n : Nat) (s : Mat × Option Nat) : Mat :=
  match s.2 with
  | some j => Mat.gen n n (fun i c => if j ≤ c && c ≤ i then .nan false else s.1.get i c)
  | none => s.1

/-! ## Triangular systems (R211, R212) -/

/-- R211: X with M·X = B, and whether a zero diagonal stopped it. -/
def trs (ar : Arith) (n q : Nat) (m b : Nat → Nat → FV) (lower unit : Bool) : Fl (Mat × Bool) :=
  (if lower then List.range n else (List.range n).reverse).foldlM (fun s i =>
    if s.2 then return s
    else if !unit && (m i i).isZero then do
      raiseFl flSG
      return (s.1, true)
    else do
      let x ← (List.range q).foldlM (fun (x : Mat) c => do
        let t ← (if lower then List.range i else span (i + 1) n).foldlM (fun t k => ar.fma (m i k).negate (x.get k c) t) (b i c)
        let y ← (if unit then pure t else ar.div t (m i i))
        return Mat.put x i c y) s.1
      return (x, false)) (Mat.nans n q, false)

/-- L·Y = B with L's unit diagonal, then U·X = Y. -/
def luSolve (ar : Arith) (n q : Nat) (m : Mat) (b : Nat → Nat → FV) : Fl (Mat × Bool) := do
  let (y, _) ← trs ar n q m.get b true true
  trs ar n q m.get y.get false false

/-- R212, without SG: the solution of A·X = B for an A whose factor has no zero pivot. -/
def Lu.solve (s : Lu) (ar : Arith) (n : Nat) (b : Nat → Nat → FV) : Fl Mat := do
  let (x, _) ← luSolve ar n n s.m (fun i q => b (s.perm.getD i 0) q)
  return x

def inverse (ar : Arith) (n : Nat) (a : Mat) : Fl Mat := do
  let s ← lu ar n a
  match s.fail with
  | some _ =>
    raiseFl flSG
    return s.result n
  | none => s.solve ar n (fun i q => if i = q then .one else .zero false)

/-- R213. -/
def det (ar : Arith) (n : Nat) (a : Mat) : Fl FV := do
  let s ← lu ar n a
  match s.fail with
  | some _ => return .zero false
  | none =>
    let t ← (span 1 n).foldlM (fun t i => ar.mul t (s.m.get i i)) (s.m.get 0 0)
    return if s.swaps % 2 = 1 then t.negate else t

/-! ## Refinement (R214) -/

/-- The residual: FP32 lanes accumulate in FP64. -/
def residual (ar : Arith) (n q : Nat) (a b x : Mat) : Fl Mat :=
  let wide : Arith := { fm := fmt64, ftz := false }
  Mat.genM n q (fun i c => do
    let t ← (List.range n).foldlM (fun t j => wide.fma (a.get i j).negate (x.get j c) t) (b.get i c)
    if ar.fm == fmt64 then return t else ar.rn (t, 0))

/-- The loop: `solve kit res` is the correction and whether its solve failed; `fuel` is what is left of the cap. -/
def refine (ar : Arith) (n q : Nat) (a b : Mat) (tol : FV) (solve : Nat → Mat → Fl (Mat × Bool)) : Nat → Nat → Mat → Fl (Mat × Nat)
  | fuel, kit, x => do
    let r ← residual ar n q a b x
    let rho := maxAbs r.flatten
    match fuel with
    | 0 => return (x, kit)
    | fuel + 1 =>
      if !rho.isNan && !tol.isNan && !tol.lt rho then return (x, kit)
      else
        let (d, failed) ← solve kit r
        let x ← Mat.genM n q (fun i c => ar.add (x.get i c) (d.get i c))
        if failed then return (x, kit + 1) else refine ar n q a b tol solve fuel (kit + 1) x

/-! ## Exponential (R215) -/

/-- The coefficients c₀ to c₆. -/
def expCoeff (fm : Fmt) (k : Nat) : FV :=
  let r := [(1, 1), (1, 2), (5, 44), (1, 66), (1, 792), (1, 15840), (1, 665280)].getD k ((1 : Int), (1 : Int))
  fm.decode (fm.div .rn false (.ofInt r.1) (.ofInt r.2)).bits

/-- The smallest s with μ ≤ 0.5 × 2^s, for a finite μ. -/
def expScale (mu : FV) : Nat :=
  match mu with
  | .num _ m e => ((List.range 1100).find? (fun s => !magLt 1 (Int.ofNat s - 1) m e)).getD 0
  | _ => 0

/-- D, and the number of squarings. -/
def mexp (ar : Arith) (n : Nat) (a : Mat) : Fl (Mat × Nat) := do
  let ts ← (List.range n).mapM (fun j => (List.range n).foldlM (fun t i => ar.add t (a.get i j).abs) (FV.zero false))
  let mu := maxAbs ts
  if mu.isNan || mu.isInf then do
    raiseFl flIV
    return (Mat.nans n n, 0)
  else
    let s := expScale mu
    let c (k : Nat) : FV := expCoeff ar.fm k
    let x ← Mat.genM n n (fun i j => ar.rn ((a.get i j).scale (-(Int.ofNat s)), 0))
    let x2 ← mmSquare ar n x x
    let x4 ← mmSquare ar n x2 x2
    let x6 ← mmSquare ar n x4 x2
    let diag (k i j : Nat) : FV := if i = j then c k else .zero false
    let t ← Mat.genM n n (fun i j => do
      let y ← ar.fma (c 3) (x2.get i j) (diag 1 i j)
      ar.fma (c 5) (x4.get i j) y)
    let v ← Mat.genM n n (fun i j => do
      let y ← ar.fma (c 2) (x2.get i j) (diag 0 i j)
      let y ← ar.fma (c 4) (x4.get i j) y
      ar.fma (c 6) (x6.get i j) y)
    let u ← mmSquare ar n x t
    let p ← Mat.genM n n (fun i j => ar.sub (v.get i j) (u.get i j))
    let q ← Mat.genM n n (fun i j => ar.add (v.get i j) (u.get i j))
    let f ← lu ar n p
    match f.fail with
    | some _ => return (Mat.nans n n, s)
    | none =>
      let y ← f.solve ar n q.get
      let y ← (List.range s).foldlM (fun y _ => mmSquare ar n y y) y
      return (y, s)

/-! ## The run of a factor form (R228, Table 15.4) -/

/-- A lane's counts: multiply-accumulates, dependent pivot stages, divide results. -/
structure Counts where
  f : Nat
  s : Nat
  v : Nat
  deriving DecidableEq, Repr

def luMacs (n : Nat) : Nat := (n - 1) * n * (2 * n - 1) / 6
def luCounts (n : Nat) : Counts := { f := luMacs n, s := n, v := n * (n - 1) / 2 }
def cholCounts (n : Nat) : Counts := { f := n * (n - 1) / 2 + n * (n - 1) * (n - 2) / 6, s := n, v := n * (n + 1) / 2 }
def trsCounts (n q : Nat) (unit : Bool) : Counts := { f := q * (n * (n - 1) / 2), s := n, v := if unit then 0 else q * n }
def invCounts (n : Nat) : Counts := { f := luMacs n + n * n * (n - 1), s := 3 * n, v := n * (n - 1) / 2 + n * n }
def detCounts (n : Nat) : Counts := { f := luMacs n + n - 1, s := n, v := n * (n - 1) / 2 }
def refineCounts (n q i : Nat) (lu : Bool) : Counts :=
  { f := (i + 1) * n * n * q + i * (q * n * (n - 1) + n * q), s := 2 * n * i, v := (if lu then 1 else 2) * n * q * i }
def expCounts (n a : Nat) : Counts := { f := (4 + a) * n * n * n + (invCounts n).f, s := 3 * n, v := (invCounts n).v }

/-- C, for the lanes' counts with their formats (FP64 or not). -/
def factorRun (ls : List (Bool × Counts)) : Nat :=
  let own (e : Bool × Counts) : Nat := if e.1 then ceilDiv e.2.f 16 + e.2.s * 18 else ceilDiv e.2.f 32 + e.2.s * 8
  max ((ls.map own).foldl max 0) (ceilDiv ((ls.map (fun e => e.2.v * (if e.1 then 4 else 1))).foldl (· + ·) 0) 8)

end Sys2Proof

namespace Sys2Proof.Machine

/-! ## The factor forms -/

/-- F of Table 14.3 and the limits of Table 14.4: a square A of FP32 or FP64. -/
def factorShape (a : Shape) : Bool :=
  a.rows == a.cols && ((a.fmt == .f32) || (a.fmt == .f64 && decide (a.rows ≤ 8)))

/-- Is the shape r × c in the format of `a`? -/
def sameF (a s : Shape) (r c : Nat) : Bool := s.fmt == a.fmt && s.rows == r && s.cols == c

/-- A factor form: the check of a lane, and the lane's writes, flags and counts. It holds the pool for C clocks (R225,
R228). -/
def factorForm (op : Nat) (f : FormX) (len need : Nat) (s : State) (chk : Ctx → Nat → Bool)
    (sem : Ctx → Nat → Arith → (List RegW × Counts) × Nat) : Res :=
  issue op len (max (f.d.need 1) (max (f.a.need 1) need)) f.hdr s (fun c =>
    c.checked [] (fun l => refused (c.regsOk f.a (c.shape l f.ha) && factorShape (c.shape l f.ha) && chk c l)) (
      let res := c.active.lanes.map (fun l => (l, sem c l (arithOf (c.shape l f.ha).fmt f.ftz)))
      let run := factorRun (res.map (fun e => ((c.shape e.1 f.ha).fmt == .f64, e.2.1.2)))
      c.results (c.holdPool c.s run false true []) f.la (7 + run) .matrix (res.map (fun e => (e.1, e.2.1.1, e.2.2)))))

/-- D of the form, which is r × c in A's format. -/
def Ctx.dOk (c : Ctx) (f : FormX) (l r cc : Nat) : Bool :=
  let d := c.shape l f.hd
  c.regsOk f.d d && sameF (c.shape l f.ha) d r cc

def Ctx.writeD (c : Ctx) (f : FormX) (l : Nat) (m : Mat) : List RegW :=
  let d := c.shape l f.hd
  matWrites l (vNum f.d) d (d.encode m)

/-- R81: a signalling NaN of a source that becomes a result without arithmetic raises IV, and is written as the canonical NaN. -/
def sigFlag (xs : List FV) : Fl Unit := raiseFl (if xs.any FV.isSig then flIV else 0)

/-- A computation's result with a change of its first part. -/
def mapFst {α β γ : Type} (g : α → β) (x : α × γ) : β × γ := (g x.1, x.2)

def execMlu (f : FormX) (cp : Opnd) (s : State) : Res :=
  factorForm 0x9F f 16 (cp.need 2) s
    (fun c l => let n := (c.shape l f.ha).rows; c.dOk f l n n)
    (fun c l ar =>
      let n := (c.shape l f.ha).rows
      mapFst (fun r => (c.both l (c.writeD f l (r.result n)) (regWrites cp l true r.nibbles), luCounts n))
        (Fl.run (do
          let r ← lu ar n (c.matM f.ftz f.a l f.ha)
          if r.fail.isSome then raiseFl flSG
          sigFlag (r.result n).flatten
          return r)))

def execMchol (f : FormX) (s : State) : Res :=
  factorForm 0xA0 f 8 0 s
    (fun c l => let n := (c.shape l f.ha).rows; c.dOk f l n n)
    (fun c l ar =>
      let n := (c.shape l f.ha).rows
      mapFst (fun r => (c.writeD f l (cholResult n r), cholCounts n))
        (Fl.run (do
          let r ← chol ar n (c.matM f.ftz f.a l f.ha)
          if r.2.isSome then raiseFl flSG
          return r)))

/-- R211: `t` is the extension's bit, absent without an extension word. -/
def execMtrs (f : FormX) (upper unit : Bool) (t : Option Bool) (s : State) : Res :=
  let tr := t.getD false
  factorForm 0xA1 f (if t.isSome then 16 else 8) (f.b.need 1) s
    (fun c l =>
      let n := (c.shape l f.ha).rows
      let b := c.shape l f.hb
      c.regsOk f.b b && sameF (c.shape l f.ha) b n b.cols && c.dOk f l n b.cols)
    (fun c l ar =>
      let n := (c.shape l f.ha).rows
      let q := (c.shape l f.hb).cols
      let a := c.matM f.ftz f.a l f.ha
      let b := c.matM f.ftz f.b l f.hb
      mapFst (fun r => (c.writeD f l r.1, trsCounts n q unit))
        (Fl.run (do
          let r ← trs ar n q (fun i j => if tr then a.get j i else a.get i j) b.get (upper == tr) unit
          sigFlag r.1.flatten
          return r)))

def execMinv (f : FormX) (s : State) : Res :=
  factorForm 0xA2 f 8 0 s
    (fun c l => let n := (c.shape l f.ha).rows; c.dOk f l n n)
    (fun c l ar =>
      let n := (c.shape l f.ha).rows
      mapFst (fun r => (c.writeD f l r, invCounts n)) (inverse ar n (c.matM f.ftz f.a l f.ha)).run)

def execMdet (f : FormX) (s : State) : Res :=
  factorForm 0xA3 f 8 0 s
    (fun c l => (c.shape l f.ha).fmt != .f64 || (vNum f.d % 2 = 0 && c.runOk f.d 2))
    (fun c l ar =>
      let n := (c.shape l f.ha).rows
      mapFst (fun r => (scalarWrites f.d l ((c.shape l f.ha).fmt == .f64) ar.fm r, detCounts n))
        (Fl.run (do
          let r ← det ar n (c.matM f.ftz f.a l f.ha)
          sigFlag [r]
          return r)))

def execMexp (f : FormX) (s : State) : Res :=
  factorForm 0xA4 f 8 0 s
    (fun c l => let n := (c.shape l f.ha).rows; c.dOk f l n n)
    (fun c l ar =>
      let n := (c.shape l f.ha).rows
      mapFst (fun r => (c.writeD f l r.1, expCounts n r.2)) (mexp ar n (c.matM f.ftz f.a l f.ha)).run)

/-- The row of the residual that a permutation nibble names. A nibble at or above n names none, and the spec gives the value
no meaning: a free value (log 2). -/
def Ctx.permuted (c : Ctx) (fm : Fmt) (l n kit perm : Nat) (r : Mat) (i q : Nat) : FV :=
  let p := perm / 16 ^ i % 16
  if p < n then r.get p q else fm.decode (Config.free (c.s.seed c.w + 200000 + ((kit * 32 + l) * 16 + i) * 16 + q))

/-- R214; x is written only where it has been updated. A signalling tolerance raises IV as any source does (R81). -/
def execMrefine (f : FormX) (isLu : Bool) (cf ce : Opnd) (hc : Nat) (s : State) : Res :=
  factorForm 0xA5 f 16 (max (f.b.need 1) (max (cf.need 1) (ce.need 1))) s
    (fun c l =>
      let a := c.shape l f.ha
      let n := a.rows
      let b := c.shape l f.hb
      let k := c.shape l hc
      c.regsOk f.b b && sameF a b n b.cols && c.dOk f l n b.cols && c.regsOk cf k && sameF a k n n
        && c.runOk ce (if a.fmt == .f64 then (if isLu then 6 else 3) else if isLu then 4 else 2))
    (fun c l ar =>
      let sa := c.shape l f.ha
      let n := sa.rows
      let q := (c.shape l f.hb).cols
      let wide := sa.fmt == .f64
      let e := vNum ce
      let reg (i : Nat) : Nat := (c.getV l (e + i)).toNat
      let tol := if wide then fmt64.decode (reg 0 + 2 ^ 32 * reg 1) else fmt32.read ar.ftz (reg 0)
      let capAt := if wide then 2 else 1
      let perm := reg (2 * capAt) + 2 ^ 32 * reg (2 * capAt + 1)
      let k := c.matM f.ftz cf l hc
      let solve (kit : Nat) (r : Mat) : Fl (Mat × Bool) :=
        if isLu then luSolve ar n q k (c.permuted ar.fm l n kit perm r)
        else do
          let (y, failed) ← trs ar n q k.get r.get true false
          if failed then return (y, true) else trs ar n q (fun i j => k.get j i) y.get false false
      mapFst (fun r => (c.both l (if r.2 = 0 then [] else c.writeD f l r.1) [.v l (e + capAt) (BitVec.ofNat 32 r.2)], refineCounts n q r.2 isLu))
        ((sigFlag [tol] >>= fun _ => refine ar n q (c.matM f.ftz f.a l f.ha) (c.matM f.ftz f.b l f.hb) tol solve (reg capAt % 256) 0
          (c.matM f.ftz f.d l f.hd)).run))

end Sys2Proof.Machine
end

