-- ==== Sys2Proof/Machine/FloatOps.lean ====
section
/-! DEFINITION. Floating-point arithmetic of port A: FP32, FP64 and packed 16-bit forms, compares and classification
(R170–R177). -/
namespace Sys2Proof.Machine

/-- A two-source form of R172 in one format. -/
def fop2 (op : Nat) (f : FormA) (s : State) (g : FV → FV → FV × Nat) : Res :=
  let fm := f.ty.fmt
  formA op f f.ty.wide f.ty.wide f.ty.wide s
    (fun _ _ a b => fm.opRes f.rnd 0 f.ftz (g (fm.read f.ftz a) (fm.read f.ftz b)))

/-- R172. -/
def execFadd (f : FormA) (s : State) : Res := fop2 0x60 f s (FV.add f.rnd)
def execFmul (f : FormA) (s : State) : Res := fop2 0x61 f s FV.mul
def execDadd (f : FormA) (s : State) : Res := fop2 0x69 f s (FV.add f.rnd)
def execDmul (f : FormA) (s : State) : Res := fop2 0x6A f s FV.mul

/-- R172: one rounding of a × b + c. -/
def fop3 (op : Nat) (f : FormA3) (s : State) : Res :=
  let fm := f.ty.fmt
  formA3 op f f.ty.wide f.ty.wide f.ty.wide f.ty.wide s
    (fun _ _ a b c => fm.opRes f.rnd 0 f.ftz (FV.fma f.rnd (fm.read f.ftz a) (fm.read f.ftz b) (fm.read f.ftz c)))

def execFfma (f : FormA3) (s : State) : Res := fop3 0x62 f s
def execDfma (f : FormA3) (s : State) : Res := fop3 0x6B f s

/-- R173. -/
def fminmax (op : Nat) (f : FormA) (max : Bool) (s : State) : Res :=
  formA op f f.ty.wide f.ty.wide f.ty.wide s (fun _ _ a b => f.ty.fmt.minmax max f.ftz a b)

def execFmin (f : FormA) (s : State) : Res := fminmax 0x63 f false s
def execFmax (f : FormA) (s : State) : Res := fminmax 0x64 f true s
def execDmin (f : FormA) (s : State) : Res := fminmax 0x6C f false s
def execDmax (f : FormA) (s : State) : Res := fminmax 0x6D f true s

/-- R174, FRND. -/
def execFrnd (f : FormA) (dir : FrndDir) (s : State) : Res :=
  let m : Rnd := match dir with
    | .near => .rn
    | .trunc => .rz
    | .ceil => .ru
    | .floor => .rd
  formA 0x67 f f.ty.wide f.ty.wide false s (fun _ _ a _ => f.ty.fmt.frnd m (f.ty.fmt.read f.ftz a))

/-- R174, FSCL: A × 2^n for a signed 32-bit n. -/
def execFscl (f : FormA) (s : State) : Res :=
  let fm := f.ty.fmt
  let os := [f.a, f.b.src]
  let wd := f.ty.wide
  issue 0x68 (if f.b.x = 1 then 16 else 8) (max (f.d.need (regsOf wd)) (max (f.a.need (regsOf wd)) (f.b.need 1))) f.hdr s (fun c =>
    c.alu f.d wd os (fun l =>
      let x := fm.read f.ftz (c.rd os 0 wd l)
      -- beyond ±5000 the result is the same for every finite value: an overflow, or below half the smallest subnormal
      let n := max (-5000) (min 5000 (NumTy.toInt .i32 (c.rdB os 1 f.b .i32 false l)))
      fm.opRes .rn 0 f.ftz (x.scale n, if x.isSig then flIV else 0)))

/-- R175. -/
def fcompare (op : Nat) (f : FormP) (s : State) : Res :=
  let fm := f.ty.fmt
  formP op f f.ty.wide f.ty.wide s (fun _ _ a b =>
    let x := fm.read f.ftz a
    let y := fm.read f.ftz b
    (FV.cond f.cond x y, if x.isSig || y.isSig then flIV else 0))

def execFcmp (f : FormP) (s : State) : Res := fcompare 0x65 f s
def execDcmp (f : FormP) (s : State) : Res := fcompare 0x6E f s

/-- R176: the class mask is B[9:0], imm10 or a register. -/
def execFclass (f : FormP) (s : State) : Res :=
  let os := [f.a, f.b.src]
  issue 0x66 (if f.b.x = 1 then 16 else 8) (max (f.a.need (regsOf f.ty.wide)) (f.b.need 1)) f.hdr s (fun c =>
    match c.popCheck os with
    | some i => i
    | none =>
      let r (l : Nat) : Bool :=
        c.rdB os 1 f.b .u32 false l / 2 ^ (f.ty.fmt.class f.ftz (c.rd os 0 f.ty.wide l)) % 2 = 1
      .done (c.s.putWarp c.wid (c.putPred (popQueues os c.w) f.d (fun l => f.comb.apply (r l) (c.pred l f.cp != f.cneg)))))

/-- The two elements of a packed form, each rounded once with its own draw (R177). -/
def duo (fm : Fmt) (rnd : Rnd) (draw : Nat → Nat) (g : Nat → FV × Nat) : FRes :=
  let r0 := fm.opRes rnd (draw 0) false (g 0)
  let r1 := fm.opRes rnd (draw 1) false (g 1)
  { bits := r0.bits + 2 ^ 16 * r1.bits, flags := r0.flags ||| r1.flags }

def half (x e : Nat) : Nat := x / 2 ^ (16 * e) % 2 ^ 16

/-- A packed two-source form: under .SR the generator advances once per issue (R89, R177); a uniform form takes the draw of the lowest active
lane (log 109). -/
def duo2 (op : Nat) (f : FormA) (s : State) (g : FV → FV → FV × Nat) : Res :=
  let fm := f.ty.fmt
  let os := [f.a, f.b.src]
  issue op (if f.b.x = 1 then 16 else 8) (max (f.d.need 1) (max (f.a.need 1) (f.b.need 1))) f.hdr s (fun c =>
    (c.alu f.d false os (fun l =>
      duo fm f.rnd (c.w.draw l) (fun e => g (fm.decode (half (c.rd os 0 false l) e))
        (fm.decode (half (c.rdB os 1 f.b f.ty false l) e))))).sr f.rnd c.wid)

def execDuoadd (f : FormA) (s : State) : Res := duo2 0x6F f s (FV.add f.rnd)
def execDuomul (f : FormA) (s : State) : Res := duo2 0x70 f s FV.mul

/-- R177, DUOFMA. -/
def execDuofma (f : FormA3) (s : State) : Res :=
  let fm := f.ty.fmt
  let os := [f.a, f.b.src, f.c]
  issue 0x71 (if f.b.x = 1 then 16 else 8) (max (max (f.d.need 1) (f.c.need 1)) (max (f.a.need 1) (f.b.need 1))) f.hdr s (fun c =>
    (c.alu f.d false os (fun l =>
      duo fm f.rnd (c.w.draw l) (fun e => FV.fma f.rnd (fm.decode (half (c.rd os 0 false l) e))
        (fm.decode (half (c.rdB os 1 f.b f.ty false l) e)) (fm.decode (half (c.rd os 2 false l) e))))).sr f.rnd c.wid)

end Sys2Proof.Machine
end

