-- ==== Sys2Proof/Machine/Power.lean ====
section
/-! DEFINITION. Power, current and clocks (R356–R368). -/
namespace Sys2Proof.Machine

/-! ## The Shutter (R357) -/

/-- A partition's next window starts: its issues are counted anew, under the budget written last. -/
def execShutterWindow (part : Nat) (s : State) : Res :=
  .next (
    let n := (s.core (coreOfPart part)).cyc / 32
    if (s.part part).window = n then s
    else s.modPart part (fun p => { p with window := n, used := 0, budget := p.shutBudget }))

/-! ## When clocks are due (R12) -/

def coresOf (cluster : Nat) : List Nat := (List.range 6).map (6 * cluster + ·)

/-- Do a cluster's clocks run (R364, R390)? -/
def State.runs (s : State) (cluster : Nat) : Bool := decide (cluster < 128) && !(s.cluster cluster).fused && !(s.die (dieOfCluster cluster)).tripped

/-- Is a clock of a core due: its cluster's clocks have made up one of its own, and it is not in one? -/
def State.clkDue (s : State) (core : Nat) : Bool :=
  s.runs (clusterOfCore core) && (s.core core).clk == .between && decide (8 ≤ (s.core core).phase)

/-- The length of a cluster's current clock in thousandths of its period: a stretched one lasts 1.5 (R359). -/
def Cluster.period (k : Cluster) : Nat := if decide (2 ≤ k.stretch) && decide (k.stretch ≤ 7) then 1500 else 1000

/-- Is the edge of a cluster's clock due? Clocks of its cores that are due come before it. -/
def State.cclkDue (s : State) (cluster : Nat) : Bool :=
  s.runs cluster && decide ((s.cluster cluster).period ≤ (s.cluster cluster).phase) && (coresOf cluster).all (fun c => !s.clkDue c)

/-! ## Droop response (R359–R361) -/

/-- An alarm: six stretched cluster clocks follow, and any halving phase ends (R361). -/
def execDroopAlarm (cluster : Nat) (s : State) : Res :=
  .next (if 128 ≤ cluster then s
    else (coresOf cluster).foldl (fun s c => s.modCore c (fun x => { x with halving := none }))
      (s.modCluster cluster (fun k => { k with alarms := (k.alarms + 1) % 2 ^ 32, stretch := 8 })))

/-- The six clocks are over: every core of the cluster starts its halving phase with its next clock. -/
def execStretchPhaseEnd (cluster : Nat) (s : State) : Res :=
  .next (if (s.cluster cluster).stretch ≠ 1 then s
    else (coresOf cluster).foldl (fun s c => s.modCore c (fun x => { x with halving := some 0 }))
      (s.modCluster cluster (fun k => { k with stretch := 0 })))

/-- The halving phase's 64 clocks are over. -/
def execHalvingPhaseEnd (core : Nat) (s : State) : Res :=
  .next (if (s.core core).halving = some 64 && !(s.core core).inClk then s.modCore core (fun c => { c with halving := none }) else s)

/-! ## Throttle notices (R366, R367) -/

/-- Is a core throttled: cluster clock × ratio below 1,050 MHz? The clamp does not count. -/
def State.slow (s : State) (core : Nat) : Bool :=
  decide ((600 + 25 * s.stepOf (dieOfCore core)) * (s.core core).ratio < 8400)

/-- A change of a core's throttling renews the notices of its teams; one back to what was delivered cancels them (R366). -/
def State.notices (s : State) : State :=
  (List.range 768).foldl (fun s c =>
    let now := s.slow c
    if (s.core c).throttled = now then s
    else
      let s := s.modCore c (fun x => { x with throttled := now })
      let renew (t : Team) : Team :=
        if t.core = c && (s.context (s.grid t.grid).ctx).compat then
          { t with notice := { t.notice with pending := (if t.notice.delivered = now then none else some now) } }
        else t
      { s with mod := { s.mod with teams := Table.mapVal (fun _ t => renew t) s.mod.teams } }) s

/-- R367: the notice is delivered to the team's elected warp, before its next issue. -/
def execThrottleNotice (team : Nat) (s : State) : Res :=
  .next (match s.team? team with
    | none => s
    | some t => match t.warps.find? (fun i => match s.warp? i with | some w => (s.noticeFor i w).isSome | none => false) with
      | none => s
      | some wid => match s.warp? wid with
        | none => s
        | some w => match s.noticeFor wid w, w.cur with
          | some b, some f =>
            let len := match s.offer w (f.lowest.getD 0) with
              | .ok i _ => i.len
              | _ => 8
            (s.putTeam team { t with notice := { pending := none, delivered := b } }).raise wid .trap (if b then 0x3FE else 0x3FF) 0 f f
              (w.retPoints f len) .reissue none
          | _, _ => s)

/-! ## Clocks and boost (R362, R363) -/

/-- Is a cluster in its stretch phase? -/
def Cluster.stretching (k : Cluster) : Bool := decide (2 ≤ k.stretch)

/-- A ratio that has been written takes effect. -/
def Core.newRatio (c : Core) : Core := match c.ratioPending with
  | some n => { c with ratio := n, ratioPending := none }
  | none => c
/-- A step that has been written takes effect. -/
def Die.newStep (d : Die) : Die := match d.stepPending with
  | some n => { d with step := n, stepPending := none }
  | none => d

/-- R362: what has been written of CLKSTEP and CORERATIO takes effect at a boundary of cluster clocks of a die, where the next of them is
due and no clock of their cores is under way; not inside a stretch phase. While its firmware hangs or is updated, the controller
adjusts nothing (R368). -/
def execClockChange (die : Nat) (s : State) : Res :=
  .next (
    let clusters := (List.range 16).map (16 * die + ·)
    let ready := clusters.filter (fun k => s.cclkDue k && (coresOf k).all (fun c => !(s.core c).inClk))
    if 8 ≤ die || s.mod.dormerHung || s.mod.dormerUpdating || ready.isEmpty || clusters.any (fun k => (s.cluster k).stretching) then s
    else ((ready.flatMap coresOf).foldl (fun s c => s.modCore c Core.newRatio) (s.modDie die Die.newStep)).notices)

/-- R363: SR_BOOST falls by 1 for a microsecond in which a die has run above step 18. -/
def execBoostDecrement (s : State) : Res :=
  .next (
    if s.mod.boostDue then ({ s with mod := { s.mod with boost := s.mod.boost - 1, boostDue := false } }).notices else s)

/-- R365: a new interval lets held requests go. -/
def execByteBudgetInterval (cluster : Nat) (s : State) : Res :=
  .next (
    let now := s.mod.gts / 1000
    if 128 ≤ cluster || (s.cluster cluster).interval = now then s else s.modCluster cluster (fun k => { k with interval := now, bytes := k.held, held := 0 }))

/-! ## Protections and the Dormer controller (R364, R368) -/

/-- A detail that the spec does not give (a free value, log 2). -/
def State.noDetail (s : State) : Nat := Config.free (s.fresh + 130001) % 2 ^ 64

def execThermalTrip (die : Nat) (s : State) : Res :=
  .next (if 8 ≤ die then s else (s.modDie die (fun d => { d with tripped := true })).errorRecord 0x15 0 (3968 + die) s.noDetail)
def execThermalRecovery (die : Nat) (s : State) : Res := .next (if 8 ≤ die then s else s.modDie die (fun d => { d with tripped := false }))
def execCurrentClamp (die : Nat) (s : State) : Res := .next (if 8 ≤ die then s else s.modDie die (fun d => { d with clamped := true }))
def execCurrentClampRelease (die : Nat) (s : State) : Res := .next (if 8 ≤ die then s else s.modDie die (fun d => { d with clamped := false }))

/-- R368: every core at 4/8, every die at its step or 18, until firmware writes them again. -/
def execDormerWatchdog (s : State) : Res :=
  .next (
    let s := (List.range 8).foldl (fun s d => s.modDie d (fun x => { x with step := min x.step 18, stepPending := none, held := true })) s
    let s := (List.range 768).foldl (fun s c => s.modCore c (fun x => { x with ratio := 4, ratioPending := none, held := true })) s
    let s := { s with mod := { s.mod with dormerHung := true } }
    (s.errorRecord 0x16 0 3976 s.noDetail).notices)

def execFirmwareUpdateStart (s : State) : Res :=
  .next (({ s with mod := { s.mod with dormerUpdating := true } }).errorRecord 0x19 0 3976 s.noDetail)
def execFirmwareUpdateEnd (s : State) : Res :=
  .next (({ s with mod := { s.mod with dormerUpdating := false } }).errorRecord 0x19 0 3976 s.noDetail)

/-! ## Power registers (R356, Table 30.1) -/

/-- A write of a power register, its value brought into range; none for a register or a unit that there is not (R382). A clock that
the watchdog has lowered stays so when the host writes it, until the firmware writes it (R368). -/
def State.writePower (s : State) (reg unit value : Nat) : Option State :=
  match reg with
  | 0 => if 3072 ≤ unit then none
    else some (s.modPart unit (fun p => { p with shutBudget := min 32 (max 1 (value % 64)) }))
  | 1 => if 128 ≤ unit then none else some (s.modCluster unit (fun k => { k with droopThr := min 120 (max 10 (value % 128)) }))
  | 3 => if 8 ≤ unit then none
    else
      let n := min 24 (value % 32)
      some (s.modDie unit (fun d => { d with stepWritten := n, stepPending := if d.held then none else some n }))
  | 4 => if 768 ≤ unit then none
    else
      let n := min 8 (max 4 (value % 16))
      some (s.modCore unit (fun c => { c with ratioWritten := n, ratioPending := if c.held then none else some n }))
  | 5 => if 128 ≤ unit then none
    else some (s.modCluster unit (fun k =>
      -- metering that begins anew begins with no bytes counted (R365)
      if k.byteBudget = 0 then { k with byteBudget := value % 2 ^ 32, bytes := 0, held := 0, interval := s.mod.gts / 1000 } else { k with byteBudget := value % 2 ^ 32 }))
  | 6 => if unit ≠ 0 then none else some ({ s with mod := { s.mod with boost := value % 2 ^ 24 } }).notices
  | _ => none

/-- A power register's current value. -/
def State.readPower (s : State) (reg unit : Nat) : Option Nat :=
  match reg with
  | 0 => if 3072 ≤ unit then none else some (s.part unit).shutBudget
  | 1 => if 128 ≤ unit then none else some (s.cluster unit).droopThr
  | 2 => if 128 ≤ unit then none else some (s.cluster unit).alarms
  | 3 => if 8 ≤ unit then none else some (s.die unit).stepWritten
  | 4 => if 768 ≤ unit then none else some (s.core unit).ratioWritten
  | 5 => if 128 ≤ unit then none else some (s.cluster unit).byteBudget
  | 6 => if unit ≠ 0 then none else some s.mod.boost
  | _ => none

/-- The firmware writes a clock, which the watchdog's drop holds no longer (R368). -/
def State.unhold (s : State) (reg unit : Nat) : State :=
  match reg with
  | 3 => s.modDie unit (fun d => { d with held := false })
  | 4 => s.modCore unit (fun c => { c with held := false })
  | _ => s

/-- R356: the Dormer firmware's own write; it does not run while it is being updated. After a hang it runs again with its first write (R368,
log 85). -/
def execDormerPowerWrite (reg unit value : Nat) (s : State) : Res :=
  .next (if s.mod.dormerUpdating then s
    else match s.writePower reg unit value with
      | none => s
      | some _ => ((({ s with mod := { s.mod with dormerHung := false } }).unhold reg unit).writePower reg unit value).getD s)

end Sys2Proof.Machine
end

