-- ==== Sys2Proof/Machine/HostCmds.lean ====
section
/-! DEFINITION. The host's commands (R279–R285, R335, R341, R348, R353, R356, R382, R383, R387, R390), bring-up and reset (R380,
R381, R387), errors (R385, R388), fault records (R386). -/
namespace Sys2Proof

/-- The clusters that a SWITCH names, as a mask. -/
def Cmd.mask (c : Cmd) : Nat := if c.arg0 = 0 && c.arg1 = 0 then 2 ^ 128 - 1 else c.arg0 % 2 ^ 64 + 2 ^ 64 * (c.arg1 % 2 ^ 64)
/-- POWER's register, its unit, and whether it reads (Table 34.2). -/
def Cmd.reg (c : Cmd) : Nat := c.arg0 % 256
def Cmd.unit (c : Cmd) : Nat := c.arg0 / 256 % 2 ^ 24
def Cmd.reads (c : Cmd) : Bool := c.arg0 / 2 ^ 63 % 2 = 1
/-- KEYHOLE's core and comparator, and whether it reads. -/
def Cmd.core (c : Cmd) : Nat := c.arg0 % 2 ^ 16
def Cmd.comparator (c : Cmd) : Nat := c.arg0 / 2 ^ 16 % 8
def Cmd.readsImage (c : Cmd) : Bool := c.arg0 / 2 ^ 31 % 2 = 1

end Sys2Proof

namespace Sys2Proof.Machine

/-! ## One command -/

/-- A STOP whose warp has gone with its context is refused (R334, log 82). -/
def State.stopLost (s : State) : Bool :=
  (match s.mod.command with | some (0x0B, _) => true | _ => false) && s.warps.all (fun e => !e.2.saveDue.contains .stop)

/-- A command is taken when it stands at the ring's read index, no other is under way, and nothing stands before it. An
entry of an opcode that Table 34.2 does not list is refused first. -/
def onCommand (op : Nat) (c : Cmd) (s : State) (k : State → Res) : Res :=
  match s.commandAt with
  | none => .next s
  | some at_ =>
    s.reach at_ 64 (
      let r := s.commandOf at_
      if s.mod.command.isSome then .next (if s.stopLost then s.endCommand false else s)
      else if r.1 = 0 || 0x0D < r.1 then .next (s.endCommand false)
      else if r = (op, c) then k s
      else .next s)

/-- A command that ends at once. -/
def finishCommand (r : Option State) (s : State) : Res :=
  match r with
  | some s' => .next (s'.endCommand true)
  | none => .next (s.endCommand false)

/-! ## CREATE and DESTROY (R382, R383) -/

/-- A context record (Table 34.3). -/
def contextOf (rd : Nat → Nat → Nat) : Context :=
  let opt := rd 0x48 4
  { root := rd 0x00 8
    pool := rd 0x08 8
    poolSize := rd 0x10 8
    handles := rd 0x18 8
    slots := rd 0x20 4
    accum := rd 0x28 8
    account := rd 0x30 8
    shadow := rd 0x38 8
    shadowSize := rd 0x40 8
    compat := opt % 2 = 1
    peephole := opt / 2 % 2 = 1
    privileged := opt / 4 % 2 = 1
    debug := opt / 8 % 2 = 1 }

/-- The limits of Table 34.3. -/
def State.contextOk (s : State) (c : Context) : Bool :=
  c.root % 4096 = 0 && decide (c.root < 2 ^ 41) && s.assigned c.root
    && c.pool % 2 ^ 17 = 0 && c.poolSize % 2 ^ 17 = 0 && decide (2 ^ 17 ≤ c.poolSize)
    && decide (c.slots < 2 ^ 20) && (c.slots = 0 || c.handles % 128 = 0)
    && c.accum % 64 = 0 && c.account ≠ 0 && c.account % 8 = 0
    && (!c.peephole || (c.shadow ≠ 0 && c.shadow % 4096 = 0 && c.shadowSize % 4096 = 0 && decide (4096 ≤ c.shadowSize)))

def execCreate (c : Cmd) (s : State) : Res :=
  onCommand 0x01 c s (fun s =>
    if c.ctx = 0 || (s.context? c.ctx).isSome then .next (s.endCommand false)
    else s.reach c.arg0 128 (
      let x := contextOf (fun o n => s.peekN (c.arg0 + o) n)
      finishCommand (if s.contextOk x then some { s with mod := { s.mod with contexts := Table.put s.mod.contexts c.ctx x } } else none) s))

/-- R382, R334: the context goes with its grids. -/
def execDestroy (c : Cmd) (s : State) : Res :=
  onCommand 0x02 c s (fun s => finishCommand (
    let s := s.endGrids c.ctx
    some { s with mod := { s.mod with contexts := Table.drop s.mod.contexts c.ctx, faults := s.mod.faults.filter (fun f => f.ctx != c.ctx) } }) s)

/-! ## INVALIDATE and RESOLVED (R283, R285) -/

/-- The TLB entries of a context whose page holds a byte of a range are dropped; its walks begin again, and what walks have ended in for
its accesses is forgotten. -/
def invalidate (ctx lo hi : Nat) (t : SMap (Nat × Nat)) : SMap (Nat × Nat) :=
  t.filter (fun e =>
    let size := pageSize e.2.2
    let page := e.1 % 2 ^ 64 * 2 ^ 15 / size * size
    !(e.1 / 2 ^ 64 == ctx && decide (page < hi) && decide (lo < page + size)))

def execInvalidate (c : Cmd) (s : State) : Res :=
  onCommand 0x03 c s (fun s => finishCommand (some
    { s with
      warps := Table.mapVal (fun _ (w : Warp) => if s.ctxOf w = c.ctx then { w with walked := [] } else w) s.warps
      cores := Table.mapVal (fun _ (x : Core) => { x with tlb := invalidate c.ctx c.arg0 (c.arg0 + c.arg1) x.tlb }) s.cores
      dies := Table.mapVal (fun _ (x : Die) => { x with
        tlb := invalidate c.ctx c.arg0 (c.arg0 + c.arg1) x.tlb
        walks := x.walks.map (fun k => if k.ctx = c.ctx then { k with level := 4, table := (s.context c.ctx).root, bytes := [] } else k) }) s.dies }) s)

/-- A stream that waits for a page holding the address reads on (R273). -/
def Stream.resolved (x : Stream) (va : Nat) : Stream :=
  match x.waits with
  | some (p, z) => if p ≤ va && va < p + z then { x with waits := none } else x
  | none => x

/-- A warp whose access, or whose stream, waits for the page. -/
def Warp.resolved (w : Warp) (va : Nat) : Warp :=
  let w := { w with streams := Table.mapVal (fun _ x => Stream.resolved x va) w.streams }
  match w.waitPage with
  | some (p, z, _) => if p ≤ va && va < p + z then { w with waitPage := none, wait := none } else w
  | none => w

/-- R285: the page that holds the address has been resolved: its record ends, thread accesses and streams that wait for it go on, and a
copy's bytes are looked up again. -/
def State.resolve (s : State) (ctx va : Nat) : State :=
  let hit (page size : Nat) : Bool := decide (page ≤ va) && decide (va < page + size)
  let s := { s with
    mod := { s.mod with faults := s.mod.faults.filter (fun f => !(f.ctx == ctx && hit f.page f.size)) }
    warps := Table.mapVal (fun _ (w : Warp) => if s.ctxOf w = ctx then w.resolved va else w) s.warps }
  (s.copies.flatMap (fun c => if c.ctx = ctx then (c.pages.filter (fun e => hit e.1 e.2.1)).map (fun e => (c.id, e)) else [])).foldl (fun s r =>
    match s.copies.find? (fun x => x.id == r.1) with
    | some x => s.copyPage x r.2.1 r.2.2.1
    | none => s) s

def execResolved (c : Cmd) (s : State) : Res :=
  onCommand 0x04 c s (fun s => finishCommand (some (s.resolve c.ctx c.arg0)) s)

/-! ## RESUME, STOP, SWITCH, READMIT (R335, R336, R341) -/

/-- The warp in a slot that a debug command may name (R383). -/
def State.debugged (s : State) (c : Cmd) : Option (Nat × Warp) :=
  match (s.warpIn c.arg0 c.arg1) with
  | some i => match s.warp? i with
    | some w => if s.ctxOf w = c.ctx && (s.context c.ctx).debug then some (i, w) else none
    | none => none
  | none => none

/-- R335: the warp goes on: after the BKPT, or at the instruction that a comparator or STOP held back. -/
def execResume (c : Cmd) (s : State) : Res :=
  onCommand 0x05 c s (fun s => finishCommand (match s.debugged c with
    | some (i, w) => match w.stopped with
      | some r =>
        let w := if w.cur.isNone then w.regroupFront else w
        let pass := if r.cause == .keyhole then r.lanes.lanes.map (fun l => (w.level, l, (w.th l).pc)) else []
        some (s.putWarp i { w with stopped := none, passKeyhole := w.passKeyhole ++ pass })
      | none => some s
    | none => none) s)

def execStop (c : Cmd) (s : State) : Res :=
  onCommand 0x0B c s (fun s => match s.debugged c with
    | none => .next (s.endCommand false)
    | some (i, w) =>
      if w.stopped.isSome then .next (s.endCommand true)
      else .next { (s.putWarp i (w.due .stop)) with mod := { s.mod with command := some (0x0B, c) } })

/-- R341: saves become due on the clusters named; partitions with no warp of the context are given up. -/
def execSwitch (c : Cmd) (s : State) : Res :=
  onCommand 0x09 c s (fun s =>
      let on (p : Nat) : Bool := inMask c.mask (clusterOfCore (coreOfPart p))
      let s := s.modContext c.ctx (fun x => { x with switchMask := some ((x.switchMask.getD 0) ||| c.mask) })
      let s := { s with
        parts := Table.mapVal (fun p (x : Part) => if x.owner = c.ctx && on p then { x with switching := true } else x) s.parts
        warps := Table.mapVal (fun _ (w : Warp) => if s.ctxOf w = c.ctx && on w.part && w.inSlot then w.due .switch else w) s.warps
        mod := { s.mod with command := some (0x09, c) } }
      .next (s.giveUp c.ctx))

/-- R382: what SWITCH saved may come back; with nothing away it is done. -/
def execReadmit (c : Cmd) (s : State) : Res :=
  onCommand 0x0A c s (fun s =>
      let s := s.modContext c.ctx (fun x => { x with switchMask := none })
      .next ({ s with mod := { s.mod with command := some (0x0A, c) } }.readmitted c.ctx))

/-! ## POWER, FUSE, ATTEST, KEYHOLE, FLUSH -/

def execPower (c : Cmd) (s : State) : Res :=
  if c.reads then .next s else onCommand 0x06 c s (fun s => finishCommand (s.writePower c.reg c.unit c.arg1) s)

def execPowerRead (c : Cmd) (s : State) : Res :=
  if !c.reads then .next s
  else onCommand 0x06 c s (fun s => match s.readPower c.reg c.unit with
    | none => .next (s.endCommand false)
    | some x => s.reach c.arg1 4 (finishCommand (some (s.pokeN c.arg1 4 x)) s))

/-- R390: the unit is fused off at the next reset. -/
def execFuse (c : Cmd) (s : State) : Res :=
  onCommand 0x07 c s (fun s => finishCommand (
    if c.arg0 = 0 && decide (c.arg1 < 128) then some { s with mod := { s.mod with fusePending := s.mod.fusePending ++ [(false, c.arg1)] } }
    else if c.arg0 = 1 && decide (c.arg1 < 16) then some { s with mod := { s.mod with fusePending := s.mod.fusePending ++ [(true, c.arg1)] } }
    else none) s)

/-- R387: the firmware's hash, then the signature over it and the nonce. -/
def execAttest (c : Cmd) (s : State) : Res :=
  onCommand 0x08 c s (fun s => s.reach c.arg0 64 (s.reach c.arg1 196 (
    let hash := sha512 Config.firmwareImage
    let nonce := s.bytesAt c.arg0 64
    finishCommand (some (s.pokeBytes c.arg1 (hash ++ (List.range 132).map (Config.attestSignature hash nonce)))) s)))

/-- A comparator from its 32-byte image, and its image (Table 28.7). -/
def comparatorOf (rd : Nat → Nat → Nat) : Comparator :=
  { enable := rd 0x00 4 % 2 = 1, kernel := rd 0x04 4, pc := rd 0x08 4 / 8 * 8, warps := rd 0x0C 4, queues := rd 0x10 8, missed := rd 0x18 4 }
def Comparator.image (c : Comparator) : List Byte :=
  leBytes 4 (if c.enable then 1 else 0) ++ leBytes 4 c.kernel ++ leBytes 4 c.pc ++ leBytes 4 c.warps ++ leBytes 8 c.queues ++ leBytes 4 c.missed ++ leBytes 4 0

/-- R353: comparator `cmp` of a core takes an image. -/
def State.setComparator (s : State) (core cmp addr : Nat) : State :=
  s.modCore core (fun x => { x with keyhole := Table.put x.keyhole cmp (comparatorOf (fun o n => s.peekN (addr + o) n)) })

def execKeyhole (c : Cmd) (s : State) : Res :=
  if c.readsImage then .next s
  else onCommand 0x0C c s (fun s =>
    if 768 ≤ c.core then .next (s.endCommand false)
    else s.reach c.arg1 32 (finishCommand (some (s.setComparator c.core c.comparator c.arg1)) s))

def execKeyholeRead (c : Cmd) (s : State) : Res :=
  if !c.readsImage then .next s
  else onCommand 0x0C c s (fun s =>
    if 768 ≤ c.core then .next (s.endCommand false)
    else s.reach c.arg1 32 (
      finishCommand (some (s.pokeBytes c.arg1 (Table.get ({} : Comparator) (s.core c.core).keyhole c.comparator).image)) s))

/-- R353: the cluster controllers' firmware writes a comparator. -/
def execFirmwareKeyholeWrite (core cmp addr : Nat) (s : State) : Res :=
  if 768 ≤ core || 8 ≤ cmp then .next s else s.reach addr 32 (.next (s.setComparator core cmp addr))

/-- R348: the counters of the partitions that a context owns go into its account. -/
def execFlush (c : Cmd) (s : State) : Res :=
  onCommand 0x0D c s (fun s =>
    let ctx := if c.arg0 = 1 then 0 else c.ctx
    finishCommand (some (((s.parts.filter (fun e => e.2.owner == ctx)).map (·.1)).foldl State.flushPart s)) s)

/-! ## Bring-up and reset (R380, R381, R387) -/

/-- The bring-up block (Table 34.1). -/
def bringupOf (rd : Nat → Nat → Nat) : Bringup := {
  queues := rd 0x00 8
  commands := rd 0x08 8
  commandEntries := rd 0x10 4
  faultEntries := rd 0x14 4
  faults := rd 0x18 8
  errors := rd 0x20 8
  errorEntries := rd 0x28 4
  traceOn := rd 0x2C 4 % 8
  traceAt := [rd 0x30 8, rd 0x40 8, rd 0x50 8]
  traceLog := [rd 0x38 4, rd 0x48 4, rd 0x58 4]
  account := rd 0x60 8 }

/-- BOOTBLK is taken once, while BOOTSTAT [1:0] is 1. -/
def execBootblk (addr : Nat) (s : State) : Res :=
  if s.mod.boot % 4 ≠ 1 then .next s
  else s.reach addr 104 (.next { s with mod := { s.mod with
    bringup := some (bringupOf (fun o n => s.peekN (addr + o) n)), boot := s.mod.boot + 2 } })

/-- What a read of a byte of the configuration window gives: BOOTSTAT in the first four, 0 in every other one (R380). -/
def State.configByte (s : State) (offset : Nat) : Byte := if offset < 4 then byteOf s.mod.boot offset else 0

/-- R380: a write to any other byte of the window is ignored. -/
def execConfigWindowWrite (_offset _value : Nat) (s : State) : Res := .next s

/-- R387, R390: reset, with what FUSE has named fused off; then bring-up up to BOOTSTAT. What memory holds across a reset is
not given: it stays (log 20). -/
def execReset (s : State) : Res :=
  let pending := s.mod.fusePending
  let clusters := (s.clusters.filter (fun e => e.2.fused)).map (·.1) ++ (pending.filter (fun p => !p.1)).map (·.2)
  let z := State.reset
  .next { z with
    mem := s.mem
    clusters := (ascending clusters).map (fun k => (k, ({ fused := true } : Cluster)))
    mod := { z.mod with
      gts := s.mod.gts, boot := if Config.firmwareGenuine then 1 else 0x80
      stacksFused := (s.mod.stacksFused ++ (pending.filter (·.1)).map (·.2)).eraseDups }
    nextId := s.nextId, tick := s.tick, fresh := s.fresh }

/-! ## Links and errors (R385, R388) -/

/-- Link 8 is Threshold, 0 to 7 are the Casement links. -/
def execLinkDown (link : Nat) (s : State) : Res :=
  .next (if 9 ≤ link then s
    else ({ s with mod := { s.mod with linksDown := if s.mod.linksDown.contains link then s.mod.linksDown else s.mod.linksDown ++ [link] } }).errorRecord
      0x17 0 (if link = 8 then 3977 else 3978 + link) s.noDetail)

/-- R388: a corrected error is counted for its cluster or stack; the one that crosses the threshold asks for replacement. -/
def execSoftError (unit : Nat) (stack : Bool) (s : State) : Res :=
  if (if stack then 16 else 128) ≤ unit then .next s
  else
    let n := if stack then Table.get 0 s.mod.stackSoft unit else (s.cluster unit).soft
    let s := if stack then { s with mod := { s.mod with stackSoft := Table.put s.mod.stackSoft unit (n + 1) } }
      else s.modCluster unit (fun k => { k with soft := n + 1 })
    .next (if n = Config.errorThreshold stack unit then
      ({ s with mod := { s.mod with boot := s.mod.boot ||| 0x100 } }).errorRecord 0x03 0 (if stack then s.noSource else 3840 + unit) s.noDetail
    else s)

/-- R388: a record, and an error event for the context, which continues. -/
def execUncorrectableError (ctx addr : Nat) (hbm : Bool) (s : State) : Res :=
  let s := s.errorRecord (if hbm then 0x02 else 0x01) ctx s.noSource addr
  .next (if ctx = 0 then s else s.errorRecord 0x10 ctx s.noSource s.noDetail)

/-! ## Fault records (R285, R386) -/

/-- The absent pages of a context that something waits for: address, size and kind of access. Threads and the device's own accesses for
their warps, copies, streams, completion counters and launch records (log 55), copies to and from the save pool, and threads that are to
deposit in the spill area. -/
def State.awaited (s : State) (ctx : Nat) : List (Nat × Nat × Nat) :=
  (s.warps.filter (fun e => s.ctxOf e.2 == ctx)).flatMap (fun e =>
    e.2.waitPage.toList ++ e.2.streams.filterMap (fun x => x.2.waits.map (fun p => (p.1, p.2, 1))))
  ++ (s.copies.filter (fun c => c.ctx == ctx)).flatMap (·.pages)
  ++ (s.mod.grids.filter (fun e => e.2.ctx == ctx && s.mayRetire e.2 && e.2.launch.counts)).filterMap (fun e =>
      (s.devPlace ctx e.2.launch.counter (.at true)).page?.map (fun p => (p.1, p.2, 3)))
  ++ (List.range 64 ++ s.mod.grids.map (fun (e : Nat × Grid) => 64 + e.1)).filterMap (fun q => match s.nextRecord q with
      | some g => if g.ctx = ctx then s.takeWaits ctx g.launch else none
      | none => none)
  ++ (s.poolAway ctx).toList
  ++ (s.warps.filter (fun e => s.ctxOf e.2 == ctx && e.2.regrouping)).filterMap (fun e =>
      (s.spillWaits (s.gridOf e.2) e.2.core 1).map (fun p => (p.1, p.2, 2)))

/-- The size of an absent page that something waits for with this kind of access. What a record of kind 5 (walk) stands for is not given:
any wait may be recorded so (log 55). -/
def State.awaits (s : State) (ctx page kind : Nat) : Option Nat :=
  ((s.awaited ctx).find? (fun e => e.1 == page && (e.2.2 == kind || kind == 5))).map (·.2.1)

/-- A fault record enters the fault buffer, once for a context and page, when there is room. -/
def execFaultRecord (ctx va kind : Nat) (s : State) : Res :=
  match s.mod.bringup with
  | none => .next s
  | some b =>
    s.reach b.faults 64 (
      let w := s.peekN b.faults 4
      let full := (w + 2 ^ 32 - s.peekN (b.faults + 4) 4) % 2 ^ 32 = b.faultEntries
      match s.awaits ctx va kind with
      | none => .next s
      | some size =>
        if s.mod.faults.any (fun f => f.ctx == ctx && f.page == va) || full then .next s
        else
          let at_ := b.faults + 64 + 32 * (w % max b.faultEntries 1)
          let s := s.pokeBytes at_ (leBytes 8 va ++ leBytes 2 ctx ++ leBytes 1 kind ++ leBytes 5 0 ++ leBytes 8 s.mod.gts ++ leBytes 8 0)
          let s := s.pokeN b.faults 4 ((w + 1) % 2 ^ 32)
          .next { s with mod := { s.mod with faults := s.mod.faults ++ [{ ctx := ctx, page := va, size := size }] } })

/-! ## ILLEGAL_OPCODE (R95, R97) -/

/-- A word that is no instruction is offered: every lane of the front is reported, and nothing else changes. -/
def execIllegalOpcode (wid : Nat) (s : State) : Res :=
  .next (match s.warp? wid with
    | none => s
    | some w => match w.cur with
      | none => s
      | some f => match s.offer w (f.lowest.getD 0) with
        | .bad true op _ => s.raise wid .illegalOpcode 0 op f f (w.retPoints f 8) .reissue none
        | _ => s)

end Sys2Proof.Machine
end

