-- ==== Sys2Proof/Machine/LouvreForms.lean ====
section
/-! DEFINITION. The Louvre forms (R217–R220, R241). -/
namespace Sys2Proof.Machine
open Sys2Proof

/-- R217. -/
def execLvorg (f : FormX) (cc : Opnd) (s : State) : Res :=
  let os := [f.a, f.b, cc]
  issue 0xA8 16 (max (f.a.need 1) (max (f.b.need 1) (cc.need 1))) f.hdr s (fun c =>
    c.checked os (fun _ => none)
      (.done (c.s.putWarp c.wid (c.active.lanes.foldl (fun w l =>
        let o := c.rd os 0 false l % 2 ^ 24 + c.rd os 1 false l % 2 ^ 20 * 2 ^ 24 + c.rd os 2 false l % 2 ^ 20 * 2 ^ 44
        w.setH l f.hd (BitVec.ofNat 96 (o * 2 ^ 32 + (c.w.getH l f.hd).toNat % 2 ^ 32))) (popQueues os c.w)))))

/-- R218, LVMEM. -/
def execLvmem (f : FormX) (s : State) : Res :=
  let os := [f.a]
  issue 0xA9 8 (f.a.need 1) f.hdr s (fun c =>
    c.checked os (fun _ => none)
      (.done (c.s.putWarp c.wid (c.active.lanes.foldl (fun w l =>
        w.modTh l (fun t => { t with lvmem := BitVec.ofNat 32 (c.rd os 0 false l % 2 ^ 16) })) (popQueues os c.w)))))

/-- R218, LVCTL; reserved bits read 0 (Table 17.4). -/
def execLvctl (f : FormX) (s : State) : Res :=
  let os := [f.a]
  issue 0xAC 8 (f.a.need 1) f.hdr s (fun c =>
    c.checked os (fun _ => none)
      (let w := popQueues os c.w
       match c.active.lowest with
       | some l => .done (c.s.putWarp c.wid { w with lvctl := BitVec.ofNat 32 (c.rd os 0 false l % 4) })
       | none => .done (c.s.putWarp c.wid w)))

/-- q of R241, and the Louvre unit held from t + 1 to t + q; for one clock where no lane is active (E = 0). -/
def Ctx.louvreClocks (c : Ctx) (k : Nat) : Nat :=
  max 1 (ceilDiv ((c.active.lanes.map (fun l => (c.shape l k).elems)).foldl (· + ·) 0) 512)
def Ctx.holdLouvre (c : Ctx) (s : State) (q : Nat) : State :=
  s.modPart c.w.part (fun p => { p with louvre := (s.core c.w.core).cyc + q + 1 })

/-- The pair operand and an FP32 operand of its shape (Tables 14.3, 14.4). -/
def Ctx.pairOk (c : Ctx) (l : Nat) (oa : Opnd) (ha : Nat) (os : List (Opnd × Nat)) : Bool :=
  let a := c.shape l ha
  c.regsOk oa a && a.fmt.isPw && os.all (fun o =>
    let s := c.shape l o.2
    c.regsOk o.1 s && s.fmt == .f32 && s.rows == a.rows && s.cols == a.cols)

/-- R219: rn32(σ × ε), or ε. -/
def Ctx.deviation (c : Ctx) (l k : Nat) (m : RawM) (r cc : Nat) : FV := louvreP c.w.lvctl.toNat (c.pair l k m r cc).2 (c.eps l k r cc)

def execLveps (f : FormX) (eps : Bool) (s : State) : Res :=
  issue 0xAA 8 (max (f.d.need 1) (f.a.need 1)) f.hdr s (fun c =>
    c.checked [] (fun l => refused (c.pairOk l f.a f.ha [(f.d, f.hd)])) (
      let q := c.louvreClocks f.ha
      c.results (c.holdLouvre c.s q) f.la (q + 5) .plain (c.active.lanes.map (fun l =>
        let d := c.shape l f.hd
        let m := c.rawM f.a l f.ha
        (l, matWrites l (vNum f.d) d (d.encode (Mat.gen d.rows d.cols (fun r cc =>
          if eps then (FV.ofInt (c.eps l f.ha r cc)).scale (-12) else c.deviation l f.ha m r cc))), 0)))))

/-- rn32(ln 2) (R220). -/
def ln2 : FV := fmt32.decode 0x3F317218

/-- R220. D and C may share registers: which accumulation such a register keeps is not given. -/
def execLvgrad (f : FormX) (cc : Opnd) (hc : Nat) (s : State) : Res :=
  issue 0xAB 16 (max (f.d.need 1) (max (f.a.need 1) (max (f.b.need 1) (cc.need 1)))) f.hdr s (fun c =>
    c.checked [] (fun l => refused (c.pairOk l f.a f.ha [(f.d, f.hd), (f.b, f.hb), (cc, hc)])) (
      let q := c.louvreClocks f.ha
      c.results (c.holdLouvre c.s q) f.la (q + 5) .plain (c.active.lanes.map (fun l =>
        let d := c.shape l f.hd
        let dl := c.shape l hc
        let m := c.rawM f.a l f.ha
        let g := c.matM f.ftz f.b l f.hb
        let mu := c.matM f.ftz f.d l f.hd
        let lam := c.matM f.ftz cc l hc
        let ar := arithOf .f32 f.ftz
        let u (r k : Nat) : FV := fmt32.decode (fmt32.finish .rn 0 false ((c.deviation l f.ha m r k).mul ln2).1).bits
        let (dmu, f1) := (Mat.genM d.rows d.cols (fun r k => ar.add (mu.get r k) (g.get r k))).run
        let (dlam, f2) := (Mat.genM d.rows d.cols (fun r k => ar.fma (g.get r k) (u r k) (lam.get r k))).run
        (l, c.both l (matWrites l (vNum f.d) d (d.encode dmu)) (matWrites l (vNum cc) dl (dl.encode dlam)), f1 ||| f2)))))

end Sys2Proof.Machine
end

