-- ==== Sys2Proof/Machine/Steps.lean ====
section
/-! DEFINITION. The steps of the ordering machine, of copies, streams and walks, and of the outside (R272, R283, R293–R311,
R365). -/
namespace Sys2Proof.Machine

/-! ## Drain and land (R295, R296) -/

def State.entry? (s : State) (k : Nat) : Option Entry := s.entries.find? (fun e => e.id == k)

/-- The cluster whose L2 request port an entry passes on its way into a buffer: its bytes count there (R365). -/
def Entry.metered (e : Entry) (p : Place) : Option Nat :=
  match p with
  | .db d => if e.len ≠ 0 && dieOfCluster (clusterOfCore e.core) = d then some (clusterOfCore e.core) else none
  | _ => none

/-- May the entry, and what stands as one with it, go on to the next buffer of its path now, or, a marker of SYS scope, leave the last one? An
atomic at its level stays until it is performed (R304). -/
def State.mayDrain (s : State) (e : Entry) : Bool :=
  (s.oneWith e).all (fun x => !(x.kind.isAtomic && x.atLevel) && s.mayLeave x) && (match e.nextPlace with
    | some p => match e.metered p with
      | some k => s.within k
      | none => true
    | none => e.kind.isMarker)

/-- An entry leaves its buffer for the next one of its path, with what stands as one with it. -/
def State.drain (s : State) (e : Entry) : State :=
  if !s.mayDrain e then s
  else match e.nextPlace with
    | some p =>
      let s := match e.metered p with
        | some k => s.spend k e.len
        | none => s
      if e.markerDone p then (s.moveTo e p).markerGone e.warp else (s.oneWith e).foldl (fun s x => s.moveTo x p) s
    | none => ({ s with entries := s.entries.filter (fun x => x.id != e.id) }).markerGone e.warp

def execDrain (k : Nat) (s : State) : Res := .next (match s.entry? k with | some e => s.drain e | none => s)

/-- A write in the last buffer of its path reaches memory. -/
def execLand (k : Nat) (s : State) : Res :=
  .next (match s.entry? k with
    | some e => if e.kind.isWrite && e.nextPlace.isNone && s.mayLeave e then s.landWrite e else s
    | none => s)

/-! ## Satisfy, fill and evict (R295, R297, R307) -/

/-- What the load returns now: its value, the tag, and whether it came from beyond CMB and CC. -/
def State.valueFor (s : State) (l : Load) : Byte × Tag × Bool :=
  match l.for_ with
  | .warp _ _ => s.searchByte l.warp l.lane l.core l.loc l.scope (some l.order)
  | .copy c _ =>
    match s.copies.find? (fun x => x.id == c) with
    | some x => if x.spanLoc l.loc then (s.peek l.loc, {}, false) else s.searchByte l.warp l.lane l.core l.loc l.scope none
    | none => (s.peek l.loc, {}, false)

/-- Does the load's request pass its cluster's L2 request port (R365)? What has its home in a core or a cluster does not leave it. -/
def State.goesOut (s : State) (l : Load) : Bool := (s.valueFor l).2.2 && decide (4 ≤ homeOf l.loc)

/-- May the load take its value now (R297, R365)? -/
def State.maySatisfy (s : State) (l : Load) : Bool :=
  l.val.isNone && s.mayLoad l && (!s.goesOut l || s.within (clusterOfCore l.core))

/-- Does no buffer beyond CMB hold the byte, so that its home serves it? -/
def State.atMemory (s : State) (l : Load) : Bool :=
  let k := clusterOfCore l.core
  [Place.clb k, .db (dieOfCluster k), .xb].all (fun p => (s.newest p l.loc).isNone)

/-- A flight completes no earlier than the home L2 of a byte that it has read from there allows (R275, R276). -/
def Flight.farther (f : Flight) (ns : Nat) : Flight := if ns = 0 then f else { f with notBefore := max f.notBefore (f.born + ns) }

/-- A load takes its value; CC takes what came from beyond it, but for NOL1 (R276); a copy's byte goes on to its destination. -/
def State.satisfy (s : State) (l : Load) : State :=
  if !s.maySatisfy l then s
  else
    let (b, t, _) := s.valueFor l
    let far := s.goesOut l
    let ns := if far && s.atMemory l then homeNs l.core l.loc else 0
    let s := if far then s.spend (clusterOfCore l.core) 1 else s
    let s := if far && cacheable l.loc && !l.nol1 then s.modCore l.core (fun c => c.setCc l.loc (some b)) else s
    match l.for_ with
    | .warp w k =>
      let s := { s with loads := s.loads.map (fun (x : Load) => if x.id = l.id then { x with val := some b, tag := some t } else x) }
      s.modWarp w (fun (w : Warp) => { w with flights := w.flights.map (fun (f : Flight) => if f.id = k then f.farther ns else f) })
    | .copy c d =>
      let s := { s with loads := s.loads.filter (fun x => x.id != l.id) }
      match s.copies.find? (fun x => x.id == c) with
      | some x => s.copyByte x d b
      | none => s

def execSatisfy (k : Nat) (s : State) : Res :=
  .next (match s.loads.find? (fun l => l.id == k) with | some l => s.satisfy l | none => s)

/-- Any entry of CC may go, at any step (R295, R299). -/
def execEvict (core addr : Nat) (s : State) : Res := .next (s.modCore core (fun c => { c with cc := Table.drop c.cc addr }))

/-! ## Atomics (R304, R305) -/

/-- The group of the entry is performed once every entry of it may be. -/
def execPerform (k : Nat) (s : State) : Res :=
  .next (match s.entry? k with
    | some e =>
      if e.kind.isAtomic && (s.groupOf e).all s.mayPerform then
        -- a trap that waited for one of them is entered (R308)
        ((s.groupOf e).map (·.warp)).eraseDups.foldl State.enterTrap (s.performGroup (s.groupOf e))
      else s
    | none => s)

/-- Do two atomics stand in one buffer, or at the home that both are performed at (R290)? -/
def Entry.meet (a b : Entry) : Bool := a.place == b.place || (a.atHome && b.atHome && a.atLevel && b.atLevel)

/-- May two atomic entries merge (Table 22.4)? -/
def mayCombine (a b : Entry) : Bool :=
  match a.kind, b.kind with
  | .atomic g _ fa ua _, .atomic h _ fb ub _ =>
    let add := match fa with
      | .op .add _ => true
      | _ => false
    g != h && fa == fb && a.meet b && a.loc == b.loc && a.len == b.len
      && ((ua == .com && ub == .com) || (add && (ua == .qnt || ua == .com) && (ub == .qnt || ub == .com)))
  | _, _ => false

/-- Does some thread's earlier atomic stand behind a later one of it among entries in order of arrival? -/
def crossed : List Entry → Bool
  | [] => false
  | e :: es => es.any (fun x => x.ofThread e && decide (x.order < e.order)) || crossed es

/-- The wider of two scopes. -/
def widest (a b : Scope) : Scope := if scopeLevel a < scopeLevel b then b else a

/-- The groups of two entries made one, performed at the wider of their scopes (log 48). -/
def State.merged (s : State) (a b : Entry) : State :=
  { s with entries := s.entries.map (fun e => match a.kind.group, e.kind with
    | some g, .atomic _ sub fn u f =>
      if e.kind.group == some g || e.kind.group == b.kind.group then { e with kind := .atomic g sub fn u f, scope := widest a.scope b.scope } else e
    | _, _ => e) }

/-- Does the entry lead its group where it stands: does it stand as one with an entry of every address group that passes there (log 48)? -/
def State.leads (s : State) (e : Entry) : Bool :=
  (s.groupOf e).all (fun y => !y.passes e.place || (s.oneWith e).any (fun z => z.kind.sub == y.kind.sub))

/-- `a` stands as one with the later entry `b` of its buffer, in its place (R295). -/
def State.unite (s : State) (a b : Entry) : State :=
  let first := s.oneWith a
  let unit := some (b.unit.getD b.id)
  let join (e : Entry) : Entry := { e with unit := unit }
  let rest := s.entries.filter (fun e => !a.joined e)
  let before := rest.takeWhile (fun e => !b.joined e)
  { s with entries := before ++ first.map join ++ (rest.drop before.length).map (fun e => if b.joined e then join e else e) }

/-- Would an entry between the two, which the first then comes behind, be one that its threads made after it (R298)? -/
def State.comesBetween (s : State) (a b : Entry) : Bool :=
  (s.olderThan b).any (fun x => !(s.olderThan a).any (fun y => y.id == x.id) && !a.joined x
    && (s.oneWith a).any (fun y => x.tied y && decide (y.order < x.order) && !commutes x y))

/-- Would an entry `x` of other threads keep a group from being performed for ever: it stands behind one of the group's entries for the same
bytes, and ahead of, or with none of, those of another address group that comes by (R296, R298, R311)? -/
def State.jams (s : State) (es : List Entry) (x : Entry) : Bool :=
  let ahead := (s.olderThan x).filter (fun y => es.any (fun z => z.id == y.id) && x.overlaps y && !commutes x y)
  es.all (fun z => z.id != x.id) && (x.kind.isWrite || (x.kind.isAtomic && !x.atLevel)) && !ahead.isEmpty
    && es.any (fun z => z.passes x.place && decide (placeLevel z.place ≤ placeLevel x.place) && ahead.all (fun y => y.kind.sub != z.kind.sub))

/-- Two entries become one, the earlier in the place of the later, and with that the groups that they are performed with (R290, R295, R305);
at their home they may stand in the buffers of two dies, and become one when they are performed. The group folds in order of arrival, and
so takes none in which a thread's own atomics have crossed (R298), and none that would wait for ever (R311, log 15, log 48). -/
def State.combined (s : State) (a b : Entry) : State :=
  let s' := (if a.place == b.place then s.unite a b else s).merged a b
  let es := s'.entries.filter (fun e => e.kind.group == a.kind.group)
  if mayCombine a b && s.leads a && s.leads b && !(a.place == b.place && s.comesBetween a b) && !crossed es
      && es.all (fun e => s'.inStep e e.place && !(s'.entries.any (s'.follows e))) && !(s'.entries.any (s'.jams es)) then s' else s

def execCombine (j k : Nat) (s : State) : Res :=
  .next (match s.entry? j, s.entry? k with
    | some a, some b => if (s.olderThan a).any (fun x => x.id == b.id) then s.combined b a else s.combined a b
    | _, _ => s)

/-! ## Copies, streams and walks -/

def execCopyStart (k : Nat) (s : State) : Res :=
  .next (match s.copies.find? (fun c => c.id == k) with
    | some c => if s.mayStart c then s.startCopy c else s
    | none => s)

def execCopyComplete (k : Nat) (s : State) : Res :=
  .next (match s.copies.find? (fun c => c.id == k) with
    | some c => if s.copyDone c then s.finishCopy c else s
    | none => s)

/-- The Wicket fetches a stream's next entry (R272), or reads a byte ahead of it (R274). -/
def execStreamFetch (w st : Nat) (s : State) : Res := .next (if s.readsAhead w then s.readAhead w st else (s.fetchEntry w st).getD s)

/-- The walkers of a die (R283). -/
def pageWalkers : Nat := 64

/-- Does the warp wait for a walk of a die? -/
def State.waitsWalk (s : State) (d : Nat) (x : PageWalk) (w : Warp) : Bool := dieOfCore w.core = d && s.ctxOf w = x.ctx && w.missing.contains x.va

/-- A walk has ended: a present leaf fills the die's TLB, and those of the cores that wait for it; every access that waits has its answer
(R283). -/
def State.endWalk (s : State) (d : Nat) (x : PageWalk) (r : Walk) : State :=
  let cores := ((s.warps.filter (fun e => s.waitsWalk d x e.2)).map (fun e => e.2.core)).eraseDups
  let s := s.modDie d (fun y => { y with walks := y.walks.filter (fun k => k.id != x.id) })
  let s := match r with
    | .leaf e l =>
      let key := tlbKey x.ctx (x.va / pageSize l * pageSize l)
      if entryBit e 2 then
        cores.foldl (fun (s : State) c => s.modCore c (fun y => { y with tlb := tlbFill 512 y.tlb key (e, l) }))
          (s.modDie d (fun y => { y with tlb := tlbFill 32768 y.tlb key (e, l) }))
      else s
    | _ => s
  { s with warps := Table.mapVal (fun _ (w : Warp) =>
      if s.waitsWalk d x w then { w with missing := w.missing.filter (· != x.va), walked := Table.put w.walked x.va r } else w) s.warps }

/-- The next of a walk's reads: of one byte, at DEV scope (R283, R297). -/
def State.readEntry (s : State) (d : Nat) (x : PageWalk) : State :=
  let bytes := x.bytes ++ [s.walkByte d (x.table + 8 * walkIndex x.level x.va + x.bytes.length)]
  let on (y : PageWalk) : State := s.modDie d (fun z => { z with walks := z.walks.map (fun k => if k.id = x.id then y else k) })
  if bytes.length < 8 then on { x with bytes := bytes }
  else match s.walkEntry (s.context x.ctx).privileged (leNat bytes) x.level with
    | .inl r => s.endWalk d x r
    | .inr next => on { x with level := x.level - 1, table := next, bytes := [] }

/-- A walk goes on. The die's TLB answers it first, where it holds the page. -/
def State.walkStep (s : State) (d : Nat) (x : PageWalk) : State :=
  if (s.context? x.ctx).isNone then s.endWalk d x .unmapped
  else match (if x.level = 4 && x.bytes.isEmpty then tlbFind (s.die d).tlb x.ctx x.va else none) with
    | some (e, l) => if s.usesHeld d x.ctx x.va 66 e l then s.endWalk d x (.leaf e l) else s.readEntry d x
    | none => s.readEntry d x

/-- A walk that a unit makes in one step may have read any byte of it before (R297, log 2, log 13). -/
def State.readTable (s : State) (d : Nat) : State :=
  let loc := Config.free (s.fresh + 150000) % paTop
  if 8 ≤ d then s else s.modDie d (fun x => { x with ahead := Table.put x.ahead loc (s.walkByte d loc) })

/-- R283: a walk of the core's die goes on, if it has a walker; where none is under way, one that is made in one step reads ahead. -/
def execPageWalk (core ctx va : Nat) (s : State) : Res :=
  let d := dieOfCore core
  .next (match ((s.die d).walks.take pageWalkers).find? (fun x => x.ctx == ctx && x.va == unitOf va) with
    | some x => s.walkStep d x
    | none => s.readTable d)

/-! ## The outside (R310, R384) -/

/-- A host or peer access at SYS scope: its writes land at once, its loads read memory and change nothing. -/
def execHostAccess (addr : Nat) (bytes : List Nat) (write : Bool) (s : State) : Res :=
  .next (if write && s.assignedRange addr bytes.length then s.pokeBytes addr (bytes.map (fun b => BitVec.ofNat 8 b)) else s)

end Sys2Proof.Machine
end

