-- ==== Sys2Proof/Machine/Dispatch.lean ====
section
/-! DEFINITION. The dispatch: one arm per constructor of Instr, in the order of spec/opcode_table.json, each a direct call
of that instruction's meaning. -/
namespace Sys2Proof.Machine
open Sys2Proof

def exec (i : Instr) (s : State) : Host.Outcome State Fault Refusal :=
  match i with
  | .nop a0 => Sys2Proof.Machine.execNop a0 s
  | .bra a0 a1 a2 => Sys2Proof.Machine.execBra a0 a1 a2 s
  | .brx a0 a1 a2 => Sys2Proof.Machine.execBrx a0 a1 a2 s
  | .join a0 a1 => Sys2Proof.Machine.execJoin a0 a1 s
  | .call a0 a1 a2 a3 => Sys2Proof.Machine.execCall a0 a1 a2 a3 s
  | .callx a0 a1 a2 a3 => Sys2Proof.Machine.execCallx a0 a1 a2 a3 s
  | .ret a0 a1 a2 => Sys2Proof.Machine.execRet a0 a1 a2 s
  | .yield a0 => Sys2Proof.Machine.execYield a0 s
  | .exit a0 => Sys2Proof.Machine.execExit a0 s
  | .bar a0 a1 => Sys2Proof.Machine.execBar a0 a1 s
  | .barc a0 => Sys2Proof.Machine.execBarc a0 s
  | .launch a0 a1 a2 => Sys2Proof.Machine.execLaunch a0 a1 a2 s
  | .cwait a0 a1 => Sys2Proof.Machine.execCwait a0 a1 s
  | .regroup a0 a1 a2 a3 => Sys2Proof.Machine.execRegroup a0 a1 a2 a3 s
  | .sleep a0 a1 => Sys2Proof.Machine.execSleep a0 a1 s
  | .tstamp a0 a1 => Sys2Proof.Machine.execTstamp a0 a1 s
  | .srd a0 a1 a2 => Sys2Proof.Machine.execSrd a0 a1 a2 s
  | .swr a0 a1 a2 => Sys2Proof.Machine.execSwr a0 a1 a2 s
  | .trap a0 a1 => Sys2Proof.Machine.execTrap a0 a1 s
  | .tret a0 => Sys2Proof.Machine.execTret a0 s
  | .bkpt a0 a1 => Sys2Proof.Machine.execBkpt a0 a1 s
  | .rep a0 a1 a2 a3 a4 a5 a6 => Sys2Proof.Machine.execRep a0 a1 a2 a3 a4 a5 a6 s
  | .setprio a0 a1 => Sys2Proof.Machine.execSetprio a0 a1 s
  | .dgst a0 a1 a2 a3 => Sys2Proof.Machine.execDgst a0 a1 a2 a3 s
  | .mov a0 a1 => Sys2Proof.Machine.execMov a0 a1 s
  | .movi a0 => Sys2Proof.Machine.execMovi a0 s
  | .sel a0 a1 a2 => Sys2Proof.Machine.execSel a0 a1 a2 s
  | .iadd a0 => Sys2Proof.Machine.execIadd a0 s
  | .isub a0 => Sys2Proof.Machine.execIsub a0 s
  | .iaddc a0 a1 a2 a3 a4 => Sys2Proof.Machine.execIaddc a0 a1 a2 a3 a4 s
  | .imul a0 => Sys2Proof.Machine.execImul a0 s
  | .imulh a0 => Sys2Proof.Machine.execImulh a0 s
  | .imad a0 => Sys2Proof.Machine.execImad a0 s
  | .imadw a0 => Sys2Proof.Machine.execImadw a0 s
  | .imin a0 => Sys2Proof.Machine.execImin a0 s
  | .imax a0 => Sys2Proof.Machine.execImax a0 s
  | .iabs a0 => Sys2Proof.Machine.execIabs a0 s
  | .and a0 => Sys2Proof.Machine.execAnd a0 s
  | .or a0 => Sys2Proof.Machine.execOr a0 s
  | .xor a0 => Sys2Proof.Machine.execXor a0 s
  | .andn a0 => Sys2Proof.Machine.execAndn a0 s
  | .not a0 => Sys2Proof.Machine.execNot a0 s
  | .shl a0 => Sys2Proof.Machine.execShl a0 s
  | .shr a0 => Sys2Proof.Machine.execShr a0 s
  | .sar a0 => Sys2Proof.Machine.execSar a0 s
  | .rotl a0 => Sys2Proof.Machine.execRotl a0 s
  | .fsh a0 a1 => Sys2Proof.Machine.execFsh a0 a1 s
  | .popc a0 => Sys2Proof.Machine.execPopc a0 s
  | .clz a0 => Sys2Proof.Machine.execClz a0 s
  | .ctz a0 => Sys2Proof.Machine.execCtz a0 s
  | .brev a0 => Sys2Proof.Machine.execBrev a0 s
  | .bfx a0 => Sys2Proof.Machine.execBfx a0 s
  | .bfi a0 => Sys2Proof.Machine.execBfi a0 s
  | .bperm a0 => Sys2Proof.Machine.execBperm a0 s
  | .lea a0 a1 a2 => Sys2Proof.Machine.execLea a0 a1 a2 s
  | .icmp a0 => Sys2Proof.Machine.execIcmp a0 s
  | .plop a0 a1 a2 a3 a4 a5 => Sys2Proof.Machine.execPlop a0 a1 a2 a3 a4 a5 s
  | .pmov a0 a1 => Sys2Proof.Machine.execPmov a0 a1 s
  | .lpick a0 a1 a2 a3 => Sys2Proof.Machine.execLpick a0 a1 a2 a3 s
  | .lpoll a0 a1 a2 a3 => Sys2Proof.Machine.execLpoll a0 a1 a2 a3 s
  | .lfold a0 a1 => Sys2Proof.Machine.execLfold a0 a1 s
  | .scan a0 a1 a2 a3 a4 => Sys2Proof.Machine.execScan a0 a1 a2 a3 a4 s
  | .lpeer a0 a1 => Sys2Proof.Machine.execLpeer a0 a1 s
  | .rdfl a0 => Sys2Proof.Machine.execRdfl a0 s
  | .lsend a0 a1 => Sys2Proof.Machine.execLsend a0 a1 s
  | .wmov a0 a1 a2 => Sys2Proof.Machine.execWmov a0 a1 a2 s
  | .ld a0 a1 a2 => Sys2Proof.Machine.execLd a0 a1 a2 s
  | .st a0 a1 a2 => Sys2Proof.Machine.execSt a0 a1 a2 s
  | .lds a0 a1 => Sys2Proof.Machine.execLds a0 a1 s
  | .sts a0 a1 => Sys2Proof.Machine.execSts a0 a1 s
  | .ldc a0 a1 => Sys2Proof.Machine.execLdc a0 a1 s
  | .stc a0 a1 => Sys2Proof.Machine.execStc a0 a1 s
  | .ldl a0 a1 => Sys2Proof.Machine.execLdl a0 a1 s
  | .stl a0 a1 => Sys2Proof.Machine.execStl a0 a1 s
  | .ldw a0 a1 a2 => Sys2Proof.Machine.execLdw a0 a1 a2 s
  | .pref a0 a1 => Sys2Proof.Machine.execPref a0 a1 s
  | .fadd a0 => Sys2Proof.Machine.execFadd a0 s
  | .fmul a0 => Sys2Proof.Machine.execFmul a0 s
  | .ffma a0 => Sys2Proof.Machine.execFfma a0 s
  | .fmin a0 => Sys2Proof.Machine.execFmin a0 s
  | .fmax a0 => Sys2Proof.Machine.execFmax a0 s
  | .fcmp a0 => Sys2Proof.Machine.execFcmp a0 s
  | .fclass a0 => Sys2Proof.Machine.execFclass a0 s
  | .frnd a0 a1 => Sys2Proof.Machine.execFrnd a0 a1 s
  | .fscl a0 => Sys2Proof.Machine.execFscl a0 s
  | .dadd a0 => Sys2Proof.Machine.execDadd a0 s
  | .dmul a0 => Sys2Proof.Machine.execDmul a0 s
  | .dfma a0 => Sys2Proof.Machine.execDfma a0 s
  | .dmin a0 => Sys2Proof.Machine.execDmin a0 s
  | .dmax a0 => Sys2Proof.Machine.execDmax a0 s
  | .dcmp a0 => Sys2Proof.Machine.execDcmp a0 s
  | .duoadd a0 => Sys2Proof.Machine.execDuoadd a0 s
  | .duomul a0 => Sys2Proof.Machine.execDuomul a0 s
  | .duofma a0 => Sys2Proof.Machine.execDuofma a0 s
  | .fdiv a0 => Sys2Proof.Machine.execFdiv a0 s
  | .fsqrt a0 => Sys2Proof.Machine.execFsqrt a0 s
  | .ddiv a0 => Sys2Proof.Machine.execDdiv a0 s
  | .dsqrt a0 => Sys2Proof.Machine.execDsqrt a0 s
  | .rcp a0 => Sys2Proof.Machine.execRcp a0 s
  | .rsq a0 => Sys2Proof.Machine.execRsq a0 s
  | .exp2 a0 => Sys2Proof.Machine.execExp2 a0 s
  | .log2 a0 => Sys2Proof.Machine.execLog2 a0 s
  | .sin a0 => Sys2Proof.Machine.execSin a0 s
  | .cos a0 => Sys2Proof.Machine.execCos a0 s
  | .tanh a0 => Sys2Proof.Machine.execTanh a0 s
  | .luta a0 => Sys2Proof.Machine.execLuta a0 s
  | .lutld a0 => Sys2Proof.Machine.execLutld a0 s
  | .lutsync a0 => Sys2Proof.Machine.execLutsync a0 s
  | .cvt a0 a1 => Sys2Proof.Machine.execCvt a0 a1 s
  | .cvtblk a0 a1 => Sys2Proof.Machine.execCvtblk a0 a1 s
  | .srseed a0 a1 => Sys2Proof.Machine.execSrseed a0 a1 s
  | .mshape a0 a1 a2 => Sys2Proof.Machine.execMshape a0 a1 a2 s
  | .mqry a0 a1 => Sys2Proof.Machine.execMqry a0 a1 s
  | .mld a0 a1 a2 => Sys2Proof.Machine.execMld a0 a1 a2 s
  | .mst a0 a1 a2 a3 a4 => Sys2Proof.Machine.execMst a0 a1 a2 a3 a4 s
  | .mlds a0 a1 a2 => Sys2Proof.Machine.execMlds a0 a1 a2 s
  | .msts a0 a1 a2 => Sys2Proof.Machine.execMsts a0 a1 a2 s
  | .mzero a0 => Sys2Proof.Machine.execMzero a0 s
  | .mcopy a0 => Sys2Proof.Machine.execMcopy a0 s
  | .mtrn a0 => Sys2Proof.Machine.execMtrn a0 s
  | .madd a0 a1 => Sys2Proof.Machine.execMadd a0 a1 s
  | .mscal a0 => Sys2Proof.Machine.execMscal a0 s
  | .mmul a0 => Sys2Proof.Machine.execMmul a0 s
  | .mma a0 => Sys2Proof.Machine.execMma a0 s
  | .mmt a0 a1 a2 => Sys2Proof.Machine.execMmt a0 a1 a2 s
  | .mspma a0 a1 a2 => Sys2Proof.Machine.execMspma a0 a1 a2 s
  | .mlu a0 a1 => Sys2Proof.Machine.execMlu a0 a1 s
  | .mchol a0 => Sys2Proof.Machine.execMchol a0 s
  | .mtrs a0 a1 a2 a3 => Sys2Proof.Machine.execMtrs a0 a1 a2 a3 s
  | .minv a0 => Sys2Proof.Machine.execMinv a0 s
  | .mdet a0 => Sys2Proof.Machine.execMdet a0 s
  | .mexp a0 => Sys2Proof.Machine.execMexp a0 s
  | .mrefine a0 a1 a2 a3 a4 => Sys2Proof.Machine.execMrefine a0 a1 a2 a3 a4 s
  | .mnorm a0 a1 => Sys2Proof.Machine.execMnorm a0 a1 s
  | .mcvt a0 a1 => Sys2Proof.Machine.execMcvt a0 a1 s
  | .lvorg a0 a1 => Sys2Proof.Machine.execLvorg a0 a1 s
  | .lvmem a0 => Sys2Proof.Machine.execLvmem a0 s
  | .lveps a0 a1 => Sys2Proof.Machine.execLveps a0 a1 s
  | .lvgrad a0 a1 a2 => Sys2Proof.Machine.execLvgrad a0 a1 a2 s
  | .lvctl a0 => Sys2Proof.Machine.execLvctl a0 s
  | .lda a0 a1 => Sys2Proof.Machine.execLda a0 a1 s
  | .strl a0 a1 => Sys2Proof.Machine.execStrl a0 a1 s
  | .acqr a0 a1 => Sys2Proof.Machine.execAcqr a0 a1 s
  | .fence a0 a1 => Sys2Proof.Machine.execFence a0 a1 s
  | .atom a0 a1 => Sys2Proof.Machine.execAtom a0 a1 s
  | .atomc a0 a1 => Sys2Proof.Machine.execAtomc a0 a1 s
  | .red a0 a1 => Sys2Proof.Machine.execRed a0 a1 s
  | .cpy a0 => Sys2Proof.Machine.execCpy a0 s
  | .cps a0 => Sys2Proof.Machine.execCps a0 s
  | .cpt a0 a1 a2 => Sys2Proof.Machine.execCpt a0 a1 a2 s
  | .cpclose a0 a1 a2 => Sys2Proof.Machine.execCpclose a0 a1 a2 s
  | .cpwait a0 a1 => Sys2Proof.Machine.execCpwait a0 a1 s
  | .cptest a0 a1 a2 a3 => Sys2Proof.Machine.execCptest a0 a1 a2 a3 s
  | .tdesc a0 a1 a2 a3 => Sys2Proof.Machine.execTdesc a0 a1 a2 a3 s
  | .tdfree a0 a1 => Sys2Proof.Machine.execTdfree a0 a1 s
  | .tqinit a0 a1 a2 a3 => Sys2Proof.Machine.execTqinit a0 a1 a2 a3 s
  | .qpush a0 a1 a2 => Sys2Proof.Machine.execQpush a0 a1 a2 s
  | .qpop a0 a1 a2 a3 => Sys2Proof.Machine.execQpop a0 a1 a2 a3 s
  | .qtry a0 a1 a2 a3 a4 => Sys2Proof.Machine.execQtry a0 a1 a2 a3 a4 s
  | .qgrant a0 a1 a2 a3 => Sys2Proof.Machine.execQgrant a0 a1 a2 a3 s
  | .wcfg a0 a1 a2 a3 => Sys2Proof.Machine.execWcfg a0 a1 a2 a3 s
  | .wstart a0 a1 => Sys2Proof.Machine.execWstart a0 a1 s
  | .wstop a0 a1 => Sys2Proof.Machine.execWstop a0 a1 s
  | .wstat a0 a1 a2 a3 => Sys2Proof.Machine.execWstat a0 a1 a2 a3 s
  | .create a0 => Sys2Proof.Machine.execCreate a0 s
  | .destroy a0 => Sys2Proof.Machine.execDestroy a0 s
  | .invalidate a0 => Sys2Proof.Machine.execInvalidate a0 s
  | .resolved a0 => Sys2Proof.Machine.execResolved a0 s
  | .resume a0 => Sys2Proof.Machine.execResume a0 s
  | .power a0 => Sys2Proof.Machine.execPower a0 s
  | .powerRead a0 => Sys2Proof.Machine.execPowerRead a0 s
  | .fuse a0 => Sys2Proof.Machine.execFuse a0 s
  | .attest a0 => Sys2Proof.Machine.execAttest a0 s
  | .switch a0 => Sys2Proof.Machine.execSwitch a0 s
  | .readmit a0 => Sys2Proof.Machine.execReadmit a0 s
  | .stop a0 => Sys2Proof.Machine.execStop a0 s
  | .keyhole a0 => Sys2Proof.Machine.execKeyhole a0 s
  | .keyholeRead a0 => Sys2Proof.Machine.execKeyholeRead a0 s
  | .flush a0 => Sys2Proof.Machine.execFlush a0 s
  | .bootblk a0 => Sys2Proof.Machine.execBootblk a0 s
  | .configWindowWrite a0 a1 => Sys2Proof.Machine.execConfigWindowWrite a0 a1 s
  | .reset => Sys2Proof.Machine.execReset s
  | .launchQueueTailRead a0 => Sys2Proof.Machine.execLaunchQueueTailRead a0 s
  | .recordTake a0 => Sys2Proof.Machine.execRecordTake a0 s
  | .prerequisiteMet a0 => Sys2Proof.Machine.execPrerequisiteMet a0 s
  | .teamPlacement a0 => Sys2Proof.Machine.execTeamPlacement a0 s
  | .workSteal a0 => Sys2Proof.Machine.execWorkSteal a0 s
  | .continuationPlacement a0 => Sys2Proof.Machine.execContinuationPlacement a0 s
  | .warpRetire a0 => Sys2Proof.Machine.execWarpRetire a0 s
  | .gridRetire a0 => Sys2Proof.Machine.execGridRetire a0 s
  | .quantumSwitch a0 => Sys2Proof.Machine.execQuantumSwitch a0 s
  | .sleepExpiry a0 => Sys2Proof.Machine.execSleepExpiry a0 s
  | .floorCountDue a0 a1 a2 => Sys2Proof.Machine.execFloorCountDue a0 a1 a2 s
  | .longLatencyComplete a0 a1 => Sys2Proof.Machine.execLongLatencyComplete a0 a1 s
  | .matrixWriteback a0 a1 => Sys2Proof.Machine.execMatrixWriteback a0 a1 s
  | .warpSave a0 => Sys2Proof.Machine.execWarpSave a0 s
  | .warpRestore a0 a1 => Sys2Proof.Machine.execWarpRestore a0 a1 s
  | .throttleNotice a0 => Sys2Proof.Machine.execThrottleNotice a0 s
  | .drain a0 => Sys2Proof.Machine.execDrain a0 s
  | .land a0 => Sys2Proof.Machine.execLand a0 s
  | .satisfy a0 => Sys2Proof.Machine.execSatisfy a0 s
  | .evict a0 a1 => Sys2Proof.Machine.execEvict a0 a1 s
  | .perform a0 => Sys2Proof.Machine.execPerform a0 s
  | .combine a0 a1 => Sys2Proof.Machine.execCombine a0 a1 s
  | .copyStart a0 => Sys2Proof.Machine.execCopyStart a0 s
  | .copyComplete a0 => Sys2Proof.Machine.execCopyComplete a0 s
  | .streamFetch a0 a1 => Sys2Proof.Machine.execStreamFetch a0 a1 s
  | .pageWalk a0 a1 a2 => Sys2Proof.Machine.execPageWalk a0 a1 a2 s
  | .faultRecord a0 a1 a2 => Sys2Proof.Machine.execFaultRecord a0 a1 a2 s
  | .hostAccess a0 a1 a2 => Sys2Proof.Machine.execHostAccess a0 a1 a2 s
  | .linkDown a0 => Sys2Proof.Machine.execLinkDown a0 s
  | .softError a0 a1 => Sys2Proof.Machine.execSoftError a0 a1 s
  | .uncorrectableError a0 a1 a2 => Sys2Proof.Machine.execUncorrectableError a0 a1 a2 s
  | .slotRecord a0 a1 => Sys2Proof.Machine.execSlotRecord a0 a1 s
  | .traceDrain a0 => Sys2Proof.Machine.execTraceDrain a0 s
  | .traceStallEnd a0 => Sys2Proof.Machine.execTraceStallEnd a0 s
  | .shutterWindow a0 => Sys2Proof.Machine.execShutterWindow a0 s
  | .droopAlarm a0 => Sys2Proof.Machine.execDroopAlarm a0 s
  | .stretchPhaseEnd a0 => Sys2Proof.Machine.execStretchPhaseEnd a0 s
  | .halvingPhaseEnd a0 => Sys2Proof.Machine.execHalvingPhaseEnd a0 s
  | .clockChange a0 => Sys2Proof.Machine.execClockChange a0 s
  | .boostDecrement => Sys2Proof.Machine.execBoostDecrement s
  | .byteBudgetInterval a0 => Sys2Proof.Machine.execByteBudgetInterval a0 s
  | .thermalTrip a0 => Sys2Proof.Machine.execThermalTrip a0 s
  | .thermalRecovery a0 => Sys2Proof.Machine.execThermalRecovery a0 s
  | .currentClamp a0 => Sys2Proof.Machine.execCurrentClamp a0 s
  | .currentClampRelease a0 => Sys2Proof.Machine.execCurrentClampRelease a0 s
  | .dormerWatchdog => Sys2Proof.Machine.execDormerWatchdog s
  | .illegalOpcode a0 => Sys2Proof.Machine.execIllegalOpcode a0 s
  | .slotCharge a0 a1 => Sys2Proof.Machine.execSlotCharge a0 a1 s
  | .savePoolCopyComplete a0 a1 => Sys2Proof.Machine.execSavePoolCopyComplete a0 a1 s
  | .dormerPowerWrite a0 a1 a2 => Sys2Proof.Machine.execDormerPowerWrite a0 a1 a2 s
  | .firmwareKeyholeWrite a0 a1 a2 => Sys2Proof.Machine.execFirmwareKeyholeWrite a0 a1 a2 s
  | .firmwareUpdateStart => Sys2Proof.Machine.execFirmwareUpdateStart s
  | .firmwareUpdateEnd => Sys2Proof.Machine.execFirmwareUpdateEnd s

end Sys2Proof.Machine
end

