-- ==== Sys2Proof/Machine/Issue.lean ====
section
/-! DEFINITION. A clock of a core (R12, R31, R106, R138, R343, R357, R359, R360): what has come about by its start, how it begins, the
turns of its ports with fetch, parking, selection and issue (R95, R97, R282, R323–R327, R336, R344, R354, R357), and its end; the cluster
clocks, GTS (R12, R363, R365), and the turn that comes next (R51, R311). -/
namespace Sys2Proof.Machine
open Sys2Proof

/-! ## Before selection -/

/-- A current front whose next instruction cannot be fetched waits for its page, or ends its context (R282). -/
def State.fetchFor (s : State) (wid : Nat) : State :=
  match s.warp? wid with
  | none => s
  | some w => match w.cur with
    | none => s
    | some f =>
      if w.waitPage.isSome || w.stopped.isSome || w.pend.isSome then s
      else match s.offer w (f.lowest.getD 0) with
        | .absent p z => s.putWarp wid { w with wait := some .ifetch, waitPage := some (p, z, 4) }
        | .unmapped b => s.fetchFault w b
        | _ => s

/-- The warps in the slots of a partition. -/
def State.warpsOn (s : State) (p : Nat) : List Nat := (s.warps.filter (fun e => e.2.part == p && e.2.inSlot)).map (·.1)

/-- A watched access that waits for its shadow entry in this clock: when it does is not given (R375, log 84). -/
def State.shadowWait (s : State) (wid : Nat) : State :=
  s.modWarp wid (fun w => match w.cur, w.wait with
    | some f, none => match s.offer w (f.lowest.getD 0) with
      | .ok i _ => if i.stamps && s.watched w && decide (Config.free (s.fresh + 2000000 + wid) % 2 = 1) then { w with wait := some .detWait } else w
      | _ => w
    | _, _ => w)

def State.prepare (s : State) (p : Nat) : State := (s.warpsOn p).foldl (fun s w => (s.fetchFor w).shadowWait w) s

/-- The front of a warp that has not issued in this clock changes, where by now it stands parked (R336), or another front of the warp is
READY at the end of its quantum (R30): the switch takes this clock (R31). -/
def State.switchNow (s : State) (wid : Nat) : State :=
  match s.warp? wid with
  | none => s
  | some w =>
    if w.switching || w.stopped.isSome || decide ((s.core w.core).cyc + 1 ≤ w.last) || (w.saveDue.isEmpty && !w.quantumOver) then s
    else
      let s := s.park wid
      let s := (s.modWarp wid (fun v => if v.quantumOver then v.reselect true else v)).park wid
      s.modWarp wid (fun v =>
        if v.switching then { v with aged := true, wait := some .frontSwitch }
        else if v.cur.isNone && w.cur.isSome then { v with wait := some .priorityDefer }
        else v)

def State.switchOver (s : State) (p : Nat) : State := (s.warpsOn p).foldl State.switchNow s

/-- The slots of the warps that are ready on a port, with their classes (R323). -/
def State.readySlots (s : State) (p port : Nat) : SMap Nat :=
  (s.warpsOn p).foldl (fun m i => match s.warp? i with
    | some w => if s.readyOn i w port then Table.put m w.slot w.prio else m
    | none => m) []

/-! ## One issue -/

/-- What an issue of the port is charged to (R344). -/
def Warp.issueCause (w : Warp) : Nat :=
  match w.resid, w.trap with
  | .busy _, _ => 2
  | _, some _ => 1
  | _, none => 0

/-- Is the instruction at hand a safe point: S = 1, not a repeat (R105), and outside the routines, where the bit is ignored (R338)? -/
def Warp.atSafe (w : Warp) (i : Instr) (lane : Nat) : Bool := i.hdr.safe && !(w.th lane).inRep && !w.inRoutine

/-- The safe point that an instruction passes (R125, R350); one that the table does not list leaves ordinal and count as they are (log 106). -/
def State.passSafe (s : State) (wid : Nat) (w : Warp) (i : Instr) (lane : Nat) : State :=
  if w.atSafe i lane then
    let s := s.safeReports w (w.th lane).pc
    match s.safeEntry w (w.th lane).pc with
    | .entry n _ _ => s.putWarp wid { w with safeOrd := some n, sinceSafe := 0 }
    | _ => s
  else s

/-- The absent page of the safe-point table that an instruction waits for before it passes its safe point (R125, R285). -/
def State.safeWaits (s : State) (w : Warp) (i : Instr) (lane : Nat) : Option (Nat × Nat) :=
  if w.atSafe i lane then (match s.safeEntry w (w.th lane).pc with | .absent p z => some (p, z) | _ => none) else none

/-- R354: matching comparators of an issue that is no safe point count and report, also where it traps at decode (log 104); `old` is the state before the issue, which may have ended the grid. -/
def State.missed (s old : State) (w : Warp) (ks : List Nat) : State :=
  ks.foldl (fun s k =>
    let s := s.modCore w.core (fun c => { c with
      keyhole := Table.mapVal (fun i (x : Comparator) => if i = k then { x with missed := min (x.missed + 1) (2 ^ 32 - 1) } else x) c.keyhole })
    let t := old.teamOf w
    s.emit w.core 2 (3072 + w.core) 3 (old.ctxOf w * 2 ^ 48 + 5 * 2 ^ 40 + k * 2 ^ 32 + w.safeOrd.getD 0xFFFFFFFF)
      ((old.kernOf w).id * 2 ^ 32 + min w.sinceSafe 65535 * 2 ^ 16 + t.index % 2 ^ 16) s.mod.gts) s

/-- Has the word that a lane's instruction begins with its S bit set, outside REP and the routines (R105, R338)? -/
def State.safeWord (s : State) (w : Warp) (lane : Nat) : Bool :=
  !(w.th lane).inRep && !w.inRoutine && (match s.codeWord w (w.th lane).pc with
    | .word x => (Raw.ofWords x 0).hdr.safe
    | _ => false)

/-- The lines that an issue has fetched enter the instruction cache (R94). -/
def State.cacheFetch (s : State) (w : Warp) (off : Nat) : State := [0, 8].foldl (fun s k => s.cacheLine w (off + k)) s

/-- The units that an instruction holds from now on: its port, the divide unit, the special-function unit, and the Shutter's
count (Tables 13.3, 24.5, R357). Matrix forms hold theirs themselves. -/
def Part.holdFor (p : Part) (t port op clocks divide sfu : Nat) : Part :=
  let q := Table.get {} p.ports port
  { p with
    ports := if clocks ≤ 1 then p.ports else Table.put p.ports port { q with busyUntil := t + clocks }
    divide := if divide = 0 then p.divide else t + divide
    sfu := if sfu = 0 then p.sfu else t + sfu
    used := if isMatrixOp op then p.used + 1 else p.used }

/-- R327: what dependents must wait for after an issue in clock `t`: `w` is the warp as it was before, `active` the lanes that
executed. Long-latency forms have a least time instead (log 5). -/
def State.holdUse (s : State) (w : Warp) (front active : Mask) (i : Instr) (t : Nat) (v : Warp) : Warp :=
  let next (l : Nat) : Nat × Nat × Nat := (98, l, t + 2)
  let n := i.useClocks
  let news : List (Nat × Nat × Nat) :=
    if v.order ≠ w.order + 1 then []
    else if i.isBranch then (if active == 0 then [] else front.lanes.map next)
    else if n ≤ 1 then []
    else (w.writing active i ++ s.crossLane w front i true).map (fun k => (k.1, k.2, t + n))
  { v with lat := v.lat.filter (fun e => decide (t + 1 < e.2.2)) ++ news }

/-- What goes with an issue that has taken place, of a warp of the kernel `kernel`: charge, selection state, units, fetch. -/
def State.afterIssue (s : State) (p port wid : Nat) (w : Warp) (kernel : Nat) (ready : SMap Nat) (op pc clocks divide sfu : Nat) : State :=
  let t := (s.core (coreOfPart p)).cyc
  let s := (s.cacheFetch w pc).charge p port w.issueCause kernel pc
  let q := (Table.get {} (s.part p).ports port).issued ready w.slot
  let due := (q.floors.filter (fun e => e.2 = 240)).map (·.1)
  let s := s.modPart p (fun x => { (x.holdFor t port op clocks divide sfu) with
    ports := Table.put (x.holdFor t port op clocks divide sfu).ports port
      { q with busyUntil := (Table.get {} (x.holdFor t port op clocks divide sfu).ports port).busyUntil } })
  let s := { s with agenda := s.agenda ++ due.map (fun i => Turn.take (Instr.floorCountDue p port i)) }
  s.modWarp wid (fun w => { w with last := t + 1 })

/-- Has the offered instruction issued, and not found a reason to wait? -/
def State.hasIssued (s : State) (wid : Nat) : Bool := match s.warp? wid with
  | some w => w.wait.isNone
  | none => true

/-- The chosen warp issues its offered instruction (R323); `ready` are the slots it was chosen from. R55's check of the allocation
and R67's of a special register are decode traps, and come before the breakpoint and the safe point (R97). -/
def State.issueWarp (s : State) (p port wid : Nat) (ready : SMap Nat) : Res :=
  match s.warp? wid with
  | none => .next s
  | some w => match w.cur with
    | none => .next s
    | some f =>
      let l := f.lowest.getD 0
      let kernel := (s.kernOf w).id
      match s.offer w l with
      | .ok i pc =>
        let fits := decide (i.need ≤ (s.kernOf w).regs) && mayAccess i
        let hits := s.matches_ w pc
        let stops := fits && w.atSafe i l
        match (if stops && !w.passes f then hits.head? else none) with
        | some k => .next (s.raise wid .keyhole k i.op f f (w.retPoints f i.len) .reissue none)
        | none => match (if fits then s.safeWaits w i l else none) with
          | some (p, z) => .next (s.putWarp wid { w with wait := some .faultWait, waitPage := some (p, z, 1) })
          | none => match exec i { ((if fits then s.passSafe wid w i l else s).modWarp wid (fun v => s.opened v f i)) with cur := wid } with
          | .next s' =>
            if s'.hasIssued wid then
              let w := s.opened w f i
              let n := s.offering w f i
              let t := (s.core w.core).cyc
              let s' := if w.atSafe i l then s' else s'.missed s w hits
              .next (((s'.shadowed s.mod.shadow (s.ctxOf w)).modWarp wid (fun v =>
                (s.holdUse w f (s.activeLanes w f i.hdr) i t v).passDeferred f)).afterIssue p port wid w kernel
                ready i.op pc i.clocksA (divideClocks i.op n) (sfuClocks i.op n))
            else .next s'
          | r => r
      | .bad true op pc =>
        match exec (.illegalOpcode wid) s with
        | .next s' => .next ((s'.missed s w (s.matches_ w pc)).afterIssue p port wid w kernel ready op pc 1 0 0)
        | r => r
      | .bad false op pc =>
        .next (((s.raise wid .illegalOperand 0 op f f (w.retPoints f 8) .reissue none).missed s w
          (if s.safeWord w l then [] else s.matches_ w pc)).afterIssue p port wid w kernel ready op pc 1 0 0)
      | _ => .next s

/-- May a port issue in the current clock (R325)? -/
def State.portOpen (s : State) (p port : Nat) : Bool :=
  let c := s.core (coreOfPart p)
  decide (p < 3072) && decide (port < 3) && c.inClk && !(Table.get {} (s.part p).ports port).charged && c.stallFor == 0 && !c.removed

/-- The port's choice issues. One that finds something to wait for is not ready after all, and the port chooses again. -/
def State.tryPort (p port : Nat) : Nat → State → Res
  | 0, s => .next s
  | n + 1, s =>
    let ready := s.readySlots p port
    match (Table.get {} (s.part p).ports port).choose ready with
    | none => .next s
    | some slot => match s.warpIn p slot with
      | none => .next s
      | some wid => match s.issueWarp p port wid ready with
        | .next s' => if (Table.get {} (s'.part p).ports port).charged then .next s' else State.tryPort p port n s'
        | r => r

/-- The turn of a port: it issues one warp's instruction, or nothing. -/
def State.portTurn (s : State) (p port : Nat) : Res := if s.portOpen p port then State.tryPort p port 16 (s.switchOver p) else .next s

/-! ## The clocks (R12) -/

def partsOf (core : Nat) : List Nat := (List.range 4).map (4 * core + ·)

/-- The warps of a core. -/
def State.warpsOf (s : State) (core : Nat) : SMap Warp := s.warps.filter (fun e => e.2.core == core)

/-- Does a lane of the warp sleep no longer (R138)? -/
def State.awake (s : State) (w : Warp) : Bool :=
  w.isResident && lanes32.any (fun l => match (w.th l).st with
    | .sleep wake _ => decide (wake ≤ s.mod.gts)
    | _ => false)

/-- The step in which a flight completes. -/
def Flight.ending (f : Flight) (wid : Nat) : Instr := match f.kind with
  | .matrix => .matrixWriteback wid f.id
  | _ => .longLatencyComplete wid f.id

/-- Does the flight complete in its clock, where nothing outside its unit is late (Tables 13.6, 15.2, 24.5)? -/
def Flight.timed (f : Flight) : Bool := match f.kind with
  | .plain | .matrix | .lutld _ | .lutsync => true
  | _ => false

/-- The next step of a save that is due (R336, R337), or of a routine that runs (R338, R340). -/
def Warp.saving (wid : Nat) (w : Warp) : List Instr := match w.resid with
  | .busy r => if r.restore then [.warpRestore wid 0] else [.warpSave wid]
  | .resident => if w.saveDue.isEmpty then [] else [.warpSave wid]
  | .saved _ => []

/-- What has come about by a core's next clock: sleepers wake (R138), results of units are due (R106, R225), saves go on (R336, R338). -/
def State.wakeClk (s : State) (core : Nat) : List Turn :=
  let ws := s.warpsOf core
  let ends := ws.flatMap (fun e => (e.2.flights.filter (fun f => f.timed && s.mayComplete e.2 f)).map (fun f => (f.id, f.ending e.1)))
  ((ws.filter (fun e => s.awake e.2)).map (fun e => Instr.sleepExpiry e.1)
    ++ (sortBy (fun a b => decide (a.1 ≤ b.1)) ends).map (·.2)
    ++ ws.flatMap (fun e => e.2.saving e.1)).map Turn.take

/-- What comes about before a core's next clock: switches by quantum (R30) and throttle notices (R367). -/
def State.beforeClk (s : State) (core : Nat) : List Turn :=
  ((s.warpsOf core).filter (fun e => e.2.quantumOver)).map (fun e => Turn.take (.quantumSwitch e.1))
  ++ (s.mod.teams.filter (fun e => e.2.core == core && e.2.warps.any (fun i => match s.warp? i with
      | some w => (s.noticeFor i w).isSome
      | none => false))).map (fun e => Turn.take (.throttleNotice e.1))

/-- Every warp of a core parks its fronts where a save is due, and chooses (R31, R336). -/
def State.parkAll (s : State) (core : Nat) : State := (s.warpsOf core).foldl (fun s e => s.park e.1) s

/-- A clock of a core is due: first comes what has come about by then; then fronts park, and are chosen. -/
def State.clkTurn (s : State) (core : Nat) : State :=
  if s.clkDue core then
    { (s.modCore core (fun c => { c with clk := .waking })) with agenda := s.agenda ++ s.wakeClk core ++ [.clk core] }
  else if (s.core core).clk = .waking then
    let s := s.retryDeposits.parkAll core
    { (s.modCore core (fun c => { c with clk := .chosen })) with agenda := s.agenda ++ s.beforeClk core ++ [.begin_ core] }
  else s

/-- A core as its clock begins: what the clock is (R352, R359, R360). -/
def Core.begin_ (c : Core) (stretched : Bool) : Core :=
  { c with
    clk := .running, phase := c.phase - 8, stretched := stretched
    halving := c.halving.map (fun n => min 65 (n + 1))
    stallFor := if c.stalled then c.stallFor + 1 else 0
    perturb := if c.stalled then (c.perturb + 1) % 2 ^ 64 else c.perturb }

/-- A front switch takes this clock (R31). -/
def Warp.begin_ (w : Warp) : Warp := if w.switching then { w with aged := true } else w

/-- A clock of a core begins: fronts are chosen or wait for their pages, every port's nominee stands, and the ports take their turns in the
order of partitions, which is core issue order (R182, R268). -/
def State.beginClk (s : State) (core : Nat) : State :=
  if (s.core core).clk ≠ .chosen then s
  else
    let n := (s.cluster (clusterOfCore core)).stretch
    let s := (s.modCore core (fun c => c.begin_ (decide (2 ≤ n) && decide (n ≤ 7)))).parkAll core
    let s := { s with warps := Table.mapVal (fun _ (w : Warp) => if w.core = core then w.begin_ else w) s.warps }
    let s := (partsOf core).foldl State.prepare s
    let ports := (partsOf core).flatMap (fun p => [0, 1, 2].map (fun q => (p, q)))
    let s := s.modCore core (fun c => { c with idles := ports.foldl (fun m e => Table.put m (portKey e.1 e.2) (s.idle e.1 e.2)) [] })
    { s with agenda := s.agenda ++ ports.map (fun e => Turn.port e.1 e.2) ++ ports.map (fun e => Turn.take (.slotCharge e.1 e.2)) ++ [.edge core] }

/-- A clock of a flight's core has passed, or one of its cluster, which those of the core then wait for (R12, R275). -/
def Flight.clk (f : Flight) : Flight := if f.cc = 0 then f else { f with due := f.due + 1 }
def Flight.cclk (f : Flight) : Flight := { f with cc := f.cc - 1 }

/-- A warp at the end of its core's clock: what it waited for is looked at again, and a front switch has cost its clock. -/
def Warp.edge (w : Warp) : Warp :=
  let w := { w with flights := w.flights.map Flight.clk }
  let w := if w.waitPage.isSome then w else { w with wait := none }
  if w.switching && w.aged then { w with switching := false, aged := false } else w

/-- The end of a core's clock, every slot of which is charged by now: ownership changes (R343), and what follows the clock comes
next. -/
def State.clkEdge (s : State) (core : Nat) : State :=
  if !(s.core core).inClk then s
  else
    let s := s.modCore core (fun c => { c with clk := .between, cyc := c.cyc + 1, idles := [] })
    let s := (partsOf core).foldl (fun s p => match (s.part p).nextOwner with | some c => s.changeOwner p c | none => s) s
    let s := (partsOf core).foldl (fun s p => s.modPart p (fun x => { x with ports := Table.mapVal (fun _ (q : Port) => { q with charged := false }) x.ports })) s
    let s := { s with warps := Table.mapVal (fun _ (w : Warp) => if w.core = core then w.edge else w) s.warps }
    let c := s.core core
    { s with agenda := s.agenda
        ++ (if c.cyc % 32 = 0 then (partsOf core).map (fun p => Turn.take (Instr.shutterWindow p)) else [])
        ++ (if c.halving = some 64 then [Turn.take (Instr.halvingPhaseEnd core)] else []) }

/-- The edge of a cluster's clock: it counts towards its cores' (R12), and the stretch phase counts down (R359). -/
def State.clusterEdge (s : State) (cluster : Nat) : State :=
  if !s.cclkDue cluster then s
  else
    let n := (s.cluster cluster).stretch
    let s := s.modCluster cluster (fun k => { k with phase := k.phase - k.period, stretch := if 2 ≤ n then n - 1 else n })
    let s := (coresOf cluster).foldl (fun s c => s.modCore c (fun x => { x with phase := x.phase + s.ratioOf c })) s
    let s := { s with warps := Table.mapVal (fun _ (w : Warp) =>
      if clusterOfCore w.core = cluster then { w with flights := w.flights.map Flight.cclk } else w) s.warps }
    if n = 2 then { s with agenda := s.agenda ++ [Turn.take (Instr.stretchPhaseEnd cluster)] } else s

/-- MHz of a die's cluster clock (R362). -/
def State.mhz (s : State) (die : Nat) : Nat := 600 + 25 * s.stepOf die

/-- Is some clock due, of a core or of a cluster? -/
def State.clocksDue (s : State) : Bool := (List.range 128).any (fun k => s.cclkDue k || (coresOf k).any s.clkDue)

/-- A nanosecond of a cluster's clock (R12, log 78). -/
def State.advance (s : State) (cluster : Nat) : State :=
  if s.runs cluster then s.modCluster cluster (fun x => { x with phase := x.phase + s.mhz (dieOfCluster cluster) }) else s

/-- A microsecond of GTS has ended: it counts for the boost allowance, if a die has run above step 18 in it (R363), and for the byte
budgets (R365). -/
def State.microsecond (s : State) : State :=
  let above := s.mod.ranAbove
  let m := { s.mod with ranAbove := false, boostDue := s.mod.boostDue || above }
  let budgets := (s.clusters.filter (fun e => e.2.byteBudget ≠ 0)).map (fun e => Turn.take (Instr.byteBudgetInterval e.1))
  { s with mod := m, agenda := s.agenda ++ (if above then [Turn.take Instr.boostDecrement] else []) ++ budgets }

/-- The time stamp advances; the microsecond is one in which some die has run above step 18. -/
def Module.tick (m : Module) (above : Bool) : Module := { m with gts := (m.gts + 1) % 2 ^ 64, ranAbove := m.ranAbove || above }

/-- Does a die run above step 18 (R363)? One whose clusters' clocks have stopped does not run. -/
def State.boosted (s : State) : Bool := (List.range 128).any (fun k => s.runs k && decide (18 < s.stepOf (dieOfCluster k)))

/-- One nanosecond, once every clock that is due has come about (R12). -/
def State.gtsTick (s : State) : State :=
  if s.clocksDue then s
  else
    let s := { (List.range 128).foldl State.advance s with mod := s.mod.tick s.boosted }
    if s.mod.gts % 1000 = 0 then s.microsecond else s

/-! ## The next turn -/

/-- Does a port alone take the step: an instruction form, or the trap of a word at decode (R97)? -/
def byPort : Instr → Bool
  | .illegalOpcode _ => true
  | i => i.isForm

/-- What a turn does (log 1). What a port takes, no other turn does. -/
def State.turn (s : State) : Turn → Res
  | .clk core => .next (s.clkTurn core)
  | .begin_ core => .next (s.beginClk core)
  | .port p port => s.portTurn p port
  | .edge core => .next (s.clkEdge core)
  | .cclk cluster => .next (s.clusterEdge cluster)
  | .gts => .next s.gtsTick
  | .take i => if byPort i then .next s else exec i s

/-- The step that takes an entry on its way now, if one does (R295, R304). -/
def State.entryStep (s : State) (e : Entry) : Option Instr :=
  if e.kind.isAtomic && e.atLevel then (if (s.groupOf e).all s.mayPerform then some (.perform e.id) else none)
  else if e.kind.isWrite && e.nextPlace.isNone then (if s.mayLeave e then some (.land e.id) else none)
  else if s.mayDrain e then some (.drain e.id) else none

/-- The clock that comes next: one that is due, of a core before one of a cluster, else a nanosecond (R12). -/
def State.nextClock (s : State) : Turn :=
  (((List.range 768).find? s.clkDue).map Turn.clk).or (((List.range 128).find? s.cclkDue).map Turn.cclk) |>.getD .gts

/-- The oldest flight that may complete (R106). -/
def State.nextFlight (s : State) : Option Instr :=
  let all := s.warps.flatMap (fun e =>
    (e.2.flights.filter (fun f => s.mayComplete e.2 f && (f.kind == .matrix || (s.finish? e.1 e.2 f).isSome))).map (fun f => (e.1, f)))
  (all.find? (fun x => all.all (fun y => decide (x.2.id ≤ y.2.id)))).map (fun x => x.2.ending x.1)

/-- The oldest walk that has a walker (R283). -/
def State.nextWalk (s : State) : Option Instr :=
  let all := (List.range 8).flatMap (fun d => ((s.die d).walks.take pageWalkers).map (fun x => (d, x)))
  (all.find? (fun x => all.all (fun y => decide (x.2.id ≤ y.2.id)))).map (fun x => .pageWalk (96 * x.1) x.2.ctx x.2.va)

/-- The streams, each by its warp and number, whose next entry can be fetched now (R272). -/
def State.streamsDue (s : State) : List (Nat × Nat) :=
  s.warps.flatMap (fun e => (e.2.streams.filter (fun x => (s.fetchEntry e.1 x.1).isSome)).map (fun x => (e.1, x.1)))

/-- What has to come about after finitely many steps: an entry leaves its buffer, a load is satisfied (R311), a copy starts (R307), a
tail or a counter is read again (R313, R316), time goes on (R12), a result is written (R51, R106), a walk goes on (R283), a stream's entry is
fetched (R51, R272), a copy completes (R51, R255). `n` counts the occasions. -/
def State.duty (s : State) (n : Nat) : Option Turn :=
  match n % 9 with
  | 0 => (s.entries.findSome? s.entryStep).map Turn.take
  | 1 => (s.loads.find? s.maySatisfy).map (fun l => .take (.satisfy l.id))
  | 2 => (s.copies.find? s.mayStart).map (fun c => .take (.copyStart c.id))
  | 3 =>
    let waiting := s.mod.grids.filter (fun e => e.2.phase == .waiting)
    if n / 9 % 2 = 0 then some (.take (.launchQueueTailRead (n / 18 % 64)))
    else (waiting[n / 18 % max waiting.length 1]?).map (fun e => .take (.prerequisiteMet e.2.source))
  | 4 => s.nextFlight.map Turn.take
  | 5 => s.nextWalk.map Turn.take
  | 6 =>
    let due := s.streamsDue
    (due[n / 9 % max due.length 1]?).map (fun x => .take (.streamFetch x.1 x.2))
  | 7 => (s.copies.find? s.copyDone).map (fun c => .take (.copyComplete c.id))
  | _ => some s.nextClock

/-- The free values that one step may draw on are its own (log 2). -/
def stepFree : Nat := 2 ^ 22

/-- Does a turn leave be what has been read ahead for the walks that are made in one step (log 13)? It is over with a clock, and with what
the device does. -/
def keepsAhead : Turn → Bool
  | .take (.drain _) | .take (.land _) | .take (.satisfy _) | .take (.evict _ _) | .take (.perform _) | .take (.combine _ _)
  | .take (.copyStart _) | .take (.copyComplete _) | .take (.streamFetch _ _) | .take (.pageWalk _ _ _) | .take (.hostAccess _ _ _) => true
  | _ => false

/-- The turn that comes next, and the state that it acts on. -/
def State.nextTurn (s : State) : Turn × State :=
  let s' := { s with tick := s.tick + 1, fresh := s.fresh + stepFree }
  match s.agenda with
  | t :: r => (t, { s' with agenda := r })
  | [] =>
    let s' := if s.aheadOver then { s' with dies := Table.mapVal (fun _ (d : Die) => { d with ahead := [] }) s.dies } else s'
    let due := if s.turns % (Config.patience + 1) = 0 then s.duty (s.turns / (Config.patience + 1)) else none
    let t := due.getD (Config.turn s.tick)
    (t, { s' with turns := s.turns + 1, aheadOver := !keepsAhead t })

end Sys2Proof.Machine
end

