-- ==== Sys2Proof/Machine/Step.lean ====
section
/-! DEFINITION. One step of the module, and a state whose next step runs a given instruction. -/
namespace Sys2Proof.Machine

/-- The next turn is taken: the oldest of the agenda, or what the free schedule says (log 1). -/
def step (s : State) : Host.Outcome State Fault Refusal :=
  let t := s.nextTurn
  t.2.turn t.1

/-- `s` with the instruction whose first `nbits` bits are `w` at the PC of the warp that the next step issues (log 21). -/
def State.withFetchWord (s : State) (nbits w : Nat) : State :=
  let bytes := leBytes 16 (w % 2 ^ nbits)
  s.withCode bytes (match decodeBytes bytes with
    | .ok i => portOf i.op
    | .illegalOpcode op => if opAssigned op then portOf op else 2
    | .illegalOperand op => portOf op)

end Sys2Proof.Machine
end

