-- ==== Sys2Proof/Safety.lean ====
section
/-! DEFINITION. The terms in which claims are stated: what a meaning acts on, what it may write, what stays as it was, and
what a safe run is. -/
namespace Sys2Proof

/-! ## Floating-point values as rational numbers (R73, R84) -/

def FV.finite : FV → Bool
  | .num _ _ _ => true
  | _ => false

/-- The number that a finite value is. -/
def FV.rat : FV → Rat
  | .num n m e => (if n then -1 else 1) * (m : Rat) * (2 : Rat) ^ e
  | _ => 0

def magnitude (x : Rat) : Rat := if x < 0 then -x else x

/-- Encoding `y` is `x` rounded to the format under a mode of R84, without regard to its draw: no finite value of the format
lies between the two, and of the two values beside `x` the mode has chosen. -/
def Rounded (f : Fmt) (rnd : Rnd) (x : Rat) (y : Nat) : Prop :=
  let v := (f.decode y).rat
  (f.decode y).finite = true ∧
  ∀ b, b < 2 ^ f.width → (f.decode b).finite = true →
    let u := (f.decode b).rat
    (u = x → v = x) ∧ ¬(v < u ∧ u < x) ∧ ¬(x < u ∧ u < v) ∧
    (match rnd with
      | .rn => magnitude (v - x) ≤ magnitude (u - x) ∧ (magnitude (u - x) = magnitude (v - x) → u = v ∨ y % 2 = 0)
      | .rz => magnitude v ≤ magnitude x
      | .ru => x ≤ v
      | .rd => v ≤ x
      | .ro => v = x ∨ y % 2 = 1
      | .sr => True)

/-- The formats of Table 5.1 that the scalar and packed forms compute in. -/
def formats : List Fmt := [fmt64, fmt32, fmt16, fmtBf, fmtE5, fmtE4]

/-! The sources of the forms of layouts A, A3 and P, and the V registers that must be allocated for them (R55). -/

def FormA.srcs (f : FormA) : List Opnd := [f.a, f.b.src]
def FormA.room (f : FormA) (wd wa wb : Bool) : Nat :=
  max (f.d.need (regsOf wd)) (max (f.a.need (regsOf wa)) (f.b.need (regsOf wb)))
def FormA3.srcs (f : FormA3) : List Opnd := [f.a, f.b.src, f.c]
def FormA3.room (f : FormA3) (wd wa wb wc : Bool) : Nat :=
  max (max (f.d.need (regsOf wd)) (f.c.need (regsOf wc))) (max (f.a.need (regsOf wa)) (f.b.need (regsOf wb)))
def FormP.srcs (f : FormP) : List Opnd := [f.a, f.b.src]
def FormP.room (f : FormP) (wa wb : Bool) : Nat := max (f.a.need (regsOf wa)) (f.b.need (regsOf wb))

end Sys2Proof

namespace Sys2Proof.Machine
open Sys2Proof

/-! ## What a meaning acts on -/

/-- Warp `w`, with its current front, is the one whose instruction exec carries out (log 12). -/
def State.Acts (s : State) (w : Warp) (front : Mask) : Prop := s.warp? s.cur = some w ∧ w.cur = some front

/-- The issue of instruction `i` for that front: the lanes whose guard passes are active (R96). -/
def State.at_ (s : State) (w : Warp) (front : Mask) (i : Instr) : Ctx :=
  { s := s, wid := s.cur, w := w, front := front, active := s.activeLanes w front i.hdr, op := i.op, len := i.len }

/-- R55: the kernel has the V registers that the instruction names. -/
def Ctx.Fits (c : Ctx) (need : Nat) : Prop := need ≤ (c.s.kernOf c.w).regs

/-- R60: the operand queues that the sources pop hold what they pop (or no lane is active and none waits). -/
def Ctx.Pops (c : Ctx) (os : List Opnd) : Prop := c.popCheck os = none

/-! ## What it writes and what it leaves -/

/-- The warp holds `x` in a destination, in lane `l`: in one register, or in an aligned pair (R55). A destination that
discards what it is given (Table 7.3) holds anything. -/
def Warp.Holds (w : Warp) (d : Opnd) (wide : Bool) (l x : Nat) : Prop :=
  match d with
  | .v n => w.getV l n = BitVec.ofNat 32 x ∧ (wide = true → w.getV l (n + 1) = BitVec.ofNat 32 (x / 2 ^ 32))
  | .w n => w.getW n = BitVec.ofNat 32 x ∧ (wide = true → w.getW (n + 1) = BitVec.ofNat 32 (x / 2 ^ 32))
  | _ => True

/-- The `k` registers of destination `d` in the lanes that execute, as (lane, number), lane 32 for W registers (R37). -/
def Ctx.dests (c : Ctx) (d : Opnd) (k : Nat) : List (Nat × Nat) := (c.lanes d).flatMap (fun l => destsOf d [l] k)

/-- No register of the warp changes but those listed (R54). -/
structure SameRegs (w x : Warp) (but : List (Nat × Nat)) : Prop where
  v : ∀ l n, n < 1024 → (l, n) ∉ but → x.getV l n = w.getV l n
  w : ∀ n, (32, n) ∉ but → x.getW n = w.getW n

/-- The special registers of the warp, its join and shape registers, and what it is and where, stay as they were. -/
structure SameSpecial (w x : Warp) : Prop where
  j : x.jregs = w.jregs
  h : x.hregs = w.hregs
  fpctl : x.fpctl = w.fpctl
  lvctl : x.lvctl = w.lvctl
  srstate : x.srstate = w.srstate
  done : x.done = w.done
  cpnum : x.cpnum = w.cpnum
  trapcause : x.trapcause = w.trapcause
  traplanes : x.traplanes = w.traplanes
  tvec : x.tvec = w.tvec
  prio : x.prio = w.prio ∧ x.prioCap = w.prioCap
  trap : x.trap = w.trap ∧ x.pend = w.pend ∧ x.stopped = w.stopped
  place : x.team = w.team ∧ x.num = w.num ∧ x.part = w.part ∧ x.slot = w.slot
  batches : x.openSet = w.openSet ∧ x.batches = w.batches

/-- The threads of the front have moved past the instruction and changed as `f` says of each lane; the other threads stay
as they were (R30, R111). -/
def Ctx.Threads (c : Ctx) (x : Warp) (f : Nat → Thread → Thread) : Prop :=
  ∀ l, x.th l = if l ∈ c.front.lanes then f l ((c.w.th l).next c.len) else c.w.th l

/-- The operand queues without the entries that the sources have popped (R60). -/
def Ctx.Popped (c : Ctx) (x : Warp) (os : List Opnd) : Prop :=
  x.oqs = (popQueues os c.w).oqs ∧ x.streams = (popQueues os c.w).streams

/-- No flight of the warp has been added or ended. -/
def SameFlights (w x : Warp) : Prop := x.flights.map (·.id) = w.flights.map (·.id)

/-- Nothing that a trap waits for is outstanding (R308, R331): no flight of the warp, no atomic of its threads. -/
def State.Quiesced (s : State) (wid : Nat) (w : Warp) : Prop :=
  w.flights = [] ∧ ∀ e ∈ s.entries, e.warp = wid → e.kind.isAtomic = false

/-- Nothing has happened but to the warp acted on: memory and every other part of the machine are as they were. -/
def Ctx.Left (c : Ctx) (x : Warp) (i : Instr) : Prop := exec i c.s = .next (c.s.putWarp c.wid x)

/-- R68: a thread's sticky flags with those raised. -/
def Thread.sticky (t : Thread) (flags : Nat) : Thread := { t with fpf := t.fpf ||| BitVec.ofNat 32 flags }

/-- What lane `l` computes, a uniform form once for all, in the lowest active lane (R37, R171). -/
def Ctx.result (c : Ctx) (d : Opnd) (sem : Nat → FRes) (l : Nat) : FRes :=
  sem (if d.isW then c.active.lowest.getD 0 else l)

/-- The flags that the issue raises in lane `l`. -/
def Ctx.flags (c : Ctx) (d : Opnd) (sem : Nat → FRes) (l : Nat) : Nat :=
  if c.active.has l then (c.result d sem l).flags else 0

/-- No flag that is raised is enabled to trap (R68). -/
def Ctx.Quiet (c : Ctx) (fl : Nat → Nat) : Prop := ∀ l, l < 32 → fl l &&& c.w.fpctl.toNat % 64 = 0

/-- What a form that completes at once does: every executing lane holds `sem l` in the destination, the threads of the active
lanes change as `g` says, the flags raised are sticky, and nothing else changes. -/
structure Ctx.Does (c : Ctx) (x : Warp) (d : Opnd) (wide : Bool) (os : List Opnd) (sem : Nat → FRes)
    (g : Nat → Thread → Thread := fun _ t => t) : Prop where
  value : ∀ l ∈ c.lanes d, x.Holds d wide l (sem l).bits
  regs : SameRegs c.w x (c.dests d (regsOf wide))
  threads : c.Threads x (fun l t => (if c.active.has l then g l t else t).sticky (c.flags d sem l))
  queues : c.Popped x os
  flights : SameFlights c.w x
  special : SameSpecial c.w x

/-! ## Layouts A, A3 and P -/

/-- A form of layout A completes from every state in which its registers are allocated, its queues hold what it pops and no
flag it raises is enabled, with the result `val c l a b` of its two sources in each executing lane. -/
def CompletesA (i : Instr) (f : FormA) (wd wa wb : Bool) (val : Ctx → Nat → Nat → Nat → FRes) : Prop :=
  ∀ (s : State) (w : Warp) (front : Mask), s.Acts w front →
    let c := s.at_ w front i
    let sem := fun l => val c l (c.rd f.srcs 0 wa l) (c.rdB f.srcs 1 f.b f.ty wb l)
    c.Fits (f.room wd wa wb) → c.Pops f.srcs → c.Quiet (c.flags f.d sem) →
    ∃ x, c.Left x i ∧ c.Does x f.d wd f.srcs sem

/-- The same of layout A3, with its third source. -/
def CompletesA3 (i : Instr) (f : FormA3) (wd wa wb wc : Bool) (val : Ctx → Nat → Nat → Nat → Nat → FRes) : Prop :=
  ∀ (s : State) (w : Warp) (front : Mask), s.Acts w front →
    let c := s.at_ w front i
    let sem := fun l => val c l (c.rd f.srcs 0 wa l) (c.rdB f.srcs 1 f.b f.ty wb l) (c.rd f.srcs 2 wc l)
    c.Fits (f.room wd wa wb wc) → c.Pops f.srcs → c.Quiet (c.flags f.d sem) →
    ∃ x, c.Left x i ∧ c.Does x f.d wd f.srcs sem

/-- A form of layout P completes: each active lane's predicate D is the condition combined with the combining predicate
(R157), or nothing where D is 7; no register changes. -/
def CompletesP (i : Instr) (f : FormP) (wa wb : Bool) (val : Ctx → Nat → Nat → Nat → Bool × Nat) : Prop :=
  ∀ (s : State) (w : Warp) (front : Mask), s.Acts w front →
    let c := s.at_ w front i
    let sem := fun l => val c l (c.rd f.srcs 0 wa l) (c.rdB f.srcs 1 f.b f.ty wb l)
    let fl := fun l => if c.active.has l then (sem l).2 else 0
    c.Fits (f.room wa wb) → c.Pops f.srcs → c.Quiet fl →
    ∃ x, c.Left x i ∧ SameRegs w x [] ∧ c.Popped x f.srcs ∧ SameFlights w x ∧ SameSpecial w x ∧
      c.Threads x (fun l t => (if c.active.has l then
        t.setPred f.d (f.comb.apply (sem l).1 (c.pred l f.cp != f.cneg)) else t).sticky (fl l))

/-! ## Long-latency forms (R106) -/

/-- The same, and one new number has been given out (to the flight that has started). -/
def Ctx.Launched (c : Ctx) (x : Warp) (i : Instr) : Prop :=
  exec i c.s = .next ({ c.s with nextId := c.s.nextId + 1 }.putWarp c.wid x)

/-- The flight that an issue starts: its window is `la` issues of each active lane, and it may complete `lat` clocks of the
core, `cc` of the cluster before them, and `ns` nanoseconds later (Table 24.5, R12). -/
structure Ctx.Starts (c : Ctx) (f : Flight) (la lat : Nat) (kind : FKind) (writes : List RegW) (raised : List (Nat × Nat)) (ns : Nat := 0)
    (cc : Nat := 0) : Prop where
  id : f.id = c.s.nextId
  op : f.op = c.op
  lanes : f.lanes = c.active
  front : f.front = c.front
  kind : f.kind = kind
  writes : f.writes = writes
  kept : f.kept = []
  raised : f.raised = raised
  due : f.due = (c.s.core c.w.core).cyc + lat
  cc : f.cc = cc
  notBefore : f.notBefore = if ns = 0 then 0 else c.s.mod.gts + ns
  win : f.win = c.active.lanes.map (fun l => (l, la))

/-- What a long-latency form does at its issue: no register changes, the front moves on, its sources are popped, and one
flight starts beside those in flight. -/
structure Ctx.Flies (c : Ctx) (x : Warp) (os : List Opnd) (la lat : Nat) (kind : FKind) (writes : List RegW)
    (raised : List (Nat × Nat)) (ns : Nat := 0) (cc : Nat := 0) : Prop where
  regs : SameRegs c.w x []
  threads : c.Threads x (fun _ t => t)
  queues : c.Popped x os
  special : SameSpecial c.w x
  flight : ∃ fs f, x.flights = fs ++ [f] ∧ fs.map (·.id) = c.w.flights.map (·.id) ∧ c.Starts f la lat kind writes raised ns cc

/-- What an issue does that has no active lane, for the forms that then do nothing: the front moves on. -/
structure Ctx.Passes (c : Ctx) (x : Warp) (os : List Opnd) : Prop where
  regs : SameRegs c.w x []
  threads : c.Threads x (fun _ t => t)
  queues : c.Popped x os
  flights : SameFlights c.w x
  special : SameSpecial c.w x

end Sys2Proof.Machine

namespace Sys2Proof
def FormB.srcs (f : FormB) : List Opnd := [f.a, f.b.src]
def FormB.room (f : FormB) (wd wa wb : Bool) : Nat :=
  max (f.d.need (regsOf wd)) (max (f.a.need (regsOf wa)) (f.b.need (regsOf wb)))
end Sys2Proof

namespace Sys2Proof.Machine

/-- The writes and the flags of a form of layout B whose lane `l` computes `sem l`. -/
def Ctx.outputs (c : Ctx) (d : Opnd) (wide : Bool) (sem : Nat → FRes) : List RegW :=
  c.active.lanes.flatMap (fun l => regWrites d l wide (sem l).bits)
def Ctx.raises (c : Ctx) (sem : Nat → FRes) : List (Nat × Nat) :=
  (c.active.lanes.map (fun l => (l, (sem l).flags))).filter (fun e => e.2 ≠ 0)

/-- A form of layout B starts its flight from every state in which its registers are allocated and its queues hold what it
pops: `val` of its sources in each active lane is what the flight will write. With no active lane it does nothing. -/
def CompletesB (i : Instr) (f : FormB) (wd wa wb : Bool) (lat : Ctx → Nat) (val : Ctx → Nat → Nat → Nat → FRes) : Prop :=
  ∀ (s : State) (w : Warp) (front : Mask), s.Acts w front →
    let c := s.at_ w front i
    let sem := fun l => val c l (c.rd f.srcs 0 wa l) (c.rdB f.srcs 1 f.b f.ty wb l)
    c.Fits (f.room wd wa wb) → c.Pops f.srcs →
    ∃ x, if c.active = 0 then c.Left x i ∧ c.Passes x f.srcs
      else c.Launched x i ∧ c.Flies x f.srcs (w.lookahead f.la) (lat c) .plain (c.outputs f.d wd sem) (c.raises sem)

/-! ## Vector memory instructions (R168) -/

/-- The lanes still to do: active, and without their SR_DONE bit (R70). -/
def Ctx.todo (c : Ctx) : List Nat := c.active.lanes.filter (fun l => !c.w.done.has l)

/-- Every lane to do has passed its check, and its element stands at `loc l` (R167). -/
def Ctx.Passed (c : Ctx) (chk : Nat → Chk) (loc : Nat → Nat) : Prop := ∀ l ∈ c.todo, chk l = .ok (loc l)

/-- What the warp of a completed vector memory instruction is: SR_DONE is 0, the front has moved on, the registers are as
they were (a load writes them when it completes), and `f` says which flight has started. -/
structure Ctx.Performed (c : Ctx) (x : Warp) (os : List Opnd) (f : Option (Flight → Prop)) : Prop where
  regs : SameRegs c.w x []
  threads : c.Threads x (fun _ t => t)
  queues : c.Popped x os
  special : SameSpecial { c.w with done := 0 } x
  flight : match f with
    | none => SameFlights c.w x
    | some p => ∃ fs g, x.flights = fs ++ [g] ∧ fs.map (·.id) = c.w.flights.map (·.id) ∧ p g

/-- What a completed memory instruction leaves of the rest of the machine: memory itself, which its entries and loads reach
later (R295, R297), the other warps, and everything but the loads, the entries and the numbers given out. -/
structure Ctx.OnlyTraffic (c : Ctx) (t : State) : Prop where
  mem : t.mem = c.s.mem
  tags : t.tags = c.s.tags
  copies : t.copies = c.s.copies
  warps : ∀ k, k ≠ c.wid → t.warp? k = c.s.warp? k
  units : t.cores = c.s.cores ∧ t.parts = c.s.parts ∧ t.clusters = c.s.clusters ∧ t.dies = c.s.dies
  mod : t.mod = c.s.mod
  schedule : t.agenda = c.s.agenda ∧ t.tick = c.s.tick ∧ t.fresh = c.s.fresh ∧ t.cur = c.s.cur

/-- The loads of `n` bytes for each of several lanes, one a byte, numbered from the flight's own number on (R297). -/
def Ctx.loadsOf (c : Ctx) (ls : List Nat) (loc : Nat → Nat) (n : Nat) (scope : Scope) (acq : Bool) (nol1 : Bool := false) : List Load :=
  ls.zipIdx.flatMap (fun e => (List.range n).map (fun b =>
    { id := c.s.nextId + 1 + n * e.2 + b, for_ := .warp c.wid c.s.nextId, warp := c.wid, lane := e.1, core := c.w.core
      loc := loc e.1 + b, scope := scope, order := c.w.order, acq := acq, nol1 := nol1 }))

/-- The items of those loads: where each lane's bytes go. -/
def Ctx.itemsOf (c : Ctx) (ls : List Nat) (va : Nat → Nat) (d : Opnd) (ty : NumTy) (cnt : Nat) : List LoadItem :=
  ls.zipIdx.map (fun e => { lane := e.1, va := va e.1, dst := d, ty := ty, cnt := cnt
                            loads := (List.range (ty.bytes * cnt)).map (fun b => c.s.nextId + 1 + ty.bytes * cnt * e.2 + b) })

/-! ## Matrix forms (R191, R221) -/

/-- What an issue of layout X leaves of the rest of the machine: everything but the units of the warp's partition, which it may
occupy, and the numbers given out. -/
structure Ctx.OnlyUnits (c : Ctx) (t : State) : Prop where
  mem : t.mem = c.s.mem
  tags : t.tags = c.s.tags
  traffic : t.entries = c.s.entries ∧ t.loads = c.s.loads ∧ t.copies = c.s.copies
  warps : ∀ k, k ≠ c.wid → t.warp? k = c.s.warp? k
  units : t.cores = c.s.cores ∧ t.clusters = c.s.clusters ∧ t.dies = c.s.dies
  parts : ∀ p, p ≠ c.w.part → t.part p = c.s.part p
  owner : (t.part c.w.part).owner = (c.s.part c.w.part).owner
  mod : t.mod = c.s.mod
  schedule : t.agenda = c.s.agenda ∧ t.tick = c.s.tick ∧ t.fresh = c.s.fresh ∧ t.cur = c.s.cur

/-- A form of layout X whose operands each active lane must accept (`ok`): where all do, a flight starts that will write each
lane's registers and raise its flags (`res`); where some do not, ILLEGAL_OPERAND traps for those lanes with no effect (R191).
Under .SR the generator advances (R89). -/
def CompletesX (i : Instr) (need la : Nat) (kind : FKind) (ok : Ctx → Nat → Bool) (res : Ctx → Nat → List RegW × Nat)
    (rnd : Rnd := .rn) : Prop :=
  i.wf = true → ∀ (s : State) (w : Warp) (front : Mask), s.Acts w front →
    let c := s.at_ w front i
    c.Fits need →
    ((∀ l ∈ c.active.lanes, ok c l = true) →
      ∃ t x lat, exec i s = .next t ∧ t.warp? s.cur = some x ∧ c.OnlyUnits t ∧
        x.srstate = (if rnd = .sr then srStep w.srstate else w.srstate) ∧
        if c.active = 0 then c.Passes { x with srstate := w.srstate } []
        else c.Flies { x with srstate := w.srstate } [] (w.lookahead la) lat kind (c.active.lanes.flatMap (fun l => (res c l).1))
          ((c.active.lanes.map (fun l => (l, (res c l).2))).filter (fun e => e.2 ≠ 0))) ∧
    ((∃ l ∈ c.active.lanes, ok c l = false) →
      exec i s = .next (c.settle (.trap s .illegalOperand (Mask.ofList (c.active.lanes.filter (fun l => !ok c l))))))

/-! ## Power registers (Table 30.1, R356, R363) -/

/-- How many units have the power register that a write names; 0 for one that no write reaches. -/
def powerUnits : Nat → Nat
  | 0 => 3072
  | 1 => 128
  | 3 => 8
  | 4 => 768
  | 5 => 128
  | 6 => 1
  | _ => 0

/-- What a write of `v` to a unit's power register leaves of it: the value brought into range; a clock step and a ratio wait for
the clock change (R362), but for those written while the firmware hangs (R368). -/
def State.PowerHolds (t : State) (reg unit v : Nat) : Prop :=
  match reg with
  | 0 => (t.part unit).shutBudget = min 32 (max 1 (v % 64))
  | 1 => (t.cluster unit).droopThr = min 120 (max 10 (v % 128))
  | 3 => (t.die unit).stepWritten = min 24 (v % 32) ∧ (t.die unit).stepPending = (if (t.die unit).held then none else some (min 24 (v % 32)))
  | 4 => (t.core unit).ratioWritten = min 8 (max 4 (v % 16)) ∧ (t.core unit).ratioPending = (if (t.core unit).held then none else some (min 8 (max 4 (v % 16))))
  | 5 => (t.cluster unit).byteBudget = v % 2 ^ 32
  | _ => t.mod.boost = v % 2 ^ 24

end Sys2Proof.Machine
end

