-- ==== Sys2Proof/Certificates/Slice0/Obligations.lean ====
section
/-! DEFINITION. The statements for the provers. -/
open Sys2Proof Sys2Proof.Machine

/-! ## Integer forms (R149–R158) -/

/-- R153: sums, differences, products, minima, maxima and magnitudes, exact and then wrapped to the type's width. -/
def Obligations.IntegerArithmetic : Prop :=
  ∀ f : FormA, let n := f.ty.bits; let g := f.ty.wide
    let num := fun a : Nat => if f.ty.signed then (BitVec.ofNat n a).toInt else ((BitVec.ofNat n a).toNat : Int)
    let all := fun (i : Instr) (val : Int → Int → Int) => i.wf = true →
      CompletesA i f g g g (fun _ _ a b => { bits := (BitVec.ofInt n (val (num a) (num b))).toNat })
    all (.iadd f) (fun a b => a + b) ∧ all (.isub f) (fun a b => a - b) ∧ all (.imul f) (fun a b => a * b) ∧
    all (.imulh f) (fun a b => (a * b).fdiv (2 ^ n)) ∧ all (.imin f) (fun a b => if a ≤ b then a else b) ∧
    all (.imax f) (fun a b => if a ≤ b then b else a) ∧ all (.iabs f) (fun a _ => if a < 0 then -a else a)

/-- R153, R151: the multiply-adds (IMADW's factors are 32 bits wide, its addend and result pairs), and the sum with carry, whose
carry-out goes to predicate Po of every active lane. -/
def Obligations.MultiplyAddAndCarry : Prop :=
  (∀ f : FormA3, let n := f.ty.bits; let g := f.ty.wide
      let num := fun a : Nat => if f.ty.signed then (BitVec.ofNat n a).toInt else ((BitVec.ofNat n a).toNat : Int)
      ((Instr.imad f).wf = true → CompletesA3 (.imad f) f g g g g (fun _ _ a b c =>
        { bits := (BitVec.ofInt n (num a * num b + num c)).toNat })) ∧
      ((Instr.imadw f).wf = true → CompletesA3 (.imadw f) f true false false true (fun _ _ a b c =>
        { bits := (BitVec.ofInt 64 (num a * num b + c)).toNat }))) ∧
  (∀ (f : FormA) (pi po : Nat) (sub ci0 : Bool) (s : State) (w : Warp) (front : Mask),
      (Instr.iaddc f pi po sub ci0).wf = true → s.Acts w front →
      let c := s.at_ w front (.iaddc f pi po sub ci0)
      let g := f.ty.wide
      let sum := fun l =>
        (BitVec.ofNat f.ty.bits (c.rd f.srcs 0 g l)).toNat
          + (let b := BitVec.ofNat f.ty.bits (c.rdB f.srcs 1 f.b f.ty g l); if sub then (~~~b).toNat else b.toNat)
          + (if ci0 then 0 else if c.pred l pi then 1 else 0)
      c.Fits (f.room g g g) → c.Pops f.srcs →
      ∃ x, c.Left x (.iaddc f pi po sub ci0) ∧ (∀ l ∈ c.lanes f.d, x.Holds f.d g l (sum l % 2 ^ f.ty.bits)) ∧
        SameRegs w x (c.dests f.d (regsOf g)) ∧ c.Popped x f.srcs ∧ SameFlights w x ∧ SameSpecial w x ∧
        c.Threads x (fun l t => if c.active.has l then
          t.setPred po (2 ^ f.ty.bits ≤ sum (if f.d.isW then c.active.lowest.getD 0 else l)) else t))

/-- R154: logic, shifts, rotations, the funnel shift and counts. The count of a shift is one 32-bit value (R150); the results of POPC, CLZ and
CTZ are 32 bits wide. -/
def Obligations.LogicAndShifts : Prop :=
  (∀ (f : FormA3) (right : Bool), (Instr.fsh f right).wf = true → CompletesA3 (.fsh f right) f false false false false (fun _ _ a b c =>
    let t := BitVec.ofNat 32 a ++ BitVec.ofNat 32 b
    { bits := (if right then (t >>> (c % 32)).extractLsb 31 0 else (t <<< (c % 32)).extractLsb 63 32).toNat })) ∧
  ∀ f : FormA, let n := f.ty.bits; let g := f.ty.wide
    let two := fun (i : Instr) (val : BitVec n → BitVec n → BitVec n) => i.wf = true →
      CompletesA i f g g g (fun _ _ a b => { bits := (val (BitVec.ofNat n a) (BitVec.ofNat n b)).toNat })
    let shift := fun (i : Instr) (val : BitVec n → Nat → BitVec n) => i.wf = true →
      CompletesA i f g g false (fun _ _ a b => { bits := (val (BitVec.ofNat n a) (b % 2 ^ 32)).toNat })
    let count := fun (i : Instr) (val : BitVec n → Nat) => i.wf = true →
      CompletesA i f false g false (fun _ _ a _ => { bits := val (BitVec.ofNat n a) })
    two (.and f) (· &&& ·) ∧ two (.or f) (· ||| ·) ∧ two (.xor f) (· ^^^ ·) ∧ two (.andn f) (fun a b => a &&& ~~~b) ∧
    two (.not f) (fun a _ => ~~~a) ∧
    shift (.shl f) (· <<< ·) ∧ shift (.shr f) (· >>> ·) ∧ shift (.sar f) (fun a k => a.sshiftRight k) ∧
    shift (.rotl f) (fun a k => a.rotateLeft (k % n)) ∧
    count (.popc f) (fun a => (List.range n).countP (fun k => a.getLsbD k)) ∧
    count (.clz f) (fun a => ((List.range n).find? (fun k => a.getMsbD k)).getD n) ∧
    count (.ctz f) (fun a => ((List.range n).find? (fun k => a.getLsbD k)).getD n) ∧
    ((Instr.brev f).wf = true → CompletesA (.brev f) f g g false (fun _ _ a _ => { bits := (BitVec.ofNat n a).reverse.toNat }))

/-- R155: the field extract and insert, and the byte permutation, bit by bit. -/
def Obligations.BitFields : Prop :=
  let number := fun (n : Nat) (bit : Nat → Bool) => ((List.range n).map (fun k => if bit k then 2 ^ k else 0)).sum
  (∀ f : FormA, (Instr.bfx f).wf = true → CompletesA (.bfx f) f f.ty.wide f.ty.wide false (fun _ _ a b =>
    let x := BitVec.ofNat f.ty.bits a
    let n := min (b / 256 % 256) f.ty.bits
    let bit := fun k => if k < f.ty.bits then x.getLsbD k else f.ty.signed && x.msb
    { bits := number f.ty.bits (fun k =>
        if k < n then bit (b % 256 + k) else f.ty.signed && decide (0 < n) && bit (b % 256 + (n - 1))) })) ∧
  (∀ f : FormA3, (Instr.bfi f).wf = true → CompletesA3 (.bfi f) f f.ty.wide f.ty.wide false f.ty.wide (fun _ _ a b c =>
    let n := min (b / 256 % 256) f.ty.bits
    { bits := number f.ty.bits (fun k =>
        if b % 256 ≤ k ∧ k < b % 256 + n then a.testBit (k - b % 256) else c.testBit k) })) ∧
  (∀ f : FormA3, (Instr.bperm f).wf = true → CompletesA3 (.bperm f) f false false false false (fun _ _ a b c =>
    let src := BitVec.ofNat 32 c ++ BitVec.ofNat 32 a
    let pick := fun i => (let x := src.extractLsb' (8 * (b / 16 ^ i % 8)) 8
      if b / 16 ^ i % 16 < 8 then x else if x.msb then 0xFF#8 else 0x00#8)
    { bits := (pick 3 ++ pick 2 ++ pick 1 ++ pick 0).toNat }))

/-- R156: LEA writes the D pair with the A pair plus the extended B times 2^s, mod 2^64; s is 0 to 7 and both pairs are even. -/
def Obligations.LoadEffectiveAddress : Prop :=
  ∀ (f : FormA3) (k : Nat) (signed : Bool), (Instr.lea f k signed).wf = true →
    k < 8 ∧ f.d.even = true ∧ f.a.even = true ∧
    CompletesA3 (.lea f k signed) f true true false false (fun _ _ a b _ =>
      let x := BitVec.ofNat 32 b
      { bits := (BitVec.ofNat 64 a + (if signed then x.signExtend 64 else x.setWidth 64) <<< k).toNat })

/-- R152, R75: MOV copies, the narrow types extended to 32 bits; MOV.P packs P0–P6 with 1 in bit 7; MOVI writes its immediate;
SEL chooses by a predicate of the lane. R39: RDFL gives the value of the lowest active lane.
R165: WMOV reads a join register, the mask of the front or the active mask, or writes a join register, on which the
joins are then evaluated; with no active lane it does nothing. -/
def Obligations.MovesOfValuesAndMasks : Prop :=
  (∀ f : FormA, let g := f.ty.wide
      let ext := fun a : Nat => if f.ty.bits < 32 then
          (if f.ty.signed then (BitVec.ofNat f.ty.bits a).signExtend 32 else (BitVec.ofNat f.ty.bits a).setWidth 32).toNat
        else a % 2 ^ f.ty.bits
      ((Instr.mov f .copy).wf = true → CompletesA (.mov f .copy) f g g false (fun _ _ a _ => { bits := ext a })) ∧
      ((Instr.mov f .packP).wf = true → CompletesA (.mov f .packP) f false false false (fun c l _ _ =>
        { bits := 128 + ((List.range 7).map (fun k => if c.pred l k then 2 ^ k else 0)).sum })) ∧
      ((Instr.movi f).wf = true → CompletesA (.movi f) f g false g (fun _ _ _ b => { bits := ext b })) ∧
      (∀ ps neg, (Instr.sel f ps neg).wf = true →
        CompletesA (.sel f ps neg) f g g g (fun c l a b => { bits := if c.pred l ps ≠ neg then a else b })) ∧
      ((Instr.rdfl f).wf = true → CompletesA (.rdfl f) f g g false (fun _ _ a _ => { bits := a }))) ∧
  (∀ (f : FormA) (j : Nat) (mode : WmovMode) (s : State) (w : Warp) (front : Mask), let i := Instr.wmov f j mode
      i.wf = true → s.Acts w front →
      let c := s.at_ w front i
      (mode ≠ .toJ ∨ c.active = 0 →
        ∃ x, c.Left x i ∧ c.Does x f.d false [] (fun _ => { bits := (match mode with
          | .fromJ => w.getJ j
          | .front => front
          | _ => c.active).toNat })) ∧
      (mode = .toJ → c.active ≠ 0 →
        let v := BitVec.ofNat 32 (c.rd [f.a] 0 false 0)
        ∃ x, c.Left x i ∧ (∀ k, x.getJ k = if k = j then v else w.getJ k) ∧ SameRegs w x [] ∧ c.Popped x [] ∧
          SameFlights w x ∧ SameSpecial { w with jregs := x.jregs } x ∧
          (∀ l, x.th l = if l ∈ front.lanes then ((w.putJ j v).releaseJoins.th l).next c.len else (w.putJ j v).releaseJoins.th l)))

/-- R157, R158: ICMP, PLOP and both modes of PMOV. Writes to P7 are discarded (R55). -/
def Obligations.Predicates : Prop :=
  (∀ f : FormP, (Instr.icmp f).wf = true → CompletesP (.icmp f) f f.ty.wide f.ty.wide (fun _ _ a b =>
    let num := fun a : Nat => if f.ty.signed then (BitVec.ofNat f.ty.bits a).toInt else ((BitVec.ofNat f.ty.bits a).toNat : Int)
    (match f.cond with
      | .eq => decide (num a = num b)
      | .ne => decide (num a ≠ num b)
      | .lt => decide (num a < num b)
      | .le => decide (num a ≤ num b)
      | .gt => decide (num a > num b)
      | _ => decide (num a ≥ num b), 0))) ∧
  (∀ (h : Hdr) (d pa pb pc : Nat) (table : BArg) (s : State) (w : Warp) (front : Mask),
    let i := Instr.plop h d pa pb pc table
    i.wf = true → s.Acts w front →
    let c := s.at_ w front i
    let bit := fun l p n => if c.pred l p then n else 0
    ∃ x, c.Left x i ∧ SameRegs w x [] ∧ c.Popped x [] ∧ SameFlights w x ∧ SameSpecial w x ∧
      c.Threads x (fun l t => if c.active.has l then
        t.setPred d ((immVal .i32 table).testBit (bit l pa 4 + bit l pb 2 + bit l pc 1)) else t)) ∧
  (∀ f : FormP, (Instr.pmov f false).wf = true →
    CompletesP (.pmov f false) f false false (fun _ _ a b => (a.testBit (b % 32), 0))) ∧
  (∀ (f : FormP) (s : State) (w : Warp) (front : Mask), (Instr.pmov f true).wf = true → s.Acts w front →
    let c := s.at_ w front (.pmov f true)
    c.Fits (f.a.need 1) → c.Pops [f.a] →
    ∃ x, c.Left x (.pmov f true) ∧ SameRegs w x [] ∧ c.Popped x [f.a] ∧ SameFlights w x ∧ SameSpecial w x ∧
      c.Threads x (fun l t => if c.active.has l then
        { t with preds := BitVec.ofNat 8 (c.rd [f.a] 0 false l % 128 + 128) } else t))

/-! ## Cross-lane forms (R159–R165) -/

/-- R160, R161, R163: a value picked from the lane's own segment, the polls of a predicate, and the lanes that agree.
R164: LSEND. A lane that is neither EXITED nor DEPOSITED receives what the highest active lane sends it. -/
def Obligations.LaneQueriesAndSend : Prop :=
  (∀ (f : FormA) (s : State) (w : Warp) (front : Mask), let g := f.ty.wide
      (∀ (pv seg : Nat) (mode : PickMode), let i := Instr.lpick f pv seg mode
        i.wf = true → s.Acts w front →
        let c := s.at_ w front i
        let from_ := fun l : Nat =>
          let b : Int := (c.rdB f.srcs 1 f.b .u32 false l % 2 ^ 32 : Nat)
          let j : Int := (l % 2 ^ seg : Nat)
          let t : Int := match mode with
            | .lane => b
            | .below => j - b
            | .above => j + b
            | .flip => (j.toNat ^^^ b.toNat : Nat)
          if 0 ≤ t ∧ t < 2 ^ seg then some (l - l % 2 ^ seg + t.toNat) else none
        c.Fits (f.room g g false) → c.Pops f.srcs →
        ∃ x, c.Left x i ∧ c.Does x f.d g f.srcs (fun l => { bits := c.rd f.srcs 0 g ((from_ l).getD l) })
          (fun l t => t.setPred pv (from_ l).isSome)) ∧
      (∀ (pa pq : Nat) (mode : PollMode), let i := Instr.lpoll f pa pq mode
        i.wf = true → s.Acts w front →
        let c := s.at_ w front i
        let m := Mask.ofPred (fun l => c.active.has l && c.pred l pa)
        let v : Nat := match mode with
          | .mask => m.toNat
          | .some => if m ≠ 0 then 1 else 0
          | .every => if m = c.active then 1 else 0
          | .same => if m = 0 ∨ m = c.active then 1 else 0
        c.Fits (f.d.need 1) →
        ∃ x, c.Left x i ∧ c.Does x f.d false [] (fun _ => { bits := v }) (fun _ t => t.setPred pq (v ≠ 0))) ∧
      (∀ pe : Nat, let i := Instr.lpeer f pe
        i.wf = true → s.Acts w front →
        let c := s.at_ w front i
        let a := fun l => c.rd [f.a] 0 g l
        c.Fits (max (f.d.need 1) (f.a.need (regsOf g))) → c.Pops [f.a] →
        ∃ x, c.Left x i ∧
          c.Does x f.d false [f.a] (fun l => { bits := (Mask.ofPred (fun k => c.active.has k && a k == a l)).toNat })
            (fun _ t => t.setPred pe (decide (∀ k ∈ c.active.lanes, ∀ l ∈ c.active.lanes, a k = a l))))) ∧
  (∀ (f : FormA) (pv : Nat) (s : State) (w : Warp) (front : Mask), let g := f.ty.wide; let i := Instr.lsend f pv
      i.wf = true → s.Acts w front →
      let c := s.at_ w front i
      let goes := fun l => c.rdB f.srcs 1 f.b .u32 false l % 32
      let alive := fun l => (w.th l).st ≠ .exited ∧ (w.th l).st ≠ .deposited
      let senders := fun t => c.active.lanes.filter (fun l => goes l == t)
      c.Fits (f.room g g false) → c.Pops f.srcs →
      ∃ x, c.Left x i ∧
        (∀ t l, alive t → (senders t).getLast? = some l → x.Holds f.d g t (c.rd f.srcs 0 g l)) ∧
        (∀ t n, n < 1024 → (¬ alive t ∨ senders t = [] ∨ (t, n) ∉ destsOf f.d [t] (regsOf g)) → x.getV t n = w.getV t n) ∧
        (∀ n, x.getW n = w.getW n) ∧ c.Popped x f.srcs ∧ SameFlights w x ∧ SameSpecial w x ∧
        c.Threads x (fun l t => if c.active.has l then t.setPred pv (decide (alive l ∧ senders l ≠ [])) else t))

/-- R162: LFOLD and SCAN fold the active lanes in ascending order, SCAN from the start of the lane's segment; integers wrap,
and FP32 steps are FADD, FMIN and FMAX, whose flags add up; the first element is the accumulator as it stands, but for .FTZ (R80). -/
def Obligations.Folds : Prop :=
  ∀ (f : FormA) (op : FoldOp) (s : State) (w : Warp) (front : Mask), let g := f.ty.wide; let n := f.ty.bits
    let step := fun (acc : FRes) (y : Nat) =>
      if f.ty = .f32 then
        let r := (match op with
          | .add => fmt32.opRes .rn 0 f.ftz (FV.add .rn (fmt32.read f.ftz acc.bits) (fmt32.read f.ftz y))
          | .max => fmt32.minmax true f.ftz acc.bits y
          | _ => fmt32.minmax false f.ftz acc.bits y);
        { r with flags := acc.flags ||| r.flags }
      else
        let u := BitVec.ofNat n acc.bits
        let v := BitVec.ofNat n y
        let le := if f.ty.signed then u.sle v else u.ule v;
        { bits := (match op with
          | .add => u + v
          | .min => if le then u else v
          | .max => if le then v else u
          | .and => u &&& v
          | .or => u ||| v
          | .xor => u ^^^ v).toNat, flags := 0 : FRes }
    let fold := fun (xs : List Nat) => (match xs with
      | [] => { bits := 0, flags := 0 : FRes }
      | x :: r => r.foldl step { bits := if f.ty = .f32 ∧ f.ftz = true ∧ fmt32.isSub x = true then x / 2 ^ 31 * 2 ^ 31 else x, flags := 0 })
    let identity : Nat := (match op with
      | .add => if f.ty = .f32 then 0x80000000 else 0
      | .min => if f.ty = .f32 then 0x7F800000 else if f.ty.signed then 2 ^ (n - 1) - 1 else 2 ^ n - 1
      | .max => if f.ty = .f32 then 0xFF800000 else if f.ty.signed then 2 ^ (n - 1) else 0
      | .and => 2 ^ n - 1
      | _ => 0);
    (let i := Instr.lfold f op;
      i.wf = true → s.Acts w front →
      let c := s.at_ w front i
      let total := fold (c.active.lanes.map (fun l => c.rd [f.a] 0 g l))
      c.Fits (max (f.d.need (regsOf g)) (f.a.need (regsOf g))) → c.Pops [f.a] → c.Quiet (c.flags f.d (fun _ => total)) →
      ∃ x, c.Left x i ∧ c.Does x f.d g [f.a] (fun _ => total)) ∧
    (∀ (excl seg : Bool) (pg : Nat), let i := Instr.scan f op excl seg pg
      i.wf = true → s.Acts w front →
      let c := s.at_ w front i
      let upTo := fun l => c.active.lanes.filter (fun k => decide (k ≤ l))
      let start := fun l => (((upTo l).filter (fun k => seg && c.pred k pg)).getLast?).getD (c.active.lowest.getD 0)
      let run := fun l => ((upTo l).filter (fun k => decide (start l ≤ k))).map (fun k => c.rd [f.a] 0 g k)
      let value := fun l => if !excl then fold (run l)
        else if start l = l then { bits := identity, flags := 0 : FRes } else fold (run l).dropLast
      c.Fits (max (f.d.need (regsOf g)) (f.a.need (regsOf g))) → c.Pops [f.a] → c.Quiet (c.flags f.d value) →
      ∃ x, c.Left x i ∧ c.Does x f.d g [f.a] value)

/-! ## Floating point (R72–R90, R170–R188) -/

/-- R72, R73: rounding the value of an encoding to its own format gives the encoding back, in every mode, and raises
nothing.
R84: a nonzero exact value that does not overflow is written as the neighbour the mode chooses, under .SR by the draw; NX is
raised exactly when the two differ. R85: one that overflows lies beyond every finite value of the format and is written as Table 5.8
has it, with OF and NX. -/
def Obligations.RoundingLaws : Prop :=
  (∀ f ∈ fmtE2 :: formats, ∀ (rnd : Rnd) (draw b : Nat), draw < 2 ^ 32 → b < 2 ^ f.width → (f.decode b).finite = true →
      f.finish rnd draw false (f.decode b) = { bits := b, flags := 0 }) ∧
  (∀ f ∈ formats, ∀ (rnd : Rnd) (draw : Nat) (sat neg : Bool) (m : Nat) (e : Int), draw < 2 ^ 32 → m ≠ 0 →
      let y := f.round rnd draw false sat neg m e false
      let x := (FV.num neg m e).rat
      let largest := f.maxBits neg
      let lo := (f.decode (f.round .rz 0 false false neg m e false).bits).rat
      let away := f.round (if neg then .rd else .ru) 0 false false neg m e false
      let hi := (f.decode away.bits).rat
      (y.flags &&& flOF = 0 → Rounded f rnd x y.bits ∧ (y.flags &&& flNX = 0 ↔ (f.decode y.bits).rat = x)) ∧
      (rnd = .sr → away.flags &&& flOF = 0 → lo ≠ x → (f.decode y.bits).rat =
        if 2 ^ 32 ≤ (2 ^ 32 * (magnitude x - magnitude lo) / (magnitude hi - magnitude lo)).floor + (draw : Int) then hi else lo) ∧
      (y.flags &&& flOF ≠ 0 → y.flags = flOF ||| flNX ∧
        (∀ b < 2 ^ f.width, (f.decode b).finite = true →
          magnitude (f.decode b).rat ≤ magnitude (f.decode largest).rat ∧ magnitude (f.decode b).rat < magnitude x) ∧
        y.bits = if sat then largest else if f = fmtE4 then f.nan else match rnd with
          | .rn | .sr => f.infBits neg
          | .rz | .ro => largest
          | .ru => if neg then largest else f.infBits neg
          | .rd => if neg then f.infBits neg else largest))

/-- R172, R81: sums, products and multiply-adds of finite values are exact and raise nothing; an exact zero sum of opposite
signs is +0, and −0 toward −∞; ∞ − ∞ and 0 × ∞ are NaN with IV, in a multiply-add even beside a quiet NaN; a signalling NaN raises IV. -/
def Obligations.ExactArithmetic : Prop :=
  ∀ (rnd : Rnd) (a b c : FV),
    (a.finite = true → b.finite = true →
      ((FV.add rnd a b).1.finite = true ∧ (FV.add rnd a b).1.rat = a.rat + b.rat ∧ (FV.add rnd a b).2 = 0) ∧
      ((FV.mul a b).1.finite = true ∧ (FV.mul a b).1.rat = a.rat * b.rat ∧ (FV.mul a b).2 = 0 ∧
        (FV.mul a b).1.neg? = (a.neg? != b.neg?)) ∧
      (a.rat + b.rat = 0 → a.neg? ≠ b.neg? → (FV.add rnd a b).1.neg? = decide (rnd = .rd)) ∧
      (c.finite = true → (FV.fma rnd a b c).1.finite = true ∧ (FV.fma rnd a b c).1.rat = a.rat * b.rat + c.rat ∧
        (FV.fma rnd a b c).2 = 0)) ∧
    (∀ n, (FV.add rnd (.inf n) (.inf !n)) = (.nan false, flIV) ∧ FV.add rnd (.inf n) (.inf n) = (.inf n, 0)) ∧
    (∀ n, a.finite = true → FV.mul (.inf n) a = if a.isZero then (.nan false, flIV) else (.inf (n != a.neg?), 0)) ∧
    ((a.isNan || b.isNan) = true →
      FV.add rnd a b = (.nan false, if a.isSig || b.isSig then flIV else 0) ∧
      FV.mul a b = (.nan false, if a.isSig || b.isSig then flIV else 0)) ∧
    (a.finite = true → b.finite = true → c.finite = true → a.rat * b.rat + c.rat = 0 → (a.neg? != b.neg?) ≠ c.neg? →
      (FV.fma rnd a b c).1.neg? = decide (rnd = .rd)) ∧
    (let invalid := (a.isInf && b.isZero) || (a.isZero && b.isInf)
     let sig := a.isSig || b.isSig || c.isSig
     let neg := a.neg? != b.neg?
     if a.isNan || b.isNan || c.isNan then FV.fma rnd a b c = (.nan false, if invalid || sig then flIV else 0)
     else if invalid then FV.fma rnd a b c = (.nan false, flIV)
     else if a.isInf || b.isInf then FV.fma rnd a b c = if c.isInf && c.neg? != neg then (.nan false, flIV) else (.inf neg, 0)
     else c.isInf = true → FV.fma rnd a b c = (c, 0))

/-- R172, R171, R80: the FP32 and FP64 sums, products and multiply-adds write their exact result rounded once to the format;
the flags of the rounding and of the special cases are sticky in SR_FPF. -/
def Obligations.FloatArithmetic : Prop :=
  (∀ f : FormA, let g := f.ty.wide; let fm := f.ty.fmt
    let two := fun (i : Instr) (val : FV → FV → FV × Nat) => i.wf = true →
      CompletesA i f g g g (fun _ _ a b => fm.opRes f.rnd 0 f.ftz (val (fm.read f.ftz a) (fm.read f.ftz b)))
    two (.fadd f) (FV.add f.rnd) ∧ two (.fmul f) FV.mul ∧ two (.dadd f) (FV.add f.rnd) ∧ two (.dmul f) FV.mul) ∧
  (∀ f : FormA3, let g := f.ty.wide; let fm := f.ty.fmt
    let three := fun (i : Instr) => i.wf = true → CompletesA3 i f g g g g (fun _ _ a b c =>
      fm.opRes f.rnd 0 f.ftz (FV.fma f.rnd (fm.read f.ftz a) (fm.read f.ftz b) (fm.read f.ftz c)))
    three (.ffma f) ∧ three (.dfma f))

/-- R173, R174: minimum and maximum write one of their sources (−0 lies below +0, a NaN gives way to a number), and FRND the
integral value in the direction named; a signalling NaN raises IV and nothing else is raised. FSCL writes A × 2^n, rounded once
to nearest even, for every signed 32-bit n. -/
def Obligations.FloatSelectAndScale : Prop :=
  (∀ f : FormA, let g := f.ty.wide; let fm := f.ty.fmt
      let enc := fun a : Nat => if (fm.read f.ftz a).isZero then fm.signBit (fm.read f.ftz a).neg? else a % 2 ^ fm.width
      let below := fun (x y : FV) => x.lt y || (x.isZero && y.isZero && x.neg? && !y.neg?)
      let pick := fun (less : FV → FV → Bool) (a b : Nat) =>
        let x := fm.read f.ftz a
        let y := fm.read f.ftz b
        { bits := if x.isNan && y.isNan then fm.nan else if x.isNan then enc b else if y.isNan then enc a
            else if less y x then enc b else enc a
          flags := if x.isSig || y.isSig then flIV else 0 : FRes }
      let two := fun (i : Instr) (less : FV → FV → Bool) => i.wf = true → CompletesA i f g g g (fun _ _ a b => pick less a b)
      two (.fmin f) below ∧ two (.fmax f) (fun x y => below y x) ∧ two (.dmin f) below ∧ two (.dmax f) (fun x y => below y x) ∧
      (∀ dir : FrndDir, (Instr.frnd f dir).wf = true → CompletesA (.frnd f dir) f g g false (fun _ _ a _ =>
        match fm.read f.ftz a with
        | .nan sig => { bits := fm.nan, flags := if sig then flIV else 0 }
        | .inf n => { bits := fm.infBits n }
        | .num n m e =>
          let lo : Nat := if e < 0 then m / 2 ^ (-e).toNat else m * 2 ^ e.toNat
          let rest : Nat := if e < 0 then m % 2 ^ (-e).toNat else 0
          let one : Nat := if e < 0 then 2 ^ (-e).toNat else 1
          let up := match dir with
            | .near => decide (2 * rest > one) || (decide (2 * rest = one) && lo % 2 == 1)
            | .trunc => false
            | .ceil => !n && rest != 0
            | .floor => n && rest != 0
          { bits := (fm.finish .rn 0 false (.num n (if up then lo + 1 else lo) 0)).bits }))) ∧
  (∀ (f : FormA) (s : State) (w : Warp) (front : Mask), let g := f.ty.wide; let fm := f.ty.fmt; let i := Instr.fscl f
      i.wf = true → s.Acts w front →
      let c := s.at_ w front i
      let sem := fun l =>
        let x := fm.read f.ftz (c.rd f.srcs 0 g l)
        fm.opRes .rn 0 f.ftz (x.scale (BitVec.ofNat 32 (c.rdB f.srcs 1 f.b .i32 false l)).toInt, if x.isSig then flIV else 0)
      c.Fits (f.room g g false) → c.Pops f.srcs → c.Quiet (c.flags f.d sem) →
      ∃ x, c.Left x i ∧ c.Does x f.d g f.srcs sem)

/-- R175, R176: the compares, in which −0 equals +0 and a NaN satisfies the unordered conditions only, and the classes of
Table 13.2. -/
def Obligations.FloatCompares : Prop :=
  ∀ f : FormP, let g := f.ty.wide; let fm := f.ty.fmt
    let cmp := fun (i : Instr) => i.wf = true → CompletesP i f g g (fun _ _ a b =>
      let x := fm.read f.ftz a
      let y := fm.read f.ftz b
      let un := x.isNan || y.isNan
      let lt := x.lt y
      let gt := y.lt x
      let eq := !un && !lt && !gt
      (match f.cond with
        | .eq => eq | .ne => lt || gt | .lt => lt | .le => lt || eq | .gt => gt | .ge => gt || eq
        | .num => !un | .nan => un
        | .ltu => un || lt | .leu => un || lt || eq | .gtu => un || gt | .geu => un || gt || eq | .equ => un || eq
        | .neu => un || lt || gt, if x.isSig || y.isSig then flIV else 0))
    cmp (.fcmp f) ∧ cmp (.dcmp f) ∧
    (∀ (s : State) (w : Warp) (front : Mask), let i := Instr.fclass f
      i.wf = true → s.Acts w front →
      let c := s.at_ w front i
      let kind := fun l =>
        let a := c.rd f.srcs 0 g l
        (match fm.read f.ftz a with
        | .nan sig => if sig then 0 else 1
        | .inf n => if n then 2 else 9
        | .num n m _ => if m = 0 then (if n then 5 else 6) else if fm.isSub a then (if n then 4 else 7) else (if n then 3 else 8) : Nat)
      c.Fits (max (f.a.need (regsOf g)) (f.b.need 1)) → c.Pops f.srcs →
      ∃ x, c.Left x i ∧ SameRegs w x [] ∧ c.Popped x f.srcs ∧ SameFlights w x ∧ SameSpecial w x ∧
        c.Threads x (fun l t => if c.active.has l then
          t.setPred f.d (f.comb.apply ((c.rdB f.srcs 1 f.b .u32 false l).testBit (kind l)) (c.pred l f.cp != f.cneg)) else t))

/-- R177, R89: the packed forms compute both elements, each rounded once with its own draw (R90); under .SR the warp's
generator advances once. -/
def Obligations.PackedFloat : Prop :=
  let part := fun (x e : Nat) => x / 2 ^ (16 * e) % 2 ^ 16
  let both := fun (c : Ctx) (fm : Fmt) (rnd : Rnd) (l : Nat) (exact : Nat → FV × Nat) =>
    let r := fun e => fm.opRes rnd (srDraw (srStep c.w.srstate).hi l e) false (exact e)
    { bits := (r 0).bits + 2 ^ 16 * (r 1).bits, flags := (r 0).flags ||| (r 1).flags : FRes }
  let state := fun (w : Warp) (rnd : Rnd) => if rnd = .sr then srStep w.srstate else w.srstate
  (∀ (f : FormA) (s : State) (w : Warp) (front : Mask), let fm := f.ty.fmt
    let two := fun (i : Instr) (val : FV → FV → FV × Nat) =>
      i.wf = true → s.Acts w front →
      let c := s.at_ w front i
      let sem := fun l => both c fm f.rnd l (fun e =>
        val (fm.decode (part (c.rd f.srcs 0 false l) e)) (fm.decode (part (c.rdB f.srcs 1 f.b f.ty false l) e)))
      c.Fits (f.room false false false) → c.Pops f.srcs → c.Quiet (c.flags f.d sem) →
      ∃ x, c.Left x i ∧ c.Does { x with srstate := w.srstate } f.d false f.srcs sem ∧ x.srstate = state w f.rnd
    two (.duoadd f) (FV.add f.rnd) ∧ two (.duomul f) FV.mul) ∧
  (∀ (f : FormA3) (s : State) (w : Warp) (front : Mask), let fm := f.ty.fmt; let i := Instr.duofma f
    i.wf = true → s.Acts w front →
    let c := s.at_ w front i
    let sem := fun l => both c fm f.rnd l (fun e => FV.fma f.rnd (fm.decode (part (c.rd f.srcs 0 false l) e))
      (fm.decode (part (c.rdB f.srcs 1 f.b f.ty false l) e)) (fm.decode (part (c.rd f.srcs 2 false l) e)))
    c.Fits (f.room false false false false) → c.Pops f.srcs → c.Quiet (c.flags f.d sem) →
    ∃ x, c.Left x i ∧ c.Does { x with srstate := w.srstate } f.d false f.srcs sem ∧ x.srstate = state w f.rnd)

/-- R178: division and square root. A quotient of finite nonzero values that does not overflow is rounded once (R84); a square
root toward zero is the largest value whose square is not greater. -/
def Obligations.QuotientsAndRoots : Prop :=
  ∀ f ∈ [fmt32, fmt64], ∀ (rnd : Rnd) (a b : Nat), rnd ≠ .sr → a < 2 ^ f.width → b < 2 ^ f.width →
    let x := f.decode a
    let y := f.decode b
    let q := f.div rnd false x y
    let r := f.sqrt rnd false x
    (x.finite = true → y.finite = true → x.isZero = false → y.isZero = false → q.flags &&& flOF = 0 →
      Rounded f rnd (x.rat / y.rat) q.bits ∧ (q.flags &&& flNX = 0 ↔ (f.decode q.bits).rat = x.rat / y.rat)) ∧
    (x.finite = true → x.isZero = false → y.isZero = true → q = { bits := f.infBits (x.neg? != y.neg?), flags := flDZ }) ∧
    ((x.isZero && y.isZero || x.isInf && y.isInf) = true → q = { bits := f.nan, flags := flIV }) ∧
    (x.finite = true → y.isInf = true → q = { bits := f.signBit (x.neg? != y.neg?) }) ∧
    (x.isZero = true → r = { bits := f.signBit x.neg? }) ∧
    (x.finite = true → x.isZero = false → x.neg? = true → r = { bits := f.nan, flags := flIV }) ∧
    (x.finite = true → x.isZero = false → x.neg? = false → rnd = .rz →
      (f.decode r.bits).finite = true ∧ (f.decode r.bits).neg? = false ∧ (f.decode r.bits).rat * (f.decode r.bits).rat ≤ x.rat ∧
      ∀ u, u < 2 ^ f.width → (f.decode u).finite = true → (f.decode u).neg? = false →
        (f.decode u).rat * (f.decode u).rat ≤ x.rat → (f.decode u).rat ≤ (f.decode r.bits).rat)

/-- R178–R180, R106: the divide, square-root and special-function forms start a flight that will write the result of each
active lane, and raise its flags. The latencies are those of Tables 13.3 and 24.5 for a form of another kind that uses the result (log 5).
R180, Table 13.4: the special functions of NaN, the infinities, the zeros and negative sources; 1/a is rounded once; and where 2^a, log2 a
and 1/√a are powers of two or integers, the result is that number and raises nothing. -/
def Obligations.DivideAndSpecialForms : Prop :=
  (∀ (ftz : Bool) (x : FV), let sp := fun k => special k ftz x; let nan := fun fl => { bits := fmt32.nan, flags := fl : FRes }
    (x.isNan = true → ∀ k, sp k = nan (if x.isSig then flIV else 0)) ∧
    (x.isInf = true → sp .rcp = { bits := fmt32.signBit x.neg? } ∧ sp .sin = nan flIV ∧ sp .cos = nan flIV ∧
      sp .tanh = { bits := fmt32.signBit x.neg? + 0x3F800000 } ∧
      (x.neg? = false → sp .rsq = { bits := 0 } ∧ sp .log2 = { bits := fmt32.infBits false } ∧ sp .exp2 = { bits := fmt32.infBits false }) ∧
      (x.neg? = true → sp .exp2 = { bits := 0 })) ∧
    (x.isNan = false → x.isZero = false → x.neg? = true → sp .rsq = nan flIV ∧ sp .log2 = nan flIV) ∧
    (x.isZero = true → sp .rcp = { bits := fmt32.infBits x.neg?, flags := flDZ } ∧ sp .rsq = { bits := fmt32.infBits x.neg?, flags := flDZ } ∧
      sp .log2 = { bits := fmt32.infBits true, flags := flDZ } ∧ sp .exp2 = { bits := 0x3F800000 } ∧ sp .cos = { bits := 0x3F800000 } ∧
      sp .sin = { bits := fmt32.signBit x.neg? } ∧ sp .tanh = { bits := fmt32.signBit x.neg? }) ∧
    (x.finite = true → x.isZero = false → ftz = false → (sp .rcp).flags &&& flOF = 0 →
      Rounded fmt32 .rn (1 / x.rat) (sp .rcp).bits ∧ ((sp .rcp).flags &&& flNX = 0 ↔ (fmt32.decode (sp .rcp).bits).rat = 1 / x.rat)) ∧
    (∀ k : Int, x.finite = true →
      (x.rat = (k : Rat) → -126 ≤ k → k ≤ 127 → x.isZero = false → sp .exp2 = { bits := (k + 127).toNat * 2 ^ 23 }) ∧
      (x.rat = (2 : Rat) ^ k → -149 ≤ k → k ≤ 127 → (fmt32.decode (sp .log2).bits).rat = (k : Rat) ∧ (sp .log2).flags = 0 ∧
        (k = 0 → (sp .log2).bits = 0)) ∧
      (x.rat = (2 : Rat) ^ (2 * k) → -74 ≤ k → k ≤ 63 → sp .rsq = { bits := (127 - k).toNat * 2 ^ 23 }))) ∧
  ∀ f : FormB, let g := f.ty.wide; let fm := f.ty.fmt
    let div := fun (i : Instr) (lat : Nat) => i.wf = true → CompletesB i f g g g (fun _ => lat)
      (fun _ _ a b => fm.div f.rnd f.ftz (fm.read f.ftz a) (fm.read f.ftz b))
    let root := fun (i : Instr) (lat : Nat) => i.wf = true → CompletesB i f g g false (fun _ => lat)
      (fun _ _ a _ => fm.sqrt f.rnd f.ftz (fm.read f.ftz a))
    let fn := fun (i : Instr) (k : SpecialFn) => i.wf = true →
      CompletesB i f false false false (fun c => 12 + (c.active.lanes.length + 7) / 8)
        (fun _ _ a _ => special k f.ftz (fmt32.read f.ftz a))
    div (.fdiv f) 14 ∧ root (.fsqrt f) 14 ∧ div (.ddiv f) 28 ∧ root (.dsqrt f) 28 ∧
    fn (.rcp f) .rcp ∧ fn (.rsq f) .rsq ∧ fn (.exp2 f) .exp2 ∧ fn (.log2 f) .log2 ∧ fn (.sin f) .sin ∧ fn (.cos f) .cos ∧
    fn (.tanh f) .tanh

/-! ## Memory forms (R166–R169, R246–R253, R291, R297, R303, R304) -/

/-- R166, R167: the address of an element, the data of a store, and what an element of a thread's own space is checked for:
alignment first, then the allocation, then the Latch table. A space may stand in pieces (R57–R59, log 16): its range's parts hold its bytes in
order. -/
def Obligations.AddressesAndChecks : Prop :=
  (∀ (x : Machine.Space) (o n i : Nat), i < n → ((x.parts o n).flatMap (fun p => (List.range p.2).map (p.1 + ·)))[i]? = some (x.at_ (o + i))) ∧
  ∀ (c : Ctx) (a : Opnd) (off : Off) (l : Nat),
    let k := match off with
      | .imm10 b => b.signExtend 64
      | .imm32 b => b.signExtend 64
    c.address .global a off l = (BitVec.ofNat 64 (c.rd [a] 0 true l) + k).toNat ∧
    (∀ sp, sp ≠ .global → c.address sp a off l = (BitVec.ofNat 32 (c.rd [a] 0 false l) + k.setWidth 32).toNat) ∧
    (∀ (ty : NumTy) (n i : Nat), c.storeData a (.v n) ty l i = c.rd [.v (n + (if ty.wide then 2 else 1) * i)] 0 ty.wide l ∧
      c.storeData a (.w n) ty l i = c.rd [.w (n + (if ty.wide then 2 else 1) * i)] 0 ty.wide l) ∧
    (∀ (sp : Where) (acc : Acc) (addr n align : Nat), addr % align ≠ 0 →
      c.s.check c.w sp acc l addr n align = .cause .misaligned none) ∧
    (∀ (acc : Acc) (addr n align : Nat), addr % align = 0 →
      let space := fun (sp : Where) (x : Machine.Space) (size : Nat) => x.size = size ∧ c.s.check c.w sp acc l addr n align =
        if size < addr + n then .cause .accessViolation none
        else if c.s.latchedScr c.w.core (x.parts addr n) then .cause .latchConflict none else .ok (x.at_ addr)
      space .scratch (c.s.scratchOf c.w) (c.s.kernOf c.w).scratch ∧
      space .slice (c.s.laneBytesOf c.w l) (c.s.kernOf c.w).lanebytes ∧
      (∀ g, c.s.span? (c.s.teamOf c.w).span = some g →
        (g.space (c.s.kernOf c.w)).base = clusterBase + g.cluster * 2 ^ 24 ∧ space .window (g.space (c.s.kernOf c.w)) (c.s.kernOf c.w).clusterspan) ∧
      (2 ^ 56 ≤ addr → c.s.check c.w .global acc l addr n align = .cause .accessViolation none))

/-- R168, R297: a load of the global, team, span-group or lane space issues the loads of its elements' bytes and starts a
flight; it completes at its issue only when no lane is left to do. Under NOL1 they leave nothing in the L1 (R276).
R166: LDW loads once for the front, from its lowest active lane's address; PREF changes nothing. -/
def Obligations.LoadsAndPrefetch : Prop :=
  (∀ (f : FormM) (hint : Hint) (cnt : Nat) (s : State) (w : Warp) (front : Mask) (loc : Nat → Nat),
      let load := fun (i : Instr) (sp : Where) (lat cc : Nat) (nol1 : Bool) =>
        i.wf = true → s.Acts w front →
        let c := s.at_ w front i
        let n := f.ty.bytes * cnt
        c.Fits (max (f.d.need (regsOf f.ty.wide * cnt)) (f.a.need (regsOf (sp == .global)))) → c.Pops [f.a] →
        (sp = .global → s.watched w = false) →
        c.Passed (fun l => s.check w sp .rd l (c.address sp f.a f.off l) n n) loc →
        ∃ t x, exec i s = .next t ∧ t.warp? s.cur = some x ∧ c.OnlyTraffic t ∧ t.entries = s.entries ∧
          t.loads = s.loads ++ c.loadsOf c.todo loc n .core false nol1 ∧
          c.Performed x [f.a] (if c.todo = [] then none
            else some (fun g => c.Starts g f.la lat (.load (c.itemsOf c.todo (fun _ => 0) f.d f.ty cnt)) [] [] 0 cc))
      load (.ld f hint cnt) .global 32 0 (hint == .nol1) ∧ load (.lds f cnt) .scratch 24 0 false ∧
      load (.ldc f cnt) .window 8 32 false ∧ load (.ldl f cnt) .slice 6 0 false) ∧
  (∀ (f : FormM) (hint : Hint) (cnt : Nat) (l2 : Bool) (s : State) (w : Warp) (front : Mask) (loc : Nat),
      (let i := Instr.ldw f hint cnt;
        i.wf = true → s.Acts w front →
        let c := s.at_ w front i
        let n := f.ty.bytes * cnt
        s.watched w = false →
        (∀ l, c.active.lowest = some l → s.check w .global .rd l (c.address .global f.a f.off l) n n = .ok loc) →
        ∃ t x, exec i s = .next t ∧ t.warp? s.cur = some x ∧ c.OnlyTraffic t ∧ t.entries = s.entries ∧
          t.loads = s.loads ++ c.loadsOf c.active.lowest.toList (fun _ => loc) n .core false (hint == .nol1) ∧
          if c.active = 0 then c.Passes x []
          else c.Flies x [] f.la 32 (.load (c.itemsOf c.active.lowest.toList (fun _ => 0) f.d f.ty cnt)) [] []) ∧
      (let i := Instr.pref f l2;
        i.wf = true → s.Acts w front →
        (s.at_ w front i).Fits (f.a.need 2) →
        ∃ x, (s.at_ w front i).Left x i ∧ (s.at_ w front i).Passes x []))

/-- R166, R169, R295: a store puts one write entry for each element into its lane's queue (of lanes that name one address,
the highest one's only); memory itself is as it was. STRL's entry is a release of its scope (R247). That the entry names the lower lanes'
bytes beside its own, so that these keep their own accesses in order, is how the model keeps R169 (log 98). -/
def Obligations.Stores : Prop :=
  ∀ (f : FormM) (hint : Hint) (cnt : Nat) (scope : Scope) (s : State) (w : Warp) (front : Mask) (loc : Nat → Nat),
    let store := fun (i : Instr) (sp : Where) (kind : EKind) (rel : Option Scope) (sc : Scope) (cnt : Nat) =>
      i.wf = true → s.Acts w front →
      let c := s.at_ w front i
      let e := f.ty.bytes
      c.Fits (max (f.d.need (regsOf f.ty.wide * cnt)) (f.a.need (regsOf (sp == .global)))) → c.Pops [f.a, f.d] →
      (sp = .global → s.watched w = false) →
      c.Passed (fun l => s.check w sp .wr l (c.address sp f.a f.off l) (e * cnt) (e * cnt)) loc →
      let writers := c.todo.filter (fun l => !c.todo.any (fun k => loc k == loc l && decide (l < k)))
      ∃ t x, exec i s = .next t ∧ t.warp? s.cur = some x ∧ c.OnlyTraffic t ∧ t.loads = s.loads ∧
        t.entries = s.entries ++ writers.zipIdx.flatMap (fun l => (List.range cnt).map (fun k =>
          { id := s.nextId + cnt * l.2 + k, place := .tsq s.cur l.1, kind := kind, loc := loc l.1 + e * k, len := e
            val := c.storeData f.a f.d f.ty l.1 k % 256 ^ e, scope := sc, warp := s.cur, lane := l.1, core := w.core
            order := w.order, rel := rel
            also := (c.todo.filter (fun j => loc j == loc l.1 && decide (j < l.1))).flatMap (fun j =>
              (List.range e).map (fun b => (j, loc l.1 + e * k + b))) : Entry })) ∧
        c.Performed x [f.a, f.d] none
    store (.st f hint cnt) .global .write none .core cnt ∧ store (.sts f cnt) .scratch .write none .core cnt ∧
    store (.stc f cnt) .window .write none .core cnt ∧ store (.stl f cnt) .slice .write none .core cnt ∧
    store (.strl f scope) .global .relWrite (some scope) scope 1

/-- R247, R246, R301: LDA and ACQR load as an acquire of their scope; in a deterministic grid a scope wider than CORE traps DET_VIOLATION,
with no effect, for the active lanes that SR_DONE does not mark (log 65). R248, R303: FENCE puts a marker of each active lane into its
queue, and waits for them as a flight. -/
def Obligations.AcquiringLoadsAndFences : Prop :=
  (∀ (f : FormM) (scope : Scope) (s : State) (w : Warp) (front : Mask) (loc : Nat → Nat),
      let acq := fun (i : Instr) (la : Nat) =>
        i.wf = true → s.Acts w front →
        let c := s.at_ w front i
        let n := f.ty.bytes
        let va := fun l => c.address .global f.a f.off l
        c.Fits (max (f.d.need (regsOf f.ty.wide)) (f.a.need 2)) →
        (((s.gridOf w).launch.det = false ∨ scope = .core ∨ c.active &&& ~~~w.done = 0) →
          c.Passed (fun l => s.check w .global .rd l (va l) n n) loc →
          ∃ t x, exec i s = .next t ∧ t.warp? s.cur = some x ∧ c.OnlyTraffic t ∧ t.entries = s.entries ∧
            t.loads = s.loads ++ c.loadsOf c.todo loc n scope true ∧
            c.Performed x [] (if c.todo = [] then none
              else some (fun g => c.Starts g la 32 (.acquire scope (c.itemsOf c.todo va f.d f.ty 1)) [] []))) ∧
        ((s.gridOf w).launch.det = true → scope ≠ .core → c.active &&& ~~~w.done ≠ 0 →
          exec i s = .next (c.settle (.trap s .detViolation (c.active &&& ~~~w.done))))
      acq (.lda f scope) f.la ∧ acq (.acqr f scope) 0) ∧
  (∀ (h : Hdr) (scope : Scope) (s : State) (w : Warp) (front : Mask), let i := Instr.fence h scope
      i.wf = true → s.Acts w front →
      let c := s.at_ w front i
      ∃ t x, exec i s = .next t ∧ t.warp? s.cur = some x ∧ c.OnlyTraffic t ∧ t.loads = s.loads ∧
        t.entries = s.entries ++ c.active.lanes.zipIdx.map (fun l =>
          { id := s.nextId + l.2, place := .tsq s.cur l.1, kind := .fenceMarker, scope := scope, warp := s.cur, lane := l.1
            core := w.core, order := w.order : Entry }) ∧
        SameRegs w x [] ∧ SameSpecial w x ∧ c.Threads x (fun _ t => t) ∧
        if c.active = 0 then SameFlights w x
        else ∃ fs g, x.flights = fs ++ [g] ∧ fs.map (·.id) = w.flights.map (·.id) ∧
          { c with s := { s with nextId := s.nextId + c.active.lanes.length } }.Starts g 0 1 (.fence scope) [] [])

/-- R250–R253, R304: an atomic puts one entry of each lane to do into its queue, lanes that name one address forming a group
under the lowest one's number; ATOM and ATOMC start a flight for the old values, RED does not. A deterministic grid performs
floating-point .COM and .QNT as .UNP (R246); that a scope wider than CORE completes there when every active lane is already performed is
the model's choice (log 65).
R306: what a branch performs ahead of a .SPEC atomic enters the queues of its lanes in the same way, with the sources as they stand;
a lane that then reaches the atomic writes the value that came back, and performs nothing again. Which lanes perform ahead is the model's
choice (log 41). -/
def Obligations.Atomics : Prop :=
  -- R306: performed ahead, and what the lane then does at the instruction
  (∀ (c : Ctx) (u : State) (pc : Nat × Nat) (b : SpecAtomic) (chosen goes : Nat → Bool) (loc : Nat → Nat) (x : Warp),
    b.form.use = .spec → c.s.watched c.w = false → u.watched c.w = false → u.warp? c.wid = some x →
    let f := b.form
    let n := f.ty.bytes
    let ls := c.front.lanes.filter (fun l => chosen l && (c.pred l f.hdr.p != f.hdr.neg))
    (∀ l ∈ ls, c.s.check c.w .global (.at (b.op = none ∨ b.op = some .add)) l (c.address .global f.a (.imm32 (f.off.getD 0)) l) n n = .ok (loc l)) →
    let v := c.performAhead u pc b chosen goes
    v.mem = u.mem ∧ v.loads = u.loads ∧
    v.entries = u.entries ++ ls.zipIdx.map (fun l =>
      let g := u.nextId + 1 + (ls.findIdx? (fun k => loc k == loc l.1)).getD l.2
      { id := u.nextId + 1 + l.2, place := .tsq c.wid l.1
        kind := .atomic g g (match b.op with
          | some o => .op o f.ty
          | none => .cas f.ty (c.rd [f.b, b.cmp] 1 f.ty.wide l.1 % 256 ^ n)) .spec (some u.nextId)
        loc := loc l.1, len := n, val := c.rd [f.b, b.cmp] 0 f.ty.wide l.1 % 256 ^ n, scope := f.scope, warp := c.wid, lane := l.1
        core := c.w.core, order := c.w.order : Entry }) ∧
    v.warp? c.wid = some { x with early := x.early ++ (ls.filter goes).map (fun l => { lane := l, at_ := pc.1, rep := pc.2, level := c.w.level, id := u.nextId : Early }) }) ∧
  (∀ (f : FormAt) (op : AtomOp) (cmp : Opnd) (s : State) (w : Warp) (front : Mask) (val : Nat → Nat),
    let k := regsOf f.ty.wide
    let reached := fun (i : Instr) (os : List Opnd) (need : Nat) =>
      i.wf = true → s.Acts w front →
      let c := s.at_ w front i
      c.Fits need → c.Pops os → ((s.gridOf w).launch.det = false ∨ f.scope = .core) → c.todo ≠ [] →
      (∀ l ∈ c.todo, ∃ e, c.early l = some e ∧ e.old = some (val l)) →
      ∃ t x, exec i s = .next t ∧ t.warp? s.cur = some x ∧ t.mem = s.mem ∧ t.loads = s.loads ∧ t.entries.map (·.id) = s.entries.map (·.id) ∧
        c.Performed x os (some (fun g => c.Starts g f.la (atomLat f.scope []) (.atomic f.d f.ty)
          (c.todo.flatMap (fun l => regWrites f.d l f.ty.wide (val l))) [])) ∧
        ∀ e ∈ x.early, e ∈ w.early ∧ ∀ l ∈ c.todo, c.early l ≠ some e
    reached (.atom f op) [f.b] (max (f.d.need k) (max (f.a.need 2) (f.b.need k))) ∧
    reached (.atomc f cmp) [f.b, cmp] (max (max (f.d.need k) (cmp.need k)) (max (f.a.need 2) (f.b.need k)))) ∧
  ∀ (f : FormAt) (op : AtomOp) (cmp : Opnd) (s : State) (w : Warp) (front : Mask) (loc : Nat → Nat),
    let atomic := fun (i : Instr) (old peer : Bool) (os : List Opnd) (need : Nat) (fn : Ctx → Nat → AtomFn) =>
      i.wf = true → s.Acts w front →
      let c := s.at_ w front i
      let n := f.ty.bytes
      let off := Off.imm32 (f.off.getD 0)
      let use := if (s.gridOf w).launch.det = true ∧ f.ty.isFloat = true ∧ (f.use = .com ∨ f.use = .qnt) then Use.unp else f.use
      let first := if old then s.nextId + 1 else s.nextId
      c.Fits need → c.Pops os → s.watched w = false → w.early = [] →
      ((s.gridOf w).launch.det = false ∨ f.scope = .core ∨ c.active &&& ~~~w.done = 0) →
      c.Passed (fun l => s.check w .global (.at peer) l (c.address .global f.a off l) n n) loc →
      ∃ t x, exec i s = .next t ∧ t.warp? s.cur = some x ∧ c.OnlyTraffic t ∧ t.loads = s.loads ∧
        t.entries = s.entries ++ c.todo.zipIdx.map (fun l =>
          let g := first + (c.todo.findIdx? (fun k => loc k == loc l.1)).getD l.2
          { id := first + l.2, place := .tsq s.cur l.1, kind := .atomic g g (fn c l.1) use (if old then some s.nextId else none)
            loc := loc l.1, len := n, val := c.rd os 0 f.ty.wide l.1 % 256 ^ n, scope := f.scope, warp := s.cur
            lane := l.1, core := w.core, order := w.order : Entry }) ∧
        c.Performed x os (if c.todo = [] ∨ old = false then none
          else some (fun g => c.Starts g f.la (atomLat f.scope (c.todo.map loc)) (.atomic f.d f.ty) [] []
            (atomNs w.core f.scope (c.todo.map loc)) (atomCc f.scope (c.todo.map loc))))
    let k := regsOf f.ty.wide
    atomic (.atom f op) true (op == .add) [f.b] (max (f.d.need k) (max (f.a.need 2) (f.b.need k))) (fun _ _ => .op op f.ty) ∧
    atomic (.atomc f cmp) true true [f.b, cmp] (max (max (f.d.need k) (cmp.need k)) (max (f.a.need 2) (f.b.need k)))
      (fun c l => .cas f.ty (c.rd [f.b, cmp] 1 f.ty.wide l % 256 ^ f.ty.bytes)) ∧
    atomic (.red f op) false (op == .add) [f.b] (max (f.a.need 2) (f.b.need k)) (fun _ _ => .op op f.ty)

/-- R249, R251, R252: what an atomic leaves in memory and gives back. Integers wrap and compare by their type; INC and DEC
count round; a floating-point EXCH makes a NaN canonical (log 100: DEDUCED); a group's lanes apply in order, each seeing what the one before
left, and ATOMC's lanes compare in turn. -/
def Obligations.AtomicValues : Prop :=
  (∀ (t : NumTy) (m v : Nat), t ∈ ints → m < 2 ^ t.bits → v < 2 ^ t.bits →
    let a := BitVec.ofNat t.bits m
    let b := BitVec.ofNat t.bits v
    let le := if t.signed then a.sle b else a.ule b
    atomApply .add t m v = (a + b).toNat ∧ atomApply .min t m v = (if le then m else v) ∧
    atomApply .max t m v = (if le then v else m) ∧ atomApply .and t m v = (a &&& b).toNat ∧
    atomApply .or t m v = (a ||| b).toNat ∧ atomApply .xor t m v = (a ^^^ b).toNat ∧ atomApply .exch t m v = v ∧
    atomApply .inc t m v = (if m ≥ v then 0 else m + 1) ∧ atomApply .dec t m v = (if m = 0 ∨ m > v then v else m - 1)) ∧
  (∀ (t : NumTy) (m v : Nat), t.isFloat = true → v < 2 ^ t.bits →
    atomApply .exch t m v = if (t.fmt.decode v).isNan then t.fmt.nan else v) ∧
  (∀ (o : AtomOp) (t : NumTy) (m : Nat) (vs : List Nat) (k : Nat), k < vs.length →
    (oldValues o t m vs)[k]? = some ((vs.take k).foldl (atomApply o t) m)) ∧
  (∀ (o : AtomOp) (t : NumTy) (m : Nat) (vs : List Nat), (o ≠ .add ∨ t.isFloat = false) →
    groupValue o t m vs = vs.foldl (atomApply o t) m) ∧
  (∀ (t : NumTy) (m v : Nat) (vs : List Nat), t.isFloat = true →
    groupValue .add t m (v :: vs) = atomApply .add t m (vs.foldl (atomApply .add t) v)) ∧
  (∀ (m : Nat) (lanes : List (Nat × Nat)) (k : Nat), k < lanes.length →
    let seen := (lanes.take k).foldl (fun v e => if v = e.1 then e.2 else v) m
    (casRun m lanes).2[k]? = some seen ∧ (casRun m lanes).1 = lanes.foldl (fun v e => if v = e.1 then e.2 else v) m)

/-- R168, R144: when lanes to do hold a cause, the others are performed and their SR_DONE bits set, and the first cause of
R167's order traps for the lanes that hold it, to be replayed; no register changes. Here for the loads of a thread's own
spaces, which have no replayable fault. -/
def Obligations.LoadsTrap : Prop :=
  ∀ (f : FormM) (cnt : Nat) (s : State) (w : Warp) (front : Mask) (good : List (Nat × Nat)) (k : TrapCause) (bad : List Nat),
    let load := fun (i : Instr) (sp : Where) =>
      i.wf = true → s.Acts w front →
      let c := s.at_ w front i
      let n := f.ty.bytes * cnt
      let chk := fun l => s.check w sp .rd l (c.address sp f.a f.off l) n n
      c.Fits (max (f.d.need (regsOf f.ty.wide * cnt)) (f.a.need 1)) → c.Pops [f.a] →
      good = c.todo.filterMap (fun l => match chk l with | .ok p => some (l, p) | _ => none) →
      firstCause (c.todo.map (fun l => (l, chk l))) = some (k, bad) →
      ∃ t x, exec i s = .next (c.settle (.trap t k (Mask.ofList bad) .replay)) ∧ t.warp? s.cur = some x ∧
        t.mem = s.mem ∧ t.entries = s.entries ∧ SameRegs w x [] ∧ x.threads = w.threads ∧
        (∀ l, l < 32 → x.done.has l = (w.done.has l || (good.map (·.1)).contains l))
    load (.lds f cnt) .scratch ∧ load (.ldc f cnt) .window ∧ load (.ldl f cnt) .slice

/-! ## Conversion, the activation table and the generator (R85–R90, R181–R188) -/

/-- R88: under every mode but .SR, a conversion in two steps through FP32 writes the bits and raises the flags of one direct
rounding. -/
def Obligations.ChainIsDirect : Prop :=
  ∀ f ∈ [fmt16, fmtBf, fmtE5, fmtE4], ∀ (rnd : Rnd) (sat : Bool), rnd ≠ .sr →
    (∀ a, a < 2 ^ 64 → f.convertChain rnd 0 false sat 0 (fmt64.decode a) = f.convert rnd 0 false sat (fmt64.decode a)) ∧
    (∀ i : Int, -(2 ^ 63) ≤ i → i < 2 ^ 64 →
      f.convertChain rnd 0 false sat 0 (FV.ofInt i) = f.convert rnd 0 false sat (FV.ofInt i))

/-- R85, R86 (Table 5.8): integer results. From an integer, bits beyond the width are discarded, or under .SAT the nearest
bound is written, and no flag is raised; from a floating-point value out of range, an infinity or a NaN, the bound or 0 is
written and IV alone is raised; a value in range that is toward zero truncated raises NX when it is not integral. R186 (NX8):
the scale is the smallest of 0 to 254 under which the largest magnitude is at most 448, or 254.
R185–R187, R75, R89: CVT and CVTBLK start a flight that will write each active lane's result, extended to its register;
a block's lane receives its element's code with the block's scale and special. Under .SR the generator advances once, lanes
active or none; that it does so at the issue is the model's choice (log 50). -/
def Obligations.Conversions : Prop :=
  ((∀ (rt st : NumTy) (rnd : Rnd) (draw : Nat) (ftz : Bool) (b : Nat), rt.isFloat = false →
        (st.isFloat = false →
          cvtScalar rt st rnd draw false ftz b = { bits := (BitVec.ofInt rt.bits (st.toInt b)).toNat } ∧
          cvtScalar rt st rnd draw true ftz b = { bits := (BitVec.ofInt rt.bits (max rt.minInt (min rt.maxInt (st.toInt b)))).toNat }) ∧
        (st.isFloat = true → ∀ sat : Bool,
          let x := st.fmt.read (ftz && st == .f32) b
          let r := cvtScalar rt st rnd draw sat ftz b
          (x.isNan = true → r = { bits := 0, flags := flIV }) ∧
          (x.isInf = true → r = { bits := (BitVec.ofInt rt.bits (if x.neg? then rt.minInt else rt.maxInt)).toNat, flags := flIV }) ∧
          (x.finite = true → rnd = .rz → ∃ i : Int, magnitude (i : Rat) ≤ magnitude x.rat ∧ magnitude x.rat < magnitude (i : Rat) + 1 ∧
            (i = 0 ∨ (i < 0 ↔ x.neg? = true)) ∧
            r = if i < rt.minInt then { bits := (BitVec.ofInt rt.bits rt.minInt).toNat, flags := flIV }
                else if rt.maxInt < i then { bits := (BitVec.ofInt rt.bits rt.maxInt).toNat, flags := flIV }
                else { bits := (BitVec.ofInt rt.bits i).toNat, flags := if (i : Rat) = x.rat then 0 else flNX }))) ∧
    (∀ (top m : Nat) (e : Int),
        let s := nxScale top (m, e)
        let fits := fun k : Nat => (m : Rat) * (2 : Rat) ^ e ≤ (top : Rat) * (2 : Rat) ^ ((k : Int) - 127)
        s ≤ 254 ∧ (fits s ∨ s = 254) ∧ ∀ k, k < s → ¬ fits k)) ∧
  (∀ (f : FormB) (src : NumTy) (s : State) (w : Warp) (front : Mask),
      let form := fun (i : Instr) (wide : Bool) (lat : Nat) (sem : Ctx → Nat → FRes) =>
        i.wf = true → s.Acts w front →
        let c := s.at_ w front i
        c.Fits (max (f.d.need (regsOf wide)) (f.a.need (regsOf src.wide))) → c.Pops [f.a] →
        ∃ x, x.srstate = (if f.rnd = .sr then srStep w.srstate else w.srstate) ∧
          if c.active = 0 then c.Left x i ∧ c.Passes { x with srstate := w.srstate } [f.a]
          else c.Launched x i ∧ c.Flies { x with srstate := w.srstate } [f.a] (w.lookahead f.la) lat .plain
            (c.outputs f.d wide (sem c)) (c.raises (sem c))
      let draw := fun (l j : Nat) => srDraw (srStep w.srstate).hi l j
      form (.cvt f src) f.ty.wide 6 (fun c l =>
        let r := cvtScalar f.ty src f.rnd (draw l 0) f.sat f.ftz (c.rd [f.a] 0 src.wide l)
        { r with bits := if f.ty.wide then r.bits else f.ty.extend r.bits }) ∧
      form (.cvtblk f src) false 8 (fun c l =>
        let lanes := c.active.lanes
        let xs := lanes.map (fun k => src.fmt.read (f.ftz && src == .f32) (c.rd [f.a] 0 src.wide k))
        let block := if f.ty = .nx8 then nx8Block f.rnd f.sat (src == .f64) (lanes.map (fun k => draw k k)) xs
          else nx4Block f.rnd f.sat (src == .f64) (lanes.map (fun k => draw k k)) (fun k => draw (lanes.getD k 0) 32) xs;
        let r := (block.elems[lanes.idxOf l]?).getD default
        { bits := block.z % 256 * 2 ^ 16 + block.s % 256 * 2 ^ 8 + r.bits % 256, flags := r.flags }))

/-- R181, R184: LUTA evaluates the current bank's table, u := rn(rn(x − xlo) × inv), segment floor(u) held to 0 to 255, result rn(a × x +
b); a bank without the context's tag traps ILLEGAL_OPERAND for the active lanes. R182, R183: LUTLD, of an image inside the team's
allocation, whose 2,064 bytes it reads with plain loads, and LUTSYNC start flights that the core keeps in the order of issue; R188: SRSEED
sets the generator's state, never to 0, and .WARP mixes in where the warp stands in its grid. That ylo and yhi are read as sources, made
canonical, raise IV and fall under .FTZ (log 66), that the image is read by one load a byte (log 13), and that a LUTSYNC that waits for no
LUTLD swaps as the next clock begins (log 103), are the model's choices. -/
def Obligations.ActivationTableAndSeed : Prop :=
  (∀ (f : FormB) (s : State) (w : Warp) (front : Mask), let i := Instr.luta f
      i.wf = true → s.Acts w front →
      let c := s.at_ w front i
      let bank := (s.core w.core).current
      let word := fun k => fmt32.decode (bank.word k)
      let rn := fun (r : FV × Nat) => fmt32.decode (fmt32.finish .rn 0 false r.1).bits
      let sem := fun l =>
        let x := fmt32.read f.ftz (c.rd [f.a] 0 false l)
        (match x with
        | .nan sig => { bits := fmt32.nan, flags := if sig then flIV else 0 }
        | .inf n => let y := word (if n then 8 else 12); fmt32.opRes .rn 0 f.ftz (y, if y.isSig then flIV else 0)
        | .num _ _ _ =>
          let u := rn ((rn (x.add .rn (word 0).negate)).mul (word 4))
          let k := match u with
            | .nan _ => 0
            | .inf n => if n then 0 else 255
            | .num n m e => if n then 0 else min 255 (if 0 ≤ e then m * 2 ^ e.toNat else m / 2 ^ (-e).toNat)
          fmt32.opRes .rn 0 f.ftz (FV.fma .rn (word (16 + 8 * k)) x (word (20 + 8 * k))) : FRes)
      c.Fits (max (f.d.need 1) (f.a.need 1)) →
      ((c.active = 0 ∨ (bank.tag ≠ 0 ∧ bank.tag = s.ctxOf w)) → c.Pops [f.a] →
        ∃ x, if c.active = 0 then c.Left x i ∧ c.Passes x [f.a]
          else c.Launched x i ∧ c.Flies x [f.a] (w.lookahead f.la) (12 + (c.active.lanes.length + 7) / 8) .plain
            (c.outputs f.d false sem) (c.raises sem)) ∧
      (c.active ≠ 0 → (bank.tag = 0 ∨ bank.tag ≠ s.ctxOf w) →
        exec i s = .next (c.settle (.trap s .illegalOperand c.active)))) ∧
  (∀ (f : FormB) (s : State) (w : Warp) (front : Mask),
      let queued := fun (x : Warp) (i : Instr) (sync : Bool) (loads : List Load) =>
        exec i s = .next (({ s with nextId := s.nextId + 1 + loads.length, loads := s.loads ++ loads }.putWarp s.cur x).modCore w.core
          (fun k => { k with lutOrder := k.lutOrder ++ [(s.nextId, sync)] }))
      (let i := Instr.lutld f;
        i.wf = true → s.Acts w front →
        let c := s.at_ w front i
        c.Fits (max (f.a.need 1) (f.b.need 1)) → c.Pops f.srcs →
        ∀ (l : Nat), c.active.lowest = some l →
          let off := (c.rd f.srcs 0 false l + c.rdB f.srcs 1 f.b .u32 false l) % 2 ^ 32
          let parts := (s.scratchOf w).parts off 2064
          off % 16 = 0 → off + 2064 ≤ (s.kernOf w).scratch → s.latchedScr w.core parts = false →
          ∃ x, queued x i false ((parts.flatMap (fun p => (List.range p.2).map (p.1 + ·))).zipIdx.map (fun b =>
              { id := s.nextId + 1 + b.2, for_ := .warp s.cur s.nextId, warp := s.cur, lane := l, core := w.core, loc := b.1
                scope := .core, order := w.order : Load })) ∧
            c.Flies x f.srcs (w.lookahead f.la) 41 (.lutld ((List.range 2064).map (s.nextId + 1 + ·))) [] []) ∧
      (let i := Instr.lutsync f;
        i.wf = true → s.Acts w front →
        let c := s.at_ w front i
        ∃ x, if c.active = 0 then c.Left x i ∧ c.Passes x [] else queued x i true [] ∧ c.Flies x [] 0 1 .lutsync [] []) ∧
      (∀ warp : Bool, let i := Instr.srseed f warp
        i.wf = true → s.Acts w front →
        let c := s.at_ w front i
        c.Fits (f.a.need 2) → c.Pops [f.a] →
        ∃ x, c.Left x i ∧ c.Passes { x with srstate := w.srstate } [f.a] ∧
          x.srstate = match c.active.lowest with
            | none => w.srstate
            | some l =>
              let v := BitVec.ofNat 64 (c.rd [f.a] 0 true l) ^^^
                (if warp then BitVec.ofNat 64 ((s.teamOf w).index * 32 + w.num) * 0x9E3779B97F4A7C15#64 else 0)
              if v = 0 then 0x2545F4914F6CDD1D#64 else v))

/-! ## Control flow (R26–R35, R104, R127–R137) -/

/-- R27, R28, R130, R104: the five branches. Active lanes go to their target, the others to the next instruction; a branch
that names a join register writes the whole front to it (and the joins on it are evaluated, R34); a call leaves the address of
the next instruction in D; the part that holds the lowest lane stays current. A target that is no head word of the code
traps ILLEGAL_TARGET for the lanes that have it.
R306: after BRA and CALL come the .SPEC atomics that the device performs ahead on their two ways, a free choice (log 41). With
none there, and in a deterministic grid, nothing is performed ahead; and what is performed ahead adds entries of
the front's lanes and the records that they are found by, and touches no register, flag or byte of memory. A lane that branches
gives its earlier records of the code that it runs (the handler's, a routine's or the rest) up. -/
def Obligations.Branches : Prop :=
  (∀ (c : Ctx) (u : State) (link : Opnd) (t : Nat) (x : Warp), u.warp? c.wid = some x →
    let pc := (c.w.th (c.front.lowest.getD 0)).pc
    let v := c.ahead u link t
    (c.s.specsFrom c.w 16 16 [] t = [] → c.s.specsFrom c.w 16 16 [] (pc + c.len) = [] → v = u) ∧
    ((c.s.gridOf c.w).launch.det = true → v = u) ∧
    (c.s.watched c.w = false → u.watched c.w = false → v.mem = u.mem ∧ v.loads = u.loads ∧ (∀ k, k ≠ c.wid → v.warp? k = u.warp? k) ∧
      (∃ es, v.entries = u.entries ++ es ∧ ∀ e ∈ es, e.warp = c.wid ∧ e.lane ∈ c.front.lanes ∧ e.place = .tsq c.wid e.lane ∧
        e.order = c.w.order ∧ ∃ g fn id, e.kind = .atomic g g fn .spec (some id)) ∧
      ∃ ns, v.warp? c.wid = some { x with early := x.early ++ ns } ∧ ∀ r ∈ ns, r.lane ∈ c.front.lanes ∧ r.old = none)) ∧
  ∀ (h : Hdr) (d a : Opnd) (near : BitVec 20) (far : BitVec 30) (j : Option Nat) (s : State) (w : Warp) (front : Mask),
    let branch := fun (i : Instr) (link : Opnd) (need : Nat) (target : Ctx → Nat → Int) (direct : Bool) =>
      i.wf = true → s.Acts w front →
      let c := s.at_ w front i
      let pc := (w.th (front.lowest.getD 0)).pc
      let w' := (match j with
        | some k => (w.putJ k front).releaseJoins
        | none => w)
      c.Fits need →
      ((∀ l ∈ c.active.lanes, s.isHead w (target c l) = .ok true) →
        ∃ x, exec i s = .next (if direct then c.ahead (s.putWarp s.cur x) link (target c (front.lowest.getD 0)).toNat else s.putWarp s.cur x) ∧
          (∀ e, e ∈ x.early ↔ e ∈ w.early ∧ ¬ (front.has e.lane = true ∧ e.level = w.level)) ∧
          (∀ l ∈ c.lanes link, x.Holds link false l (pc + 8)) ∧ SameRegs w x (c.dests link 1) ∧
          (∀ k, x.getJ k = if j = some k then front else w.getJ k) ∧ SameSpecial { w with jregs := x.jregs } x ∧
          c.Popped x [] ∧ SameFlights w x ∧
          (∀ l, x.th l = if l ∈ front.lanes then
              (if c.active.has l then { w'.th l with pc := (target c l).toNat } else (w'.th l).next 8) else w'.th l) ∧
          (∀ low, front.lowest = some low → ∃ m, x.cur = some m ∧ ∀ l, l < 32 → (m.has l = true ↔ front.has l = true ∧
            c.active.has l = c.active.has low ∧ (c.active.has l = true → target c l = target c low)))) ∧
      ((∀ l ∈ c.active.lanes, ∃ b, s.isHead w (target c l) = .ok b) →
        (∃ l ∈ c.active.lanes, s.isHead w (target c l) = .ok false) →
        exec i s = .next (c.settle (.trap s .illegalTarget
          (Mask.ofList (c.active.lanes.filter (fun l => match s.isHead w (target c l) with | .ok b => !b | .error _ => false))))))
    let at_ := fun (c : Ctx) => ((c.w.th (c.front.lowest.getD 0)).pc : Int)
    branch (.bra h far j) .none 0 (fun c _ => at_ c + 8 * far.toInt) true ∧
    branch (.brx h a j) .none (a.need 1) (fun c l => (c.rd [a] 0 false l : Nat)) false ∧
    branch (.call h d near j) d (d.need 1) (fun c _ => at_ c + 8 * near.toInt) true ∧
    branch (.callx h d a j) d (max (d.need 1) (a.need 1)) (fun c l => (c.rd [a] 0 false l : Nat)) false ∧
    branch (.ret h a j) .none (a.need 1) (fun c l => (c.rd [a] 0 false l : Nat)) false

/-- R131, R34, R26, R30: NOP moves on; YIELD moves on and is a switch point with rotation (R31); JOIN waits at its address until
every living lane of Jk stands there, and then all that wait there leave for the next instruction; it is a switch point without.
R29, R31: at a switch point the front that holds the lowest READY lane at or above the rotation lane becomes current, and
the lowest of all where there is none; the rotation lane is then its lowest lane, and its quantum starts at 0. After YIELD or
a quantum switch the rotation lane is first one above the lowest lane of the front that leaves. While a save is due, the choice is made
once the fronts that stand at safe points have parked, in a deterministic grid, where none is parked, at once (R336). -/
def Obligations.NopYieldJoinAndFronts : Prop :=
  (∀ (h : Hdr) (k : Nat) (s : State) (w : Warp) (front : Mask), s.Acts w front →
      ((Instr.nop h).wf = true → ∃ x, exec (.nop h) s = .next (s.putWarp s.cur x) ∧ (s.at_ w front (.nop h)).Passes x [] ∧
        x.cur = w.cur ∧ x.rot = w.rot ∧ x.quantum = w.quantum + 1) ∧
      ((Instr.yield h).wf = true → ∃ x0, (s.at_ w front (.yield h)).Passes x0 [] ∧ x0.cur = w.cur ∧ x0.rot = w.rot ∧
        exec (.yield h) s = .next (s.putWarp s.cur (x0.reselect true))) ∧
      (∀ a : Nat, (Instr.join h k).wf = true → (∀ l ∈ front.lanes, (w.th l).pc = a ∧ (w.th l).st = .ready) →
        let here := fun l => l ∈ front.lanes ∨ ((w.th l).st = .join k ∧ (w.th l).pc = a)
        let waits := fun l => l ∈ front.lanes ∨ ((∃ n, (w.th l).st = .join n) ∧ (w.th l).pc = a)
        ∃ x0, exec (.join h k) s = .next (s.putWarp s.cur (x0.reselect false)) ∧ SameRegs w x0 [] ∧ SameSpecial w x0 ∧ SameFlights w x0 ∧
          x0.cur = w.cur ∧ x0.rot = w.rot ∧
          (∀ l, l < 32 → here l →
            ((∀ n, n < 32 → (w.getJ k).has n = true → (w.th n).st.gone = false → waits n) →
              x0.th l = { w.th l with st := .ready, pc := (a + 8) % 2 ^ 32 }) ∧
            (¬ (∀ n, n < 32 → (w.getJ k).has n = true → (w.th n).st.gone = false → waits n) →
              x0.th l = { w.th l with st := .join k })) ∧
          (∀ l, l < 32 → ¬ here l → (∀ n, (w.th l).st ≠ .join n) → x0.th l = w.th l))) ∧
  (∀ (w : Warp) (rotate : Bool),
      let y := w.reselect rotate
      let x := if w.saveDue = [] ∨ w.det = true then y else y.choose
      let p := if rotate then (match w.cur.bind Mask.lowest with | some l => l + 1 | none => w.rot) else w.rot
      let ready := fun l => l < 32 ∧ w.readyMask.has l = true
      ((∀ l, ¬ ready l) → x.cur = none ∧ x.rot = p) ∧
      (∀ l, ready l → ((p ≤ l ∧ ∀ k, ready k → p ≤ k → l ≤ k) ∨ ((∀ k, ready k → k < p) ∧ ∀ k, ready k → l ≤ k)) →
        ∃ f, x.cur = some f ∧ f.has l = true ∧ x.quantum = 0 ∧ f.lowest = some x.rot ∧
          (∀ k, k < 32 → (f.has k = true ↔ ready k ∧ (w.th k).pc = (w.th l).pc ∧ (w.th k).count = (w.th l).count))) ∧
      (w.saveDue ≠ [] → w.det = false → y.cur = none ∧ y.threads = w.threads) ∧ x.threads = w.threads ∧ SameRegs w x [] ∧ SameSpecial w x)

/-- R132, R133, R134, R300: EXIT ends the active lanes with a release at DEV, BAR and BARC stop the front at the barrier's
generation with a release at CORE or CLUS; then the barriers and, after EXIT, the Turnstile are looked at. BARC in a
deterministic grid traps DET_VIOLATION.
R133: a barrier that not every living thread of the team has reached (with its release at CORE complete) changes nothing; when
the last arrives, its generation moves on and every thread at it becomes READY at the next instruction. -/
def Obligations.ExitAndBarriers : Prop :=
  (∀ (h : Hdr) (b : Nat) (s : State) (w : Warp) (front : Mask), s.Acts w front → w.trap = none →
      let waits := fun (i : Instr) (m : Mask) (scope : Scope) (st : TState) (last : State → State) =>
        i.wf = true →
        let c := s.at_ w front i
        ∃ x, exec i s = .next (last ({ s with
            nextId := s.nextId + m.lanes.length
            entries := s.entries ++ m.lanes.zipIdx.map (fun (l : Nat × Nat) =>
              { id := s.nextId + l.2, place := .tsq s.cur l.1, kind := .relMarker, scope := scope, warp := s.cur, lane := l.1
                core := w.core, order := w.order : Entry }) }.putWarp s.cur x)) ∧
          SameRegs w x [] ∧ SameSpecial w x ∧ SameFlights w x ∧
          (∀ l ∈ front.lanes, x.th l = if m.has l then { w.th l with st := st } else (w.th l).next c.len) ∧
          (∀ l, l ∉ front.lanes → (∀ n, (w.th l).st ≠ .join n) → x.th l = w.th l)
      (let i := Instr.exit h;
        (∀ l ∈ front.lanes, (w.th l).st = .ready) →
        waits i (s.at_ w front i).active .dev .exited (fun t => (t.tryBars w.team).turnstile (s.teamOf w).grid)) ∧
      ((∀ l ∈ front.lanes, (w.th l).st = .ready) →
        waits (.bar h b) front .core (.bar b (Table.get 0 (s.teamOf w).bars b)) (fun t => t.tryBars w.team)) ∧
      ((∀ l ∈ front.lanes, (w.th l).st = .ready) → (s.gridOf w).launch.det = false →
        waits (.barc h) front .clus (.barc (match s.span? (s.teamOf w).span with | some g => g.gen | none => 0))
          (fun t => t.tryBars w.team)) ∧
      ((Instr.barc h).wf = true → (s.gridOf w).launch.det = true →
        exec (.barc h) s = .next ((s.at_ w front (.barc h)).settle (.trap s .detViolation (s.at_ w front (.barc h)).active)))) ∧
  (∀ (s : State) (tid b : Nat) (t : Team), s.team? tid = some t → b < 4 →
      let g := Table.get 0 t.bars b
      let arrived := ∀ k ∈ t.warps, s.allAt k .core (isBar b g) = true
      (¬ arrived → s.tryBar tid b = s) ∧
      (arrived → t.warps.Nodup → (∃ k ∈ t.warps, ∃ w l, s.warp? k = some w ∧ l < 32 ∧ (w.realTh l).st = .bar b g) →
        (∃ t', (s.tryBar tid b).team? tid = some t' ∧ Table.get 0 t'.bars b = (g + 1) % 2 ^ 16) ∧
        (s.tryBar tid b).mem = s.mem ∧ (s.tryBar tid b).entries = s.entries ∧
        ∀ k ∈ t.warps, ∀ w, s.warp? k = some w → w.resid = .resident → w.trap = none →
          ∃ x, (s.tryBar tid b).warp? k = some x ∧ SameRegs w x [] ∧
            ∀ l, l < 32 → (w.th l).st = .bar b g → x.th l = { w.th l with st := .ready, pc := ((w.th l).pc + 8) % 2 ^ 32 }))

/-- R138, R136: SLEEP stops each active lane with a nonzero count until the time stamp has gone so far; CWAIT stops each active
lane whose children (or child) have not retired, and is an acquire at DEV for those that go on. -/
def Obligations.SleepAndCwait : Prop :=
  ∀ (h : Hdr) (b : BArg) (a : Opnd) (s : State) (w : Warp) (front : Mask), s.Acts w front → w.trap = none →
    (∀ l ∈ front.lanes, (w.th l).st = .ready) →
    let after := fun (x : Warp) (len : Nat) (stop : Nat → Option TState) =>
      SameRegs w x [] ∧ SameSpecial w x ∧ SameFlights w x ∧
      (∀ l ∈ front.lanes, x.th l = match stop l with
        | some st => { w.th l with st := st }
        | none => (w.th l).next len) ∧
      (∀ l, l ∉ front.lanes → (∀ n, (w.th l).st ≠ .join n) → x.th l = w.th l)
    (let i := Instr.sleep h b;
      i.wf = true →
      let c := s.at_ w front i
      let ticks := fun l => c.rdB [b.src] 0 b .u32 false l % 2 ^ 32
      c.Fits (b.need 1) →
      ∃ x, c.Left x i ∧ after x c.len (fun l => if c.active.has l ∧ ticks l ≠ 0 then
        some (.sleep (s.mod.gts + ticks l) c.len) else none)) ∧
    (let i := Instr.cwait h a;
      i.wf = true →
      let c := s.at_ w front i
      let for_ := fun l => if a = .zero then (s.teamOf w).children
        else (s.gridOf w).children.filter (fun k => k % 2 ^ 32 == c.rd [a] 0 false l)
      c.Fits (a.need 1) →
      ∃ x, exec i s = .next ((if ∀ l ∈ c.active.lanes, for_ l ≠ [] then s else s.acquire w.core .dev).putWarp s.cur x) ∧
        after x c.len (fun l => if c.active.has l ∧ for_ l ≠ [] then some (.cwait (for_ l)) else none))

/-- R40, R135, R314: LAUNCH reads a record for each lane with plain loads, for which it waits, and puts it into the grid's child queue
under a new identifier, which D receives; in a grid of depth 10 it traps NEST_DEPTH with no other effect. While the queue has no room for
the records of all its lanes it waits, and none of them enters (log 94). -/
def Obligations.Launching : Prop :=
  ∀ (h : Hdr) (d a : Opnd) (s : State) (w : Warp) (front : Mask) (loc : Nat → Nat) (bytes : Nat → List Byte), let i := Instr.launch h d a
    i.wf = true → s.Acts w front →
    let c := s.at_ w front i
    let g := s.gridOf w
    let lanes := c.lanes d
    let addr := fun l => c.rd [a] 0 true l
    let first := s.mod.nextIdent
    c.Fits (max (d.need 1) (a.need 2)) → lanes ≠ [] →
    (g.depth = 10 → exec i s = .next (c.settle (.trap s .nestDepth c.active))) ∧
    (g.depth ≠ 10 → (∀ l ∈ lanes, s.checkRead w l (addr l) 128 = .ok (loc l)) → 64 < g.childq.length + lanes.length →
      exec i s = .next (c.settle (.wait .queueWait))) ∧
    (g.depth ≠ 10 → (∀ l ∈ lanes, s.checkRead w l (addr l) 128 = .ok (loc l)) →
      (∀ l ∈ lanes, s.recordBytes s.cur l w.order (loc l) 128 = some (bytes l)) → g.childq.length + lanes.length ≤ 64 → s.watched w = false →
      s.grid? (s.teamOf w).grid = some g → s.team? w.team = some (s.teamOf w) →
      ∃ t x, exec i s = .next t ∧ t.warp? s.cur = some x ∧ t.mem = s.mem ∧ t.mod.nextIdent = first + lanes.length ∧
        (∀ l k, lanes[k]? = some l → x.Holds d false l ((first + k) % 2 ^ 32)) ∧ SameRegs w x (c.dests d 1) ∧
        c.Threads x (fun _ t => t) ∧ SameSpecial w x ∧
        t.grid? (s.teamOf w).grid = some { g with
          childq := g.childq ++ lanes.zipIdx.map (fun e => (first + e.2,
            { launchOf (fun o n => leNat (((bytes e.1).drop o).take n)) (addr e.1) with device := true, by_ := (s.cur, e.1, w.order) }))
          children := g.children ++ (List.range lanes.length).map (first + ·) })

/-- R43, R137: with room in the cluster's Turnstile, REGROUP leaves each active lane's key and payload there and ends the lane
as DEPOSITED, with a release at DEV; the rest of the front goes on. A kernel without a continuation entry traps
ILLEGAL_OPERAND. -/
def Obligations.Regroup : Prop :=
  ∀ (h : Hdr) (a b : Opnd) (n : Nat) (s : State) (w : Warp) (front : Mask), let i := Instr.regroup h a b n
    i.wf = true → s.Acts w front → w.trap = none → w.resid = .resident → (∀ l ∈ front.lanes, (w.th l).st = .ready) →
    let c := s.at_ w front i
    let g := s.gridOf w
    let gid := (s.teamOf w).grid
    c.Fits (max (a.need 1) (b.need n)) → c.active ≠ 0 →
    (g.kern.hasCont = false → exec i s = .next (c.settle (.trap s .illegalOperand c.active))) ∧
    (g.kern.hasCont = true → s.grid? gid = some g → s.held (clusterOfCore w.core) + c.active.lanes.length ≤ 4096 →
      ∃ (t : State) (x : Warp), exec i s = .next ((t.tryBars w.team).turnstile gid) ∧ t.warp? s.cur = some x ∧ t.mem = s.mem ∧
        SameRegs w x [] ∧ SameSpecial w x ∧
        (∀ l ∈ front.lanes, x.th l = if c.active.has l then { w.th l with st := .deposited } else (w.th l).next 8) ∧
        t.entries = s.entries ++ c.active.lanes.zipIdx.map (fun (l : Nat × Nat) =>
          { id := s.nextId + l.2, place := .tsq s.cur l.1, kind := .relMarker, scope := .dev, warp := s.cur, lane := l.1
            core := w.core, order := w.order : Entry }) ∧
        t.grid? gid = some { g with deposits := g.deposits ++ c.active.lanes.map (fun l =>
          { key := c.rd [a] 0 false l % 2 ^ 16, team := (s.teamOf w).index, warp := w.num, lane := l
            payload := match b with | .v k => (List.range n).map (fun j => c.getV l (k + j)) | _ => []
            cluster := clusterOfCore w.core, wid := s.cur, order := w.order : Deposit }) })

/-! ## System forms (R67, R109–R111, R138–R147, R328–R335) -/

/-- R139, R146, R147, R376: TSTAMP writes the time stamp; SETPRIO sets the warp's priority, at most its class's cap; DGST of a
context with an accumulator adds one fold entry of the digest of its message, and without one does nothing. That the entry stands in the
queue of the lowest active lane is the model's choice (log 96: R376 names an issuing thread and not which). -/
def Obligations.TimePriorityDigest : Prop :=
  ∀ (h : Hdr) (d a : Opnd) (b : BArg) (n : Nat) (s : State) (w : Warp) (front : Mask), s.Acts w front →
    (let i := Instr.tstamp h d;
      i.wf = true →
      let c := s.at_ w front i
      c.Fits (d.need 2) → ∃ x, c.Left x i ∧ c.Does x d true [] (fun _ => { bits := s.mod.gts % 2 ^ 64 })) ∧
    (let i := Instr.setprio h b;
      i.wf = true →
      let c := s.at_ w front i
      c.Fits (b.need 1) →
      ∃ x, c.Left x i ∧ c.Passes { x with prio := w.prio } [] ∧
        x.prio = match c.active.lowest with
          | none => w.prio
          | some l => min (c.rdB [b.src] 0 b .u32 false l % 4) w.prioCap) ∧
    (let i := Instr.dgst h a b n;
      i.wf = true →
      let c := s.at_ w front i
      let at_ := (s.context (s.ctxOf w)).accum
      c.Fits (max (a.need n) (b.need 1)) →
      (c.active = 0 ∨ at_ = 0 → ∃ x, c.Left x i ∧ c.Passes x []) ∧
      (∀ (l loc : Nat), c.active.lowest = some l → at_ ≠ 0 → s.watched w = false → s.check w .global (.at false) l at_ 64 64 = .ok loc →
        let first := match a with
          | .v k => k
          | _ => 0
        let words := c.active.lanes.flatMap (fun k => (List.range n).map (fun j => (c.getV k (first + j)).toNat))
        let message := leBytes 8 (s.teamOf w).index ++ ([w.num, c.rdB [b.src] 0 b .u32 false l % 2 ^ 32, n, c.active.toNat]
          ++ words).flatMap (leBytes 4)
        ∃ x, exec i s = .next ({ s with nextId := s.nextId + 1, entries := s.entries ++ [
            { id := s.nextId, place := .tsq s.cur l, kind := .atomic s.nextId s.nextId .fold .unp none, loc := loc, len := 64
              val := leNat (sha512 message), scope := .dev, warp := s.cur, lane := l, core := w.core, order := w.order : Entry }]
            }.putWarp s.cur x) ∧ c.Passes x []))

/-- R67, R140, R141: SRD writes the special register that Table 4.6 names, to each lane its own; SWR writes a writable one
from each active lane, or for a register of the warp from the lowest, without the reserved bits. A number that is reserved, or
for SWR read-only, traps ILLEGAL_OPERAND for the front. -/
def Obligations.SpecialRegisters : Prop :=
  ∀ (h : Hdr) (o : Opnd) (n : Nat) (s : State) (w : Warp) (front : Mask), s.Acts w front →
    let pair := n = 0x02 ∨ n = 0x08 ∨ n = 0x14
    let team := s.teamOf w
    let grid := s.gridOf w
    let coord := fun v : Nat => if team.cont then 2 ^ 32 - 1 else v
    let value := fun l : Nat => ([(0x00, l), (0x01, w.num), (0x02, team.index % 2 ^ 64),
      (0x03, coord (team.index % grid.launch.dims.1)),
      (0x04, coord (team.index / grid.launch.dims.1 % grid.launch.dims.2.1)),
      (0x05, coord (team.index / grid.launch.dims.1 / grid.launch.dims.2.1)), (0x06, grid.ident), (0x07, grid.depth),
      (0x08, (s.core w.core).cyc % 2 ^ 64), (0x09, (600 + 25 * s.stepOf (dieOfCore w.core)) * 2 ^ 8 + s.ratioOf w.core),
      (0x0A, s.tband (dieOfCore w.core)), (0x0B, s.mod.boost % 2 ^ 24),
      (0x0C, (s.part w.part).refusals % 2 ^ 16 * 2 ^ 16 + (s.part w.part).used * 2 ^ 8 + (s.part w.part).budget),
      (0x10, (w.th l).fpf.toNat), (0x11, w.fpctl.toNat), (0x12, (w.th l).lvmem.toNat), (0x13, w.lvctl.toNat),
      (0x14, w.srstate.toNat), (0x15, w.done.toNat), (0x16, (w.th l).rep), (0x17, w.cpnum), (0x18, w.trapcause.toNat),
      (0x19, w.traplanes.toNat), (0x1A, w.tvec.toNat)] : List (Nat × Nat)).lookup n
    (let i := Instr.srd h o n;
      i.wf = true →
      let c := s.at_ w front i
      c.Fits (o.need (if pair then 2 else 1)) →
      ((value 0).isSome = true →
        ∃ x, c.Left x i ∧ c.Does x o (decide pair) [] (fun l => { bits := (value l).getD 0 })) ∧
      (value 0 = none → exec i s = .next (c.settle (.trap s .illegalOperand front)))) ∧
    (let i := Instr.swr h o n;
      i.wf = true →
      let c := s.at_ w front i
      let x := fun l => c.rd [o] 0 (decide pair) l
      let may := n ∈ [0x10, 0x11, 0x12, 0x13, 0x14, 0x15, 0x17, 0x18, 0x19, 0x1A]
      c.Fits (o.need (if pair then 2 else 1)) →
      (¬ may → exec i s = .next (c.settle (.trap s .illegalOperand front))) ∧
      (may → ∃ y, c.Left y i ∧ SameRegs w y [] ∧ c.Popped y [] ∧ SameFlights w y ∧
        c.Threads y (fun l t => if c.active.has l then
          (if n = 0x10 then { t with fpf := BitVec.ofNat 32 (x l % 2 ^ 6) }
          else if n = 0x12 then { t with lvmem := BitVec.ofNat 32 (x l % 2 ^ 16) } else t) else t) ∧
        SameSpecial (match c.active.lowest with
          | none => w
          | some l =>
            let v := BitVec.ofNat 32 (x l);
            if n = 0x11 then { w with fpctl := v &&& 0x3F }
            else if n = 0x13 then { w with lvctl := v &&& 3 }
            else if n = 0x14 then { w with srstate := if x l % 2 ^ 64 = 0 then 0x2545F4914F6CDD1D else BitVec.ofNat 64 (x l) }
            else if n = 0x15 then { w with done := v }
            else if n = 0x17 then { w with cpnum := x l % 2 ^ 16 }
            else if n = 0x18 then { w with trapcause := v &&& 0x3FFFFFF }
            else if n = 0x19 then { w with traplanes := v }
            else if n = 0x1A then { w with tvec := v &&& 0xFFFFFFF8 }
            else w) y))

/-- R328–R331, R308, R334: taking a trap, with no flight and no atomic of the warp outstanding, saves each lane's return point, writes
SR_TRAPCAUSE and SR_TRAPLANES and starts the living lanes of the front at SR_TVEC, outside any REP; BREAKPOINT and KEYHOLE stop the warp
instead. A trap while another is in progress or due, in a save or restore routine, or, at its entry, with no handler (R67) ends the
context's grids; that one which is merely due counts as in progress is the model's choice (log 34). With the entry every window is closed
(R105); what a deterministic grid has kept back inside one stands in the registers (log 68), and nothing else changes in them. -/
def Obligations.TakingATrap : Prop :=
  ∀ (s : State) (wid code op : Nat) (w : Warp) (cause : TrapCause) (planes front : Mask) (ret : List (Nat × Nat × Nat × Bool))
    (kind : RetKind) (replay : Option (Mask × DWord)), s.warp? wid = some w →
    let t := s.raise wid cause code op planes front ret kind replay
    let stop := cause = .breakpoint ∨ cause = .keyhole
    let word := BitVec.ofNat 32 (code % 2 ^ 10 * 2 ^ 16 + op % 2 ^ 8 * 2 ^ 8 + cause.code)
    let rec_ := { lanes := front, ret := ret, kind := kind, replay := replay, cause := cause : TrapRec }
    let busy := w.trap.isSome = true ∨ w.pend.isSome = true ∨ ∃ r, w.resid = .busy r
    let due := { w with pend := some { cause := cause, code := code, op := op, planes := planes, front := front, ret := ret, kind := kind, replay := replay } }
    let closed := due.releaseAll
    (w.deferred = [] → closed = due) ∧
    (¬ stop → ¬ busy → s.Quiesced wid w → w.tvec = 0xFFFFFFF8#32 →
      t = (s.putWarp wid due).endContext (s.ctxOf w) w.part cause.code) ∧
    (¬ stop → busy → t = s.endContext (s.ctxOf w) w.part cause.code) ∧
    (¬ stop → ¬ busy → s.Quiesced wid w → w.tvec ≠ 0xFFFFFFF8#32 →
      ∃ x, t.warp? wid = some x ∧ t.mem = s.mem ∧ SameRegs closed x [] ∧
        SameSpecial { w with trapcause := word, traplanes := planes, trap := some rec_ } x ∧
        x.cur = some (front &&& w.living) ∧
        (∀ l, x.th l = if l ∈ (front &&& w.living).lanes then
          { closed.th l with st := .ready, pc := w.tvec.toNat, inRep := false, rep := if (w.th l).inRep then (w.th l).rep else 0 }
          else closed.th l) ∧
        (∀ k, k ≠ wid → t.warp? k = s.warp? k)) ∧
    (stop → s.Quiesced wid w →
      ∃ x, t.warp? wid = some x ∧ SameRegs closed x [] ∧ x.threads = closed.threads ∧
        SameSpecial { w with pend := none, trapcause := word, traplanes := planes, stopped := some rec_ } x)

/-- R142–R144, R333: TRAP traps for its active lanes with its code, to resume at the next instruction; BKPT does so with a
debug handler attached and does nothing without one (what a deterministic grid has kept back inside a window is in the registers by then,
log 68); TRET waits for the rest of the handler front, and with the last one the
trap ends, each living lane back at its return point. TRET outside a handler traps ILLEGAL_OPERAND. -/
def Obligations.TrapForms : Prop :=
  ∀ (h : Hdr) (code : Nat) (s : State) (w : Warp) (front : Mask), s.Acts w front →
    let debug := (s.context (s.ctxOf w)).debug
    (let i := Instr.trap h code;
      i.wf = true →
      let c := s.at_ w front i
      (c.active = 0 → ∃ x, c.Left x i ∧ c.Passes x []) ∧
      (c.active ≠ 0 → exec i s = .next (c.settle (.trap s .trap c.active .next code)) ∧
        (w.trap = none → w.pend = none → w.resid = .resident → s.Quiesced s.cur w → w.tvec ≠ 0xFFFFFFF8#32 →
          (∀ l ∈ front.lanes, (w.th l).st = .ready) →
          ∃ t x, exec i s = .next t ∧ t.warp? s.cur = some x ∧ SameRegs w.releaseAll x [] ∧
            x.trapcause = BitVec.ofNat 32 (code * 2 ^ 16 + 0x12 * 2 ^ 8 + 18) ∧ x.traplanes = c.active ∧ x.cur = some front ∧
            (∃ r, x.trap = some r ∧ r.kind = .next ∧ r.lanes = front ∧ r.ret = front.lanes.map (fun l =>
              let t := (w.th l).next 8
              (l, t.pc, 16, t.inRep))) ∧
            (∀ l ∈ front.lanes, (x.th l).pc = w.tvec.toNat ∧ (x.th l).st = .ready) ∧
            (∀ l, l ∉ front.lanes → x.th l = w.releaseAll.th l)))) ∧
    (let i := Instr.bkpt h code;
      i.wf = true →
      let c := s.at_ w front i
      (c.active = 0 ∨ debug = false → ∃ x, c.Left x i ∧ c.Passes x []) ∧
      (c.active ≠ 0 → debug = true → exec i s = .next (c.settle (.trap s .breakpoint c.active .next code)))) ∧
    (let i := Instr.tret h;
      i.wf = true →
      let c := s.at_ w front i
      (w.trap = none → (∀ r, w.resid ≠ .busy r) → exec i s = .next (c.settle (.trap s .illegalOperand front))) ∧
      (∀ r, w.trap = some r → w.resid = .resident → (∀ l ∈ front.lanes, (w.th l).st = .ready) → (∀ l n, (w.th l).st ≠ .join n) →
        let waits := fun l => l ∈ front.lanes ∨ (w.th l).st = .tret
        ∃ t x, exec i s = .next t ∧ t.warp? s.cur = some x ∧ t.mem = s.mem ∧ SameRegs w x [] ∧
          ((∃ l ∈ r.lanes.lanes, (w.th l).st.gone = false ∧ ¬ waits l) → x.trap = some r ∧
            ∀ l, x.th l = if l ∈ front.lanes then { w.th l with st := .tret } else w.th l) ∧
          ((∀ l ∈ r.lanes.lanes, (w.th l).st.gone = false → waits l) → x.trap = none ∧
            ∀ e ∈ r.ret, (r.ret.map (·.1)).Nodup → r.lanes.has e.1 = true → (w.th e.1).st.gone = false → e.1 < 32 →
              x.th e.1 = (w.th e.1).resume e.2.1 e.2.2.1 e.2.2.2)))

/-- R109, R110, R26, R112: REP puts every lane of its front at the first repeat with its count, or, where a repeat is no
instruction that REP may repeat, traps with no effect: ILLEGAL_OPCODE for a code not assigned, ILLEGAL_OPERAND under the
repeated opcode for a word that does not decode, ILLEGAL_OPERAND under REP's otherwise. The second word is read where the first asks
for it. What may be repeated has a layout that REP steps, its masked fields are operand codes that stay in their class, and every
repeat decodes and lies in the allocation (R55). A thread inside a REP stays at its
address until its last repeat, and then goes on past the repeated instruction. That an unassigned code of another layout is named by its
own OP, and that the masked A of PLOP and LPOLL counts as unused, are the model's choices (log 69). -/
def Obligations.Repeats : Prop :=
  (∀ (h : Hdr) (md ma mb mc : Bool) (step count : Nat) (s : State) (w : Warp) (front : Mask) (w0 w1 : Nat),
    let i := Instr.rep h md ma mb mc step count
    i.wf = true → s.Acts w front →
    let c := s.at_ w front i
    let pc := (w.th (front.lowest.getD 0)).pc
    let trapAs := fun cause op => exec i s = .next (s.raise s.cur cause 0 op front front (w.retPoints front 8) .reissue none)
    s.codeWord w (pc + 8) = .word w0 → (if twoWords w0 then s.codeWord w (pc + 16) = .word w1 else w1 = 0) →
    (∀ op, decodeWords w0 w1 = .illegalOpcode op → trapAs .illegalOpcode op) ∧
    (∀ op, decodeWords w0 w1 = .illegalOperand op → trapAs .illegalOperand op) ∧
    (∀ j, decodeWords w0 w1 = .ok j →
      (c.repAllowed md ma mb mc step count (Raw.ofWords w0 w1) j = false → trapAs .illegalOperand 0x15) ∧
      (c.repAllowed md ma mb mc step count (Raw.ofWords w0 w1) j = true →
        ∃ x, c.Left x i ∧ SameRegs w x [] ∧ SameSpecial w x ∧ SameFlights w x ∧ c.Popped x [] ∧
          ∀ l, x.th l = if l ∈ front.lanes then { w.th l with inRep := true, rep := count } else w.th l))) ∧
  (∀ (c : Ctx) (md ma mb mc : Bool) (step count : Nat) (r : Raw) (j : Instr), c.repAllowed md ma mb mc step count r j = true →
    let steps := fun o : Opnd => (∃ n, o = .v n ∧ n + (count - 1) * step < 768) ∨ (∃ n, o = .w n ∧ n + (count - 1) * step < 64)
    ∃ v, j.repView = some v ∧ (ma = true → steps v.a) ∧ (mb = true → steps v.b) ∧ (mc = true → steps v.c) ∧
      (md = true → v.pred = none → steps v.d) ∧ (md = true → ∀ n, v.pred = some n → n + (count - 1) * step < 8) ∧
      ∀ k, k < count → ∃ i, repeatInstr md ma mb mc v.a3 step k r = some i ∧ i.repView.isSome = true ∧ i.need ≤ (c.s.kernOf c.w).regs) ∧
  (∀ (t : Thread) (len : Nat),
    (t.inRep = false → t.next len = { t with pc := (t.pc + len) % 2 ^ 32 }) ∧
    (t.inRep = true → 1 < t.rep → t.next len = { t with rep := t.rep - 1 }) ∧
    (t.inRep = true → t.rep = 1 → t.next len = { t with pc := (t.pc + 8 + len) % 2 ^ 32, rep := 0, inRep := false }))

/-! ## Copies, handles, queues and streams (R254–R274) -/

/-- R254, R255, R260, R307: once every active lane has passed its checks and the core's Latch table has room, CPY, CPS and CPT
register one copy for each lane that has anything to move, with the bytes it moves in order; a CPT element outside its tensor
is filled when loaded and left out when stored; cause 4 concerns the bytes that a copy accesses. That CPT asks 68 bytes for each active
lane of the cluster's byte budget, and that its copies start only when these are granted, is the model's choice (log 59: R365 defines no
request's size); a space may stand in pieces (log 16). -/
def Obligations.Copies : Prop :=
  ∀ (f : FormCp) (st : Bool) (box : Word) (s : State) (w : Warp) (front : Mask) (plan : Nat → Plan) (tensor : Nat → Tensor),
    let register := fun (i : Instr) (load : Bool) (asks need : Nat) (ok : Ctx → Nat → Prop) (len : Ctx → Nat → Nat)
        (elems : Ctx → Nat → List (Nat × Option Nat × Nat)) (fill : Nat → Nat) =>
      i.wf = true → s.Acts w front →
      let c := s.at_ w front i
      let space := match f.space with
        | .team => s.scratchOf w
        | .group => s.windowOf w
      let off := fun l => c.rd [f.d] 0 false l
      let ranges := fun l => (elems c l).filterMap (fun e => e.2.1.map (fun va => (va, e.2.2)))
      let movers := c.active.lanes.filter (fun l => decide (len c l ≠ 0))
      let moves := fun l => (elems c l).flatMap (fun e => (List.range e.2.2).flatMap (fun k =>
        let here := space.at_ (off l + e.1 + k)
        match e.2.1 with
        | some va => [if load then ((plan l).src (va + k), CDst.loc here) else (CSrc.loc here, (plan l).dst (va + k))]
        | none => if load then [(CSrc.fill (byteOf (fill l) k), CDst.loc here)] else []))
      let copies := movers.zipIdx.map (fun (e : Nat × Nat) =>
        { id := s.nextId + e.2, warp := s.cur, lane := e.1, core := w.core, ctx := s.ctxOf w, grid := (s.teamOf w).grid
          scope := f.scope, toScratch := load, direct := load && f.space == .team, order := w.order
          before := s.entriesOf s.cur e.1, moves := moves e.1, pages := (plan e.1).pages (if load then 1 else 2), scr := space.parts (off e.1) (len c e.1)
          glob := hull (ranges e.1), notBefore := if asks = 0 then 0 else s.mod.gts + s.heldFor (clusterOfCore w.core) : Copy })
      c.Fits need →
      (∀ l ∈ c.active.lanes, ok c l ∧ off l % 16 = 0 ∧ len c l % 16 = 0 ∧ len c l ≤ 2 ^ 21 ∧
        s.plan w (!load) (ranges l) = some (plan l) ∧ (plan l).miss = [] ∧
        (len c l ≠ 0 → (plan l).bad = false ∧ ∀ e ∈ elems c l, (load = true ∨ e.2.1.isSome = true) → off l + e.1 + e.2.2 ≤ space.size)) →
      s.copies.countP (fun x => x.latched && x.core == w.core) + movers.length ≤ 64 →
      ∃ x, exec i s = .next (({ s with nextId := s.nextId + movers.length, copies := s.copies ++ copies }.ask
          (clusterOfCore w.core) (asks * c.active.lanes.length)).putWarp s.cur x) ∧
        x.openSet = w.openSet ++ copies.map (·.id) ∧ x.copiesOut = w.copiesOut ++ copies.map (·.id) ∧
        c.Passes { x with openSet := w.openSet } []
    let plain := fun (i : Instr) (load : Bool) => register i load 0 (max (f.d.need 1) (max (f.a.need 2) (f.len.need 1)))
      (fun c l => c.rd [f.a] 0 true l % 16 = 0) (fun c l => c.rdB [f.len.src] 0 f.len .u32 false l % 2 ^ 32)
      (fun c l => [(0, some (c.rd [f.a] 0 true l), c.rdB [f.len.src] 0 f.len .u32 false l % 2 ^ 32)]) (fun _ => 0)
    let side := fun d : Nat => box.toNat / 256 ^ d % 256 + 1
    let sides := fun l => (List.range (tensor l).dims).map side
    plain (.cpy f) true ∧ plain (.cps f) false ∧
    register (.cpt f st box) (!st) 68 (max (f.d.need 1) (max (f.a.need 1) (f.len.need 4)))
      (fun c l => (∃ slot, s.handleSlot (s.ctxOf w) (c.rd [f.a] 0 false l) = some slot ∧
          tensor l = tensorOf ((List.range 64).map (fun k => s.peek ((s.context (s.ctxOf w)).handles + 128 * slot + 64 + k)))) ∧
        (tensor l).ok = true ∧ box.toNat / 256 ^ (tensor l).dims = 0)
      (fun _ l => (sides l).foldl (· * ·) (tensor l).es)
      (fun c l => (List.range ((sides l).foldl (· * ·) 1)).map (fun n =>
        let at_ := fun d => (BitVec.ofNat 32 (match f.len.src with
            | .v k => c.rd [.v (k + d)] 0 false l
            | .w k => c.rd [.w (k + d)] 0 false l
            | _ => 0)).toInt + (n / ((sides l).take d).foldl (· * ·) 1 % side d : Nat)
        let inside := (List.range (tensor l).dims).all (fun d => decide (0 ≤ at_ d) && decide (at_ d < ((tensor l).extents.getD d 0 : Nat)))
        (n * (tensor l).es,
          if inside then some ((tensor l).base + (at_ 0).toNat * (tensor l).es +
            ((List.range ((tensor l).dims - 1)).map (fun d => (at_ (d + 1)).toNat * (tensor l).strides.getD d 0)).sum) else none,
          (tensor l).es)))
      (fun l => (tensor l).fill)

/-- R257–R259, R261–R263: CPCLOSE closes the warp's batch under the number SR_CPNUM, or waits while eight are outstanding; CPTEST and
CPWAIT ask for the batches up to a number; TDESC reads the lanes' descriptors with plain loads, installs them one by one and returns their
handles; TDFREE frees a slot under its next generation, and traps STALE_HANDLE for the lanes whose handle is stale. That a handle which an
earlier lane of the TDFREE has freed is stale for a later one, and then no lane frees, is the model's choice (log 33), and so are the 68 and
4 bytes for each lane that the two ask of the cluster's byte budget, for which TDESC waits (log 59: R365 defines no request's size). -/
def Obligations.BatchesAndHandles : Prop :=
  ∀ (h : Hdr) (d a : Opnd) (n : Option Opnd) (la : Nat) (s : State) (w : Warp) (front : Mask), s.Acts w front →
    let open_ := w.batches.filter (fun b => b.2 ≠ [])
    let number := fun (c : Ctx) (l : Nat) => match n with
      | some o => c.rd [o] 0 false l % 2 ^ 16
      | none => (w.cpnum + 2 ^ 16 - 1) % 2 ^ 16
    let isOver := fun k : Nat => ∀ b ∈ open_, 2 ^ 15 ≤ (k + 2 ^ 16 - b.1) % 2 ^ 16
    (let i := Instr.cpclose h d la;
      i.wf = true →
      let c := s.at_ w front i
      (c.active = 0 → ∃ x, c.Left x i ∧ c.Passes x []) ∧
      (c.active ≠ 0 → 8 ≤ open_.length → exec i s = .next (c.settle (.wait .copyWait))) ∧
      (∀ l, c.active.lowest = some l → open_.length < 8 →
        ∃ x, c.Launched x i ∧ x.openSet = [] ∧ x.cpnum = (w.cpnum + 1) % 2 ^ 16 ∧
          x.batches = (if w.openSet = [] then w.batches else w.batches ++ [(w.cpnum, w.openSet)]) ∧
          c.Flies { x with openSet := w.openSet, cpnum := w.cpnum, batches := w.batches } [] la 4 .plain
            (regWrites d l false w.cpnum) [])) ∧
    (let i := Instr.cpwait h n;
      i.wf = true → (∀ l ∈ front.lanes, (w.th l).st = .ready) → (∀ l k, (w.th l).st ≠ .join k) → w.trap = none →
      let c := s.at_ w front i
      ∃ x, c.Left x i ∧ SameRegs w x [] ∧ SameSpecial w x ∧ SameFlights w x ∧ c.Popped x [] ∧
        ∀ low, c.active.lowest = some low →
          (isOver (number c low) → c.Threads x (fun _ t => t)) ∧
          (¬ isOver (number c low) → ∀ l, x.th l = if l ∈ front.lanes then { w.th l with st := .copy (number c low) } else w.th l)) ∧
    (let i := Instr.cptest h d n la;
      i.wf = true →
      let c := s.at_ w front i
      ∃ x, (c.active = 0 → c.Left x i ∧ c.Passes x []) ∧
        (∀ l, c.active.lowest = some l → c.Launched x i ∧
          (isOver (number c l) → c.Flies x [] la 4 .plain (regWrites d l false 1) []) ∧
          (¬ isOver (number c l) → c.Flies x [] la 4 .plain (regWrites d l false 0) []))) ∧
    (∀ (loc : Nat → Nat) (bytes : Nat → List Byte), let i := Instr.tdesc h d a la;
      i.wf = true →
      let c := s.at_ w front i
      let u := s.dropRecords s.cur
      c.Fits (max (d.need 1) (a.need 2)) → c.lanes d ≠ [] → s.watched w = false →
      (∀ l ∈ c.lanes d, s.check w .global .rd l (c.rd [a] 0 true l) 64 64 = .ok (loc l) ∧
        s.recordBytes s.cur l w.order (loc l) 64 = some (bytes l)) →
      let bad := (c.lanes d).filter (fun l => !(tensorOf (bytes l)).ok)
      let done := installAll (s.ctxOf w) u ((c.lanes d).map (fun l => (l, bytes l)))
      let ns := s.heldFor (clusterOfCore w.core) + done.2.foldl (fun m e => max m (homeNs w.core ((s.context (s.ctxOf w)).handles + 128 * (e.2 % 2 ^ 20)))) 160
      (bad ≠ [] → exec i s = .next (c.settle (.trap u .illegalOperand (if d.isW then c.active else Mask.ofList bad)))) ∧
      (bad = [] → ∃ x, exec i s = .next (({ (done.1.ask (clusterOfCore w.core) (68 * (c.lanes d).length)) with
            nextId := s.nextId + 1 } : State).putWarp s.cur x) ∧
        c.Flies x [] la 0 .plain (done.2.flatMap (fun e => regWrites d e.1 false e.2)) [] ns)) ∧
    (let i := Instr.tdfree h a;
      i.wf = true →
      let c := s.at_ w front i
      let handles := (s.context (s.ctxOf w)).handles
      let free := fun (t : State) (l : Nat) => (t.handleSlot (s.ctxOf w) (c.rd [a] 0 false l)).map (fun slot =>
        t.pokeN (handles + 128 * slot) 4 ((t.peekN (handles + 128 * slot) 4 / 2 ^ 20 + 1) % 2 ^ 12 * 2 ^ 20))
      c.Fits (a.need 1) →
      (∀ t, c.active.lanes.foldlM free s = some t →
        ∃ x, exec i s = .next ((t.ask (clusterOfCore w.core) (4 * c.active.lanes.length)).putWarp s.cur x) ∧ c.Passes x []) ∧
      (let stale := (c.active.lanes.foldl (fun (acc : State × List Nat) l => match free acc.1 l with
          | some t => (t, acc.2)
          | none => (acc.1, acc.2 ++ [l])) (s, [])).2;
        stale ≠ [] → exec i s = .next (c.settle (.trap s .staleHandle (Mask.ofList stale)))))

/-- R61, R264–R268: TQINIT, QPUSH, QPOP, QTRY and QGRANT on a queue at which nothing waits. A push waits at the queue with its
three words until its release has completed; a pop takes the oldest entry; on an empty queue QPOP waits and QTRY says so.
R264–R266: the entry that a push writes at the tail of an empty queue is what the next pop takes from its head, words and
warp number; the count is as it was, and the pushing warp's allowance is given back. That a push stays at the queue until its release has
completed is the model's choice (log 70). -/
def Obligations.TeamQueues : Prop :=
  (∀ (h : Hdr) (k la depth pq : Nat) (d a b : Opnd) (s : State) (w : Warp) (front : Mask) (team : Team),
      s.Acts w front → s.team? w.team = some team → w.trap = none → (∀ l ∈ front.lanes, (w.th l).st = .ready) →
      (∀ l j, (w.th l).st ≠ .join j) →
      let put := fun (t : State) (q : TQ) => t.putTeam w.team { team with tqs := Table.put team.tqs k q }
      let waits := fun (x : Warp) => SameRegs w x [] ∧ SameSpecial w x ∧ SameFlights w x ∧
        ∀ l, x.th l = if l ∈ front.lanes then { w.th l with st := .queue k } else w.th l
      let misuse := fun (i : Instr) (need : Nat) => i.wf = true → (s.at_ w front i).Fits need → (s.at_ w front i).active ≠ 0 →
        Table.find team.tqs k = none →
        exec i s = .next ((s.at_ w front i).settle (.trap s .queueMisuse (s.at_ w front i).active))
      (let i := Instr.tqinit h k a depth;
        i.wf = true →
        let c := s.at_ w front i
        c.Fits (a.need 1) →
        ∀ l, c.active.lowest = some l →
          let off := c.rd [a] 0 false l
          let trap := fun k => exec i s = .next (c.settle (.trap s k c.active))
          let used := ∃ q, Table.find team.tqs k = some q ∧ (q.count ≠ 0 ∨ q.waiters ≠ [])
          (off % 16 ≠ 0 → trap .misaligned) ∧
          (off % 16 = 0 → (s.kernOf w).scratch < off + 16 * depth → trap .accessViolation) ∧
          (off % 16 = 0 → off + 16 * depth ≤ (s.kernOf w).scratch → used → trap .queueMisuse) ∧
          (off % 16 = 0 → off + 16 * depth ≤ (s.kernOf w).scratch → ¬ used →
            ∃ x, exec i s = .next ((put s { ring := off, depth := depth }).putWarp s.cur x) ∧ c.Passes x [])) ∧
      misuse (.qpush h k a) (a.need 3) ∧ misuse (.qpop h d k la) (d.need 3) ∧ misuse (.qtry h d k pq la) (d.need 3) ∧
      misuse (.qgrant h k a b) (max (a.need 1) (b.need 1)) ∧
      (∀ q : TQ, Table.find team.tqs k = some q → q.waiters = [] →
        let words := (List.range 3).map (fun j =>
          BitVec.ofNat 32 (s.ringRead w.core ((s.scratchOf w).at_ (q.ring + 16 * q.head) + 4 * j) 4))
        let from_ := s.ringRead w.core ((s.scratchOf w).at_ (q.ring + 16 * q.head) + 12) 4 % 32
        let popped := { q with head := (q.head + 1) % q.depth, count := q.count - 1
                               allow := Table.set 0 q.allow from_ (min 255 (Table.get 0 q.allow from_ + 1)) }
        let writes := fun (c : Ctx) => match d with
          | .v n => c.active.lanes.flatMap (fun l => words.zipIdx.map (fun e => RegW.v l (n + e.2) e.1))
          | .w n => words.zipIdx.map (fun e => RegW.w (n + e.2) e.1)
          | _ => []
        (let i := Instr.qpop h d k la;
          i.wf = true →
          let c := s.at_ w front i
          c.Fits (d.need 3) → c.active ≠ 0 →
          (0 < q.count → ∃ x, exec i s = .next ((put { s with nextId := s.nextId + 1 } popped).putWarp s.cur x) ∧
            c.Flies x [] la 24 .plain (writes c) []) ∧
          (q.count = 0 → w.resid = .resident → ∃ x, exec i s = .next ((put s { q with waiters := [
            { warp := s.cur, lanes := front, active := c.active, push := none, dst := d, la := la }] }).putWarp s.cur x) ∧ waits x)) ∧
        (let i := Instr.qtry h d k pq la;
          i.wf = true →
          let c := s.at_ w front i
          let flag := fun b => c.active.lanes.map (fun l => RegW.p l pq b)
          c.Fits (d.need 3) → c.active ≠ 0 →
          (0 < q.count → ∃ x, exec i s = .next ((put { s with nextId := s.nextId + 1 } popped).putWarp s.cur x) ∧
            c.Flies x [] la 24 .plain (writes c ++ flag true) []) ∧
          (q.count = 0 → ∃ x, c.Launched x i ∧ c.Flies x [] la 24 .plain (flag false) [])) ∧
        (let i := Instr.qpush h k a;
          i.wf = true →
          let c := s.at_ w front i
          let word := fun (l j : Nat) => BitVec.ofNat 32 (match a with
            | .v n => c.rd [.v (n + j)] 0 false l
            | .w n => c.rd [.w (n + j)] 0 false l
            | _ => 0)
          c.Fits (a.need 3) →
          ∀ l, c.active.lowest = some l → ∃ x, waits x ∧
            exec i s = .next ((put { s with
              nextId := s.nextId + c.active.lanes.length
              entries := s.entries ++ c.active.lanes.zipIdx.map (fun (e : Nat × Nat) =>
                { id := s.nextId + e.2, place := .tsq s.cur e.1, kind := .relMarker, scope := .core, warp := s.cur, lane := e.1
                  core := w.core, order := w.order : Entry }) }
              { q with waiters := [{ warp := s.cur, lanes := front, active := c.active
                                     push := some [word l 0, word l 1, word l 2] }] }).putWarp s.cur x)) ∧
        (let i := Instr.qgrant h k a b;
          i.wf = true →
          let c := s.at_ w front i
          c.Fits (max (a.need 1) (b.need 1)) →
          ∀ l, c.active.lowest = some l →
            let num := c.rd [a] 0 false l
            let warps := if team.cont then 1 else (s.gridOf w).launch.warps
            (32 ≤ num ∨ warps ≤ num → exec i s = .next (c.settle (.trap s .queueMisuse c.active))) ∧
            (num < 32 → num < warps → ∃ x, c.Passes x [] ∧
              exec i s = .next ((put s { q with allow := Table.set 0 q.allow num (min (c.rd [b] 0 false l) 255) }).putWarp s.cur x))))) ∧
  (∀ (s : State) (w : Warp) (wid lane k : Nat) (a b c : Word) (team : Team) (q : TQ),
      s.team? w.team = some team → Table.find team.tqs k = some q → q.head = q.tail → q.tail < q.depth → q.count = 0 →
      0 < Table.get 0 q.allow w.num → Table.get 0 q.allow w.num ≤ 255 → w.num < 32 →
      let t := s.push w wid lane k [a, b, c]
      let u := t.pop w k
      u.2 = [a, b, c] ∧ t.mem = s.mem ∧ u.1.mem = s.mem ∧
      (Table.find (t.teamOf w).tqs k).map (·.count) = some 1 ∧
      ∃ q', Table.find (u.1.teamOf w).tqs k = some q' ∧ q'.count = 0 ∧ q'.head = (q.head + 1) % q.depth ∧ q'.tail = q'.head ∧
        ∀ j, Table.get 0 q'.allow j = Table.get 0 q.allow j)

/-- R269–R274: WCFG reads a descriptor with plain loads, gives it with a start to a stream that is not RUNNING, and empties its queue;
WSTART and WSTOP move a configured stream between STOPPED and RUNNING; WSTAT reads its state and its position. -/
def Obligations.Streams : Prop :=
  ∀ (h : Hdr) (st la : Nat) (d a b : Opnd) (s : State) (w : Warp) (front : Mask), s.Acts w front →
    let x := Table.get {} w.streams st
    let sets := fun (u : State) (c : Ctx) (i : Instr) (y : Warp → Prop) => ∃ z, exec i s = .next (u.putWarp s.cur z) ∧ y z ∧
      SameRegs w z [] ∧ SameFlights w z ∧ SameSpecial w z ∧ c.Threads z (fun _ t => t)
    (∀ (loc : Nat) (desc : List Byte), let i := Instr.wcfg h st a b;
      i.wf = true →
      let c := s.at_ w front i
      c.Fits (max (a.need 2) (b.need 1)) →
      ∀ l, c.active.lowest = some l →
        (x.st = .running → exec i s = .next (c.settle (.trap s .queueMisuse c.active))) ∧
        (x.st ≠ .running → s.checkRead w l (c.rd [a] 0 true l) 64 = .ok loc → s.watched w = false →
          s.recordBytes s.cur l w.order loc 64 = some desc →
          let u := s.dropRecords s.cur
          let pos := c.rd [b] 0 false l
          (Wick.ok desc = false → exec i s = .next (c.settle (.trap u .illegalOperand c.active))) ∧
          (∀ n, Wick.ok desc = true → streamCount (c.tileByte l) desc = .ok n →
            (2 ^ 29 ≤ n → exec i s = .next (c.settle (.trap u .illegalOperand c.active))) ∧
            (n < 2 ^ 29 → sets u c i (fun z => (Table.get [] z.oqs st) = [] ∧
              (∀ k, k ≠ st → Table.get {} z.streams k = Table.get {} w.streams k ∧ Table.get [] z.oqs k = Table.get [] w.oqs k) ∧
              Table.get {} z.streams st = { st := if n ≤ pos then .done else .stopped, desc := desc, popped := pos, queued := pos : Stream }))))) ∧
    (let move := fun (i : Instr) (old new : StreamSt) => i.wf = true →
        let c := s.at_ w front i
        c.active ≠ 0 →
        (x.st = .unconfigured → exec i s = .next (c.settle (.trap s .queueMisuse c.active))) ∧
        (x.st ≠ .unconfigured → sets s c i (fun z => z.oqs = w.oqs ∧
          (∀ k, k ≠ st → Table.get {} z.streams k = Table.get {} w.streams k) ∧
          Table.get {} z.streams st = if x.st = old then { x with st := new, early := [], waits := none } else x));
      move (.wstart h st) .stopped .running ∧ move (.wstop h st) .running .stopped) ∧
    (let i := Instr.wstat h d st la;
      i.wf = true →
      let c := s.at_ w front i
      let code := match x.st with
        | .unconfigured => 0
        | .stopped => 1
        | .running => 2
        | .done => 3
        | .fault => 4
      ∀ l, c.active.lowest = some l →
        ∃ z, c.Launched z i ∧ c.Flies z [] la 4 .plain (regWrites d l false (code * 2 ^ 29 ||| x.popped % 2 ^ 32)) [])

/-! ## Matrix and Louvre forms (R62–R66, R189–R220, R231–R237) -/

/-- R64, R65, R194: a matrix written to its registers and read back is the matrix, for every shape of Table 4.2 whose scale
group lies after its data; each code is that of its format's width, each scale and special one byte.
R196, R197, R201–R203, R216: the descriptor and structural forms, element by element; each sum, product and conversion is
rounded once and the flags of a lane's elements add up. MSHAPE keeps the extent unless .EXT, and traps SHAPE_OVERFLOW for a
matrix that does not fit it. The order in which causes trap (log 43) and that MCVT.SR steps the generator at its issue (log 50) are the
model's choices. -/
def Obligations.StructuralMatrixForms : Prop :=
  (∀ (h : Nat) (m : RawM), let s := shapeOf h
      s.fmt?.isSome = true → (s.fmt.isNx = true → s.data ≤ s.soff) →
      m.codes.length = s.rows * s.cols → (∀ x ∈ m.codes, x < 2 ^ s.fmt.bits) →
      m.scales.length = (if s.fmt.isNx then s.blocks else 0) → (∀ x ∈ m.scales, x < 256) →
      m.specials.length = (if s.fmt = .nx4 then s.blocks else 0) → (∀ x ∈ m.specials, x < 256) →
      s.readRaw (fun o => ((s.regs m).lookup o).getD 0) = m ∧ ∀ e ∈ s.regs m, e.2 < 2 ^ 32) ∧
  (∀ f : FormX,
      let gen := fun (d : Shape) (g : Nat → Nat → Nat) => (List.range (d.rows * d.cols)).map (fun e =>
        if d.byCol then g (e % d.rows) (e / d.rows) else g (e / d.cols) (e % d.cols))
      let flags := fun (d : Shape) (g : Nat → Nat → Nat) =>
        ((List.range d.rows).flatMap (fun r => (List.range d.cols).map (g r))).foldl (· ||| ·) 0
      let code := fun (c : Ctx) (o : Opnd) (l k r q : Nat) => (c.rawM o l k).codes.getD ((c.shape l k).num r q) 0
      let val := fun (c : Ctx) (o : Opnd) (l k r q : Nat) => (c.shape l k).val f.ftz (c.rawM o l k) ((c.shape l k).num r q)
      let d := fun (c : Ctx) (l : Nat) => c.shape l f.hd
      let a := fun (c : Ctx) (l : Nat) => c.shape l f.ha
      let okD := fun (c : Ctx) (l : Nat) => c.regsOk f.d (d c l)
      let okA := fun (c : Ctx) (l : Nat) => c.regsOk f.a (a c l)
      let put := fun (c : Ctx) (l : Nat) (m : RawM) => matWrites l (vNum f.d) (d c l) m
      let arith := fun (x : MFmt) => x == .f64 || x == .f32 || x == .f16 || x == .bf16
      let needDA := max (f.d.need 1) (f.a.need 1)
      let rounded := fun (c : Ctx) (l : Nat) (exact : Nat → Nat → FV × Nat) =>
        let x := fun r q => (d c l).fmt.fmt.opRes .rn 0 (f.ftz && (d c l).fmt == .f32) (exact r q)
        (put c l { codes := gen (d c l) (fun r q => (x r q).bits) }, flags (d c l) (fun r q => (x r q).flags))
      let single := fun (c : Ctx) (l : Nat) => (a c l).fmt != .f64 || (vNum f.d % 2 == 0 && c.runOk f.d 2);
      (∀ (ext : Bool) (imm : Option Word) (s : State) (w : Warp) (front : Mask), let i := Instr.mshape f ext imm
        i.wf = true → s.Acts w front →
        let c := s.at_ w front i
        let os := if imm.isSome then [] else [f.a]
        let v := fun l => match imm with
          | some x => x.toNat
          | none => c.rd os 0 false l % 2 ^ 32
        let old := fun l => (w.getH l f.hd).toNat
        let word := fun l => v l % 2 ^ 13 + (if ext then v l else old l) / 2 ^ 13 % 2 ^ 10 * 2 ^ 13 + v l / 2 ^ 23 * 2 ^ 23
        let bad := c.active.lanes.filter (fun l => (ext && decide (768 < v l / 2 ^ 13 % 2 ^ 10)) || decide (10 ≤ v l / 2 ^ 8 % 16))
        let past := c.active.lanes.filter (fun l => !(shapeOf (word l)).fits)
        c.Fits (if imm.isSome then 0 else f.a.need 1) → c.Pops os →
        (bad ≠ [] → exec i s = .next (c.settle (.trap s .illegalOperand (Mask.ofList bad)))) ∧
        (bad = [] → past ≠ [] → exec i s = .next (c.settle (.trap s .shapeOverflow (Mask.ofList past)))) ∧
        (bad = [] → past = [] → ∃ x, c.Left x i ∧ c.Passes { x with hregs := w.hregs } os ∧
          ∀ l k, k < 16 → x.getH l k = if l ∈ c.active.lanes ∧ k = f.hd then
            BitVec.ofNat 96 (old l / 2 ^ 32 * 2 ^ 32 + word l) else w.getH l k)) ∧
      (∀ mode : QryMode, CompletesX (.mqry f mode) (f.d.need (if mode = .words then 3 else 1)) f.la .plain
        (fun c l => mode != .regs || (a c l).fmt?.isSome)
        (fun c l =>
          let h := c.w.getH l f.ha
          let reg := fun (n x : Nat) => RegW.v l (vNum f.d + n) (BitVec.ofNat 32 x)
          (match mode with
            | .words => [.v l (vNum f.d) (h.extractLsb' 0 32), .v l (vNum f.d + 1) (h.extractLsb' 32 32), .v l (vNum f.d + 2) (h.extractLsb' 64 32)]
            | .w0 => [.v l (vNum f.d) (h.extractLsb' 0 32)]
            | .regs => [reg 0 (if (a c l).fmt.isNx then (a c l).soff + (a c l).group else (a c l).data)], 0))) ∧
      CompletesX (.mzero f) (f.d.need 1) f.la .plain okD (fun c l =>
        (put c l { codes := gen (d c l) (fun _ _ => 0), scales := List.replicate (d c l).blocks 127
                   specials := List.replicate (d c l).blocks 0 }, 0)) ∧
      CompletesX (.mcopy f) needDA f.la .plain
        (fun c l => okD c l && okA c l && (d c l).rows == (a c l).rows && (d c l).cols == (a c l).cols && (d c l).fmt == (a c l).fmt
          && (!(a c l).fmt.isNx || (d c l).byCol == (a c l).byCol))
        (fun c l => (put c l { c.rawM f.a l f.ha with codes := gen (d c l) (code c f.a l f.ha) }, 0)) ∧
      CompletesX (.mtrn f) needDA f.la .plain
        (fun c l => okD c l && okA c l && (d c l).rows == (a c l).cols && (d c l).cols == (a c l).rows && (d c l).fmt == (a c l).fmt
          && !(a c l).fmt.isNx)
        (fun c l => (put c l { codes := gen (d c l) (fun r q => code c f.a l f.ha q r) }, 0)) ∧
      (∀ sub : Bool, CompletesX (.madd f sub) (max needDA (f.b.need 1)) f.la .plain
        (fun c l =>
          let b := c.shape l f.hb
          okD c l && okA c l && c.regsOk f.b b && arith (a c l).fmt && (d c l).fmt == (a c l).fmt && b.fmt == (a c l).fmt
            && (d c l).rows == (a c l).rows && (d c l).cols == (a c l).cols && b.rows == (a c l).rows && b.cols == (a c l).cols)
        (fun c l => rounded c l (fun r q =>
          let y := val c f.b l f.hb r q
          (val c f.a l f.ha r q).add .rn (if sub then y.negate else y)))) ∧
      CompletesX (.mscal f) (max needDA (f.b.need 1)) f.la .plain
        (fun c l => okD c l && okA c l && arith (a c l).fmt && (d c l).fmt == (a c l).fmt && (d c l).rows == (a c l).rows
          && (d c l).cols == (a c l).cols && ((a c l).fmt != .f64 || (match f.b with
            | .v n => n % 2 == 0 && c.runOk f.b 2
            | .w n => n % 2 == 0
            | _ => false)))
        (fun c l =>
          let wide := (d c l).fmt == .f64
          let x := (if wide then fmt64 else fmt32).read (f.ftz && !wide) (c.rd [f.b] 0 wide l)
          rounded c l (fun r q => x.mul (val c f.a l f.ha r q))) ∧
      (∀ ext : Option (Rnd × Bool),
        let rnd := (ext.map (·.1)).getD .rn
        CompletesX (.mcvt f ext) needDA f.la .plain
          (fun c l => okD c l && okA c l && (d c l).rows == (a c l).rows && (d c l).cols == (a c l).cols
            && convOk (a c l).fmt (d c l).fmt rnd)
          (fun c l =>
            let m := mcvt (a c l) (d c l) (c.rawM f.a l f.ha) rnd ((ext.map (·.2)).getD false) f.ftz (srDraw (srStep c.w.srstate).hi l)
            (put c l m.1, m.2)) rnd) ∧
      (∀ kind : NormKind, CompletesX (.mnorm f kind) needDA f.la .plain
        (fun c l => okA c l && arith (a c l).fmt && single c l)
        (fun c l =>
          let wide := (a c l).fmt == .f64
          let fm := if wide then fmt64 else fmt32
          let x := (matNorm { fm := fm, ftz := f.ftz && !wide } kind (c.matM f.ftz f.a l f.ha) (a c l).rows (a c l).cols).run
          (regWrites f.d l wide (fm.finish .rn 0 false x.1).bits, x.2))))

/-- R195, R204–R207: the matrix products. Element (i, j) starts from −0 or the old D and adds the products of row and column
in order, in FP64 one by one, else by blocks of four that are exact before the one rounding of their addition, block after block; a block
with a NaN or with both infinities gives a NaN, one with an infinity gives it; PW operands are read as perturbed weights; MSPMA leaves
out what its metadata does. The order in which causes trap is the model's choice (log 43). -/
def Obligations.Products : Prop :=
  (∀ f : FormX,
    let d := fun (c : Ctx) (l : Nat) => c.shape l f.hd
    let a := fun (c : Ctx) (l : Nat) => c.shape l f.ha
    let result := fun (c : Ctx) (l : Nat) (acc : Bool) (rows cols k : Nat) (x y : Nat → Nat → FV) =>
      let old := c.matM f.ftz f.d l f.hd
      let dot := fun i j => Fl.run (sumOf (arithOf (d c l).fmt f.ftz) (if acc then old.get i j else .zero true) k (x i)
        (fun q => y q j))
      let all := (List.range rows).flatMap (fun i => (List.range cols).map (fun j => (dot i j).2))
      (matWrites l (vNum f.d) (d c l) { codes := (List.range (rows * cols)).map (fun e =>
        let v := if (d c l).byCol then dot (e % rows) (e / rows) else dot (e / cols) (e % cols)
        ((d c l).fmt.fmt.finish .rn 0 false v.1).bits) }, all.foldl (· ||| ·) 0)
    let ok := fun (ob : Opnd) (hb : Nat) (byRows : Bool) (c : Ctx) (l : Nat) =>
      let b := c.shape l hb
      c.regsOk f.d (d c l) && c.regsOk f.a (a c l) && c.regsOk ob b && productFormats (a c l).fmt b.fmt (d c l).fmt
        && (d c l).rows == (a c l).rows && (d c l).cols == (if byRows then b.rows else b.cols)
        && (a c l).cols == (if byRows then b.cols else b.rows)
    let need := fun (more : Nat) => max (f.d.need 1) (max (f.a.need 1) more)
    let fa := fun (c : Ctx) (l : Nat) => (c.factor f.ftz f.a l f.ha).get
    let fb := fun (c : Ctx) (l : Nat) => (c.factor f.ftz f.b l f.hb).get
    let plain := fun (i : Instr) (acc : Bool) => CompletesX i (need (f.b.need 1)) f.la .matrix (ok f.b f.hb false)
      (fun c l => result c l acc (a c l).rows (c.shape l f.hb).cols (a c l).cols (fa c l) (fb c l))
    plain (.mmul f) false ∧ plain (.mma f) true ∧
    (∀ self acc : Bool,
      let ob := if self then f.a else f.b
      let hb := if self then f.ha else f.hb
      CompletesX (.mmt f self acc) (need (if self then 0 else f.b.need 1)) f.la .matrix (ok ob hb true)
        (fun c l => result c l acc (a c l).rows (c.shape l hb).rows (a c l).cols (fa c l)
          (fun q j => (c.factor f.ftz ob l hb).get j q))) ∧
    (∀ (cm : Opnd) (pat : SpPat),
      let word := fun (c : Ctx) (l i : Nat) => (c.getV l (vNum cm + i)).toNat
      let kept := fun (c : Ctx) (l q g n : Nat) => word c l (1 + q / 2) / 2 ^ (16 * (q % 2) + 4 * g + 2 * n) % 4
      let live := fun (c : Ctx) (l i q : Nat) => (pat == .pairs || (word c l 0).testBit q)
        && (pat == .cols || i % 4 == kept c l q (i / 4) 0 || i % 4 == kept c l q (i / 4) 1)
      CompletesX (.mspma f cm pat) (need (max (f.b.need 1) (cm.need 1))) f.la .matrix
        (fun c l => ok f.b f.hb false c l && (pat == .cols || (c.runOk cm (1 + ((a c l).cols + 1) / 2)
          && (List.range (a c l).cols).all (fun q => (List.range (((a c l).rows + 3) / 4)).all (fun g =>
            decide (kept c l q g 0 < kept c l q g 1))))))
        (fun c l => result c l true (a c l).rows (c.shape l f.hb).cols (a c l).cols
          (fun i q => if live c l i q then fa c l i q else .zero false) (fb c l)))) ∧
  (∀ (ftz : Bool) (start : FV) (k : Nat) (a b : Nat → FV), k ≤ 4 → 1 ≤ k → start.finite = true →
    (∀ q, q < k → (a q).finite = true ∧ (b q).finite = true) →
    ∃ v : FV, v.finite = true ∧ v.rat = start.rat + ((List.range k).map (fun q => (a q).rat * (b q).rat)).sum ∧
      let r := fmt32.opRes .rn 0 ftz (v, 0)
      Fl.run (sumOf { fm := fmt32, ftz := ftz } start k a b) = (fmt32.decode r.bits, r.flags)) ∧
  (∀ (ftz : Bool) (start : FV) (m k : Nat) (a b : Nat → FV),
    let sum := fun (c : FV) (n : Nat) (o : Nat) =>
      Fl.run (sumOf { fm := fmt32, ftz := ftz } c n (fun q => a (o + q)) (fun q => b (o + q)))
    let head := sum start (4 * m) 0
    let tail := sum head.1 k (4 * m)
    sum start (4 * m + k) 0 = (tail.1, head.2 ||| tail.2)) ∧
  (∀ (ftz : Bool) (start : FV) (k : Nat) (a b : Nat → FV), k ≤ 4 →
    let p := fun q => ((a q).mul (b q)).1
    let r := Fl.run (sumOf { fm := fmt32, ftz := ftz } start k a b)
    (((∃ q < k, (p q).isNan = true) ∨ (∃ q < k, ∃ j < k, p q = .inf true ∧ p j = .inf false)) → r.1.isNan = true) ∧
    (∀ n, start.finite = true → (∃ q < k, p q = .inf n) → (∀ q < k, (p q).isNan = false ∧ p q ≠ .inf (!n)) → r.1 = .inf n)) ∧
  (∀ (start : FV) (k : Nat) (a b : Nat → FV),
    let r := (List.range k).foldl (fun (x : FV × Nat) q =>
      let y := fmt64.opRes .rn 0 false (FV.fma .rn (a q) (b q) x.1)
      (fmt64.decode y.bits, x.2 ||| y.flags)) (start, 0)
    Fl.run (sumOf { fm := fmt64, ftz := false } start k a b) = r)

/-- R208–R215: the factor forms on square FP32 or FP64 matrices (FP64 up to 8 × 8), by the algorithms of the spec; a zero pivot raises SG.
A signalling NaN that becomes a result as it is raises IV (R81). MREFINE writes x only where it has updated it. The order in which causes
trap is the model's choice (log 43).
R209: MLU's permutation is one of the rows; each element of U, and of L before its division, is the permuted element less the products of
L and U before it, one rounding each, in order. R211: so is each element that MTRS solves; from a zero diagonal element on there are
NaNs. R210: each element of MCHOL's L, up to the column that a d ≤ 0 stops. R212: MINV solves L·y = the permuted column and U·x = y, or
writes MLU's partial factor with SG. R213: MDET multiplies U's diagonal, negated after an odd number of exchanges. R214: MREFINE's
residual accumulates in FP64; its count is at most the cap, and with cap 0 it only measures. R215: MEXP's s is the smallest with
μ ≤ 0.5 × 2^s, and a μ that is NaN or infinite gives NaNs with IV. -/
def Obligations.FactorForms : Prop :=
  (∀ (f : FormX) (cp ce : Opnd) (hc : Nat),
    let sh := fun (c : Ctx) (l : Nat) => c.shape l f.ha
    let n := fun (c : Ctx) (l : Nat) => (sh c l).rows
    let wide := fun (c : Ctx) (l : Nat) => (sh c l).fmt == .f64
    let ar := fun (c : Ctx) (l : Nat) => arithOf (sh c l).fmt f.ftz
    let m := fun (c : Ctx) (l : Nat) => c.matM f.ftz f.a l f.ha
    let square := fun (c : Ctx) (l : Nat) => c.regsOk f.a (sh c l) && (sh c l).rows == (sh c l).cols
      && ((sh c l).fmt == .f32 || ((sh c l).fmt == .f64 && decide (n c l ≤ 8)))
    let like := fun (c : Ctx) (l : Nat) (o : Opnd) (k rows cols : Nat) =>
      c.regsOk o (c.shape l k) && (c.shape l k).fmt == (sh c l).fmt && (c.shape l k).rows == rows && (c.shape l k).cols == cols
    let put := fun (c : Ctx) (l : Nat) (x : Mat) => matWrites l (vNum f.d) (c.shape l f.hd) ((c.shape l f.hd).encode x)
    let need := fun (more : Nat) => max (f.d.need 1) (max (f.a.need 1) more)
    let single := fun (c : Ctx) (l : Nat) => !wide c l || (vNum f.d % 2 == 0 && c.runOk f.d 2)
    let form := fun (i : Instr) (more : Nat) (ok : Ctx → Nat → Bool) (res : Ctx → Nat → List RegW × Nat) =>
      CompletesX i (need more) f.la .matrix (fun c l => square c l && ok c l) res
    let same := fun (c : Ctx) (l : Nat) => like c l f.d f.hd (n c l) (n c l)
    let sig := fun xs : List FV => if xs.any FV.isSig then flIV else 0
    form (.mlu f cp) (cp.need 2) same (fun c l =>
      let r := (lu (ar c l) (n c l) (m c l)).run
      (c.both l (put c l (r.1.result (n c l))) (regWrites cp l true r.1.nibbles),
        (if r.1.fail.isSome then r.2 ||| flSG else r.2) ||| sig (r.1.result (n c l)).flatten)) ∧
    form (.mchol f) 0 same (fun c l =>
      let r := (chol (ar c l) (n c l) (m c l)).run
      (put c l (cholResult (n c l) r.1), if r.1.2.isSome then r.2 ||| flSG else r.2)) ∧
    (∀ (upper unit : Bool) (t : Option Bool), form (.mtrs f upper unit t) (f.b.need 1)
      (fun c l => like c l f.b f.hb (n c l) (c.shape l f.hb).cols && like c l f.d f.hd (n c l) (c.shape l f.hb).cols)
      (fun c l =>
        let turned := t.getD false
        let r := (trs (ar c l) (n c l) (c.shape l f.hb).cols (fun i j => if turned then (m c l).get j i else (m c l).get i j)
          (c.matM f.ftz f.b l f.hb).get (upper == turned) unit).run
        (put c l r.1.1, r.2 ||| sig r.1.1.flatten))) ∧
    form (.minv f) 0 same (fun c l => let r := (inverse (ar c l) (n c l) (m c l)).run; (put c l r.1, r.2)) ∧
    form (.mdet f) 0 single (fun c l =>
      let r := (det (ar c l) (n c l) (m c l)).run
      (regWrites f.d l (wide c l) ((ar c l).fm.finish .rn 0 false r.1).bits, r.2 ||| sig [r.1])) ∧
    form (.mexp f) 0 same (fun c l => let r := (mexp (ar c l) (n c l) (m c l)).run; (put c l r.1.1, r.2)) ∧
    (∀ isLu : Bool, form (.mrefine f isLu cp ce hc) (max (f.b.need 1) (max (cp.need 1) (ce.need 1)))
      (fun c l => like c l f.b f.hb (n c l) (c.shape l f.hb).cols && like c l f.d f.hd (n c l) (c.shape l f.hb).cols
        && like c l cp hc (n c l) (n c l) && c.runOk ce ((if wide c l then 3 else 2) + (if !isLu then 0 else if wide c l then 3 else 2)))
      (fun c l =>
        let q := (c.shape l f.hb).cols
        let k := c.matM f.ftz cp l hc
        let reg := fun j => (c.getV l (vNum ce + j)).toNat
        let tol := if wide c l then fmt64.decode (reg 0 + 2 ^ 32 * reg 1) else fmt32.read f.ftz (reg 0)
        let at_ := if wide c l then 2 else 1
        let solve := fun (kit : Nat) (r : Mat) =>
          if isLu then luSolve (ar c l) (n c l) q k (c.permuted (ar c l).fm l (n c l) kit (reg (2 * at_) + 2 ^ 32 * reg (2 * at_ + 1)) r)
          else do
            let y ← trs (ar c l) (n c l) q k.get r.get true false
            if y.2 then return (y.1, true) else trs (ar c l) (n c l) q (fun i j => k.get j i) y.1.get false false
        let r := (refine (ar c l) (n c l) q (m c l) (c.matM f.ftz f.b l f.hb) tol solve (reg at_ % 256) 0 (c.matM f.ftz f.d l f.hd)).run
        (c.both l (if r.1.2 = 0 then [] else put c l r.1.1) [.v l (vNum ce + at_) (BitVec.ofNat 32 r.1.2)], r.2 ||| sig [tol])))) ∧
  (∀ (ar : Arith) (n : Nat) (a : Mat), let r := (lu ar n a).run.1
    r.perm.Perm (List.range n) ∧ (∀ k, r.fail = some k → k < n) ∧ r.swaps ≤ n ∧
    (a.length = n → (∀ row ∈ a, row.length = n) → r.fail = none → ∀ i < n, ∀ j < n,
      let left := fun k => (List.range k).foldl (fun t q => (Fl.run (ar.fma (r.m.get i q).negate (r.m.get q j) t)).1) (a.get (r.perm.getD i 0) j)
      (i ≤ j → r.m.get i j = left i) ∧ (j < i → r.m.get i j = (Fl.run (ar.div (left j) (r.m.get j j))).1) ∧ (r.m.get j j).isZero = false)) ∧
  (∀ (ar : Arith) (n q : Nat) (m b : Nat → Nat → FV) (lower unit : Bool), let r := Fl.run (trs ar n q m b lower unit)
    (r.1.2 = true ↔ unit = false ∧ ∃ k < n, (m k k).isZero = true) ∧
    (r.1.2 = true → r.2 &&& flSG = flSG) ∧
    ∀ i < n, ∀ c < q,
      let earlier := if lower then List.range i else (List.range (n - (i + 1))).map (i + 1 + ·)
      let t := earlier.foldl (fun t k => (Fl.run (ar.fma (m i k).negate (r.1.1.get k c) t)).1) (b i c)
      let solved := unit = true ∨ ((m i i).isZero = false ∧ ∀ k ∈ earlier, (m k k).isZero = false)
      (solved → r.1.1.get i c = if unit then t else (Fl.run (ar.div t (m i i))).1) ∧ (¬ solved → r.1.1.get i c = .nan false)) ∧
  (∀ (ar : Arith) (n : Nat) (a : Mat), let r := (chol ar n a).run.1
    let less := fun (i j : Nat) => (List.range j).foldl (fun t k => (Fl.run (ar.fma (r.1.get i k).negate (r.1.get j k) t)).1) (a.get i j)
    let stops := fun j : Nat => (less j j).isNan = false ∧ (FV.zero false).lt (less j j) = false
    (∀ k, r.2 = some k → k < n ∧ stops k) ∧
    ∀ j < n, (∀ k, r.2 = some k → j < k) → ¬ stops j ∧ r.1.get j j = (Fl.run (ar.sqrt (less j j))).1 ∧
      (∀ i < n, j < i → r.1.get i j = (Fl.run (ar.div (less i j) (r.1.get j j))).1) ∧ ∀ i < j, r.1.get i j = .zero false) ∧
  (∀ (ar : Arith) (n : Nat) (a : Mat), let s := (lu ar n a).run.1
    let d := (det ar n a).run.1
    let v := (inverse ar n a).run
    (s.fail ≠ none → d = .zero false ∧ v.1 = s.result n ∧ v.2 &&& flSG = flSG) ∧
    (s.fail = none → 0 < n →
      let product := ((List.range (n - 1)).map (1 + ·)).foldl (fun t i => (Fl.run (ar.mul t (s.m.get i i))).1) (s.m.get 0 0)
      d = if s.swaps % 2 = 1 then product.negate else product) ∧
    (s.fail = none → a.length = n → (∀ row ∈ a, row.length = n) → ∃ y : Mat, ∀ i < n, ∀ c < n,
      y.get i c = (List.range i).foldl (fun t k => (Fl.run (ar.fma (s.m.get i k).negate (y.get k c) t)).1)
        (if s.perm.getD i 0 = c then .one else .zero false) ∧
      v.1.get i c = (Fl.run (ar.div (((List.range (n - (i + 1))).map (i + 1 + ·)).foldl
        (fun t k => (Fl.run (ar.fma (s.m.get i k).negate (v.1.get k c) t)).1) (y.get i c)) (s.m.get i i))).1)) ∧
  (∀ (ar : Arith) (n q cap : Nat) (a b x : Mat) (tol : FV) (solve : Nat → Mat → Fl (Mat × Bool)),
    let r := (refine ar n q a b tol solve cap 0 x).run.1
    r.2 ≤ cap ∧ (r.2 = 0 → r.1 = x) ∧
    ∀ i < n, ∀ c < q, ((residual ar n q a b x).run.1).get i c =
      let t := (List.range n).foldl (fun t j => (Fl.run (Arith.fma { fm := fmt64, ftz := false } (a.get i j).negate (x.get j c) t)).1) (b.get i c)
      if ar.fm = fmt64 then t else (Fl.run (ar.rn (t, 0))).1) ∧
  (∀ (f : MFmt) (ftz : Bool) (n : Nat) (a : Mat), f = .f32 ∨ f = .f64 →
    let ar := arithOf f ftz
    let mu := maxAbs ((List.range n).map (fun j => (List.range n).foldl (fun t i => (Fl.run (ar.add t (a.get i j).abs)).1) (.zero false)))
    let r := (mexp ar n a).run
    (mu.finite = false → (∀ i < n, ∀ j < n, (r.1.1.get i j).isNan = true) ∧ r.2 &&& flIV = flIV) ∧
    (mu.finite = true → mu.rat ≤ 2 ^ r.1.2 / 2 ∧ ∀ k < r.1.2, ¬ mu.rat ≤ 2 ^ k / 2))

/-- R198–R200, R191: matrix loads and stores. A lane's footprint is its lines at the pitch, or its blocks one after another; a
load issues one load a byte in that order, and a store leaves each byte of a lane's elements in one write of that lane, unless
a higher lane writes the byte too. Under .FTZ an FP32 store in its own format takes a subnormal as a zero (R80). A replayed .SR store
draws what its first issue drew (R89). That a load takes one access for each byte (log 45), and that of a replayed store only the lanes left
raise flags, with no flag trap for the lanes done before (log 89), are the model's choices. -/
def Obligations.MatrixMemory : Prop :=
  ∀ (f : FormX) (hint : Hint) (space : MSpace) (off : Option Word) (s : State) (w : Warp) (front : Mask),
    let team := match space with
      | .team => Where.scratch
      | .group => .window
      | .lane => .slice
    let addrs := fun (p : Footprint) =>
      if p.fmt.isNx then (List.range ((if p.fmt == .nx4 then 18 else 33) * p.sh.blocks)).map (p.base + ·)
      else (List.range p.sh.lines).flatMap (fun r => (List.range (p.sh.len * p.fmt.bytes)).map (fun b => p.base + r * p.pitch + b))
    let need := fun sp : Where => max (f.d.need 1) (max (f.a.need (if sp = .global then 2 else 1)) (f.b.need 1))
    let load := fun (i : Instr) (sp : Where) (nol1 : Bool) =>
      i.wf = true → s.Acts w front →
      let c := s.at_ w front i
      let print := fun l => c.footprint sp f off (c.shape l f.hd).fmt l
      let news := (c.todo.flatMap (fun l => (addrs (print l)).map (fun va => (l, va)))).zipIdx.map (fun (e : (Nat × Nat) × Nat) =>
        { id := s.nextId + 1 + e.2, for_ := .warp s.cur s.nextId, warp := s.cur, lane := e.1.1, core := w.core
          loc := c.matrixLoc sp .rd e.1.1 e.1.2, scope := .core, order := w.order, nol1 := nol1 : Load })
      c.Fits (need sp) → (sp = .global → s.watched w = false) →
      (∀ l ∈ c.todo, ∃ p, c.matrixChk sp .rd f l (print l) true = .ok p) →
      ∃ t x lat items, exec i s = .next t ∧ t.warp? s.cur = some x ∧ t.mem = s.mem ∧ t.entries = s.entries ∧
        t.loads = s.loads ++ news ∧ items.map (·.1) = c.todo ∧
        (∀ e ∈ items, e.2 = (vNum f.d, (w.getH e.1 f.hd).toNat % 2 ^ 32, (news.filter (fun y => y.lane == e.1)).map (·.id))) ∧
        c.Performed x [] (if c.todo = [] then none
          else some (fun g => c.Starts g (w.lookahead f.la) lat (.matrixLoad items) [] [] 0 (if sp = .window then 32 else 0)))
    let store := fun (i : Instr) (sp : Where) (fmt : Ctx → Nat → MFmt) (ok : Ctx → Nat → Bool) (data : Ctx → Nat → RawM × Nat) (rnd : Rnd) =>
      i.wf = true → s.Acts w front →
      let c := s.at_ w front i
      let print := fun l => c.footprint sp f off (fmt c l) l
      let elements := fun l => ((print l).elements (data c l).1).map (fun e => (c.matrixLoc sp .wr l e.1, e.2))
      let holds := fun (l b : Nat) => (elements l).any (fun e => decide (e.1 ≤ b) && decide (b < e.1 + e.2.1))
      let raised := fun l => if l ∈ c.todo then (data c l).2 else 0
      c.Fits (need sp) → (sp = .global → s.watched w = false) → c.Quiet raised →
      (∀ l ∈ c.todo, ∃ p, c.matrixChk sp .wr f l (print l) (ok c l) = .ok p) →
      ∃ t x news, exec i s = .next t ∧ t.warp? s.cur = some x ∧ t.mem = s.mem ∧ t.loads = s.loads ∧ t.entries = s.entries ++ news ∧
        (∀ e ∈ news, e.kind = .write ∧ e.scope = .core ∧ e.place = .tsq s.cur e.lane ∧ e.warp = s.cur ∧ e.core = w.core ∧
          e.order = w.order ∧ e.lane ∈ c.todo ∧ 0 < e.len ∧
          ∃ y ∈ elements e.lane, y.1 ≤ e.loc ∧ e.loc + e.len ≤ y.1 + y.2.1 ∧ e.val = y.2.2 / 256 ^ (e.loc - y.1) % 256 ^ e.len) ∧
        (∀ l ∈ c.todo, ∀ b, (∃ e ∈ news, e.lane = l ∧ e.loc ≤ b ∧ b < e.loc + e.len) ↔
          holds l b = true ∧ ∀ k ∈ c.todo, l < k → holds k b = false) ∧
        x.srstate = (if rnd = .sr then srStep (w.srFrom front) else w.srstate) ∧ SameRegs w x [] ∧ SameFlights w x ∧
        SameSpecial { w with done := 0, srstate := x.srstate } x ∧ c.Popped x [] ∧ c.Threads x (fun l t => t.sticky (raised l))
    load (.mld f hint off) .global (hint == .nol1) ∧ load (.mlds f space off) team false ∧
    (∀ (rnd : Rnd) (sat : Bool),
      let fmt := fun (c : Ctx) (l : Nat) => if f.hb = 15 then (c.shape l f.hd).fmt else allMFmt.getD f.hb (c.shape l f.hd).fmt
      store (.mst f hint off rnd sat) .global fmt (fun c l => convOk (c.shape l f.hd).fmt (fmt c l) rnd)
        (fun c l => if fmt c l = (c.shape l f.hd).fmt then
            let m := c.rawM f.d l f.hd
            ({ m with codes := m.codes.map (fun x => if f.ftz && fmt c l == .f32 && fmt32.isSub x then x / 2 ^ 31 * 2 ^ 31 else x) }, 0)
          else mcvt (c.shape l f.hd) { c.shape l f.hd with fmt? := some (fmt c l) } (c.rawM f.d l f.hd) rnd sat f.ftz
            (srDraw (srStep (w.srFrom front)).hi l)) rnd) ∧
    store (.msts f space off) team (fun c l => (c.shape l f.hd).fmt) (fun _ _ => true) (fun c l => (c.rawM f.d l f.hd, 0)) .rn

/-- R217–R220, R233: LVORG, LVMEM and LVCTL write the words that the perturbation is indexed by; LVEPS writes each element's
deviation, or its ε with .EPS; LVGRAD adds a gradient to the mean and, times deviation and ln 2, to the log-deviation.
R233–R237: ε is 0 under bit 1 of SR_LVCTL, a fixed entry of T under bit 0, and else lies between two neighbours of T; T is
antisymmetric and rises. R232: p is σ × ε / 4096 rounded once, exact for an integer log-deviation, and w rounds μ + p to FP32 and then to
BF16. That LVGRAD does not flush the deviation under .FTZ is the model's choice (log 46), as is the order in which causes trap (log 43). -/
def Obligations.LouvreForms : Prop :=
  (∀ (f : FormX) (cc : Opnd) (hc : Nat),
      let sets := fun (i : Instr) (os : List Opnd) (p : Ctx → Warp → Prop) (back : Warp → Warp → Warp) =>
        ∀ (s : State) (w : Warp) (front : Mask), i.wf = true → s.Acts w front →
          let c := s.at_ w front i
          c.Fits ((os.map (·.need 1)).foldl max 0) → c.Pops os →
          ∃ x, c.Left x i ∧ p c x ∧ c.Passes (back w x) os
      let ctl := fun c : Ctx => c.w.lvctl.toNat
      let mean := fun (c : Ctx) (l r q : Nat) => c.pair l f.ha (c.rawM f.a l f.ha) r q
      let eps := fun (c : Ctx) (l r q : Nat) =>
        let o := (c.w.getH l f.ha).toNat / 2 ^ 32
        louvreEps (ctl c) (c.s.gridOf c.w).launch.key (o % 2 ^ 24) ((c.w.th l).lvmem.toNat % 2 ^ 16)
          ((o / 2 ^ 24 + r) % 2 ^ 20) ((o / 2 ^ 44 + q) % 2 ^ 20)
      let deviation := fun (c : Ctx) (l r q : Nat) => louvreP (ctl c) (mean c l r q).2 (eps c l r q)
      let like := fun (c : Ctx) (l : Nat) (o : Opnd) (k : Nat) =>
        let s := c.shape l k
        c.regsOk o s && s.fmt == .f32 && s.rows == (c.shape l f.ha).rows && s.cols == (c.shape l f.ha).cols
      let pair := fun (c : Ctx) (l : Nat) => c.regsOk f.a (c.shape l f.ha) && (c.shape l f.ha).fmt.isPw
      let codes := fun (d : Shape) (g : Nat → Nat → Nat) => (List.range (d.rows * d.cols)).map (fun e =>
        if d.byCol then g (e % d.rows) (e / d.rows) else g (e / d.cols) (e % d.cols))
      let flags := fun (d : Shape) (g : Nat → Nat → Nat) =>
        ((List.range d.rows).flatMap (fun r => (List.range d.cols).map (g r))).foldl (· ||| ·) 0;
      sets (.lvorg f cc) [f.a, f.b, cc] (fun c x => ∀ l k, k < 16 →
        x.getH l k = if l ∈ c.active.lanes ∧ k = f.hd then
          let os := [f.a, f.b, cc]
          let v := c.rd os 0 false l % 2 ^ 24 + c.rd os 1 false l % 2 ^ 20 * 2 ^ 24 + c.rd os 2 false l % 2 ^ 20 * 2 ^ 44
          BitVec.ofNat 96 (v * 2 ^ 32 + (c.w.getH l k).toNat % 2 ^ 32) else c.w.getH l k)
        (fun w x => { x with hregs := w.hregs }) ∧
      sets (.lvctl f) [f.a] (fun c x => x.lvctl = match c.active.lowest with
          | none => c.w.lvctl
          | some l => BitVec.ofNat 32 (c.rd [f.a] 0 false l % 4))
        (fun w x => { x with lvctl := w.lvctl }) ∧
      (∀ (s : State) (w : Warp) (front : Mask), let i := Instr.lvmem f
        i.wf = true → s.Acts w front →
        let c := s.at_ w front i
        c.Fits (f.a.need 1) → c.Pops [f.a] →
        ∃ x, c.Left x i ∧ SameRegs w x [] ∧ SameSpecial w x ∧ SameFlights w x ∧ c.Popped x [f.a] ∧
          c.Threads x (fun l t => if c.active.has l then { t with lvmem := BitVec.ofNat 32 (c.rd [f.a] 0 false l % 2 ^ 16) } else t)) ∧
      (∀ e : Bool, CompletesX (.lveps f e) (max (f.d.need 1) (f.a.need 1)) f.la .plain (fun c l => pair c l && like c l f.d f.hd)
        (fun c l =>
          let d := c.shape l f.hd
          (matWrites l (vNum f.d) d { codes := codes d (fun r q => (fmt32.finish .rn 0 false
            (if e then (FV.ofInt (eps c l r q)).scale (-12) else deviation c l r q)).bits) }, 0))) ∧
      CompletesX (.lvgrad f cc hc) (max (f.d.need 1) (max (f.a.need 1) (max (f.b.need 1) (cc.need 1)))) f.la .plain
        (fun c l => pair c l && like c l f.d f.hd && like c l f.b f.hb && like c l cc hc)
        (fun c l =>
          let d := c.shape l f.hd
          let dl := c.shape l hc
          let get := fun (o : Opnd) (k r q : Nat) => (c.matM f.ftz o l k).get r q
          let u := fun r q => fmt32.decode (fmt32.finish .rn 0 false ((deviation c l r q).mul (fmt32.decode 0x3F317218)).1).bits
          let mu := fun r q => fmt32.opRes .rn 0 f.ftz ((get f.d f.hd r q).add .rn (get f.b f.hb r q))
          let lam := fun r q => fmt32.opRes .rn 0 f.ftz (FV.fma .rn (get f.b f.hb r q) (u r q) (get cc hc r q))
          (c.both l (matWrites l (vNum f.d) d { codes := codes d (fun r q => (mu r q).bits) })
            (matWrites l (vNum cc) dl { codes := codes dl (fun r q => (lam r q).bits) }),
            flags d (fun r q => (mu r q).flags) ||| flags d (fun r q => (lam r q).flags)))) ∧
  (∀ (ctl : Nat) (key : DWord) (tensor member row col : Nat),
      let e := louvreEps ctl key tensor member row col
      (ctl.testBit 1 = true → e = 0) ∧
      (ctl.testBit 1 = false → ctl.testBit 0 = true → e = louvreT ((row * 37 + col * 11 + member * 101) % 1024)) ∧
      (ctl.testBit 1 = false → ctl.testBit 0 = false →
        ∃ j, j < 1024 ∧ louvreT j ≤ e ∧ e ≤ louvreT (j + 1)) ∧
      (∀ j, j < 1024 → louvreT (1023 - j) = -(louvreT j) ∧ louvreT j ≤ louvreT (j + 1) ∧ (j < 1023 → louvreT j < louvreT (j + 1))) ∧
      -13505 ≤ e ∧ e ≤ 13505) ∧
  (∀ (ctl : Nat) (lam mu : FV) (eps : Int), -13505 ≤ eps → eps ≤ 13505 →
      let sigma := louvreSigma lam
      let p := louvreP ctl lam eps
      let x := sigma.rat * (eps : Rat) / 4096
      let y := mu.rat + p.rat
      (ctl.testBit 1 = true → p = .zero false) ∧
      (ctl.testBit 1 = false → sigma.finite = true → magnitude x < 2 ^ 127 → ∃ b, p = fmt32.decode b ∧ Rounded fmt32 .rn x b) ∧
      (ctl.testBit 1 = false → ∀ n : Int, -126 ≤ n → n ≤ 125 → lam = FV.ofInt n → p.finite = true ∧ p.rat = (2 : Rat) ^ n * (eps : Rat) / 4096) ∧
      (ctl.testBit 1 = false → (lam.isNan = true ∨ (sigma = .inf false ∧ eps = 0)) → p.isNan = true) ∧
      (mu.finite = true → p.finite = true → magnitude y < 2 ^ 126 →
        ∃ b, Rounded fmt32 .rn y b ∧ Rounded fmtBf .rn (fmt32.decode b).rat (louvreW mu p)) ∧
      (mu.isNan = true → louvreW mu p = 0x7FC0))
/-! ## Decoding, operands, steps (R1, R60, R91–R99) -/

/-- R95 and the encodings of Tables 7.1–7.8: the structural checks, and words written out from the encodings. R97: what
decoding hands on is well formed. -/
def Obligations.DecodedWords : Prop :=
  (∀ w0 w1, w0 / 2 ^ 63 % 2 = 0 → decodeWords w0 w1 = .illegalOpcode 0) ∧
  (∀ w0 w1, let op := w0 / 2 ^ 53 % 256
    w0 / 2 ^ 63 % 2 = 1 →
    ((0x18 ≤ op ∧ op ≤ 0x1F) ∨ (0x54 ≤ op ∧ op ≤ 0x5F) ∨ (0x83 ≤ op ∧ op ≤ 0x8F) ∨ (0xAD ≤ op ∧ op ≤ 0xBF) ∨ 0xD8 ≤ op ∨
      (w0 / 2 ^ 62 % 2 = 1 ∧ w1 / 2 ^ 63 % 2 = 1)) → decodeWords w0 w1 = .illegalOpcode op) ∧
  (∀ w0 w1 i, decodeWords w0 w1 = .ok i → i.wf = true ∧ i.isForm = true ∧ i.op = w0 / 2 ^ 53 % 256) ∧
  (∀ w1 < 2 ^ 63, decodeWords 0x801C000000000000 w1 = .ok (.nop {})) ∧
  decodeWords 0x851C0500802800C0 0 = .ok (.imad { d := .v 10, a := .v 4, b := .opnd (.v 5), c := .v 6 }) ∧
  decodeWords 0x87FC010060840100 0 = .ok (.icmp { d := 2, a := .v 3, b := .imm10 16, cond := .lt }) ∧
  decodeWords 0x899C038022000800 0 = .ok (.lds { d := .v 7, a := .v 1, off := .imm10 64 } 1)

/-- R91–R101, R103: decoding the encoding of a well-formed instruction form gives that form, with every operand. -/
def Obligations.DecodeOfEncode : Prop :=
  ∀ i : Instr, i.isForm = true → i.wf = true → decodeBytes (encodeBytes i) = .ok i

/-- R98, R99 (Tables 7.3, 7.4): what each operand code and each immediate gives as a source. R60: sources pop in the order A, B, C, and
the first field whose queue holds fewer entries than the instruction pops from it decides (log 71): it waits for a RUNNING stream, or
traps with a faulted stream's cause for its failed lanes, or traps QUEUE_MISUSE for the active lanes. R55: a register that is not
allocated traps ILLEGAL_OPERAND for the whole front. -/
def Obligations.OperandValues : Prop :=
  (∀ (c : Ctx) (pre post : List Opnd) (l : Nat),
    let give := fun (o : Opnd) (wide : Bool) => c.rd (pre ++ o :: post) pre.length wide l
    give .zero false = 0 ∧ give .zero true = 0 ∧ give .lane false = l ∧ give .lane true = l ∧ give .warp false = c.w.num ∧
    give .warp true = c.w.num ∧ give .ones false = 2 ^ 32 - 1 ∧ give .ones true = 2 ^ 64 - 1 ∧
    (∀ q, give (.oq q) false =
      (((Table.get [] c.w.oqs q).getD (pre.countP (fun o => o == .oq q)) []).getD l 0).toNat) ∧
    (c.w.flights = [] → ∀ n,
      give (.v n) false = (c.w.getV l n).toNat ∧ give (.v n) true = (c.w.getV l (n + 1) ++ c.w.getV l n).toNat ∧
      give (.w n) false = (c.w.getW n).toNat ∧ give (.w n) true = (c.w.getW (n + 1) ++ c.w.getW n).toNat)) ∧
  (∀ (x : BitVec 10) (y : BitVec 32),
    (∀ ty ∈ [NumTy.i32, .u32, .i16, .u16, .i8, .u8], immVal ty (.imm10 x) = (x.signExtend 32).toNat ∧ immVal ty (.imm32 y) = y.toNat) ∧
    (∀ ty ∈ [NumTy.i64, .u64], immVal ty (.imm10 x) = (x.signExtend 64).toNat ∧ immVal ty (.imm32 y) = (y.signExtend 64).toNat) ∧
    immVal .f32 (.imm10 x) = (x ++ 0#22).toNat ∧ immVal .f32 (.imm32 y) = y.toNat ∧
    immVal .f64 (.imm10 x) = (x ++ 0#54).toNat ∧ immVal .f64 (.imm32 y) = (y ++ 0#32).toNat ∧
    (∀ ty ∈ [NumTy.f16, .bf16], immVal ty (.imm10 x) = (x ++ 0#6 ++ x ++ 0#6).toNat ∧ immVal ty (.imm32 y) = y.toNat)) ∧
  (∀ (f : FormA) (s : State) (w : Warp) (front : Mask) (q : Nat), s.Acts w front →
    let c := s.at_ w front (.iadd f)
    let lacks := fun k => (Table.get [] w.oqs k).length < f.srcs.countP (fun o => o == .oq k)
    let stream := Table.get {} w.streams q
    c.Fits (f.room f.ty.wide f.ty.wide f.ty.wide) →
    f.srcs.find? (fun o => match o with | .oq k => decide (lacks k) | _ => false) = some (.oq q) →
    (stream.st = .running → exec (.iadd f) s = .next (c.settle (.wait .memWait))) ∧
    (stream.st = .fault → c.active ≠ 0 → exec (.iadd f) s = .next (c.settle (.trap s stream.cause stream.bad))) ∧
    (stream.st ≠ .running → stream.st ≠ .fault → c.active ≠ 0 →
      exec (.iadd f) s = .next (c.settle (.trap s .queueMisuse c.active)))) ∧
  (∀ (f : FormA) (s : State) (w : Warp) (front : Mask), s.Acts w front →
    (s.kernOf w).regs < f.room f.ty.wide f.ty.wide f.ty.wide →
    exec (.iadd f) s = .next ((s.at_ w front (.iadd f)).settle (.trap s .illegalOperand front)))

/-- R323, R93, R95, R97: the port's turn takes the warp that it chooses, and where the words at its PC decode to an instruction,
the step is exec of that instruction, with what goes with an issue (charge, fetch, selection state, units held, latencies); one that
finds something to wait for leaves the port to choose again; where the words do not decode, the warp traps. R97: the allocation and
the special register are checked before breakpoints and safe points. R354: a matching comparator counts an issue that is no safe point; that
it counts a word which does not decode unless this has its S bit set is the model's choice (log 104). Fronts that must switch in this clock
have switched before the port chooses (R30, R31). In a deterministic grid, results of a window that the instruction waits for are in their
registers first (log 68). A turn of the agenda is taken as it stands (log 1). -/
def Obligations.StepRunsTheInstruction : Prop :=
  (∀ (s t₀ : State) (p port : Nat) (slot wid : Nat) (w : Warp) (front : Mask),
    s.nextTurn = (.port p port, t₀) → t₀.portOpen p port = true →
    let t := t₀.switchOver p
    let kernel := (t.kernOf w).id
    let ready := t.readySlots p port
    let lead := front.lowest.getD 0
    (Table.get {} (t.part p).ports port).choose ready = some slot → t.warpIn p slot = some wid → t.warp? wid = some w →
    w.cur = some front →
    (∀ i pc, t.offer w lead = .ok i pc →
      (i.need ≤ (t.kernOf w).regs → mayAccess i = true → i.hdr.safe = true → (w.th lead).inRep = false → w.inRoutine = false →
        (w.passes front = false → t.matches_ w pc = []) ∧ t.safeWaits w i lead = none) →
      let fits := i.need ≤ (t.kernOf w).regs ∧ mayAccess i = true
      let atSafe := i.hdr.safe = true ∧ (w.th lead).inRep = false ∧ w.inRoutine = false
      let w' := t.opened w front i
      (w.deferred = [] → w' = w) ∧
      step s = (match exec i { ((if fits then t.passSafe wid w i lead else t).modWarp wid (fun x => t.opened x front i)) with cur := wid } with
        | .next u =>
          if u.hasIssued wid then
            let v := ((if atSafe then u else u.missed t w' (t.matches_ w pc)).shadowed t.mod.shadow (t.ctxOf w')).modWarp wid (fun x =>
              (t.holdUse w' front (t.activeLanes w' front i.hdr) i (t.core w'.core).cyc x).passDeferred front)
            .next (v.afterIssue p port wid w' kernel ready i.op pc i.clocksA (divideClocks i.op (t.offering w' front i))
              (sfuClocks i.op (t.offering w' front i)))
          else if (Table.get {} (u.part p).ports port).charged then .next u
          else State.tryPort p port 15 u
        | r => r)) ∧
    (∀ op pc, t.offer w lead = .bad true op pc → ∀ u, exec (.illegalOpcode wid) t = .next u →
      step s = .next ((u.missed t w (t.matches_ w pc)).afterIssue p port wid w kernel ready op pc 1 0 0)) ∧
    (∀ op pc, t.offer w lead = .bad false op pc →
      step s = .next (((t.raise wid .illegalOperand 0 op front front (w.retPoints front 8) .reissue none).missed t w
        (if t.safeWord w lead then [] else t.matches_ w pc)).afterIssue p port wid w kernel ready op pc 1 0 0))) ∧
  (∀ (s : State) (w : Warp) (l x : Nat), (w.th l).inRep = false → s.codeWord w (w.th l).pc = .word x →
    (x / 2 ^ 63 % 2 = 0 → s.offer w l = .bad true 0 (w.th l).pc) ∧
    (∀ y i, (x / 2 ^ 62 % 2 = 1 → s.codeWord w ((w.th l).pc + 8) = .word y) → x / 2 ^ 63 % 2 = 1 →
      decodeWords x (if x / 2 ^ 62 % 2 = 1 then y else 0) = .ok i → s.offer w l = .ok i (w.th l).pc)) ∧
  (∀ (s : State) (i : Instr) (r : List Turn), s.agenda = .take i :: r → byPort i = false →
    step s = exec i { s with agenda := r, tick := s.tick + 1, fresh := s.fresh + stepFree })

/-- R277: memory keeps its canonical form (log 4) in every step, from every state. -/
def Obligations.MemoryKeepsItsForm : Prop := ∀ s t : State, memWf s.mem = true → step s = .next t → memWf t.mem = true

/-- Table 30.1, R12, R67, R324, R363: what the reset values of the spec are after reset, and memory lists nothing. -/
def Obligations.ResetValues : Prop :=
  let s := State.reset
  memWf s.mem = true ∧ s.mem = [] ∧ s.warps = [] ∧ s.mod.contexts = [] ∧ s.mod.grids = [] ∧ s.mod.boost = 0 ∧
  (∀ p, (s.part p).shutBudget = 24 ∧ (s.part p).refusals = 0) ∧
  (∀ p port, (Table.get {} (s.part p).ports port).pointer = 0) ∧
  (∀ k, (s.cluster k).droopThr = 40 ∧ (s.cluster k).alarms = 0 ∧ (s.cluster k).byteBudget = 0) ∧
  (∀ d, (s.die d).step = 18) ∧
  (∀ c, (s.core c).ratio = 8 ∧ (s.core c).cyc = 0 ∧ (s.core c).current.tag = 0 ∧ (s.core c).shadow.tag = 0)

/-! ## Host commands and the outside (R353, R356–R368, R380–R390) -/

/-- R382, R283, R335, R341, R348, R353, R356, R387, R390: each command of Table 34.2 that stands first in the ring is carried out,
or refused where its conditions fail. A command that is done gets status 1 and one that is refused status 2 with an error
record, and the ring's read index moves on; a read of a power register of a unit that there is not is refused. That DESTROY of a context
that there is not, and RESUME of a warp that is not stopped, are done without effect is the model's choice (log 54), as are the details of
the error records (log 35) and that a host's write of a clock changes none while the watchdog holds it (log 85). -/
def Obligations.HostCommands : Prop :=
  ∀ (s : State) (a : Nat) (c : Cmd),
    let at_ := fun op => s.commandAt = some a ∧ s.assignedRange a 64 = true ∧ s.mod.command = none ∧ s.commandOf a = (op, c)
    let ends := fun (i : Instr) (t : State) => exec i s = .next (t.endCommand true)
    let refused := fun (i : Instr) => exec i s = .next (s.endCommand false)
    let named := fun (i : Nat) (w : Warp) => s.warpIn c.arg0 c.arg1 = some i ∧ s.warp? i = some w ∧ s.ctxOf w = c.ctx ∧
      (s.context c.ctx).debug = true
    let mask := if c.arg0 = 0 ∧ c.arg1 = 0 then 2 ^ 128 - 1 else c.arg0 % 2 ^ 64 + 2 ^ 64 * (c.arg1 % 2 ^ 64)
    (∀ b, s.mod.bringup = some b → s.commandAt = some a → s.endCommand true =
      (let u := (s.pokeN (a + 1) 1 1).pokeN (b.commands + 4) 4 ((s.peekN (b.commands + 4) 4 + 1) % 2 ^ 32)
       { u with mod := { u.mod with command := none } })) ∧
    (∀ b, s.mod.bringup = some b → s.commandAt = some a → s.endCommand false =
      (let u := (s.pokeN (a + 1) 1 2).pokeN (b.commands + 4) 4 ((s.peekN (b.commands + 4) 4 + 1) % 2 ^ 32)
       ({ u with mod := { u.mod with command := none } }).errorRecord 0x18 (s.peekN (a + 2) 2) s.noSource a)) ∧
    (at_ 1 → s.assignedRange c.arg0 128 = true →
      let x := contextOf (fun o n => s.peekN (c.arg0 + o) n)
      if c.ctx ≠ 0 ∧ s.context? c.ctx = none ∧ s.contextOk x = true
      then ends (.create c) { s with mod := { s.mod with contexts := Table.put s.mod.contexts c.ctx x } }
      else refused (.create c)) ∧
    (at_ 2 → ∃ t, ends (.destroy c) t ∧ t.context? c.ctx = none ∧ (∀ k, k ≠ c.ctx → t.context? k = s.context? k) ∧
      (∀ e ∈ t.mod.grids, e.2.ctx ≠ c.ctx) ∧ (∀ i w, t.warp? i = some w → s.ctxOf w ≠ c.ctx) ∧
      (∀ x ∈ t.copies, x.ctx ≠ c.ctx) ∧ ∀ f ∈ t.mod.faults, f.ctx ≠ c.ctx) ∧
    (at_ 3 →
      let keeps := fun (e : Nat × Nat × Nat) =>
        let size := pageSize e.2.2
        let page := e.1 % 2 ^ 64 * 2 ^ 15 / size * size
        !(decide (e.1 / 2 ^ 64 = c.ctx) && decide (page < c.arg0 + c.arg1) && decide (c.arg0 < page + size))
      ∃ t, ends (.invalidate c) t ∧ (∀ k, (t.core k).tlb = (s.core k).tlb.filter keeps) ∧
        (∀ d, (t.die d).tlb = (s.die d).tlb.filter keeps) ∧ t.mem = s.mem ∧ t.warps = s.warps ∧ t.mod = s.mod) ∧
    (at_ 4 → (∀ x ∈ s.copies, x.ctx ≠ c.ctx) → ∃ t, ends (.resolved c) t ∧ t.mem = s.mem ∧ t.copies = s.copies ∧
      ∀ i w, s.warp? i = some w → s.ctxOf w = c.ctx →
        let hit := fun page size : Nat => page ≤ c.arg0 ∧ c.arg0 < page + size
        let reads := fun (_ : Nat) (y : Stream) => match y.waits with
          | some (page, size) => if hit page size then { y with waits := none } else y
          | none => y
        let v := { w with streams := Table.mapVal reads w.streams }
        t.warp? i = some (match w.waitPage with
          | some (page, size, _) => if hit page size then { v with waitPage := none, wait := none } else v
          | none => v)) ∧
    (at_ 5 →
      (∀ i w r, named i w → w.stopped = some r →
        let v := if w.cur = none then w.regroupFront else w
        ends (.resume c) (s.putWarp i { v with
          stopped := none
          passKeyhole := v.passKeyhole ++ (if r.cause = .keyhole then r.lanes.lanes.map (fun l => (v.level, l, (v.th l).pc)) else []) })) ∧
      (∀ i w, named i w → w.stopped = none → ends (.resume c) s) ∧ ((∀ i w, ¬named i w) → refused (.resume c))) ∧
    (at_ 6 → c.reads = false →
      (c.unit < powerUnits c.reg → ∃ t, ends (.power c) t ∧ t.PowerHolds c.reg c.unit c.arg1 ∧ t.mem = s.mem ∧ t.warps = s.warps) ∧
      (¬c.unit < powerUnits c.reg → refused (.power c))) ∧
    (at_ 6 → c.reads = true → s.assignedRange c.arg1 4 = true →
      let gives := fun x => ends (.powerRead c) (s.pokeN c.arg1 4 x)
      (c.reg = 0 → c.unit < 3072 → gives (s.part c.unit).shutBudget) ∧ (c.reg = 1 → c.unit < 128 → gives (s.cluster c.unit).droopThr) ∧
      (c.reg = 2 → c.unit < 128 → gives (s.cluster c.unit).alarms) ∧ (c.reg = 3 → c.unit < 8 → gives (s.die c.unit).stepWritten) ∧
      (c.reg = 4 → c.unit < 768 → gives (s.core c.unit).ratioWritten) ∧
      (c.reg = 5 → c.unit < 128 → gives (s.cluster c.unit).byteBudget) ∧ (c.reg = 6 → c.unit = 0 → gives s.mod.boost) ∧
      (6 < c.reg → refused (.powerRead c)) ∧
      (c.reg ≤ 6 → (if c.reg = 2 then 128 else powerUnits c.reg) ≤ c.unit → refused (.powerRead c))) ∧
    (at_ 7 →
      (c.arg0 = 0 → c.arg1 < 128 → ends (.fuse c) { s with mod := { s.mod with fusePending := s.mod.fusePending ++ [(false, c.arg1)] } }) ∧
      (c.arg0 = 1 → c.arg1 < 16 → ends (.fuse c) { s with mod := { s.mod with fusePending := s.mod.fusePending ++ [(true, c.arg1)] } }) ∧
      (¬(c.arg0 = 0 ∧ c.arg1 < 128) → ¬(c.arg0 = 1 ∧ c.arg1 < 16) → refused (.fuse c))) ∧
    (at_ 8 → s.assignedRange c.arg0 64 = true → s.assignedRange c.arg1 196 = true →
      let hash := sha512 Config.firmwareImage
      let nonce := (List.range 64).map (fun k => s.peek (c.arg0 + k))
      ends (.attest c) (s.pokeBytes c.arg1 (hash ++ (List.range 132).map (Config.attestSignature hash nonce)))) ∧
    (at_ 9 → ∃ t, exec (.switch c) s = .next t ∧ t.mod.command = some (9, c) ∧
      (∀ x, s.context? c.ctx = some x → (t.context c.ctx).switchMask = some (x.switchMask.getD 0 ||| mask)) ∧
      ∀ i w, s.warp? i = some w → s.ctxOf w = c.ctx → mask.testBit (clusterOfCore (coreOfPart w.part)) = true → w.inSlot = true →
        ∃ x, t.warp? i = some x ∧ .switch ∈ x.saveDue) ∧
    (at_ 10 →
      let u := s.modContext c.ctx (fun x => { x with switchMask := none })
      let v := { u with mod := { u.mod with command := some (10, c) } }
      (u.allBack c.ctx = true → ends (.readmit c) v) ∧ (u.allBack c.ctx = false → exec (.readmit c) s = .next v)) ∧
    (at_ 11 →
      (∀ i w, named i w → w.stopped = none → ∃ x, x.saveDue.contains .stop = true ∧ { x with saveDue := w.saveDue } = w ∧
        exec (.stop c) s = .next { (s.putWarp i x) with mod := { s.mod with command := some (11, c) } }) ∧
      (∀ i w, named i w → w.stopped ≠ none → ends (.stop c) s) ∧ ((∀ i w, ¬named i w) → refused (.stop c))) ∧
    (at_ 12 → c.readsImage = false → s.assignedRange c.arg1 32 = true →
      (c.core < 768 → ends (.keyhole c) (s.modCore c.core (fun x => { x with
        keyhole := Table.put x.keyhole c.comparator (comparatorOf (fun o n => s.peekN (c.arg1 + o) n)) }))) ∧
      (768 ≤ c.core → refused (.keyhole c))) ∧
    (at_ 12 → c.readsImage = true → s.assignedRange c.arg1 32 = true →
      let k := Table.get ({} : Comparator) (s.core c.core).keyhole c.comparator
      (c.core < 768 → ends (.keyholeRead c) (s.pokeBytes c.arg1 (leBytes 4 (if k.enable then 1 else 0) ++ leBytes 4 k.kernel ++
        leBytes 4 k.pc ++ leBytes 4 k.warps ++ leBytes 8 k.queues ++ leBytes 4 k.missed ++ leBytes 4 0))) ∧
      (768 ≤ c.core → refused (.keyholeRead c))) ∧
    (at_ 13 →
      let ctx := if c.arg0 = 1 then 0 else c.ctx
      ∃ t, ends (.flush c) t ∧ (∀ e ∈ s.parts, e.2.owner = ctx → (t.part e.1).counters = []) ∧
        ∀ p, (∀ e ∈ s.parts, e.1 = p → e.2.owner ≠ ctx) → (t.part p).counters = (s.part p).counters)

/-- R310, R353, R380, R385–R390: what comes from outside: bring-up, the configuration window, reset with what FUSE has named
fused off, host accesses, links, errors, fault records, a comparator written by firmware. What memory holds across a reset is the
model's choice (log 20), as are what the error records name beyond Table 28.6 (log 35) and that events of units that there are not change
nothing (log 12). -/
def Obligations.OutsideEvents : Prop :=
  ∀ s : State,
    (∀ addr,
      (s.mod.boot % 4 = 1 → s.assignedRange addr 104 = true → exec (.bootblk addr) s = .next { s with mod := { s.mod with
        bringup := some (bringupOf (fun o n => s.peekN (addr + o) n)), boot := s.mod.boot + 2 } }) ∧
      (s.mod.boot % 4 ≠ 1 → exec (.bootblk addr) s = .next s)) ∧
    (∀ o v, exec (.configWindowWrite o v) s = .next s) ∧
    (∀ o, s.configByte o = if o < 4 then BitVec.ofNat 8 (s.mod.boot / 256 ^ o) else 0) ∧
    (∃ t, exec .reset s = .next t ∧ t.mem = s.mem ∧ t.warps = [] ∧ t.entries = [] ∧ t.loads = [] ∧ t.copies = [] ∧ t.cores = [] ∧
      t.parts = [] ∧ t.mod.contexts = [] ∧ t.mod.grids = [] ∧ t.mod.bringup = none ∧ t.mod.boost = 0 ∧
      (∀ k, (t.cluster k).fused = true ↔ (∃ e ∈ s.clusters, e.1 = k ∧ e.2.fused = true) ∨ (false, k) ∈ s.mod.fusePending) ∧
      (∀ k, k ∈ t.mod.stacksFused ↔ k ∈ s.mod.stacksFused ∨ (true, k) ∈ s.mod.fusePending)) ∧
    (∀ addr bytes,
      exec (.hostAccess addr bytes false) s = .next s ∧
      (s.assignedRange addr bytes.length = true →
        exec (.hostAccess addr bytes true) s = .next (s.pokeBytes addr (bytes.map (fun b => BitVec.ofNat 8 b)))) ∧
      (s.assignedRange addr bytes.length = false → exec (.hostAccess addr bytes true) s = .next s)) ∧
    (∀ link, link < 9 → ∃ down, link ∈ down ∧ (∀ k, k ∈ s.mod.linksDown → k ∈ down) ∧
      exec (.linkDown link) s = .next (({ s with mod := { s.mod with linksDown := down } }).errorRecord 0x17 0
        (if link = 8 then 3977 else 3978 + link) s.noDetail)) ∧
    (∀ unit stack, (unit < (if stack then 16 else 128) ∨ exec (.softError unit stack) s = .next s) ∧ (unit < (if stack then 16 else 128) →
      let n := if stack then Table.get 0 s.mod.stackSoft unit else (s.cluster unit).soft
      let u := if stack then { s with mod := { s.mod with stackSoft := Table.put s.mod.stackSoft unit (n + 1) } }
        else s.modCluster unit (fun k => { k with soft := n + 1 })
      (n ≠ Config.errorThreshold stack unit → exec (.softError unit stack) s = .next u) ∧
      (n = Config.errorThreshold stack unit → exec (.softError unit stack) s =
        .next (({ u with mod := { u.mod with boot := u.mod.boot ||| 0x100 } }).errorRecord 3 0 (if stack then s.noSource else 3840 + unit)
          s.noDetail)))) ∧
    (∀ ctx addr hbm,
      let u := s.errorRecord (if hbm then 2 else 1) ctx s.noSource addr
      exec (.uncorrectableError ctx addr hbm) s =
        .next (if ctx = 0 then u else u.errorRecord 0x10 ctx s.noSource s.noDetail)) ∧
    (∀ ctx va kind b, s.mod.bringup = some b → s.assignedRange b.faults 64 = true →
      let index := s.peekN b.faults 4
      let room := (index + 2 ^ 32 - s.peekN (b.faults + 4) 4) % 2 ^ 32 ≠ b.faultEntries
      let known := ∃ f ∈ s.mod.faults, f.ctx = ctx ∧ f.page = va
      (∀ size, room → ¬known → s.awaits ctx va kind = some size → ∃ t, exec (.faultRecord ctx va kind) s = .next t ∧
        t.mod.faults = s.mod.faults ++ [{ ctx := ctx, page := va, size := size }] ∧
        t.mem = ((s.pokeBytes (b.faults + 64 + 32 * (index % max b.faultEntries 1))
          (leBytes 8 va ++ leBytes 2 ctx ++ leBytes 1 kind ++ leBytes 5 0 ++ leBytes 8 s.mod.gts ++ leBytes 8 0)).pokeN b.faults 4
          ((index + 1) % 2 ^ 32)).mem) ∧
      (known → exec (.faultRecord ctx va kind) s = .next s)) ∧
    (∀ core cmp addr, core < 768 → cmp < 8 → s.assignedRange addr 32 = true → exec (.firmwareKeyholeWrite core cmp addr) s =
      .next (s.modCore core (fun x => { x with keyhole := Table.put x.keyhole cmp (comparatorOf (fun o n => s.peekN (addr + o) n)) }))) ∧
    (∀ kind ctx source detail,
      (s.mod.bringup = none ∨ (∃ b, s.mod.bringup = some b ∧
        (s.peekN b.errors 4 + 2 ^ 32 - s.peekN (b.errors + 4) 4) % 2 ^ 32 = b.errorEntries)) →
      s.errorRecord kind ctx source detail = { s with mod := { s.mod with errorsLost := s.mod.errorsLost + 1 } })

/-- R356–R368: the Shutter's windows, droop response, throttle notices, clock changes, boost and byte budgets, the hardware
protections, the Dormer controller's watchdog, update and writes. That requests which have waited for a new interval count in it (log 59),
what a hang of the firmware leaves and what ends it (log 85), the phases
of the clocks (log 78), what the error records name (log 35) and that events of units that there are not change nothing (log 12) are the
model's choices. -/
def Obligations.PowerAndClocks : Prop :=
  ∀ s : State,
    (∀ p, let n := (s.core (coreOfPart p)).cyc / 32
      ((s.part p).window ≠ n → exec (.shutterWindow p) s =
        .next (s.modPart p (fun x => { x with window := n, used := 0, budget := x.shutBudget }))) ∧
      ((s.part p).window = n → exec (.shutterWindow p) s = .next s)) ∧
    (∀ k, 128 ≤ k → exec (.droopAlarm k) s = .next s) ∧
    (∀ k, k < 128 → ∃ t, exec (.droopAlarm k) s = .next t ∧ (t.cluster k).alarms = ((s.cluster k).alarms + 1) % 2 ^ 32 ∧
      (t.cluster k).stretch = 8 ∧ (∀ i < 6, (t.core (6 * k + i)).halving = none) ∧ t.warps = s.warps ∧ t.mem = s.mem) ∧
    (∀ k, (s.cluster k).stretch = 1 → ∃ t, exec (.stretchPhaseEnd k) s = .next t ∧ (t.cluster k).stretch = 0 ∧
      (∀ i < 6, (t.core (6 * k + i)).halving = some 0) ∧ t.warps = s.warps ∧ t.mem = s.mem) ∧
    (∀ c, (s.core c).halving = some 64 → (s.core c).inClk = false →
      exec (.halvingPhaseEnd c) s = .next (s.modCore c (fun x => { x with halving := none }))) ∧
    (∀ team tm wid w f slow i pc, s.team? team = some tm → s.warp? wid = some w → w.cur = some f → s.noticeFor wid w = some slow →
      tm.warps.find? (fun k => match s.warp? k with | some x => (s.noticeFor k x).isSome | none => false) = some wid →
      s.offer w (f.lowest.getD 0) = .ok i pc →
      exec (.throttleNotice team) s = .next ((s.putTeam team { tm with notice := { pending := none, delivered := slow } }).raise wid .trap
        (if slow then 0x3FE else 0x3FF) 0 f f (w.retPoints f i.len) .reissue none)) ∧
    (∀ d,
      let boundary := fun k : Nat => s.cclkDue (16 * d + k) = true ∧ ∀ i < 6, (s.core (6 * (16 * d + k) + i)).inClk = false
      let changes := s.mod.dormerHung = false ∧ s.mod.dormerUpdating = false ∧ (∀ i < 16, (s.cluster (16 * d + i)).stretch < 2) ∧
        ∃ k < 16, boundary k
      (d < 8 → changes →
        ∃ t, exec (.clockChange d) s = .next t ∧ (t.die d).step = (s.die d).stepPending.getD (s.die d).step ∧
          (t.die d).stepPending = none ∧
          ∀ k < 16, ∀ i < 6, let c := 6 * (16 * d + k) + i
            (boundary k → (t.core c).ratio = (s.core c).ratioPending.getD (s.core c).ratio ∧ (t.core c).ratioPending = none) ∧
            (¬boundary k → (t.core c).ratio = (s.core c).ratio ∧ (t.core c).ratioPending = (s.core c).ratioPending)) ∧
      (¬(d < 8 ∧ changes) → exec (.clockChange d) s = .next s)) ∧
    (s.clocksDue = true → s.gtsTick = s) ∧
    (s.clocksDue = false → s.gtsTick.mod.gts = (s.mod.gts + 1) % 2 ^ 64 ∧
      (s.gtsTick.mod.boostDue = true ↔ s.mod.boostDue = true ∨ ((s.mod.gts + 1) % 2 ^ 64 % 1000 = 0 ∧
        (s.mod.ranAbove = true ∨ ∃ k < 128, s.runs k = true ∧ 18 < s.stepOf (dieOfCluster k))))) ∧
    (s.mod.boostDue = true → ∃ t, exec .boostDecrement s = .next t ∧ t.mod.boost = s.mod.boost - 1 ∧ t.mod.boostDue = false) ∧
    (s.mod.boostDue = false → exec .boostDecrement s = .next s) ∧
    (∀ k, k < 128 → (s.cluster k).interval ≠ s.mod.gts / 1000 → exec (.byteBudgetInterval k) s =
      .next (s.modCluster k (fun x => { x with interval := s.mod.gts / 1000, bytes := x.held, held := 0 }))) ∧
    (∀ d, 8 ≤ d → exec (.thermalTrip d) s = .next s ∧ exec (.thermalRecovery d) s = .next s ∧ exec (.currentClamp d) s = .next s ∧
      exec (.currentClampRelease d) s = .next s) ∧
    (∀ d, d < 8 →
      exec (.thermalTrip d) s = .next ((s.modDie d (fun x => { x with tripped := true })).errorRecord 0x15 0 (3968 + d) s.noDetail) ∧
      exec (.thermalRecovery d) s = .next (s.modDie d (fun x => { x with tripped := false })) ∧
      exec (.currentClamp d) s = .next (s.modDie d (fun x => { x with clamped := true })) ∧
      exec (.currentClampRelease d) s = .next (s.modDie d (fun x => { x with clamped := false }))) ∧
    (∃ t, exec .dormerWatchdog s = .next t ∧ t.mod.dormerHung = true ∧
      (∀ d < 8, (t.die d).step = min (s.die d).step 18 ∧ (t.die d).stepPending = none ∧ (t.die d).held = true) ∧
      ∀ c < 768, (t.core c).ratio = 4 ∧ (t.core c).ratioPending = none ∧ (t.core c).held = true) ∧
    (∀ reg unit v,
      (s.mod.dormerUpdating = false → unit < powerUnits reg → ∃ t, exec (.dormerPowerWrite reg unit v) s = .next t ∧
        t.PowerHolds reg unit v ∧ t.mod.dormerHung = false ∧ t.mem = s.mem ∧ t.warps = s.warps ∧
        (∀ d, (t.die d).held = ((s.die d).held && !(reg = 3 ∧ d = unit))) ∧
        ∀ c, (t.core c).held = ((s.core c).held && !(reg = 4 ∧ c = unit))) ∧
      ((s.mod.dormerUpdating = true ∨ ¬unit < powerUnits reg) → exec (.dormerPowerWrite reg unit v) s = .next s)) ∧
    exec .firmwareUpdateStart s =
      .next (({ s with mod := { s.mod with dormerUpdating := true } }).errorRecord 0x19 0 3976 s.noDetail) ∧
    exec .firmwareUpdateEnd s =
      .next (({ s with mod := { s.mod with dormerUpdating := false } }).errorRecord 0x19 0 3976 s.noDetail)

/-- R343–R352, R358: a slot that issues nothing is charged once to the partition's owner, with the cause that its nominee had as
the clock began, or with what that then found to wait for; a run of the longest length is recorded; the trace buffer drains into its
channel's ring, and a stall ends when the waiting packets have room, and begins anew where the packet that says so finds none.
R346: of what the nominee met as the clock began and what it has met since (a stop, a change of its front, a wait), the condition of the
lowest rank of Table 28.2 is charged. -/
def Obligations.SlotAccounting : Prop :=
  ∀ s : State,
    (∀ p port i, p < 3072 → port < 3 → (s.core (coreOfPart p)).inClk = true →
      Table.find (s.core (coreOfPart p)).idles (portKey p port) = some i →
      let q := Table.get {} (s.part p).ports port
      let found := (match s.warp? i.warp with
        | some w => if w.order ≠ i.order then [] else (if w.stopped ≠ none then [.switching] else []) ++
            (if w.switching = true then [.frontSwitch] else []) ++ w.wait.toList
        | none => [])
      let met := if i.cause.rank true ≤ 5 then [] else found
      let idle := (met.foldl (fun k c => if c.rank false < k.rank true then c else k) i.cause, i.kernel, i.pc)
      (q.charged = true → exec (.slotCharge p port) s = .next s) ∧
      (q.charged = false → ∃ t r, exec (.slotCharge p port) s = .next t ∧
        Table.get 0 (t.part p).counters idle.1.code = Table.get 0 (s.part p).counters idle.1.code + 1 ∧
        (∀ k, k ≠ idle.1.code → Table.get 0 (t.part p).counters k = Table.get 0 (s.part p).counters k) ∧
        (t.part p).refusals = (if idle.1 = .shutter then ((s.part p).refusals + 1) % 2 ^ 16 else (s.part p).refusals) ∧
        (Table.get {} (t.part p).ports port).charged = true ∧ (Table.get {} (t.part p).ports port).run = some r ∧
        r.ctx = (s.part p).owner ∧ r.cause = idle.1.code ∧ r.kernel = idle.2.1 ∧ r.pc = idle.2.2)) ∧
    (∀ p port r, (Table.get {} (s.part p).ports port).run = some r → 65535 ≤ r.count → s.channelOn 0 = true →
      (s.core (coreOfPart p)).trace.length < 128 → (s.core (coreOfPart p)).pendingPackets = [] →
      ∃ t, exec (.slotRecord p port) s = .next t ∧ (Table.get {} (t.part p).ports port).run = none ∧
        (t.core (coreOfPart p)).trace = (s.core (coreOfPart p)).trace ++ [{ channel := 0, source := p, words :=
          [2 ^ 60 + p * 2 ^ 40, r.since, r.ctx * 2 ^ 48 + port * 2 ^ 46 + r.cause * 2 ^ 41 + r.pc, r.kernel * 2 ^ 32 + r.count] }]) ∧
    (∀ c b p rest, s.mod.bringup = some b → (s.core c).trace = p :: rest →
      (s.ringFull p.channel = false →
        let ring := b.traceAt.getD p.channel 0
        let index := s.peekN ring 4
        exec (.traceDrain c) s = .next (((s.pokeBytes (ring + 64 + 32 * (index % 2 ^ b.traceLog.getD p.channel 10))
          (p.words.flatMap (leBytes 8))).modCore c (fun x => { x with trace := rest })).pokeN ring 4 ((index + 1) % 2 ^ 32))) ∧
      (s.ringFull p.channel = true → p.channel ≠ 2 → exec (.traceDrain c) s = .next s) ∧
      (s.ringFull p.channel = true → p.channel = 2 → ∃ t, exec (.traceDrain c) s = .next t ∧ (t.core c).trace = rest ∧
        Table.get 0 (t.core c).lost (p.source * 16 + 2) = Table.get 0 (s.core c).lost (p.source * 16 + 2) +
          (if p.words.headD 0 / 2 ^ 60 = 2 then p.words.getD 2 0 else 1) ∧ t.mem = s.mem)) ∧
    (∀ c, let x := s.core c
      x.stalled = true → x.pendingPackets ≠ [] → x.inClk = false →
      (x.trace.length + x.pendingPackets.length < 128 → ∃ t, exec (.traceStallEnd c) s = .next t ∧ (t.core c).stalled = false ∧
        (t.core c).pendingPackets = [] ∧ (t.core c).trace = x.trace ++ x.pendingPackets ++ (if s.channelOn 0 then
          [{ channel := 0, source := 3072 + c, words := [4 * 2 ^ 60 + (3072 + c) * 2 ^ 40, s.mod.gts, x.stallFor, x.perturb] }] else [])) ∧
      (x.trace.length < 128 → x.trace.length + x.pendingPackets.length = 128 → ∃ t, exec (.traceStallEnd c) s = .next t ∧
        (t.core c).stalled = s.channelOn 0 ∧ (t.core c).pendingPackets = (if s.channelOn 0 then
          [{ channel := 0, source := 3072 + c, words := [4 * 2 ^ 60 + (3072 + c) * 2 ^ 40, s.mod.gts, x.stallFor, x.perturb] }] else []) ∧
        (t.core c).trace = x.trace ++ x.pendingPackets) ∧
      (x.trace.length < 128 → 128 < x.trace.length + x.pendingPackets.length → ∃ t, exec (.traceStallEnd c) s = .next t ∧
        (t.core c).stalled = true ∧ (t.core c).trace = x.trace ++ x.pendingPackets.take (128 - x.trace.length) ∧
        (t.core c).pendingPackets = x.pendingPackets.drop (128 - x.trace.length)))

/-- R18–R20, R25, R41, R136, R312–R322: the distributor reads a tail and disables a queue that is overrun; a record is taken, and accepted
or refused with its status; a waiting grid's counters are read again; the first grid in order places its next span group where there is
room; a cluster with none steals the upper half of the groups of the cluster of its die that has most; continuation teams are placed;
warps and grids retire, the counter's release behind what stood in XB (R296, R317). The launch state of a warp is Table 4.1's: threads, registers of every file, H registers as the kernel's header
lists them, and the warp's special registers; its queues are empty and its streams unconfigured. The order of placing teams and
continuations (log 81), that the front of all lanes is current from the launch (log 88), what the 0x11 record names (log 35) and that a grid
without room holds none back (log 51) are the model's choices. -/
def Obligations.FromQueueToRetirement : Prop :=
  ∀ s : State,
    (∀ q h, q < 64 → s.header q = some h → s.assignedRange h 128 = true → s.served h = true → (s.queue q).overrun = false →
      let tail := s.peekN (h + 0x10) 4
      let waiting := (tail + 2 ^ 32 - s.peekN (h + 0x14) 4) % 2 ^ 32
      let u := s.putQueue q { s.queue q with tail := some tail }
      let flags := s.peekN (h + 0x0D) 1
      (waiting ≤ s.peekN (h + 8) 4 → exec (.launchQueueTailRead q) s = .next u) ∧
      let v := (u.putQueue q { u.queue q with overrun := true }).pokeN (h + 0x0D) 1 (flags / 2 * 2)
      (s.peekN (h + 8) 4 < waiting → exec (.launchQueueTailRead q) s = .next (v.errorRecord 0x12 0 s.noSource h) ∧
        (v.queue q).overrun = true ∧ v.mod.grids = s.mod.grids ∧ v.nextRecord q = none ∧
        (regWindow ((h + 0x0D) % paTop) = none → v.peekN (h + 0x0D) 1 = flags / 2 * 2))) ∧
    (∀ q h, q < 64 → s.header q = some h → (s.queue q).tail = none → s.nextRecord q = none) ∧
    (∀ q h g, s.header q = some h → s.nextRecord q = some g → g.parent = none → s.takeWaits g.ctx g.launch = none →
      s.assignedRange g.launch.at_ 128 = true →
      let at_ := g.launch.at_
      let head := (s.peekN (h + 0x14) 4 + 1) % 2 ^ 32
      let code := s.statusOf g.ctx g.launch
      let u := (s.pokeN (at_ + 0x1F) 1 1).pokeN (at_ + 0x34) 4 (g.ident % 2 ^ 32)
      (code = 1 → ∃ t x, exec (.recordTake q) s = .next t ∧ t.grid? g.ident = some x ∧ t.mod.nextIdent = g.ident + 1 ∧
        t.mem = (u.pokeN (h + 0x14) 4 head).mem ∧ x.ctx = g.ctx ∧ x.cls = g.cls ∧ x.depth = g.depth ∧ x.left = (0, g.launch.groups) ∧
        x.kern = u.kernelAt g.ctx g.launch.object ∧
        x.phase = (if u.unmet g.ctx g.launch.used = [] then .running else .waiting)) ∧
      (code ≠ 1 → s.grid? g.ident = none → exec (.recordTake q) s =
        .next (((((s.reportWalks 0 g.ctx (s.refusedFor g.ctx g.launch)).pokeN (at_ + 0x1F) 1 code).addCounter g.ctx g.launch).errorRecord 0x11 g.ctx s.noSource at_).pokeN (h + 0x14) 4 head))) ∧
    (∀ q i g, s.mod.grids.find? (fun e => e.2.source == q && e.2.phase == .waiting) = some (i, g) →
      let left := s.unmet g.ctx g.launch.prereqs
      exec (.prerequisiteMet q) s = .next ((s.reportWalks 0 g.ctx (g.launch.prereqs.map (·.1))).putGrid i { g with
        launch := { g.launch with prereqs := left }, phase := if left = [] then .running else .waiting })) ∧
    (∀ cluster gid g rest, cluster < 128 → s.inOrder = (gid, g) :: rest → s.grid? gid = some g → s.regrouping gid = false →
      (g.left.2 = 0 → (Table.get (0, 0) g.dieRange (dieOfCluster cluster)).2 = 0 →
        ∀ r rs u, g.rangesOf cluster = r :: rs → (s.putGrid gid g).tryGroup gid g cluster r.1 = some u → (u.context g.ctx).peephole = false →
        exec (.teamPlacement cluster) s = .next (u.modGrid gid (fun g => { g with
          placed := true
          clusterRange := Table.set [] g.clusterRange cluster (if r.2 ≤ 1 then rs else (r.1 + 1, r.2 - 1) :: rs) }))) ∧
      (g.left.2 = 0 → (Table.get (0, 0) g.dieRange (dieOfCluster cluster)).2 = 0 → g.rangesOf cluster = [] →
        (s.tryGroup gid g cluster 0).isSome = true →
        ∀ k ∈ clustersOf (dieOfCluster cluster), k ≠ cluster → ∀ a n, g.rangesOf k = [(a, n)] → 2 ≤ n →
        (∀ j ∈ clustersOf (dieOfCluster cluster), j ≠ cluster → j ≠ k →
          groupsIn (g.rangesOf j) < n ∨ (groupsIn (g.rangesOf j) = n ∧ k < j)) →
        exec (.workSteal cluster) s = .next ((s.putGrid gid g).putGrid gid { g with
          clusterRange := Table.set [] (Table.set [] g.clusterRange k [(a, n - n / 2)]) cluster [(a + (n - n / 2), n / 2)] })) ∧
      (∀ c u, g.conts.find? (fun c => s.contPlace gid g c == some cluster) = some c → s.tryCont gid g cluster c = some u →
        (s.context g.ctx).peephole = false →
        exec (.continuationPlacement cluster) s =
          .next (u.modGrid gid (fun x => { x with conts := x.conts.filter (fun y => y.index != c.index) })))) ∧
    (∀ wid w, s.warp? wid = some w → w.living = 0 → w.copiesOut = [] → w.flights = [] → w.pend = none → w.trap = none →
      w.resid = .resident →
      ∃ t, exec (.warpRetire wid) s = .next t ∧ t.warp? wid = none ∧ (∀ k, k ≠ wid → t.warp? k = s.warp? k) ∧
        (∀ x, t.team? w.team = some x → wid ∉ x.warps) ∧ t.mem = s.mem ∧ t.entries = s.entries) ∧
    (∀ gid g, s.grid? gid = some g → s.mayRetire g = true → g.parent = none →
      (g.launch.counts = false → exec (.gridRetire gid) s = .next { s with mod := { s.mod with grids := Table.drop s.mod.grids gid } }) ∧
      (g.launch.counts = true → (∃ e ∈ s.entries, e.id ∈ s.releasing g) →
        exec (.gridRetire gid) s = .next (s.putGrid gid { g with release := some (s.releasing g) })) ∧
      (∀ loc, g.launch.counts = true → (∀ e ∈ s.entries, e.id ∉ s.releasing g) →
        s.devPlace g.ctx g.launch.counter (.at true) = .ok loc → exec (.gridRetire gid) s =
        .next (let u := s.pokeN loc 8 ((s.peekN loc 8 + 1) % 2 ^ 64)
               { u with mod := { u.mod with grids := Table.drop u.mod.grids gid } }))) ∧
    (∀ g team num part slot entry,
      let w := launchWarp g team num part slot entry
      (∀ l < 32, w.th l = { pc := entry, st := .ready }) ∧ (∀ l n, w.getV l n = 0) ∧ w.getW 2 = BitVec.ofNat 32 g.launch.arg ∧
      w.getW 3 = BitVec.ofNat 32 (g.launch.arg / 2 ^ 32 % 2 ^ 24) ∧ (∀ n, n ≠ 2 → n ≠ 3 → w.getW n = 0) ∧ (∀ k, w.getJ k = 0) ∧
      (∀ l < 32, ∀ k < 16, w.getH l k = if g.kern.mask / 2 ^ k % 2 = 1 then g.kern.descs.getD k 0 else 0) ∧
      w.tvec = BitVec.ofNat 32 g.kern.handler ∧ w.prio = g.cls ∧ w.cur = some Mask.all ∧ w.fpctl = 0 ∧ w.done = 0 ∧
      w.srstate = 0x2545F4914F6CDD1D ∧ w.lvctl = 0 ∧ w.cpnum = 0 ∧ w.trapcause = 0 ∧ w.traplanes = 0 ∧ w.oqs = [] ∧ w.streams = [] ∧
      w.rot = 0 ∧ w.quantum = 0)

/-- R30, R95, R138, R144, R324, R335–R342: the quantum's switch, the end of a sleep, a floor count that is due, a word that is no
instruction, the saving and restoring of a warp by its routines, and the copies of a switched-off context into free areas of its save pool
and back. That the quantum's switch waits for an access whose page is awaited (log 102), that a copy without room waits (log 19), the order of its bytes and that its areas stand in a row (log 38), and that the release
of parked fronts is a switch point (log 57) are the model's choices. -/
def Obligations.WarpEvents : Prop :=
  ∀ (s : State) (wid : Nat) (w : Warp), s.warp? wid = some w →
    (∀ f, w.cur = some f → 64 ≤ w.quantum → w.readyMask &&& ~~~f ≠ 0 → w.waitPage = none → w.access &&& f = 0 →
      exec (.quantumSwitch wid) s = .next (s.putWarp wid (w.reselect true))) ∧
    (∀ k < 32, w.resid = .resident → (∃ wake len, (w.th k).st = .sleep wake len ∧ wake ≤ s.mod.gts) →
      ∃ u : Warp, exec (.sleepExpiry wid) s = .next (s.putWarp wid u.settle) ∧ u.cur = w.cur ∧ u.vregs = w.vregs ∧
        ∀ l, u.th l = (match (w.th l).st with
          | .sleep wake len => if l < 32 ∧ wake ≤ s.mod.gts then { w.th l with st := .ready, pc := ((w.th l).pc + len) % 2 ^ 32 } else w.th l
          | _ => w.th l)) ∧
    (∀ p port slot, let q := Table.get {} (s.part p).ports port
      (240 ≤ Table.get 0 q.floors slot → Table.find q.due slot = none → exec (.floorCountDue p port slot) s =
        .next (s.modPart p (fun x => { x with
          ports := Table.put x.ports port { q with due := Table.put q.due slot (s.core (coreOfPart p)).cyc } }))) ∧
      (Table.get 0 q.floors slot < 240 → exec (.floorCountDue p port slot) s = .next s)) ∧
    (∀ f op pc, w.cur = some f → s.offer w (f.lowest.getD 0) = .bad true op pc →
      exec (.illegalOpcode wid) s = .next (s.raise wid .illegalOpcode 0 op f f (w.retPoints f 8) .reissue none)) ∧
    (w.resid = .resident → w.saveDue ≠ [] → (w.living = 0 → exec (.warpSave wid) s = .next s) ∧
      (w.living ≠ 0 → (w.saveDue.contains .stop = false ∨ w.stopped = none) → s.savable w = false → w.parked ≠ 0 → w.readyMask = 0 → exec (.warpSave wid) s =
        .next (s.putWarp wid ({ w with released := w.released ||| w.parked, parked := 0 }).regroupFront)) ∧
      (∀ pc m todo area, s.savable w = true → w.saveDue.contains .stop = false → s.routines w.releaseAll false = .run ((pc, m) :: todo) →
        (s.context (s.ctxOf w)).freeArea = some area → 2 ≤ (s.kernOf w).regs → (s.kernOf w).regs ≤ 1024 →
        ∃ t x, exec (.warpSave wid) s = .next t ∧ t.warp? wid = some x ∧ x.cur = some m ∧ x.oqs = [] ∧
          x.streams = Table.mapVal (fun _ y => { y with queued := y.popped }) w.streams ∧ x.saveArea = area ∧
          (∀ l ∈ m.lanes, (x.th l).st = .ready ∧ (x.th l).pc = pc ∧ (x.th l).inRep = false) ∧
          (∀ l ∈ w.living.lanes, x.getV l ((s.kernOf w).regs - 2) = BitVec.ofNat 32 area ∧
            x.getV l ((s.kernOf w).regs - 1) = BitVec.ofNat 32 (area / 2 ^ 32)) ∧
          x.resid = .busy { restore := false, mask := m, todo := todo
                            frozen := { threads := w.releaseAll.threads, trap := w.trap, stopped := w.stopped, done := w.done, rot := w.rot
                                        cur := w.cur, choosing := w.choosing } }) ∧
      (w.living ≠ 0 → s.savable w = true → w.saveDue.contains .stop = true → w.stopped = none → (∃ rs, s.routines w.releaseAll false = .run rs) →
        ∃ t x, exec (.warpSave wid) s = .next t ∧ t.warp? wid = some x ∧ x.stopped ≠ none ∧ .stop ∉ x.saveDue)) ∧
    (∀ r, w.resid = .busy r → w.routineOver r = true →
      (∀ pc m todo, r.todo = (pc, m) :: todo →
        let i := if r.restore then Instr.warpRestore wid 0 else Instr.warpSave wid
        ∃ x, exec i s = .next (s.putWarp wid x) ∧ x.cur = some m ∧ x.resid = .busy { r with mask := m, todo := todo } ∧
          ∀ l ∈ m.lanes, (x.th l).st = .ready ∧ (x.th l).pc = pc) ∧
      (r.restore = false → r.todo = [] → ∃ t x, exec (.warpSave wid) s = .next t ∧ t.warp? wid = some x ∧ x.resid = .saved r.frozen ∧
        x.cur = none ∧ x.saveDue = w.saveDue.filter (· == .stop) ∧ x.streams = [])) ∧
    (∀ r, w.resid = .busy r → w.routineOver r = true → r.restore = true → r.todo = [] →
      ∃ t, exec (.warpRestore wid 0) s = .next t ∧ ∀ x, t.warp? wid = some x → x.resid = .resident) ∧
    (∀ f slot, w.resid = .saved f → slot < 64 → (∃ l < 32, (Table.get {} f.threads l).st.gone = false) →
      let p := 4 * w.core + slot / 16
      let b := s.bay (s.ctxOf w) w.team p
      slot % 16 ∈ b.slots → s.mayRestore wid w f = true → ({ b with slots := [slot % 16] }).fits (s.kernOf w) ≠ none →
      (∀ l < 32, (Table.get {} f.threads l).st.gone = false → ∃ n a z, s.safeEntry w (Table.get {} f.threads l).pc = .entry n a z) →
      ∃ t, exec (.warpRestore wid slot) s = .next t ∧ ∀ x, t.warp? wid = some x → x.part = p ∧ x.slot = slot % 16 ∧
        ∃ m todo, x.cur = some m ∧ x.resid = .busy { restore := true, mask := m, todo := todo, frozen := f }) ∧
    (∀ c mask, s.mod.command = some (9, c) → (s.context c.ctx).switchMask = some mask → s.offClusters c.ctx mask = true →
      (∀ u, s.copyOut c.ctx mask = .ok u →
        exec (.savePoolCopyComplete c.ctx false) s = .next ((u.giveUp c.ctx).endCommand true) ∧
        ∀ i tm, s.team? i = some tm → (s.grid tm.grid).ctx = c.ctx → mask.testBit (clusterOfCore tm.core) = true → tm.saved = false →
          ∃ x, u.team? i = some x ∧ x.saved = true) ∧
      (∀ e, s.copyOut c.ctx mask = .error e → exec (.savePoolCopyComplete c.ctx false) s = .next s)) ∧
    (∀ ctx bs u a, s.toPool ctx bs = .ok (u, a) → let n := ceilDiv bs.length areaBytes
      (∀ i < n, a + areaBytes * i ∉ (s.context ctx).areas) ∧ a + areaBytes * n ≤ (s.context ctx).pool + (s.context ctx).poolSize ∧
      u = ((s.modContext ctx (fun c => { c with areas := c.areas ++ areasOf a n })).devWrite ctx a bs).reportWalks 0 ctx (poolAddrs a bs.length) ∧
      s.poolWaits ctx a bs.length .wr = none) ∧
    (∀ c, s.mod.command = some (10, c) → exec (.savePoolCopyComplete c.ctx true) s =
      .next (((s.spansAway c.ctx).foldl (fun u e => u.copyBack e.1 e.2) s).readmitted c.ctx)) ∧
    (∀ sp x, s.backWaits x ≠ none → s.copyBack sp x = s) ∧
    (∀ ctx team tm at_, s.team? team = some tm → let n := (s.grid tm.grid).kern.scratch
      tm.core < 768 → (∀ p ∈ at_, p.1 + p.2 ≤ 2 ^ 21) → n ≤ (at_.map (·.2)).sum →
      at_.Pairwise (fun p q => p.1 + p.2 ≤ q.1 ∨ q.1 + q.2 ≤ p.1) →
      let u := s.teamBack ctx team tm at_
      (∃ x, u.team? team = some x ∧ x.saved = false ∧ x.scratchAt = at_ ∧
        ∀ b < 4, Table.get 0 x.bars b = s.devRead ctx (tm.poolAt + n + 960 + 2 * b) 2) ∧
      ∀ i < n, u.peek ((({ tm with scratchAt := at_ } : Team).space (s.grid tm.grid).kern).at_ i) = BitVec.ofNat 8 (s.devRead ctx (tm.poolAt + i) 1)) ∧
    (∀ (tm tm' : Team) (k : Nat) (q : TQ), Table.find tm.tqs k = some q → k < 16 →
      q.ring < 2 ^ 32 → q.depth < 2 ^ 32 → q.head < 2 ^ 32 → q.tail < 2 ^ 32 → q.count < 2 ^ 32 → (∀ j, Table.get 0 q.allow j < 256) →
      ∃ x, Table.find (tm'.withControl tm.control).tqs k = some x ∧ x.ring = q.ring ∧ x.depth = q.depth ∧ x.head = q.head ∧
        x.tail = q.tail ∧ x.count = q.count ∧ ∀ j < 32, Table.get 0 x.allow j = Table.get 0 q.allow j)

/-- R106, R225, R227, R272, R283, R293–R307, R365: a flight completes, its registers and flags written at once; an entry drains
along its path and takes its core's next sequence number in CMB; a write lands; a load takes the value that its search finds; an
atomic group is performed and its old value returns; two entries combine, the earlier standing as one with the later; copies start and
complete, streams fetch, walks read their tables and fill the TLBs. That a walk's step reads one byte (log 13), that a deterministic grid
keeps a result back from its register while its window is open (log 68), what an atomic group waits for (log 15), that combined entries stay
two which move as one, and when they may combine (log 48), and that an entry stands for the lower lanes' bytes that it has replaced (log 98)
are the model's choices. -/
def Obligations.OrderingSteps : Prop :=
  ∀ s : State,
    (∀ (wid : Nat) (w : Warp) (k : Nat) (f : Flight), s.warp? wid = some w → w.flight? k = some f →
      f.cc = 0 → f.due ≤ (s.core w.core).cyc → f.notBefore ≤ s.mod.gts →
      let lands := fun (i : Instr) (u : State) (ws : List RegW) => ∃ x, exec i s = .next (u.putWarp wid x) ∧
        x.flights = w.flights.filter (fun g => g.id != f.id) ∧
        (∀ l n, n < 1024 → (l, n) ∉ ws.map RegW.dest → x.getV l n = w.getV l n) ∧
        (∀ n, (32, n) ∉ ws.map RegW.dest → x.getW n = w.getW n) ∧
        (∀ l n v, .v l n v ∈ ws → n < 1024 → ((ws.map RegW.dest).filter (fun d => d == (l, n))).length = 1 →
          x.getV l n = if (l, n) ∈ f.kept then w.getV l n else v) ∧
        ∀ l, (x.th l).fpf = f.raised.foldl (fun a e => if e.1 = l then a ||| BitVec.ofNat 32 e.2 else a) (w.th l).fpf
      let narrow := fun ws : List RegW => ∀ l n v, .v l n v ∈ ws → n < 1024
      let quiet := w.pend = none ∧ ∀ e ∈ f.raised, e.2 &&& w.fpctl.toNat % 64 = 0
      quiet →
      (w.det = true → f.kind = .plain → ∃ x, exec (.longLatencyComplete wid k) s = .next (s.putWarp wid x) ∧
        x.flights.map (·.id) = (w.flights.filter (fun g => g.id != f.id)).map (·.id) ∧
        ∀ l n v, f.writes = [.v l n v] → l < 32 → n < 1024 →
          let win := f.win.filter (fun e => e.1 == l)
          let closed := win = [] ∨ ∃ e ∈ win, e.2 = 0
          (((l, n) ∈ f.kept ∨ ¬closed) → x.getV l n = w.getV l n) ∧ ((l, n) ∉ f.kept → closed → x.getV l n = v) ∧
          ((l, n) ∉ f.kept → ¬closed → x.deferred = w.deferred ++ [{ order := f.order, write := .v l n v, win := win }])) ∧
      (w.det = false →
      (f.kind = .plain → narrow f.writes → lands (.longLatencyComplete wid k) s f.writes) ∧
      (∀ items ws, f.kind = .load items → s.itemWrites items = some ws → narrow (f.writes ++ ws) →
        lands (.longLatencyComplete wid k) (s.dropLoads f.id) (f.writes ++ ws)) ∧
      (∀ items, f.kind = .load items → s.itemWrites items = none → exec (.longLatencyComplete wid k) s = .next s) ∧
      (f.kind = .matrix → narrow f.writes → lands (.matrixWriteback wid k)
        (s.modPart w.part (fun p => { p with poolExt := p.poolExt.filter (fun e => e.2.2 != k) })) f.writes))) ∧
    (∀ (i : LoadItem) (n : Nat) (bs : List Byte), i.dst = .v n → i.cnt = 1 → bs.length = i.ty.bytes → i.writes bs =
      (let x := leNat bs
       if i.ty.wide then [.v i.lane n (BitVec.ofNat 32 x), .v i.lane (n + 1) (BitVec.ofNat 32 (x / 2 ^ 32))]
       else [.v i.lane n (if i.ty.signed then (BitVec.ofNat i.ty.bits x).signExtend 32 else BitVec.ofNat 32 x)])) ∧
    (∀ k e, s.entry? k = some e →
      let rest := s.entries.filter (fun x => x.id != e.id)
      (s.mayLeave e = false → exec (.drain k) s = .next s ∧ exec (.land k) s = .next s) ∧
      (s.mayLeave e = true → e.kind.isAtomic = false → s.oneWith e = [e] → ∀ p, e.nextPlace = some p →
        (e.kind.isMarker = true → e.len = 0 → scopeLevel e.scope ≤ placeLevel p →
          exec (.drain k) s = .next (({ s with entries := rest }).markerGone e.warp)) ∧
        (∀ c, p = .cmb c → (e.kind.isMarker = true → e.scope ≠ .core) → ∃ t, exec (.drain k) s = .next t ∧ t.mem = s.mem ∧
          t.warps = s.warps ∧ t.loads = s.loads ∧ t.entries = rest ++ [{ e with place := p, seq := some (s.core c).seq }] ∧
          (t.core c).seq = (s.core c).seq + 1) ∧
        (∀ j, p = .clb j → e.kind.isMarker = false → ∃ t, exec (.drain k) s = .next t ∧ t.entries = rest ++ [{ e with place := p }] ∧
          t.mem = s.mem ∧ t.warps = s.warps ∧ t.loads = s.loads) ∧
        (∀ d, p = .db d → e.kind.isMarker = false → (s.cluster (clusterOfCore e.core)).byteBudget = 0 →
          ∃ t, exec (.drain k) s = .next t ∧ t.entries = rest ++ [{ e with place := p }] ∧ t.mem = s.mem ∧ t.warps = s.warps ∧
            t.loads = s.loads)) ∧
      (s.mayLeave e = true → e.kind.isMarker = true → s.oneWith e = [e] → e.nextPlace = none →
        exec (.drain k) s = .next (({ s with entries := rest }).markerGone e.warp)) ∧
      (s.mayLeave e = true → e.kind.isWrite = true → e.nextPlace = none → e.loc % 4096 + e.len ≤ 4096 → regWindow (e.loc % paTop) = none →
        ∃ t, exec (.land k) s = .next t ∧ t.entries = rest ∧ t.warps = s.warps ∧
          (∀ b < e.len, t.peek (e.loc + b) = byteOf e.val b ∧
            Table.get {} t.tags (e.loc + b) = { core := e.core, seq := e.seq.getD 0, rel := e.rel }) ∧
          ∀ a, regWindow (a % paTop) = none → (∀ b < e.len, canonPa (a % paTop) ≠ canonPa ((e.loc + b) % paTop)) → t.peek a = s.peek a) ∧
      (∀ g sub o ty u fid, e.kind = .atomic g sub (.op o ty) u fid → s.groupOf e = [e] → s.mayPerform e = true →
        min (scopeLevel e.scope) (homeOf e.loc) = homeOf e.loc → (∀ w, s.warp? e.warp = some w → w.pend = none) →
        ∃ t, exec (.perform k) s = .next t ∧ t.entries = rest ∧
          (fid = none → t.mem = (s.landWrite { e with kind := .write, val := atomApply o ty (s.atomRead e) e.val }).mem) ∧
          ∀ w f n fl, s.warp? e.warp = some w → fid = some f → fl ∈ w.flights → fl.id = f → fl.kind = .atomic (.v n) ty → ty.wide = false →
            ∃ x y, t.warp? e.warp = some x ∧ y ∈ x.flights ∧ y.id = f ∧
              y.writes = fl.writes ++ [.v e.lane n (BitVec.ofNat 32 (s.atomRead e))]) ∧
      (∀ j a g h sub sub' fn fn' u u' f f', s.entry? j = some a → a.kind = .atomic g sub fn u f → e.kind = .atomic h sub' fn' u' f' →
        mayCombine a e = true → (∀ x ∈ s.olderThan a, x.id ≠ k) → s.leads a = true → s.leads e = true →
        (a.place = e.place → s.comesBetween a e = false) →
        let t := (if a.place = e.place then s.unite a e else s).merged a e
        let es := t.entries.filter (fun x => x.kind.group == some g)
        crossed es = false → (∀ x ∈ es, t.inStep x x.place = true ∧ ∀ y ∈ t.entries, t.follows x y = false) →
        (∀ y ∈ t.entries, t.jams es y = false) →
        exec (.combine j k) s = .next t ∧ t.mem = s.mem ∧ (t.entries.map (·.id)).Perm (s.entries.map (·.id)) ∧
          (∀ x ∈ t.entries, x.kind.group ≠ some h ∧ (x.kind.group = some g → x.scope = widest a.scope e.scope)) ∧
          (a.place = e.place → ∃ x ∈ t.entries, ∃ y ∈ t.entries, x.id = j ∧ y.id = k ∧ x.joined y = true))) ∧
    (∀ k l c0 k0, s.loads.find? (fun x => x.id == k) = some l → l.for_ = .warp c0 k0 → l.val = none →
      s.mayLoad l = true → (s.cluster (clusterOfCore l.core)).byteBudget = 0 →
      ∃ t x, exec (.satisfy k) s = .next t ∧ x ∈ t.loads ∧ x.id = k ∧ x.val = some (s.valueFor l).1 ∧ x.tag = some (s.valueFor l).2.1 ∧
        t.mem = s.mem ∧ t.entries = s.entries ∧ (∀ i, i ≠ c0 → t.warp? i = s.warp? i) ∧
        (∃ ns, (ns = 0 ∨ ns = homeNs l.core l.loc) ∧ ∀ v, s.warp? c0 = some v → t.warp? c0 = some { v with
          flights := v.flights.map (fun f => if f.id = k0 ∧ ns ≠ 0 then { f with notBefore := max f.notBefore (f.born + ns) } else f) }) ∧
        (s.entries = [] → Table.find (s.core l.core).cc l.loc = none → x.val = some (s.peek l.loc)) ∧
        ∀ e, s.entries.reverse.find? (fun y => (match y.place with | .tsq _ _ => true | _ => false) && y.warp == l.warp
            && decide (y.order < l.order) && y.kind.isWrite && y.byLane l.lane l.loc) = some e →
          x.val = some (byteOf e.val (l.loc - e.loc))) ∧
    (∀ c a, exec (.evict c a) s = .next (s.modCore c (fun x => { x with cc := Table.drop x.cc a }))) ∧
    (∀ k c, s.copies.find? (fun x => x.id == k) = some c →
      let between := c.moves.filter (fun m => match m.1, m.2 with | .loc _, .loc _ => true | _, _ => false)
      (s.mayStart c = true → (∀ l ∈ c.locs, s.assigned (l % paTop) = true ∧ s.cutOff l = false) →
        ∃ t, exec (.copyStart k) s = .next t ∧
          t.copies = s.copies.map (fun x => if x.id = c.id then { x with started := true } else x) ∧
          t.loads.length = s.loads.length + between.length) ∧
      (s.copyDone c = true → ∃ t, exec (.copyComplete k) s = .next t ∧ t.copies = s.copies.filter (fun x => x.id != c.id) ∧
        t.mem = s.mem ∧ t.entries = s.entries ∧ ∀ w, s.warp? c.warp = some w → ∃ x, t.warp? c.warp = some x ∧
          c.id ∉ x.openSet ∧ c.id ∉ x.copiesOut ∧ ∀ b ∈ x.batches, c.id ∉ b.2)) ∧
    (∀ wid w st e xs, s.warp? wid = some w → w.nextIndex st = some e → s.readsAhead wid = false →
      (s.cluster (clusterOfCore w.core)).byteBudget = 0 →
      let y := Table.get {} w.streams st
      let read := s.streamRead wid w y
      (∀ n, streamCount read y.desc = .ok n → e < n) → nextEntry read y.desc e = .entry xs →
      ∃ t x, exec (.streamFetch wid st) s = .next t ∧ t.warp? wid = some x ∧ t.mem = s.mem ∧ t.entries = s.entries ∧
        Table.get [] x.oqs st = Table.get [] w.oqs st ++ [xs] ∧ (Table.get {} x.streams st).queued = e + 1 ∧
        (Table.get {} x.streams st).st =
          (match streamCount read y.desc with
            | .ok n => if n = e + 1 then .done else .running
            | .error _ => .running)) ∧
    (∀ core ctx va x, let d := dieOfCore core
      ((s.die d).walks.take 64).find? (fun y => y.ctx == ctx && y.va == unitOf va) = some x → s.context? ctx ≠ none →
      (x.level = 4 → x.bytes = [] → tlbFind (s.die d).tlb ctx x.va = none) →
      let bytes := x.bytes ++ [s.walkByte d (x.table + 8 * walkIndex x.level x.va + x.bytes.length)]
      let goes := fun y : PageWalk => ∃ t, exec (.pageWalk core ctx va) s = .next t ∧ t.mem = s.mem ∧ t.warps = s.warps ∧
        (t.die d).tlb = (s.die d).tlb ∧ (t.die d).walks = (s.die d).walks.map (fun z => if z.id = x.id then y else z)
      (x.bytes.length < 7 → goes { x with bytes := bytes }) ∧
      (x.bytes.length = 7 → match s.walkEntry (s.context ctx).privileged (leNat bytes) x.level with
        | .inr next => goes { x with level := x.level - 1, table := next, bytes := [] }
        | .inl r => ∃ t, exec (.pageWalk core ctx va) s = .next t ∧ t.mem = s.mem ∧
            (t.die d).walks = (s.die d).walks.filter (fun z => z.id != x.id) ∧
            (∀ i w, s.warp? i = some w → t.warp? i = some (if s.waitsWalk d x w then
              { w with missing := w.missing.filter (· != x.va), walked := Table.put w.walked x.va r } else w)) ∧
            ∀ e level, r = .leaf e level → entryBit e 2 = true →
              let key := tlbKey ctx (x.va / pageSize level * pageSize level)
              Table.find (t.die d).tlb key = some (e, level) ∧
              ∀ i w, s.warp? i = some w → s.waitsWalk d x w = true → Table.find (t.core w.core).tlb key = some (e, level)))
end

