-- ==== Sys2Proof/Laws/State.lean ====
section
/-! SUPPORT. The fields that an update of the state, or of a warp, leaves as they are: one lemma for each, true by
unfolding. -/
namespace Sys2Proof.Machine

@[simp] theorem putWarp_mem (s : State) (w : Nat) (x : Warp) : (s.putWarp w x).mem = s.mem := rfl
@[simp] theorem putWarp_tags (s : State) (w : Nat) (x : Warp) : (s.putWarp w x).tags = s.tags := rfl
@[simp] theorem putWarp_entries (s : State) (w : Nat) (x : Warp) : (s.putWarp w x).entries = s.entries := rfl
@[simp] theorem putWarp_loads (s : State) (w : Nat) (x : Warp) : (s.putWarp w x).loads = s.loads := rfl
@[simp] theorem putWarp_copies (s : State) (w : Nat) (x : Warp) : (s.putWarp w x).copies = s.copies := rfl
@[simp] theorem putWarp_cores (s : State) (w : Nat) (x : Warp) : (s.putWarp w x).cores = s.cores := rfl
@[simp] theorem putWarp_parts (s : State) (w : Nat) (x : Warp) : (s.putWarp w x).parts = s.parts := rfl
@[simp] theorem putWarp_clusters (s : State) (w : Nat) (x : Warp) : (s.putWarp w x).clusters = s.clusters := rfl
@[simp] theorem putWarp_dies (s : State) (w : Nat) (x : Warp) : (s.putWarp w x).dies = s.dies := rfl
@[simp] theorem putWarp_mod (s : State) (w : Nat) (x : Warp) : (s.putWarp w x).mod = s.mod := rfl
@[simp] theorem putWarp_nextId (s : State) (w : Nat) (x : Warp) : (s.putWarp w x).nextId = s.nextId := rfl
@[simp] theorem putWarp_agenda (s : State) (w : Nat) (x : Warp) : (s.putWarp w x).agenda = s.agenda := rfl
@[simp] theorem putWarp_tick (s : State) (w : Nat) (x : Warp) : (s.putWarp w x).tick = s.tick := rfl
@[simp] theorem putWarp_turns (s : State) (w : Nat) (x : Warp) : (s.putWarp w x).turns = s.turns := rfl
@[simp] theorem putWarp_fresh (s : State) (w : Nat) (x : Warp) : (s.putWarp w x).fresh = s.fresh := rfl
@[simp] theorem putWarp_cur (s : State) (w : Nat) (x : Warp) : (s.putWarp w x).cur = s.cur := rfl

@[simp] theorem dropWarp_mem (s : State) (w : Nat) : (s.dropWarp w).mem = s.mem := rfl
@[simp] theorem dropWarp_tags (s : State) (w : Nat) : (s.dropWarp w).tags = s.tags := rfl
@[simp] theorem dropWarp_entries (s : State) (w : Nat) : (s.dropWarp w).entries = s.entries := rfl
@[simp] theorem dropWarp_loads (s : State) (w : Nat) : (s.dropWarp w).loads = s.loads := rfl
@[simp] theorem dropWarp_copies (s : State) (w : Nat) : (s.dropWarp w).copies = s.copies := rfl
@[simp] theorem dropWarp_cores (s : State) (w : Nat) : (s.dropWarp w).cores = s.cores := rfl
@[simp] theorem dropWarp_parts (s : State) (w : Nat) : (s.dropWarp w).parts = s.parts := rfl
@[simp] theorem dropWarp_clusters (s : State) (w : Nat) : (s.dropWarp w).clusters = s.clusters := rfl
@[simp] theorem dropWarp_dies (s : State) (w : Nat) : (s.dropWarp w).dies = s.dies := rfl
@[simp] theorem dropWarp_mod (s : State) (w : Nat) : (s.dropWarp w).mod = s.mod := rfl
@[simp] theorem dropWarp_nextId (s : State) (w : Nat) : (s.dropWarp w).nextId = s.nextId := rfl
@[simp] theorem dropWarp_agenda (s : State) (w : Nat) : (s.dropWarp w).agenda = s.agenda := rfl
@[simp] theorem dropWarp_tick (s : State) (w : Nat) : (s.dropWarp w).tick = s.tick := rfl
@[simp] theorem dropWarp_turns (s : State) (w : Nat) : (s.dropWarp w).turns = s.turns := rfl
@[simp] theorem dropWarp_fresh (s : State) (w : Nat) : (s.dropWarp w).fresh = s.fresh := rfl
@[simp] theorem dropWarp_cur (s : State) (w : Nat) : (s.dropWarp w).cur = s.cur := rfl

@[simp] theorem putCore_mem (s : State) (c : Nat) (x : Core) : (s.putCore c x).mem = s.mem := rfl
@[simp] theorem putCore_tags (s : State) (c : Nat) (x : Core) : (s.putCore c x).tags = s.tags := rfl
@[simp] theorem putCore_entries (s : State) (c : Nat) (x : Core) : (s.putCore c x).entries = s.entries := rfl
@[simp] theorem putCore_loads (s : State) (c : Nat) (x : Core) : (s.putCore c x).loads = s.loads := rfl
@[simp] theorem putCore_copies (s : State) (c : Nat) (x : Core) : (s.putCore c x).copies = s.copies := rfl
@[simp] theorem putCore_warps (s : State) (c : Nat) (x : Core) : (s.putCore c x).warps = s.warps := rfl
@[simp] theorem putCore_parts (s : State) (c : Nat) (x : Core) : (s.putCore c x).parts = s.parts := rfl
@[simp] theorem putCore_clusters (s : State) (c : Nat) (x : Core) : (s.putCore c x).clusters = s.clusters := rfl
@[simp] theorem putCore_dies (s : State) (c : Nat) (x : Core) : (s.putCore c x).dies = s.dies := rfl
@[simp] theorem putCore_mod (s : State) (c : Nat) (x : Core) : (s.putCore c x).mod = s.mod := rfl
@[simp] theorem putCore_nextId (s : State) (c : Nat) (x : Core) : (s.putCore c x).nextId = s.nextId := rfl
@[simp] theorem putCore_agenda (s : State) (c : Nat) (x : Core) : (s.putCore c x).agenda = s.agenda := rfl
@[simp] theorem putCore_tick (s : State) (c : Nat) (x : Core) : (s.putCore c x).tick = s.tick := rfl
@[simp] theorem putCore_turns (s : State) (c : Nat) (x : Core) : (s.putCore c x).turns = s.turns := rfl
@[simp] theorem putCore_fresh (s : State) (c : Nat) (x : Core) : (s.putCore c x).fresh = s.fresh := rfl
@[simp] theorem putCore_cur (s : State) (c : Nat) (x : Core) : (s.putCore c x).cur = s.cur := rfl

@[simp] theorem modCore_mem (s : State) (c : Nat) (f : Core → Core) : (s.modCore c f).mem = s.mem := rfl
@[simp] theorem modCore_tags (s : State) (c : Nat) (f : Core → Core) : (s.modCore c f).tags = s.tags := rfl
@[simp] theorem modCore_entries (s : State) (c : Nat) (f : Core → Core) : (s.modCore c f).entries = s.entries := rfl
@[simp] theorem modCore_loads (s : State) (c : Nat) (f : Core → Core) : (s.modCore c f).loads = s.loads := rfl
@[simp] theorem modCore_copies (s : State) (c : Nat) (f : Core → Core) : (s.modCore c f).copies = s.copies := rfl
@[simp] theorem modCore_warps (s : State) (c : Nat) (f : Core → Core) : (s.modCore c f).warps = s.warps := rfl
@[simp] theorem modCore_parts (s : State) (c : Nat) (f : Core → Core) : (s.modCore c f).parts = s.parts := rfl
@[simp] theorem modCore_clusters (s : State) (c : Nat) (f : Core → Core) : (s.modCore c f).clusters = s.clusters := rfl
@[simp] theorem modCore_dies (s : State) (c : Nat) (f : Core → Core) : (s.modCore c f).dies = s.dies := rfl
@[simp] theorem modCore_mod (s : State) (c : Nat) (f : Core → Core) : (s.modCore c f).mod = s.mod := rfl
@[simp] theorem modCore_nextId (s : State) (c : Nat) (f : Core → Core) : (s.modCore c f).nextId = s.nextId := rfl
@[simp] theorem modCore_agenda (s : State) (c : Nat) (f : Core → Core) : (s.modCore c f).agenda = s.agenda := rfl
@[simp] theorem modCore_tick (s : State) (c : Nat) (f : Core → Core) : (s.modCore c f).tick = s.tick := rfl
@[simp] theorem modCore_turns (s : State) (c : Nat) (f : Core → Core) : (s.modCore c f).turns = s.turns := rfl
@[simp] theorem modCore_fresh (s : State) (c : Nat) (f : Core → Core) : (s.modCore c f).fresh = s.fresh := rfl
@[simp] theorem modCore_cur (s : State) (c : Nat) (f : Core → Core) : (s.modCore c f).cur = s.cur := rfl

@[simp] theorem putPart_mem (s : State) (p : Nat) (x : Part) : (s.putPart p x).mem = s.mem := rfl
@[simp] theorem putPart_tags (s : State) (p : Nat) (x : Part) : (s.putPart p x).tags = s.tags := rfl
@[simp] theorem putPart_entries (s : State) (p : Nat) (x : Part) : (s.putPart p x).entries = s.entries := rfl
@[simp] theorem putPart_loads (s : State) (p : Nat) (x : Part) : (s.putPart p x).loads = s.loads := rfl
@[simp] theorem putPart_copies (s : State) (p : Nat) (x : Part) : (s.putPart p x).copies = s.copies := rfl
@[simp] theorem putPart_warps (s : State) (p : Nat) (x : Part) : (s.putPart p x).warps = s.warps := rfl
@[simp] theorem putPart_cores (s : State) (p : Nat) (x : Part) : (s.putPart p x).cores = s.cores := rfl
@[simp] theorem putPart_clusters (s : State) (p : Nat) (x : Part) : (s.putPart p x).clusters = s.clusters := rfl
@[simp] theorem putPart_dies (s : State) (p : Nat) (x : Part) : (s.putPart p x).dies = s.dies := rfl
@[simp] theorem putPart_mod (s : State) (p : Nat) (x : Part) : (s.putPart p x).mod = s.mod := rfl
@[simp] theorem putPart_nextId (s : State) (p : Nat) (x : Part) : (s.putPart p x).nextId = s.nextId := rfl
@[simp] theorem putPart_agenda (s : State) (p : Nat) (x : Part) : (s.putPart p x).agenda = s.agenda := rfl
@[simp] theorem putPart_tick (s : State) (p : Nat) (x : Part) : (s.putPart p x).tick = s.tick := rfl
@[simp] theorem putPart_turns (s : State) (p : Nat) (x : Part) : (s.putPart p x).turns = s.turns := rfl
@[simp] theorem putPart_fresh (s : State) (p : Nat) (x : Part) : (s.putPart p x).fresh = s.fresh := rfl
@[simp] theorem putPart_cur (s : State) (p : Nat) (x : Part) : (s.putPart p x).cur = s.cur := rfl

@[simp] theorem modPart_mem (s : State) (p : Nat) (f : Part → Part) : (s.modPart p f).mem = s.mem := rfl
@[simp] theorem modPart_tags (s : State) (p : Nat) (f : Part → Part) : (s.modPart p f).tags = s.tags := rfl
@[simp] theorem modPart_entries (s : State) (p : Nat) (f : Part → Part) : (s.modPart p f).entries = s.entries := rfl
@[simp] theorem modPart_loads (s : State) (p : Nat) (f : Part → Part) : (s.modPart p f).loads = s.loads := rfl
@[simp] theorem modPart_copies (s : State) (p : Nat) (f : Part → Part) : (s.modPart p f).copies = s.copies := rfl
@[simp] theorem modPart_warps (s : State) (p : Nat) (f : Part → Part) : (s.modPart p f).warps = s.warps := rfl
@[simp] theorem modPart_cores (s : State) (p : Nat) (f : Part → Part) : (s.modPart p f).cores = s.cores := rfl
@[simp] theorem modPart_clusters (s : State) (p : Nat) (f : Part → Part) : (s.modPart p f).clusters = s.clusters := rfl
@[simp] theorem modPart_dies (s : State) (p : Nat) (f : Part → Part) : (s.modPart p f).dies = s.dies := rfl
@[simp] theorem modPart_mod (s : State) (p : Nat) (f : Part → Part) : (s.modPart p f).mod = s.mod := rfl
@[simp] theorem modPart_nextId (s : State) (p : Nat) (f : Part → Part) : (s.modPart p f).nextId = s.nextId := rfl
@[simp] theorem modPart_agenda (s : State) (p : Nat) (f : Part → Part) : (s.modPart p f).agenda = s.agenda := rfl
@[simp] theorem modPart_tick (s : State) (p : Nat) (f : Part → Part) : (s.modPart p f).tick = s.tick := rfl
@[simp] theorem modPart_turns (s : State) (p : Nat) (f : Part → Part) : (s.modPart p f).turns = s.turns := rfl
@[simp] theorem modPart_fresh (s : State) (p : Nat) (f : Part → Part) : (s.modPart p f).fresh = s.fresh := rfl
@[simp] theorem modPart_cur (s : State) (p : Nat) (f : Part → Part) : (s.modPart p f).cur = s.cur := rfl

@[simp] theorem modCluster_mem (s : State) (k : Nat) (f : Cluster → Cluster) : (s.modCluster k f).mem = s.mem := rfl
@[simp] theorem modCluster_tags (s : State) (k : Nat) (f : Cluster → Cluster) : (s.modCluster k f).tags = s.tags := rfl
@[simp] theorem modCluster_entries (s : State) (k : Nat) (f : Cluster → Cluster) : (s.modCluster k f).entries = s.entries := rfl
@[simp] theorem modCluster_loads (s : State) (k : Nat) (f : Cluster → Cluster) : (s.modCluster k f).loads = s.loads := rfl
@[simp] theorem modCluster_copies (s : State) (k : Nat) (f : Cluster → Cluster) : (s.modCluster k f).copies = s.copies := rfl
@[simp] theorem modCluster_warps (s : State) (k : Nat) (f : Cluster → Cluster) : (s.modCluster k f).warps = s.warps := rfl
@[simp] theorem modCluster_cores (s : State) (k : Nat) (f : Cluster → Cluster) : (s.modCluster k f).cores = s.cores := rfl
@[simp] theorem modCluster_parts (s : State) (k : Nat) (f : Cluster → Cluster) : (s.modCluster k f).parts = s.parts := rfl
@[simp] theorem modCluster_dies (s : State) (k : Nat) (f : Cluster → Cluster) : (s.modCluster k f).dies = s.dies := rfl
@[simp] theorem modCluster_mod (s : State) (k : Nat) (f : Cluster → Cluster) : (s.modCluster k f).mod = s.mod := rfl
@[simp] theorem modCluster_nextId (s : State) (k : Nat) (f : Cluster → Cluster) : (s.modCluster k f).nextId = s.nextId := rfl
@[simp] theorem modCluster_agenda (s : State) (k : Nat) (f : Cluster → Cluster) : (s.modCluster k f).agenda = s.agenda := rfl
@[simp] theorem modCluster_tick (s : State) (k : Nat) (f : Cluster → Cluster) : (s.modCluster k f).tick = s.tick := rfl
@[simp] theorem modCluster_turns (s : State) (k : Nat) (f : Cluster → Cluster) : (s.modCluster k f).turns = s.turns := rfl
@[simp] theorem modCluster_fresh (s : State) (k : Nat) (f : Cluster → Cluster) : (s.modCluster k f).fresh = s.fresh := rfl
@[simp] theorem modCluster_cur (s : State) (k : Nat) (f : Cluster → Cluster) : (s.modCluster k f).cur = s.cur := rfl

@[simp] theorem modDie_mem (s : State) (d : Nat) (f : Die → Die) : (s.modDie d f).mem = s.mem := rfl
@[simp] theorem modDie_tags (s : State) (d : Nat) (f : Die → Die) : (s.modDie d f).tags = s.tags := rfl
@[simp] theorem modDie_entries (s : State) (d : Nat) (f : Die → Die) : (s.modDie d f).entries = s.entries := rfl
@[simp] theorem modDie_loads (s : State) (d : Nat) (f : Die → Die) : (s.modDie d f).loads = s.loads := rfl
@[simp] theorem modDie_copies (s : State) (d : Nat) (f : Die → Die) : (s.modDie d f).copies = s.copies := rfl
@[simp] theorem modDie_warps (s : State) (d : Nat) (f : Die → Die) : (s.modDie d f).warps = s.warps := rfl
@[simp] theorem modDie_cores (s : State) (d : Nat) (f : Die → Die) : (s.modDie d f).cores = s.cores := rfl
@[simp] theorem modDie_parts (s : State) (d : Nat) (f : Die → Die) : (s.modDie d f).parts = s.parts := rfl
@[simp] theorem modDie_clusters (s : State) (d : Nat) (f : Die → Die) : (s.modDie d f).clusters = s.clusters := rfl
@[simp] theorem modDie_mod (s : State) (d : Nat) (f : Die → Die) : (s.modDie d f).mod = s.mod := rfl
@[simp] theorem modDie_nextId (s : State) (d : Nat) (f : Die → Die) : (s.modDie d f).nextId = s.nextId := rfl
@[simp] theorem modDie_agenda (s : State) (d : Nat) (f : Die → Die) : (s.modDie d f).agenda = s.agenda := rfl
@[simp] theorem modDie_tick (s : State) (d : Nat) (f : Die → Die) : (s.modDie d f).tick = s.tick := rfl
@[simp] theorem modDie_turns (s : State) (d : Nat) (f : Die → Die) : (s.modDie d f).turns = s.turns := rfl
@[simp] theorem modDie_fresh (s : State) (d : Nat) (f : Die → Die) : (s.modDie d f).fresh = s.fresh := rfl
@[simp] theorem modDie_cur (s : State) (d : Nat) (f : Die → Die) : (s.modDie d f).cur = s.cur := rfl

@[simp] theorem putTeam_mem (s : State) (t : Nat) (x : Team) : (s.putTeam t x).mem = s.mem := rfl
@[simp] theorem putTeam_tags (s : State) (t : Nat) (x : Team) : (s.putTeam t x).tags = s.tags := rfl
@[simp] theorem putTeam_entries (s : State) (t : Nat) (x : Team) : (s.putTeam t x).entries = s.entries := rfl
@[simp] theorem putTeam_loads (s : State) (t : Nat) (x : Team) : (s.putTeam t x).loads = s.loads := rfl
@[simp] theorem putTeam_copies (s : State) (t : Nat) (x : Team) : (s.putTeam t x).copies = s.copies := rfl
@[simp] theorem putTeam_warps (s : State) (t : Nat) (x : Team) : (s.putTeam t x).warps = s.warps := rfl
@[simp] theorem putTeam_cores (s : State) (t : Nat) (x : Team) : (s.putTeam t x).cores = s.cores := rfl
@[simp] theorem putTeam_parts (s : State) (t : Nat) (x : Team) : (s.putTeam t x).parts = s.parts := rfl
@[simp] theorem putTeam_clusters (s : State) (t : Nat) (x : Team) : (s.putTeam t x).clusters = s.clusters := rfl
@[simp] theorem putTeam_dies (s : State) (t : Nat) (x : Team) : (s.putTeam t x).dies = s.dies := rfl
@[simp] theorem putTeam_nextId (s : State) (t : Nat) (x : Team) : (s.putTeam t x).nextId = s.nextId := rfl
@[simp] theorem putTeam_agenda (s : State) (t : Nat) (x : Team) : (s.putTeam t x).agenda = s.agenda := rfl
@[simp] theorem putTeam_tick (s : State) (t : Nat) (x : Team) : (s.putTeam t x).tick = s.tick := rfl
@[simp] theorem putTeam_turns (s : State) (t : Nat) (x : Team) : (s.putTeam t x).turns = s.turns := rfl
@[simp] theorem putTeam_fresh (s : State) (t : Nat) (x : Team) : (s.putTeam t x).fresh = s.fresh := rfl
@[simp] theorem putTeam_cur (s : State) (t : Nat) (x : Team) : (s.putTeam t x).cur = s.cur := rfl

@[simp] theorem putSpan_mem (s : State) (g : Nat) (x : Span) : (s.putSpan g x).mem = s.mem := rfl
@[simp] theorem putSpan_tags (s : State) (g : Nat) (x : Span) : (s.putSpan g x).tags = s.tags := rfl
@[simp] theorem putSpan_entries (s : State) (g : Nat) (x : Span) : (s.putSpan g x).entries = s.entries := rfl
@[simp] theorem putSpan_loads (s : State) (g : Nat) (x : Span) : (s.putSpan g x).loads = s.loads := rfl
@[simp] theorem putSpan_copies (s : State) (g : Nat) (x : Span) : (s.putSpan g x).copies = s.copies := rfl
@[simp] theorem putSpan_warps (s : State) (g : Nat) (x : Span) : (s.putSpan g x).warps = s.warps := rfl
@[simp] theorem putSpan_cores (s : State) (g : Nat) (x : Span) : (s.putSpan g x).cores = s.cores := rfl
@[simp] theorem putSpan_parts (s : State) (g : Nat) (x : Span) : (s.putSpan g x).parts = s.parts := rfl
@[simp] theorem putSpan_clusters (s : State) (g : Nat) (x : Span) : (s.putSpan g x).clusters = s.clusters := rfl
@[simp] theorem putSpan_dies (s : State) (g : Nat) (x : Span) : (s.putSpan g x).dies = s.dies := rfl
@[simp] theorem putSpan_nextId (s : State) (g : Nat) (x : Span) : (s.putSpan g x).nextId = s.nextId := rfl
@[simp] theorem putSpan_agenda (s : State) (g : Nat) (x : Span) : (s.putSpan g x).agenda = s.agenda := rfl
@[simp] theorem putSpan_tick (s : State) (g : Nat) (x : Span) : (s.putSpan g x).tick = s.tick := rfl
@[simp] theorem putSpan_turns (s : State) (g : Nat) (x : Span) : (s.putSpan g x).turns = s.turns := rfl
@[simp] theorem putSpan_fresh (s : State) (g : Nat) (x : Span) : (s.putSpan g x).fresh = s.fresh := rfl
@[simp] theorem putSpan_cur (s : State) (g : Nat) (x : Span) : (s.putSpan g x).cur = s.cur := rfl

@[simp] theorem putGrid_mem (s : State) (g : Nat) (x : Grid) : (s.putGrid g x).mem = s.mem := rfl
@[simp] theorem putGrid_tags (s : State) (g : Nat) (x : Grid) : (s.putGrid g x).tags = s.tags := rfl
@[simp] theorem putGrid_entries (s : State) (g : Nat) (x : Grid) : (s.putGrid g x).entries = s.entries := rfl
@[simp] theorem putGrid_loads (s : State) (g : Nat) (x : Grid) : (s.putGrid g x).loads = s.loads := rfl
@[simp] theorem putGrid_copies (s : State) (g : Nat) (x : Grid) : (s.putGrid g x).copies = s.copies := rfl
@[simp] theorem putGrid_warps (s : State) (g : Nat) (x : Grid) : (s.putGrid g x).warps = s.warps := rfl
@[simp] theorem putGrid_cores (s : State) (g : Nat) (x : Grid) : (s.putGrid g x).cores = s.cores := rfl
@[simp] theorem putGrid_parts (s : State) (g : Nat) (x : Grid) : (s.putGrid g x).parts = s.parts := rfl
@[simp] theorem putGrid_clusters (s : State) (g : Nat) (x : Grid) : (s.putGrid g x).clusters = s.clusters := rfl
@[simp] theorem putGrid_dies (s : State) (g : Nat) (x : Grid) : (s.putGrid g x).dies = s.dies := rfl
@[simp] theorem putGrid_nextId (s : State) (g : Nat) (x : Grid) : (s.putGrid g x).nextId = s.nextId := rfl
@[simp] theorem putGrid_agenda (s : State) (g : Nat) (x : Grid) : (s.putGrid g x).agenda = s.agenda := rfl
@[simp] theorem putGrid_tick (s : State) (g : Nat) (x : Grid) : (s.putGrid g x).tick = s.tick := rfl
@[simp] theorem putGrid_turns (s : State) (g : Nat) (x : Grid) : (s.putGrid g x).turns = s.turns := rfl
@[simp] theorem putGrid_fresh (s : State) (g : Nat) (x : Grid) : (s.putGrid g x).fresh = s.fresh := rfl
@[simp] theorem putGrid_cur (s : State) (g : Nat) (x : Grid) : (s.putGrid g x).cur = s.cur := rfl

@[simp] theorem putQueue_mem (s : State) (q : Nat) (x : Queue) : (s.putQueue q x).mem = s.mem := rfl
@[simp] theorem putQueue_tags (s : State) (q : Nat) (x : Queue) : (s.putQueue q x).tags = s.tags := rfl
@[simp] theorem putQueue_entries (s : State) (q : Nat) (x : Queue) : (s.putQueue q x).entries = s.entries := rfl
@[simp] theorem putQueue_loads (s : State) (q : Nat) (x : Queue) : (s.putQueue q x).loads = s.loads := rfl
@[simp] theorem putQueue_copies (s : State) (q : Nat) (x : Queue) : (s.putQueue q x).copies = s.copies := rfl
@[simp] theorem putQueue_warps (s : State) (q : Nat) (x : Queue) : (s.putQueue q x).warps = s.warps := rfl
@[simp] theorem putQueue_cores (s : State) (q : Nat) (x : Queue) : (s.putQueue q x).cores = s.cores := rfl
@[simp] theorem putQueue_parts (s : State) (q : Nat) (x : Queue) : (s.putQueue q x).parts = s.parts := rfl
@[simp] theorem putQueue_clusters (s : State) (q : Nat) (x : Queue) : (s.putQueue q x).clusters = s.clusters := rfl
@[simp] theorem putQueue_dies (s : State) (q : Nat) (x : Queue) : (s.putQueue q x).dies = s.dies := rfl
@[simp] theorem putQueue_nextId (s : State) (q : Nat) (x : Queue) : (s.putQueue q x).nextId = s.nextId := rfl
@[simp] theorem putQueue_agenda (s : State) (q : Nat) (x : Queue) : (s.putQueue q x).agenda = s.agenda := rfl
@[simp] theorem putQueue_tick (s : State) (q : Nat) (x : Queue) : (s.putQueue q x).tick = s.tick := rfl
@[simp] theorem putQueue_turns (s : State) (q : Nat) (x : Queue) : (s.putQueue q x).turns = s.turns := rfl
@[simp] theorem putQueue_fresh (s : State) (q : Nat) (x : Queue) : (s.putQueue q x).fresh = s.fresh := rfl
@[simp] theorem putQueue_cur (s : State) (q : Nat) (x : Queue) : (s.putQueue q x).cur = s.cur := rfl

@[simp] theorem dropTag_mem (s : State) (a : Nat) : (s.dropTag a).mem = s.mem := rfl
@[simp] theorem dropTag_entries (s : State) (a : Nat) : (s.dropTag a).entries = s.entries := rfl
@[simp] theorem dropTag_loads (s : State) (a : Nat) : (s.dropTag a).loads = s.loads := rfl
@[simp] theorem dropTag_copies (s : State) (a : Nat) : (s.dropTag a).copies = s.copies := rfl
@[simp] theorem dropTag_warps (s : State) (a : Nat) : (s.dropTag a).warps = s.warps := rfl
@[simp] theorem dropTag_cores (s : State) (a : Nat) : (s.dropTag a).cores = s.cores := rfl
@[simp] theorem dropTag_parts (s : State) (a : Nat) : (s.dropTag a).parts = s.parts := rfl
@[simp] theorem dropTag_clusters (s : State) (a : Nat) : (s.dropTag a).clusters = s.clusters := rfl
@[simp] theorem dropTag_dies (s : State) (a : Nat) : (s.dropTag a).dies = s.dies := rfl
@[simp] theorem dropTag_mod (s : State) (a : Nat) : (s.dropTag a).mod = s.mod := rfl
@[simp] theorem dropTag_nextId (s : State) (a : Nat) : (s.dropTag a).nextId = s.nextId := rfl
@[simp] theorem dropTag_agenda (s : State) (a : Nat) : (s.dropTag a).agenda = s.agenda := rfl
@[simp] theorem dropTag_tick (s : State) (a : Nat) : (s.dropTag a).tick = s.tick := rfl
@[simp] theorem dropTag_turns (s : State) (a : Nat) : (s.dropTag a).turns = s.turns := rfl
@[simp] theorem dropTag_fresh (s : State) (a : Nat) : (s.dropTag a).fresh = s.fresh := rfl
@[simp] theorem dropTag_cur (s : State) (a : Nat) : (s.dropTag a).cur = s.cur := rfl

@[simp] theorem modWarp_mem (s : State) (w : Nat) (f : Warp → Warp) : (s.modWarp w f).mem = s.mem := by
  unfold State.modWarp; split <;> rfl
@[simp] theorem modWarp_tags (s : State) (w : Nat) (f : Warp → Warp) : (s.modWarp w f).tags = s.tags := by
  unfold State.modWarp; split <;> rfl
@[simp] theorem modWarp_entries (s : State) (w : Nat) (f : Warp → Warp) : (s.modWarp w f).entries = s.entries := by
  unfold State.modWarp; split <;> rfl
@[simp] theorem modWarp_loads (s : State) (w : Nat) (f : Warp → Warp) : (s.modWarp w f).loads = s.loads := by
  unfold State.modWarp; split <;> rfl
@[simp] theorem modWarp_copies (s : State) (w : Nat) (f : Warp → Warp) : (s.modWarp w f).copies = s.copies := by
  unfold State.modWarp; split <;> rfl
@[simp] theorem modWarp_cores (s : State) (w : Nat) (f : Warp → Warp) : (s.modWarp w f).cores = s.cores := by
  unfold State.modWarp; split <;> rfl
@[simp] theorem modWarp_parts (s : State) (w : Nat) (f : Warp → Warp) : (s.modWarp w f).parts = s.parts := by
  unfold State.modWarp; split <;> rfl
@[simp] theorem modWarp_clusters (s : State) (w : Nat) (f : Warp → Warp) : (s.modWarp w f).clusters = s.clusters := by
  unfold State.modWarp; split <;> rfl
@[simp] theorem modWarp_dies (s : State) (w : Nat) (f : Warp → Warp) : (s.modWarp w f).dies = s.dies := by
  unfold State.modWarp; split <;> rfl
@[simp] theorem modWarp_mod (s : State) (w : Nat) (f : Warp → Warp) : (s.modWarp w f).mod = s.mod := by
  unfold State.modWarp; split <;> rfl
@[simp] theorem modWarp_nextId (s : State) (w : Nat) (f : Warp → Warp) : (s.modWarp w f).nextId = s.nextId := by
  unfold State.modWarp; split <;> rfl
@[simp] theorem modWarp_agenda (s : State) (w : Nat) (f : Warp → Warp) : (s.modWarp w f).agenda = s.agenda := by
  unfold State.modWarp; split <;> rfl
@[simp] theorem modWarp_tick (s : State) (w : Nat) (f : Warp → Warp) : (s.modWarp w f).tick = s.tick := by
  unfold State.modWarp; split <;> rfl
@[simp] theorem modWarp_turns (s : State) (w : Nat) (f : Warp → Warp) : (s.modWarp w f).turns = s.turns := by
  unfold State.modWarp; split <;> rfl
@[simp] theorem modWarp_fresh (s : State) (w : Nat) (f : Warp → Warp) : (s.modWarp w f).fresh = s.fresh := by
  unfold State.modWarp; split <;> rfl
@[simp] theorem modWarp_cur (s : State) (w : Nat) (f : Warp → Warp) : (s.modWarp w f).cur = s.cur := by
  unfold State.modWarp; split <;> rfl

@[simp] theorem setV_team (w : Warp) (l n : Nat) (x : Word) : (w.setV l n x).team = w.team := rfl
@[simp] theorem setV_num (w : Warp) (l n : Nat) (x : Word) : (w.setV l n x).num = w.num := rfl
@[simp] theorem setV_part (w : Warp) (l n : Nat) (x : Word) : (w.setV l n x).part = w.part := rfl
@[simp] theorem setV_slot (w : Warp) (l n : Nat) (x : Word) : (w.setV l n x).slot = w.slot := rfl
@[simp] theorem setV_threads (w : Warp) (l n : Nat) (x : Word) : (w.setV l n x).threads = w.threads := rfl
@[simp] theorem setV_wregs (w : Warp) (l n : Nat) (x : Word) : (w.setV l n x).wregs = w.wregs := rfl
@[simp] theorem setV_jregs (w : Warp) (l n : Nat) (x : Word) : (w.setV l n x).jregs = w.jregs := rfl
@[simp] theorem setV_hregs (w : Warp) (l n : Nat) (x : Word) : (w.setV l n x).hregs = w.hregs := rfl
@[simp] theorem setV_oqs (w : Warp) (l n : Nat) (x : Word) : (w.setV l n x).oqs = w.oqs := rfl
@[simp] theorem setV_streams (w : Warp) (l n : Nat) (x : Word) : (w.setV l n x).streams = w.streams := rfl
@[simp] theorem setV_fpctl (w : Warp) (l n : Nat) (x : Word) : (w.setV l n x).fpctl = w.fpctl := rfl
@[simp] theorem setV_lvctl (w : Warp) (l n : Nat) (x : Word) : (w.setV l n x).lvctl = w.lvctl := rfl
@[simp] theorem setV_srstate (w : Warp) (l n : Nat) (x : Word) : (w.setV l n x).srstate = w.srstate := rfl
@[simp] theorem setV_done (w : Warp) (l n : Nat) (x : Word) : (w.setV l n x).done = w.done := rfl
@[simp] theorem setV_cpnum (w : Warp) (l n : Nat) (x : Word) : (w.setV l n x).cpnum = w.cpnum := rfl
@[simp] theorem setV_trapcause (w : Warp) (l n : Nat) (x : Word) : (w.setV l n x).trapcause = w.trapcause := rfl
@[simp] theorem setV_traplanes (w : Warp) (l n : Nat) (x : Word) : (w.setV l n x).traplanes = w.traplanes := rfl
@[simp] theorem setV_tvec (w : Warp) (l n : Nat) (x : Word) : (w.setV l n x).tvec = w.tvec := rfl
@[simp] theorem setV_prio (w : Warp) (l n : Nat) (x : Word) : (w.setV l n x).prio = w.prio := rfl
@[simp] theorem setV_prioCap (w : Warp) (l n : Nat) (x : Word) : (w.setV l n x).prioCap = w.prioCap := rfl
@[simp] theorem setV_cur (w : Warp) (l n : Nat) (x : Word) : (w.setV l n x).cur = w.cur := rfl
@[simp] theorem setV_rot (w : Warp) (l n : Nat) (x : Word) : (w.setV l n x).rot = w.rot := rfl
@[simp] theorem setV_quantum (w : Warp) (l n : Nat) (x : Word) : (w.setV l n x).quantum = w.quantum := rfl
@[simp] theorem setV_switching (w : Warp) (l n : Nat) (x : Word) : (w.setV l n x).switching = w.switching := rfl
@[simp] theorem setV_parked (w : Warp) (l n : Nat) (x : Word) : (w.setV l n x).parked = w.parked := rfl
@[simp] theorem setV_released (w : Warp) (l n : Nat) (x : Word) : (w.setV l n x).released = w.released := rfl
@[simp] theorem setV_trap (w : Warp) (l n : Nat) (x : Word) : (w.setV l n x).trap = w.trap := rfl
@[simp] theorem setV_pend (w : Warp) (l n : Nat) (x : Word) : (w.setV l n x).pend = w.pend := rfl
@[simp] theorem setV_replays (w : Warp) (l n : Nat) (x : Word) : (w.setV l n x).replays = w.replays := rfl
@[simp] theorem setV_flights (w : Warp) (l n : Nat) (x : Word) : (w.setV l n x).flights = w.flights := rfl
@[simp] theorem setV_wait (w : Warp) (l n : Nat) (x : Word) : (w.setV l n x).wait = w.wait := rfl
@[simp] theorem setV_waitPage (w : Warp) (l n : Nat) (x : Word) : (w.setV l n x).waitPage = w.waitPage := rfl
@[simp] theorem setV_order (w : Warp) (l n : Nat) (x : Word) : (w.setV l n x).order = w.order := rfl
@[simp] theorem setV_openSet (w : Warp) (l n : Nat) (x : Word) : (w.setV l n x).openSet = w.openSet := rfl
@[simp] theorem setV_batches (w : Warp) (l n : Nat) (x : Word) : (w.setV l n x).batches = w.batches := rfl
@[simp] theorem setV_resid (w : Warp) (l n : Nat) (x : Word) : (w.setV l n x).resid = w.resid := rfl
@[simp] theorem setV_saveDue (w : Warp) (l n : Nat) (x : Word) : (w.setV l n x).saveDue = w.saveDue := rfl
@[simp] theorem setV_saveArea (w : Warp) (l n : Nat) (x : Word) : (w.setV l n x).saveArea = w.saveArea := rfl
@[simp] theorem setV_stopped (w : Warp) (l n : Nat) (x : Word) : (w.setV l n x).stopped = w.stopped := rfl
@[simp] theorem setV_passKeyhole (w : Warp) (l n : Nat) (x : Word) : (w.setV l n x).passKeyhole = w.passKeyhole := rfl
@[simp] theorem setV_safeOrd (w : Warp) (l n : Nat) (x : Word) : (w.setV l n x).safeOrd = w.safeOrd := rfl
@[simp] theorem setV_sinceSafe (w : Warp) (l n : Nat) (x : Word) : (w.setV l n x).sinceSafe = w.sinceSafe := rfl
@[simp] theorem setV_copiesOut (w : Warp) (l n : Nat) (x : Word) : (w.setV l n x).copiesOut = w.copiesOut := rfl
@[simp] theorem setV_aged (w : Warp) (l n : Nat) (x : Word) : (w.setV l n x).aged = w.aged := rfl
@[simp] theorem setV_last (w : Warp) (l n : Nat) (x : Word) : (w.setV l n x).last = w.last := rfl
@[simp] theorem setV_early (w : Warp) (l n : Nat) (x : Word) : (w.setV l n x).early = w.early := rfl
@[simp] theorem setV_lat (w : Warp) (l n : Nat) (x : Word) : (w.setV l n x).lat = w.lat := rfl
@[simp] theorem setV_choosing (w : Warp) (l n : Nat) (x : Word) : (w.setV l n x).choosing = w.choosing := rfl
@[simp] theorem setV_access (w : Warp) (l n : Nat) (x : Word) : (w.setV l n x).access = w.access := rfl
@[simp] theorem setV_missing (w : Warp) (l n : Nat) (x : Word) : (w.setV l n x).missing = w.missing := rfl
@[simp] theorem setV_walked (w : Warp) (l n : Nat) (x : Word) : (w.setV l n x).walked = w.walked := rfl

@[simp] theorem setW_team (w : Warp) (n : Nat) (x : Word) : (w.setW n x).team = w.team := rfl
@[simp] theorem setW_num (w : Warp) (n : Nat) (x : Word) : (w.setW n x).num = w.num := rfl
@[simp] theorem setW_part (w : Warp) (n : Nat) (x : Word) : (w.setW n x).part = w.part := rfl
@[simp] theorem setW_slot (w : Warp) (n : Nat) (x : Word) : (w.setW n x).slot = w.slot := rfl
@[simp] theorem setW_threads (w : Warp) (n : Nat) (x : Word) : (w.setW n x).threads = w.threads := rfl
@[simp] theorem setW_vregs (w : Warp) (n : Nat) (x : Word) : (w.setW n x).vregs = w.vregs := rfl
@[simp] theorem setW_jregs (w : Warp) (n : Nat) (x : Word) : (w.setW n x).jregs = w.jregs := rfl
@[simp] theorem setW_hregs (w : Warp) (n : Nat) (x : Word) : (w.setW n x).hregs = w.hregs := rfl
@[simp] theorem setW_oqs (w : Warp) (n : Nat) (x : Word) : (w.setW n x).oqs = w.oqs := rfl
@[simp] theorem setW_streams (w : Warp) (n : Nat) (x : Word) : (w.setW n x).streams = w.streams := rfl
@[simp] theorem setW_fpctl (w : Warp) (n : Nat) (x : Word) : (w.setW n x).fpctl = w.fpctl := rfl
@[simp] theorem setW_lvctl (w : Warp) (n : Nat) (x : Word) : (w.setW n x).lvctl = w.lvctl := rfl
@[simp] theorem setW_srstate (w : Warp) (n : Nat) (x : Word) : (w.setW n x).srstate = w.srstate := rfl
@[simp] theorem setW_done (w : Warp) (n : Nat) (x : Word) : (w.setW n x).done = w.done := rfl
@[simp] theorem setW_cpnum (w : Warp) (n : Nat) (x : Word) : (w.setW n x).cpnum = w.cpnum := rfl
@[simp] theorem setW_trapcause (w : Warp) (n : Nat) (x : Word) : (w.setW n x).trapcause = w.trapcause := rfl
@[simp] theorem setW_traplanes (w : Warp) (n : Nat) (x : Word) : (w.setW n x).traplanes = w.traplanes := rfl
@[simp] theorem setW_tvec (w : Warp) (n : Nat) (x : Word) : (w.setW n x).tvec = w.tvec := rfl
@[simp] theorem setW_prio (w : Warp) (n : Nat) (x : Word) : (w.setW n x).prio = w.prio := rfl
@[simp] theorem setW_prioCap (w : Warp) (n : Nat) (x : Word) : (w.setW n x).prioCap = w.prioCap := rfl
@[simp] theorem setW_cur (w : Warp) (n : Nat) (x : Word) : (w.setW n x).cur = w.cur := rfl
@[simp] theorem setW_rot (w : Warp) (n : Nat) (x : Word) : (w.setW n x).rot = w.rot := rfl
@[simp] theorem setW_quantum (w : Warp) (n : Nat) (x : Word) : (w.setW n x).quantum = w.quantum := rfl
@[simp] theorem setW_switching (w : Warp) (n : Nat) (x : Word) : (w.setW n x).switching = w.switching := rfl
@[simp] theorem setW_parked (w : Warp) (n : Nat) (x : Word) : (w.setW n x).parked = w.parked := rfl
@[simp] theorem setW_released (w : Warp) (n : Nat) (x : Word) : (w.setW n x).released = w.released := rfl
@[simp] theorem setW_trap (w : Warp) (n : Nat) (x : Word) : (w.setW n x).trap = w.trap := rfl
@[simp] theorem setW_pend (w : Warp) (n : Nat) (x : Word) : (w.setW n x).pend = w.pend := rfl
@[simp] theorem setW_replays (w : Warp) (n : Nat) (x : Word) : (w.setW n x).replays = w.replays := rfl
@[simp] theorem setW_flights (w : Warp) (n : Nat) (x : Word) : (w.setW n x).flights = w.flights := rfl
@[simp] theorem setW_wait (w : Warp) (n : Nat) (x : Word) : (w.setW n x).wait = w.wait := rfl
@[simp] theorem setW_waitPage (w : Warp) (n : Nat) (x : Word) : (w.setW n x).waitPage = w.waitPage := rfl
@[simp] theorem setW_order (w : Warp) (n : Nat) (x : Word) : (w.setW n x).order = w.order := rfl
@[simp] theorem setW_openSet (w : Warp) (n : Nat) (x : Word) : (w.setW n x).openSet = w.openSet := rfl
@[simp] theorem setW_batches (w : Warp) (n : Nat) (x : Word) : (w.setW n x).batches = w.batches := rfl
@[simp] theorem setW_resid (w : Warp) (n : Nat) (x : Word) : (w.setW n x).resid = w.resid := rfl
@[simp] theorem setW_saveDue (w : Warp) (n : Nat) (x : Word) : (w.setW n x).saveDue = w.saveDue := rfl
@[simp] theorem setW_saveArea (w : Warp) (n : Nat) (x : Word) : (w.setW n x).saveArea = w.saveArea := rfl
@[simp] theorem setW_stopped (w : Warp) (n : Nat) (x : Word) : (w.setW n x).stopped = w.stopped := rfl
@[simp] theorem setW_passKeyhole (w : Warp) (n : Nat) (x : Word) : (w.setW n x).passKeyhole = w.passKeyhole := rfl
@[simp] theorem setW_safeOrd (w : Warp) (n : Nat) (x : Word) : (w.setW n x).safeOrd = w.safeOrd := rfl
@[simp] theorem setW_sinceSafe (w : Warp) (n : Nat) (x : Word) : (w.setW n x).sinceSafe = w.sinceSafe := rfl
@[simp] theorem setW_copiesOut (w : Warp) (n : Nat) (x : Word) : (w.setW n x).copiesOut = w.copiesOut := rfl
@[simp] theorem setW_aged (w : Warp) (n : Nat) (x : Word) : (w.setW n x).aged = w.aged := rfl
@[simp] theorem setW_last (w : Warp) (n : Nat) (x : Word) : (w.setW n x).last = w.last := rfl
@[simp] theorem setW_early (w : Warp) (n : Nat) (x : Word) : (w.setW n x).early = w.early := rfl
@[simp] theorem setW_lat (w : Warp) (n : Nat) (x : Word) : (w.setW n x).lat = w.lat := rfl
@[simp] theorem setW_choosing (w : Warp) (n : Nat) (x : Word) : (w.setW n x).choosing = w.choosing := rfl
@[simp] theorem setW_access (w : Warp) (n : Nat) (x : Word) : (w.setW n x).access = w.access := rfl
@[simp] theorem setW_missing (w : Warp) (n : Nat) (x : Word) : (w.setW n x).missing = w.missing := rfl
@[simp] theorem setW_walked (w : Warp) (n : Nat) (x : Word) : (w.setW n x).walked = w.walked := rfl

@[simp] theorem putJ_team (w : Warp) (k : Nat) (x : Mask) : (w.putJ k x).team = w.team := rfl
@[simp] theorem putJ_num (w : Warp) (k : Nat) (x : Mask) : (w.putJ k x).num = w.num := rfl
@[simp] theorem putJ_part (w : Warp) (k : Nat) (x : Mask) : (w.putJ k x).part = w.part := rfl
@[simp] theorem putJ_slot (w : Warp) (k : Nat) (x : Mask) : (w.putJ k x).slot = w.slot := rfl
@[simp] theorem putJ_threads (w : Warp) (k : Nat) (x : Mask) : (w.putJ k x).threads = w.threads := rfl
@[simp] theorem putJ_vregs (w : Warp) (k : Nat) (x : Mask) : (w.putJ k x).vregs = w.vregs := rfl
@[simp] theorem putJ_wregs (w : Warp) (k : Nat) (x : Mask) : (w.putJ k x).wregs = w.wregs := rfl
@[simp] theorem putJ_hregs (w : Warp) (k : Nat) (x : Mask) : (w.putJ k x).hregs = w.hregs := rfl
@[simp] theorem putJ_oqs (w : Warp) (k : Nat) (x : Mask) : (w.putJ k x).oqs = w.oqs := rfl
@[simp] theorem putJ_streams (w : Warp) (k : Nat) (x : Mask) : (w.putJ k x).streams = w.streams := rfl
@[simp] theorem putJ_fpctl (w : Warp) (k : Nat) (x : Mask) : (w.putJ k x).fpctl = w.fpctl := rfl
@[simp] theorem putJ_lvctl (w : Warp) (k : Nat) (x : Mask) : (w.putJ k x).lvctl = w.lvctl := rfl
@[simp] theorem putJ_srstate (w : Warp) (k : Nat) (x : Mask) : (w.putJ k x).srstate = w.srstate := rfl
@[simp] theorem putJ_done (w : Warp) (k : Nat) (x : Mask) : (w.putJ k x).done = w.done := rfl
@[simp] theorem putJ_cpnum (w : Warp) (k : Nat) (x : Mask) : (w.putJ k x).cpnum = w.cpnum := rfl
@[simp] theorem putJ_trapcause (w : Warp) (k : Nat) (x : Mask) : (w.putJ k x).trapcause = w.trapcause := rfl
@[simp] theorem putJ_traplanes (w : Warp) (k : Nat) (x : Mask) : (w.putJ k x).traplanes = w.traplanes := rfl
@[simp] theorem putJ_tvec (w : Warp) (k : Nat) (x : Mask) : (w.putJ k x).tvec = w.tvec := rfl
@[simp] theorem putJ_prio (w : Warp) (k : Nat) (x : Mask) : (w.putJ k x).prio = w.prio := rfl
@[simp] theorem putJ_prioCap (w : Warp) (k : Nat) (x : Mask) : (w.putJ k x).prioCap = w.prioCap := rfl
@[simp] theorem putJ_cur (w : Warp) (k : Nat) (x : Mask) : (w.putJ k x).cur = w.cur := rfl
@[simp] theorem putJ_rot (w : Warp) (k : Nat) (x : Mask) : (w.putJ k x).rot = w.rot := rfl
@[simp] theorem putJ_quantum (w : Warp) (k : Nat) (x : Mask) : (w.putJ k x).quantum = w.quantum := rfl
@[simp] theorem putJ_switching (w : Warp) (k : Nat) (x : Mask) : (w.putJ k x).switching = w.switching := rfl
@[simp] theorem putJ_parked (w : Warp) (k : Nat) (x : Mask) : (w.putJ k x).parked = w.parked := rfl
@[simp] theorem putJ_released (w : Warp) (k : Nat) (x : Mask) : (w.putJ k x).released = w.released := rfl
@[simp] theorem putJ_trap (w : Warp) (k : Nat) (x : Mask) : (w.putJ k x).trap = w.trap := rfl
@[simp] theorem putJ_pend (w : Warp) (k : Nat) (x : Mask) : (w.putJ k x).pend = w.pend := rfl
@[simp] theorem putJ_replays (w : Warp) (k : Nat) (x : Mask) : (w.putJ k x).replays = w.replays := rfl
@[simp] theorem putJ_flights (w : Warp) (k : Nat) (x : Mask) : (w.putJ k x).flights = w.flights := rfl
@[simp] theorem putJ_wait (w : Warp) (k : Nat) (x : Mask) : (w.putJ k x).wait = w.wait := rfl
@[simp] theorem putJ_waitPage (w : Warp) (k : Nat) (x : Mask) : (w.putJ k x).waitPage = w.waitPage := rfl
@[simp] theorem putJ_order (w : Warp) (k : Nat) (x : Mask) : (w.putJ k x).order = w.order := rfl
@[simp] theorem putJ_openSet (w : Warp) (k : Nat) (x : Mask) : (w.putJ k x).openSet = w.openSet := rfl
@[simp] theorem putJ_batches (w : Warp) (k : Nat) (x : Mask) : (w.putJ k x).batches = w.batches := rfl
@[simp] theorem putJ_resid (w : Warp) (k : Nat) (x : Mask) : (w.putJ k x).resid = w.resid := rfl
@[simp] theorem putJ_saveDue (w : Warp) (k : Nat) (x : Mask) : (w.putJ k x).saveDue = w.saveDue := rfl
@[simp] theorem putJ_saveArea (w : Warp) (k : Nat) (x : Mask) : (w.putJ k x).saveArea = w.saveArea := rfl
@[simp] theorem putJ_stopped (w : Warp) (k : Nat) (x : Mask) : (w.putJ k x).stopped = w.stopped := rfl
@[simp] theorem putJ_passKeyhole (w : Warp) (k : Nat) (x : Mask) : (w.putJ k x).passKeyhole = w.passKeyhole := rfl
@[simp] theorem putJ_safeOrd (w : Warp) (k : Nat) (x : Mask) : (w.putJ k x).safeOrd = w.safeOrd := rfl
@[simp] theorem putJ_sinceSafe (w : Warp) (k : Nat) (x : Mask) : (w.putJ k x).sinceSafe = w.sinceSafe := rfl
@[simp] theorem putJ_copiesOut (w : Warp) (k : Nat) (x : Mask) : (w.putJ k x).copiesOut = w.copiesOut := rfl
@[simp] theorem putJ_aged (w : Warp) (k : Nat) (x : Mask) : (w.putJ k x).aged = w.aged := rfl
@[simp] theorem putJ_last (w : Warp) (k : Nat) (x : Mask) : (w.putJ k x).last = w.last := rfl
@[simp] theorem putJ_early (w : Warp) (k : Nat) (x : Mask) : (w.putJ k x).early = w.early := rfl
@[simp] theorem putJ_lat (w : Warp) (k : Nat) (x : Mask) : (w.putJ k x).lat = w.lat := rfl
@[simp] theorem putJ_choosing (w : Warp) (k : Nat) (x : Mask) : (w.putJ k x).choosing = w.choosing := rfl
@[simp] theorem putJ_access (w : Warp) (k : Nat) (x : Mask) : (w.putJ k x).access = w.access := rfl
@[simp] theorem putJ_missing (w : Warp) (k : Nat) (x : Mask) : (w.putJ k x).missing = w.missing := rfl
@[simp] theorem putJ_walked (w : Warp) (k : Nat) (x : Mask) : (w.putJ k x).walked = w.walked := rfl

@[simp] theorem setH_team (w : Warp) (l k : Nat) (x : BitVec 96) : (w.setH l k x).team = w.team := rfl
@[simp] theorem setH_num (w : Warp) (l k : Nat) (x : BitVec 96) : (w.setH l k x).num = w.num := rfl
@[simp] theorem setH_part (w : Warp) (l k : Nat) (x : BitVec 96) : (w.setH l k x).part = w.part := rfl
@[simp] theorem setH_slot (w : Warp) (l k : Nat) (x : BitVec 96) : (w.setH l k x).slot = w.slot := rfl
@[simp] theorem setH_threads (w : Warp) (l k : Nat) (x : BitVec 96) : (w.setH l k x).threads = w.threads := rfl
@[simp] theorem setH_vregs (w : Warp) (l k : Nat) (x : BitVec 96) : (w.setH l k x).vregs = w.vregs := rfl
@[simp] theorem setH_wregs (w : Warp) (l k : Nat) (x : BitVec 96) : (w.setH l k x).wregs = w.wregs := rfl
@[simp] theorem setH_jregs (w : Warp) (l k : Nat) (x : BitVec 96) : (w.setH l k x).jregs = w.jregs := rfl
@[simp] theorem setH_oqs (w : Warp) (l k : Nat) (x : BitVec 96) : (w.setH l k x).oqs = w.oqs := rfl
@[simp] theorem setH_streams (w : Warp) (l k : Nat) (x : BitVec 96) : (w.setH l k x).streams = w.streams := rfl
@[simp] theorem setH_fpctl (w : Warp) (l k : Nat) (x : BitVec 96) : (w.setH l k x).fpctl = w.fpctl := rfl
@[simp] theorem setH_lvctl (w : Warp) (l k : Nat) (x : BitVec 96) : (w.setH l k x).lvctl = w.lvctl := rfl
@[simp] theorem setH_srstate (w : Warp) (l k : Nat) (x : BitVec 96) : (w.setH l k x).srstate = w.srstate := rfl
@[simp] theorem setH_done (w : Warp) (l k : Nat) (x : BitVec 96) : (w.setH l k x).done = w.done := rfl
@[simp] theorem setH_cpnum (w : Warp) (l k : Nat) (x : BitVec 96) : (w.setH l k x).cpnum = w.cpnum := rfl
@[simp] theorem setH_trapcause (w : Warp) (l k : Nat) (x : BitVec 96) : (w.setH l k x).trapcause = w.trapcause := rfl
@[simp] theorem setH_traplanes (w : Warp) (l k : Nat) (x : BitVec 96) : (w.setH l k x).traplanes = w.traplanes := rfl
@[simp] theorem setH_tvec (w : Warp) (l k : Nat) (x : BitVec 96) : (w.setH l k x).tvec = w.tvec := rfl
@[simp] theorem setH_prio (w : Warp) (l k : Nat) (x : BitVec 96) : (w.setH l k x).prio = w.prio := rfl
@[simp] theorem setH_prioCap (w : Warp) (l k : Nat) (x : BitVec 96) : (w.setH l k x).prioCap = w.prioCap := rfl
@[simp] theorem setH_cur (w : Warp) (l k : Nat) (x : BitVec 96) : (w.setH l k x).cur = w.cur := rfl
@[simp] theorem setH_rot (w : Warp) (l k : Nat) (x : BitVec 96) : (w.setH l k x).rot = w.rot := rfl
@[simp] theorem setH_quantum (w : Warp) (l k : Nat) (x : BitVec 96) : (w.setH l k x).quantum = w.quantum := rfl
@[simp] theorem setH_switching (w : Warp) (l k : Nat) (x : BitVec 96) : (w.setH l k x).switching = w.switching := rfl
@[simp] theorem setH_parked (w : Warp) (l k : Nat) (x : BitVec 96) : (w.setH l k x).parked = w.parked := rfl
@[simp] theorem setH_released (w : Warp) (l k : Nat) (x : BitVec 96) : (w.setH l k x).released = w.released := rfl
@[simp] theorem setH_trap (w : Warp) (l k : Nat) (x : BitVec 96) : (w.setH l k x).trap = w.trap := rfl
@[simp] theorem setH_pend (w : Warp) (l k : Nat) (x : BitVec 96) : (w.setH l k x).pend = w.pend := rfl
@[simp] theorem setH_replays (w : Warp) (l k : Nat) (x : BitVec 96) : (w.setH l k x).replays = w.replays := rfl
@[simp] theorem setH_flights (w : Warp) (l k : Nat) (x : BitVec 96) : (w.setH l k x).flights = w.flights := rfl
@[simp] theorem setH_wait (w : Warp) (l k : Nat) (x : BitVec 96) : (w.setH l k x).wait = w.wait := rfl
@[simp] theorem setH_waitPage (w : Warp) (l k : Nat) (x : BitVec 96) : (w.setH l k x).waitPage = w.waitPage := rfl
@[simp] theorem setH_order (w : Warp) (l k : Nat) (x : BitVec 96) : (w.setH l k x).order = w.order := rfl
@[simp] theorem setH_openSet (w : Warp) (l k : Nat) (x : BitVec 96) : (w.setH l k x).openSet = w.openSet := rfl
@[simp] theorem setH_batches (w : Warp) (l k : Nat) (x : BitVec 96) : (w.setH l k x).batches = w.batches := rfl
@[simp] theorem setH_resid (w : Warp) (l k : Nat) (x : BitVec 96) : (w.setH l k x).resid = w.resid := rfl
@[simp] theorem setH_saveDue (w : Warp) (l k : Nat) (x : BitVec 96) : (w.setH l k x).saveDue = w.saveDue := rfl
@[simp] theorem setH_saveArea (w : Warp) (l k : Nat) (x : BitVec 96) : (w.setH l k x).saveArea = w.saveArea := rfl
@[simp] theorem setH_stopped (w : Warp) (l k : Nat) (x : BitVec 96) : (w.setH l k x).stopped = w.stopped := rfl
@[simp] theorem setH_passKeyhole (w : Warp) (l k : Nat) (x : BitVec 96) : (w.setH l k x).passKeyhole = w.passKeyhole := rfl
@[simp] theorem setH_safeOrd (w : Warp) (l k : Nat) (x : BitVec 96) : (w.setH l k x).safeOrd = w.safeOrd := rfl
@[simp] theorem setH_sinceSafe (w : Warp) (l k : Nat) (x : BitVec 96) : (w.setH l k x).sinceSafe = w.sinceSafe := rfl
@[simp] theorem setH_copiesOut (w : Warp) (l k : Nat) (x : BitVec 96) : (w.setH l k x).copiesOut = w.copiesOut := rfl
@[simp] theorem setH_aged (w : Warp) (l k : Nat) (x : BitVec 96) : (w.setH l k x).aged = w.aged := rfl
@[simp] theorem setH_last (w : Warp) (l k : Nat) (x : BitVec 96) : (w.setH l k x).last = w.last := rfl
@[simp] theorem setH_early (w : Warp) (l k : Nat) (x : BitVec 96) : (w.setH l k x).early = w.early := rfl
@[simp] theorem setH_lat (w : Warp) (l k : Nat) (x : BitVec 96) : (w.setH l k x).lat = w.lat := rfl
@[simp] theorem setH_choosing (w : Warp) (l k : Nat) (x : BitVec 96) : (w.setH l k x).choosing = w.choosing := rfl
@[simp] theorem setH_access (w : Warp) (l k : Nat) (x : BitVec 96) : (w.setH l k x).access = w.access := rfl
@[simp] theorem setH_missing (w : Warp) (l k : Nat) (x : BitVec 96) : (w.setH l k x).missing = w.missing := rfl
@[simp] theorem setH_walked (w : Warp) (l k : Nat) (x : BitVec 96) : (w.setH l k x).walked = w.walked := rfl

@[simp] theorem setTh_team (w : Warp) (l : Nat) (t : Thread) : (w.setTh l t).team = w.team := rfl
@[simp] theorem setTh_num (w : Warp) (l : Nat) (t : Thread) : (w.setTh l t).num = w.num := rfl
@[simp] theorem setTh_part (w : Warp) (l : Nat) (t : Thread) : (w.setTh l t).part = w.part := rfl
@[simp] theorem setTh_slot (w : Warp) (l : Nat) (t : Thread) : (w.setTh l t).slot = w.slot := rfl
@[simp] theorem setTh_vregs (w : Warp) (l : Nat) (t : Thread) : (w.setTh l t).vregs = w.vregs := rfl
@[simp] theorem setTh_wregs (w : Warp) (l : Nat) (t : Thread) : (w.setTh l t).wregs = w.wregs := rfl
@[simp] theorem setTh_jregs (w : Warp) (l : Nat) (t : Thread) : (w.setTh l t).jregs = w.jregs := rfl
@[simp] theorem setTh_hregs (w : Warp) (l : Nat) (t : Thread) : (w.setTh l t).hregs = w.hregs := rfl
@[simp] theorem setTh_oqs (w : Warp) (l : Nat) (t : Thread) : (w.setTh l t).oqs = w.oqs := rfl
@[simp] theorem setTh_streams (w : Warp) (l : Nat) (t : Thread) : (w.setTh l t).streams = w.streams := rfl
@[simp] theorem setTh_fpctl (w : Warp) (l : Nat) (t : Thread) : (w.setTh l t).fpctl = w.fpctl := rfl
@[simp] theorem setTh_lvctl (w : Warp) (l : Nat) (t : Thread) : (w.setTh l t).lvctl = w.lvctl := rfl
@[simp] theorem setTh_srstate (w : Warp) (l : Nat) (t : Thread) : (w.setTh l t).srstate = w.srstate := rfl
@[simp] theorem setTh_done (w : Warp) (l : Nat) (t : Thread) : (w.setTh l t).done = w.done := rfl
@[simp] theorem setTh_cpnum (w : Warp) (l : Nat) (t : Thread) : (w.setTh l t).cpnum = w.cpnum := rfl
@[simp] theorem setTh_trapcause (w : Warp) (l : Nat) (t : Thread) : (w.setTh l t).trapcause = w.trapcause := rfl
@[simp] theorem setTh_traplanes (w : Warp) (l : Nat) (t : Thread) : (w.setTh l t).traplanes = w.traplanes := rfl
@[simp] theorem setTh_tvec (w : Warp) (l : Nat) (t : Thread) : (w.setTh l t).tvec = w.tvec := rfl
@[simp] theorem setTh_prio (w : Warp) (l : Nat) (t : Thread) : (w.setTh l t).prio = w.prio := rfl
@[simp] theorem setTh_prioCap (w : Warp) (l : Nat) (t : Thread) : (w.setTh l t).prioCap = w.prioCap := rfl
@[simp] theorem setTh_cur (w : Warp) (l : Nat) (t : Thread) : (w.setTh l t).cur = w.cur := rfl
@[simp] theorem setTh_rot (w : Warp) (l : Nat) (t : Thread) : (w.setTh l t).rot = w.rot := rfl
@[simp] theorem setTh_quantum (w : Warp) (l : Nat) (t : Thread) : (w.setTh l t).quantum = w.quantum := rfl
@[simp] theorem setTh_switching (w : Warp) (l : Nat) (t : Thread) : (w.setTh l t).switching = w.switching := rfl
@[simp] theorem setTh_parked (w : Warp) (l : Nat) (t : Thread) : (w.setTh l t).parked = w.parked := rfl
@[simp] theorem setTh_released (w : Warp) (l : Nat) (t : Thread) : (w.setTh l t).released = w.released := rfl
@[simp] theorem setTh_trap (w : Warp) (l : Nat) (t : Thread) : (w.setTh l t).trap = w.trap := rfl
@[simp] theorem setTh_pend (w : Warp) (l : Nat) (t : Thread) : (w.setTh l t).pend = w.pend := rfl
@[simp] theorem setTh_replays (w : Warp) (l : Nat) (t : Thread) : (w.setTh l t).replays = w.replays := rfl
@[simp] theorem setTh_flights (w : Warp) (l : Nat) (t : Thread) : (w.setTh l t).flights = w.flights := rfl
@[simp] theorem setTh_wait (w : Warp) (l : Nat) (t : Thread) : (w.setTh l t).wait = w.wait := rfl
@[simp] theorem setTh_waitPage (w : Warp) (l : Nat) (t : Thread) : (w.setTh l t).waitPage = w.waitPage := rfl
@[simp] theorem setTh_order (w : Warp) (l : Nat) (t : Thread) : (w.setTh l t).order = w.order := rfl
@[simp] theorem setTh_openSet (w : Warp) (l : Nat) (t : Thread) : (w.setTh l t).openSet = w.openSet := rfl
@[simp] theorem setTh_batches (w : Warp) (l : Nat) (t : Thread) : (w.setTh l t).batches = w.batches := rfl
@[simp] theorem setTh_resid (w : Warp) (l : Nat) (t : Thread) : (w.setTh l t).resid = w.resid := rfl
@[simp] theorem setTh_saveDue (w : Warp) (l : Nat) (t : Thread) : (w.setTh l t).saveDue = w.saveDue := rfl
@[simp] theorem setTh_saveArea (w : Warp) (l : Nat) (t : Thread) : (w.setTh l t).saveArea = w.saveArea := rfl
@[simp] theorem setTh_stopped (w : Warp) (l : Nat) (t : Thread) : (w.setTh l t).stopped = w.stopped := rfl
@[simp] theorem setTh_passKeyhole (w : Warp) (l : Nat) (t : Thread) : (w.setTh l t).passKeyhole = w.passKeyhole := rfl
@[simp] theorem setTh_safeOrd (w : Warp) (l : Nat) (t : Thread) : (w.setTh l t).safeOrd = w.safeOrd := rfl
@[simp] theorem setTh_sinceSafe (w : Warp) (l : Nat) (t : Thread) : (w.setTh l t).sinceSafe = w.sinceSafe := rfl
@[simp] theorem setTh_copiesOut (w : Warp) (l : Nat) (t : Thread) : (w.setTh l t).copiesOut = w.copiesOut := rfl
@[simp] theorem setTh_aged (w : Warp) (l : Nat) (t : Thread) : (w.setTh l t).aged = w.aged := rfl
@[simp] theorem setTh_last (w : Warp) (l : Nat) (t : Thread) : (w.setTh l t).last = w.last := rfl
@[simp] theorem setTh_early (w : Warp) (l : Nat) (t : Thread) : (w.setTh l t).early = w.early := rfl
@[simp] theorem setTh_lat (w : Warp) (l : Nat) (t : Thread) : (w.setTh l t).lat = w.lat := rfl
@[simp] theorem setTh_choosing (w : Warp) (l : Nat) (t : Thread) : (w.setTh l t).choosing = w.choosing := rfl
@[simp] theorem setTh_access (w : Warp) (l : Nat) (t : Thread) : (w.setTh l t).access = w.access := rfl
@[simp] theorem setTh_missing (w : Warp) (l : Nat) (t : Thread) : (w.setTh l t).missing = w.missing := rfl
@[simp] theorem setTh_walked (w : Warp) (l : Nat) (t : Thread) : (w.setTh l t).walked = w.walked := rfl

@[simp] theorem modTh_team (w : Warp) (l : Nat) (f : Thread → Thread) : (w.modTh l f).team = w.team := rfl
@[simp] theorem modTh_num (w : Warp) (l : Nat) (f : Thread → Thread) : (w.modTh l f).num = w.num := rfl
@[simp] theorem modTh_part (w : Warp) (l : Nat) (f : Thread → Thread) : (w.modTh l f).part = w.part := rfl
@[simp] theorem modTh_slot (w : Warp) (l : Nat) (f : Thread → Thread) : (w.modTh l f).slot = w.slot := rfl
@[simp] theorem modTh_vregs (w : Warp) (l : Nat) (f : Thread → Thread) : (w.modTh l f).vregs = w.vregs := rfl
@[simp] theorem modTh_wregs (w : Warp) (l : Nat) (f : Thread → Thread) : (w.modTh l f).wregs = w.wregs := rfl
@[simp] theorem modTh_jregs (w : Warp) (l : Nat) (f : Thread → Thread) : (w.modTh l f).jregs = w.jregs := rfl
@[simp] theorem modTh_hregs (w : Warp) (l : Nat) (f : Thread → Thread) : (w.modTh l f).hregs = w.hregs := rfl
@[simp] theorem modTh_oqs (w : Warp) (l : Nat) (f : Thread → Thread) : (w.modTh l f).oqs = w.oqs := rfl
@[simp] theorem modTh_streams (w : Warp) (l : Nat) (f : Thread → Thread) : (w.modTh l f).streams = w.streams := rfl
@[simp] theorem modTh_fpctl (w : Warp) (l : Nat) (f : Thread → Thread) : (w.modTh l f).fpctl = w.fpctl := rfl
@[simp] theorem modTh_lvctl (w : Warp) (l : Nat) (f : Thread → Thread) : (w.modTh l f).lvctl = w.lvctl := rfl
@[simp] theorem modTh_srstate (w : Warp) (l : Nat) (f : Thread → Thread) : (w.modTh l f).srstate = w.srstate := rfl
@[simp] theorem modTh_done (w : Warp) (l : Nat) (f : Thread → Thread) : (w.modTh l f).done = w.done := rfl
@[simp] theorem modTh_cpnum (w : Warp) (l : Nat) (f : Thread → Thread) : (w.modTh l f).cpnum = w.cpnum := rfl
@[simp] theorem modTh_trapcause (w : Warp) (l : Nat) (f : Thread → Thread) : (w.modTh l f).trapcause = w.trapcause := rfl
@[simp] theorem modTh_traplanes (w : Warp) (l : Nat) (f : Thread → Thread) : (w.modTh l f).traplanes = w.traplanes := rfl
@[simp] theorem modTh_tvec (w : Warp) (l : Nat) (f : Thread → Thread) : (w.modTh l f).tvec = w.tvec := rfl
@[simp] theorem modTh_prio (w : Warp) (l : Nat) (f : Thread → Thread) : (w.modTh l f).prio = w.prio := rfl
@[simp] theorem modTh_prioCap (w : Warp) (l : Nat) (f : Thread → Thread) : (w.modTh l f).prioCap = w.prioCap := rfl
@[simp] theorem modTh_cur (w : Warp) (l : Nat) (f : Thread → Thread) : (w.modTh l f).cur = w.cur := rfl
@[simp] theorem modTh_rot (w : Warp) (l : Nat) (f : Thread → Thread) : (w.modTh l f).rot = w.rot := rfl
@[simp] theorem modTh_quantum (w : Warp) (l : Nat) (f : Thread → Thread) : (w.modTh l f).quantum = w.quantum := rfl
@[simp] theorem modTh_switching (w : Warp) (l : Nat) (f : Thread → Thread) : (w.modTh l f).switching = w.switching := rfl
@[simp] theorem modTh_parked (w : Warp) (l : Nat) (f : Thread → Thread) : (w.modTh l f).parked = w.parked := rfl
@[simp] theorem modTh_released (w : Warp) (l : Nat) (f : Thread → Thread) : (w.modTh l f).released = w.released := rfl
@[simp] theorem modTh_trap (w : Warp) (l : Nat) (f : Thread → Thread) : (w.modTh l f).trap = w.trap := rfl
@[simp] theorem modTh_pend (w : Warp) (l : Nat) (f : Thread → Thread) : (w.modTh l f).pend = w.pend := rfl
@[simp] theorem modTh_replays (w : Warp) (l : Nat) (f : Thread → Thread) : (w.modTh l f).replays = w.replays := rfl
@[simp] theorem modTh_flights (w : Warp) (l : Nat) (f : Thread → Thread) : (w.modTh l f).flights = w.flights := rfl
@[simp] theorem modTh_wait (w : Warp) (l : Nat) (f : Thread → Thread) : (w.modTh l f).wait = w.wait := rfl
@[simp] theorem modTh_waitPage (w : Warp) (l : Nat) (f : Thread → Thread) : (w.modTh l f).waitPage = w.waitPage := rfl
@[simp] theorem modTh_order (w : Warp) (l : Nat) (f : Thread → Thread) : (w.modTh l f).order = w.order := rfl
@[simp] theorem modTh_openSet (w : Warp) (l : Nat) (f : Thread → Thread) : (w.modTh l f).openSet = w.openSet := rfl
@[simp] theorem modTh_batches (w : Warp) (l : Nat) (f : Thread → Thread) : (w.modTh l f).batches = w.batches := rfl
@[simp] theorem modTh_resid (w : Warp) (l : Nat) (f : Thread → Thread) : (w.modTh l f).resid = w.resid := rfl
@[simp] theorem modTh_saveDue (w : Warp) (l : Nat) (f : Thread → Thread) : (w.modTh l f).saveDue = w.saveDue := rfl
@[simp] theorem modTh_saveArea (w : Warp) (l : Nat) (f : Thread → Thread) : (w.modTh l f).saveArea = w.saveArea := rfl
@[simp] theorem modTh_stopped (w : Warp) (l : Nat) (f : Thread → Thread) : (w.modTh l f).stopped = w.stopped := rfl
@[simp] theorem modTh_passKeyhole (w : Warp) (l : Nat) (f : Thread → Thread) : (w.modTh l f).passKeyhole = w.passKeyhole := rfl
@[simp] theorem modTh_safeOrd (w : Warp) (l : Nat) (f : Thread → Thread) : (w.modTh l f).safeOrd = w.safeOrd := rfl
@[simp] theorem modTh_sinceSafe (w : Warp) (l : Nat) (f : Thread → Thread) : (w.modTh l f).sinceSafe = w.sinceSafe := rfl
@[simp] theorem modTh_copiesOut (w : Warp) (l : Nat) (f : Thread → Thread) : (w.modTh l f).copiesOut = w.copiesOut := rfl
@[simp] theorem modTh_aged (w : Warp) (l : Nat) (f : Thread → Thread) : (w.modTh l f).aged = w.aged := rfl
@[simp] theorem modTh_last (w : Warp) (l : Nat) (f : Thread → Thread) : (w.modTh l f).last = w.last := rfl
@[simp] theorem modTh_early (w : Warp) (l : Nat) (f : Thread → Thread) : (w.modTh l f).early = w.early := rfl
@[simp] theorem modTh_lat (w : Warp) (l : Nat) (f : Thread → Thread) : (w.modTh l f).lat = w.lat := rfl
@[simp] theorem modTh_choosing (w : Warp) (l : Nat) (f : Thread → Thread) : (w.modTh l f).choosing = w.choosing := rfl
@[simp] theorem modTh_access (w : Warp) (l : Nat) (f : Thread → Thread) : (w.modTh l f).access = w.access := rfl
@[simp] theorem modTh_missing (w : Warp) (l : Nat) (f : Thread → Thread) : (w.modTh l f).missing = w.missing := rfl
@[simp] theorem modTh_walked (w : Warp) (l : Nat) (f : Thread → Thread) : (w.modTh l f).walked = w.walked := rfl

@[simp] theorem orFpf_team (w : Warp) (l flags : Nat) : (w.orFpf l flags).team = w.team := rfl
@[simp] theorem orFpf_num (w : Warp) (l flags : Nat) : (w.orFpf l flags).num = w.num := rfl
@[simp] theorem orFpf_part (w : Warp) (l flags : Nat) : (w.orFpf l flags).part = w.part := rfl
@[simp] theorem orFpf_slot (w : Warp) (l flags : Nat) : (w.orFpf l flags).slot = w.slot := rfl
@[simp] theorem orFpf_vregs (w : Warp) (l flags : Nat) : (w.orFpf l flags).vregs = w.vregs := rfl
@[simp] theorem orFpf_wregs (w : Warp) (l flags : Nat) : (w.orFpf l flags).wregs = w.wregs := rfl
@[simp] theorem orFpf_jregs (w : Warp) (l flags : Nat) : (w.orFpf l flags).jregs = w.jregs := rfl
@[simp] theorem orFpf_hregs (w : Warp) (l flags : Nat) : (w.orFpf l flags).hregs = w.hregs := rfl
@[simp] theorem orFpf_oqs (w : Warp) (l flags : Nat) : (w.orFpf l flags).oqs = w.oqs := rfl
@[simp] theorem orFpf_streams (w : Warp) (l flags : Nat) : (w.orFpf l flags).streams = w.streams := rfl
@[simp] theorem orFpf_fpctl (w : Warp) (l flags : Nat) : (w.orFpf l flags).fpctl = w.fpctl := rfl
@[simp] theorem orFpf_lvctl (w : Warp) (l flags : Nat) : (w.orFpf l flags).lvctl = w.lvctl := rfl
@[simp] theorem orFpf_srstate (w : Warp) (l flags : Nat) : (w.orFpf l flags).srstate = w.srstate := rfl
@[simp] theorem orFpf_done (w : Warp) (l flags : Nat) : (w.orFpf l flags).done = w.done := rfl
@[simp] theorem orFpf_cpnum (w : Warp) (l flags : Nat) : (w.orFpf l flags).cpnum = w.cpnum := rfl
@[simp] theorem orFpf_trapcause (w : Warp) (l flags : Nat) : (w.orFpf l flags).trapcause = w.trapcause := rfl
@[simp] theorem orFpf_traplanes (w : Warp) (l flags : Nat) : (w.orFpf l flags).traplanes = w.traplanes := rfl
@[simp] theorem orFpf_tvec (w : Warp) (l flags : Nat) : (w.orFpf l flags).tvec = w.tvec := rfl
@[simp] theorem orFpf_prio (w : Warp) (l flags : Nat) : (w.orFpf l flags).prio = w.prio := rfl
@[simp] theorem orFpf_prioCap (w : Warp) (l flags : Nat) : (w.orFpf l flags).prioCap = w.prioCap := rfl
@[simp] theorem orFpf_cur (w : Warp) (l flags : Nat) : (w.orFpf l flags).cur = w.cur := rfl
@[simp] theorem orFpf_rot (w : Warp) (l flags : Nat) : (w.orFpf l flags).rot = w.rot := rfl
@[simp] theorem orFpf_quantum (w : Warp) (l flags : Nat) : (w.orFpf l flags).quantum = w.quantum := rfl
@[simp] theorem orFpf_switching (w : Warp) (l flags : Nat) : (w.orFpf l flags).switching = w.switching := rfl
@[simp] theorem orFpf_parked (w : Warp) (l flags : Nat) : (w.orFpf l flags).parked = w.parked := rfl
@[simp] theorem orFpf_released (w : Warp) (l flags : Nat) : (w.orFpf l flags).released = w.released := rfl
@[simp] theorem orFpf_trap (w : Warp) (l flags : Nat) : (w.orFpf l flags).trap = w.trap := rfl
@[simp] theorem orFpf_pend (w : Warp) (l flags : Nat) : (w.orFpf l flags).pend = w.pend := rfl
@[simp] theorem orFpf_replays (w : Warp) (l flags : Nat) : (w.orFpf l flags).replays = w.replays := rfl
@[simp] theorem orFpf_flights (w : Warp) (l flags : Nat) : (w.orFpf l flags).flights = w.flights := rfl
@[simp] theorem orFpf_wait (w : Warp) (l flags : Nat) : (w.orFpf l flags).wait = w.wait := rfl
@[simp] theorem orFpf_waitPage (w : Warp) (l flags : Nat) : (w.orFpf l flags).waitPage = w.waitPage := rfl
@[simp] theorem orFpf_order (w : Warp) (l flags : Nat) : (w.orFpf l flags).order = w.order := rfl
@[simp] theorem orFpf_openSet (w : Warp) (l flags : Nat) : (w.orFpf l flags).openSet = w.openSet := rfl
@[simp] theorem orFpf_batches (w : Warp) (l flags : Nat) : (w.orFpf l flags).batches = w.batches := rfl
@[simp] theorem orFpf_resid (w : Warp) (l flags : Nat) : (w.orFpf l flags).resid = w.resid := rfl
@[simp] theorem orFpf_saveDue (w : Warp) (l flags : Nat) : (w.orFpf l flags).saveDue = w.saveDue := rfl
@[simp] theorem orFpf_saveArea (w : Warp) (l flags : Nat) : (w.orFpf l flags).saveArea = w.saveArea := rfl
@[simp] theorem orFpf_stopped (w : Warp) (l flags : Nat) : (w.orFpf l flags).stopped = w.stopped := rfl
@[simp] theorem orFpf_passKeyhole (w : Warp) (l flags : Nat) : (w.orFpf l flags).passKeyhole = w.passKeyhole := rfl
@[simp] theorem orFpf_safeOrd (w : Warp) (l flags : Nat) : (w.orFpf l flags).safeOrd = w.safeOrd := rfl
@[simp] theorem orFpf_sinceSafe (w : Warp) (l flags : Nat) : (w.orFpf l flags).sinceSafe = w.sinceSafe := rfl
@[simp] theorem orFpf_copiesOut (w : Warp) (l flags : Nat) : (w.orFpf l flags).copiesOut = w.copiesOut := rfl
@[simp] theorem orFpf_aged (w : Warp) (l flags : Nat) : (w.orFpf l flags).aged = w.aged := rfl
@[simp] theorem orFpf_last (w : Warp) (l flags : Nat) : (w.orFpf l flags).last = w.last := rfl
@[simp] theorem orFpf_early (w : Warp) (l flags : Nat) : (w.orFpf l flags).early = w.early := rfl
@[simp] theorem orFpf_lat (w : Warp) (l flags : Nat) : (w.orFpf l flags).lat = w.lat := rfl
@[simp] theorem orFpf_choosing (w : Warp) (l flags : Nat) : (w.orFpf l flags).choosing = w.choosing := rfl
@[simp] theorem orFpf_access (w : Warp) (l flags : Nat) : (w.orFpf l flags).access = w.access := rfl
@[simp] theorem orFpf_missing (w : Warp) (l flags : Nat) : (w.orFpf l flags).missing = w.missing := rfl
@[simp] theorem orFpf_walked (w : Warp) (l flags : Nat) : (w.orFpf l flags).walked = w.walked := rfl

end Sys2Proof.Machine
end

