-- ==== Sys2Proof/Laws/Table.lean ====
section
/-! SUPPORT. Laws of sparse tables: what a read gives after a write, and that writes keep the canonical form. -/
namespace Sys2Proof.Machine.Table

variable {α : Type}

@[simp] theorem find_nil (i : Nat) : find ([] : SMap α) i = none := rfl

theorem find_put_self (m : SMap α) (i : Nat) (x : α) : find (put m i x) i = some x := by
  induction m with
  | nil => simp [put, find]
  | cons e r ih =>
    obtain ⟨k, v⟩ := e
    simp only [put]
    split
    · next h => simp [find, h]
    · split
      · simp [find]
      · next h _ => simp [find, h, ih]

theorem find_put_other (m : SMap α) {i j : Nat} (x : α) (h : j ≠ i) : find (put m i x) j = find m j := by
  induction m with
  | nil => simp [put, find, h]
  | cons e r ih =>
    obtain ⟨k, v⟩ := e
    simp only [put]
    split
    · next hk => subst hk; simp [find, h]
    · split
      · simp [find, h]
      · simp only [find, ih]

theorem find_drop_self (m : SMap α) (i : Nat) : find (drop m i) i = none := by
  induction m with
  | nil => rfl
  | cons e r ih =>
    obtain ⟨k, v⟩ := e
    by_cases hk : k = i
    · simpa [drop, hk] using ih
    · have : drop ((k, v) :: r) i = (k, v) :: drop r i := by simp [drop, hk]
      rw [this, find, if_neg (Ne.symm hk), ih]

theorem find_drop_other (m : SMap α) {i j : Nat} (h : j ≠ i) : find (drop m i) j = find m j := by
  induction m with
  | nil => rfl
  | cons e r ih =>
    obtain ⟨k, v⟩ := e
    by_cases hk : k = i
    · have : drop ((k, v) :: r) i = drop r i := by simp [drop, hk]
      rw [this, ih, find, if_neg (by omega)]
    · have : drop ((k, v) :: r) i = (k, v) :: drop r i := by simp [drop, hk]
      rw [this]
      simp only [find, ih]

@[simp] theorem get_put_self (d : α) (m : SMap α) (i : Nat) (x : α) : get d (put m i x) i = x := by
  simp [get, find_put_self]

theorem get_put_other (d : α) (m : SMap α) {i j : Nat} (x : α) (h : j ≠ i) : get d (put m i x) j = get d m j := by
  simp [get, find_put_other m x h]

@[simp] theorem get_set_self [DecidableEq α] (d : α) (m : SMap α) (i : Nat) (x : α) : get d (set d m i x) i = x := by
  unfold set
  split
  · next h => simp [get, find_drop_self, h]
  · simp

theorem get_set_other [DecidableEq α] (d : α) (m : SMap α) {i j : Nat} (x : α) (h : j ≠ i) :
    get d (set d m i x) j = get d m j := by
  unfold set
  split
  · simp [get, find_drop_other m h]
  · exact get_put_other d m x h

theorem get_set [DecidableEq α] (d : α) (m : SMap α) (i j : Nat) (x : α) :
    get d (set d m i x) j = if j = i then x else get d m j := by
  by_cases h : j = i
  · simp [h]
  · simp [h, get_set_other d m x h]

theorem get_put (d : α) (m : SMap α) (i j : Nat) (x : α) : get d (put m i x) j = if j = i then x else get d m j := by
  by_cases h : j = i
  · simp [h]
  · simp [h, get_put_other d m x h]

/-! ## The canonical form -/

theorem sorted_cons {k : Nat} {v : α} {r : SMap α} :
    sorted ((k, v) :: r) = true ↔ (∀ e ∈ r, k < e.1) ∧ sorted r = true := by
  induction r generalizing k v with
  | nil => simp [sorted]
  | cons e r ih =>
    obtain ⟨k', v'⟩ := e
    constructor
    · intro h
      have h' : k < k' ∧ sorted ((k', v') :: r) = true := by simpa [sorted] using h
      refine ⟨?_, h'.2⟩
      intro e he
      rcases List.mem_cons.1 he with rfl | he
      · exact h'.1
      · exact Nat.lt_trans h'.1 ((ih.1 h'.2).1 e he)
    · intro h
      have := h.1 (k', v') (List.mem_cons_self ..)
      simp [sorted, h.2, this]

theorem put_mem {m : SMap α} {i : Nat} {x : α} {e : Nat × α} (h : e ∈ put m i x) : e = (i, x) ∨ e ∈ m := by
  induction m with
  | nil => simp [put] at h; exact .inl h
  | cons a r ih =>
    obtain ⟨k, v⟩ := a
    simp only [put] at h
    split at h
    · next hk =>
      rcases List.mem_cons.1 h with h | h
      · exact .inl (by rw [h, hk])
      · exact .inr (List.mem_cons_of_mem _ h)
    · split at h
      · rcases List.mem_cons.1 h with h | h
        · exact .inl h
        · exact .inr h
      · rcases List.mem_cons.1 h with h | h
        · exact .inr (h ▸ List.mem_cons_self ..)
        · rcases ih h with h | h
          · exact .inl h
          · exact .inr (List.mem_cons_of_mem _ h)

theorem sorted_put {m : SMap α} {i : Nat} {x : α} (h : sorted m = true) : sorted (put m i x) = true := by
  induction m with
  | nil => simp [put, sorted]
  | cons a r ih =>
    obtain ⟨k, v⟩ := a
    have hs := sorted_cons.1 h
    simp only [put]
    split
    · next hk => subst hk; exact sorted_cons.2 hs
    · split
      · next _ hk =>
        refine sorted_cons.2 ⟨?_, h⟩
        intro e he
        rcases List.mem_cons.1 he with rfl | he
        · exact hk
        · exact Nat.lt_trans hk (hs.1 e he)
      · next h1 h2 =>
        refine sorted_cons.2 ⟨?_, ih hs.2⟩
        intro e he
        rcases put_mem he with rfl | he
        · simp only; omega
        · exact hs.1 e he

theorem sorted_filter {m : SMap α} (p : Nat × α → Bool) (h : sorted m = true) : sorted (m.filter p) = true := by
  induction m with
  | nil => rfl
  | cons a r ih =>
    obtain ⟨k, v⟩ := a
    have hs := sorted_cons.1 h
    by_cases hp : p (k, v)
    · rw [List.filter_cons_of_pos hp]
      exact sorted_cons.2 ⟨fun e he => hs.1 e (List.mem_filter.1 he).1, ih hs.2⟩
    · rw [List.filter_cons_of_neg hp]
      exact ih hs.2

/-- Every write keeps the canonical form. -/
theorem canonical_set [DecidableEq α] {d : α} {m : SMap α} (i : Nat) (x : α) (h : canonical d m = true) :
    canonical d (set d m i x) = true := by
  simp only [canonical, Bool.and_eq_true, List.all_eq_true] at h ⊢
  unfold set
  split
  · exact ⟨sorted_filter _ h.1, fun e he => h.2 e (List.mem_filter.1 he).1⟩
  · next hx =>
    refine ⟨sorted_put h.1, fun e he => ?_⟩
    rcases put_mem he with rfl | he
    · simpa using hx
    · exact h.2 e he

/-- Two canonical tables with equal contents are the same list. -/
theorem canonical_ext [DecidableEq α] {d : α} : ∀ {m n : SMap α}, canonical d m = true → canonical d n = true →
    (∀ i, get d m i = get d n i) → m = n := by
  intro m
  induction m with
  | nil =>
    intro n _ hn h
    cases n with
    | nil => rfl
    | cons e r =>
      obtain ⟨k, v⟩ := e
      have := h k
      simp only [canonical, List.all_cons, Bool.and_eq_true, decide_eq_true_eq] at hn
      simp [get, find] at this
      exact absurd this.symm hn.2.1
  | cons e r ih =>
    intro n hm hn h
    obtain ⟨k, v⟩ := e
    have absent : ∀ {r : SMap α} {k j : Nat}, (∀ e ∈ r, k < e.1) → j ≤ k → find r j = none := by
      intro r k j hr hj
      induction r with
      | nil => rfl
      | cons a r ih =>
        obtain ⟨k', v'⟩ := a
        have hk' := hr (k', v') (List.mem_cons_self ..)
        simp only at hk'
        rw [find, if_neg (by omega)]
        exact ih fun e he => hr e (List.mem_cons_of_mem _ he)
    have hm' := hm
    simp only [canonical, List.all_cons, Bool.and_eq_true, decide_eq_true_eq] at hm'
    have ms := sorted_cons.1 hm'.1
    cases n with
    | nil =>
      have := h k
      simp [get, find] at this
      exact absurd this hm'.2.1
    | cons f q =>
      obtain ⟨k', v'⟩ := f
      have hn' := hn
      simp only [canonical, List.all_cons, Bool.and_eq_true, decide_eq_true_eq] at hn'
      have ns := sorted_cons.1 hn'.1
      have hk : k = k' := by
        rcases Nat.lt_trichotomy k k' with hlt | heq | hgt
        · have := h k
          rw [get, get, find, if_pos rfl, find, if_neg (by omega), absent ns.1 (by omega)] at this
          exact absurd this hm'.2.1
        · exact heq
        · have := h k'
          rw [get, get, find, if_neg (by omega), absent ms.1 (by omega), find, if_pos rfl] at this
          exact absurd this.symm hn'.2.1
      subst hk
      have hv : v = v' := by
        have := h k
        simpa [get, find] using this
      subst hv
      congr 1
      refine ih ?_ ?_ fun i => ?_
      · simp only [canonical, Bool.and_eq_true]; exact ⟨ms.2, hm'.2.2⟩
      · simp only [canonical, Bool.and_eq_true]; exact ⟨ns.2, hn'.2.2⟩
      · by_cases hi : i = k
        · subst hi
          rw [get, get, absent ms.1 (Nat.le_refl _), absent ns.1 (Nat.le_refl _)]
        · have := h i
          rwa [get, get, find, if_neg hi, find, if_neg hi] at this

end Sys2Proof.Machine.Table
end

