-- ==== Sys2Proof/Laws/Registers.lean ====
section
/-! SUPPORT. Laws of a warp's registers (R54, R55): what a read gives after a write. -/
namespace Sys2Proof.Machine

theorem vkey_inj {l n l' n' : Nat} (h : n < 1024) (h' : n' < 1024) : vkey l n = vkey l' n' ↔ l = l' ∧ n = n' := by
  unfold vkey; omega

theorem getV_setV (w : Warp) (l n l' n' : Nat) (x : Word) (h : n < 1024) (h' : n' < 1024) :
    (w.setV l n x).getV l' n' = if l' = l ∧ n' = n then x else w.getV l' n' := by
  simp only [Warp.getV, Warp.setV, Table.get_set, vkey_inj h' h]

@[simp] theorem getV_setV_self (w : Warp) (l n : Nat) (x : Word) : (w.setV l n x).getV l n = x := by
  simp [Warp.getV, Warp.setV]

theorem getW_setW (w : Warp) (n n' : Nat) (x : Word) : (w.setW n x).getW n' = if n' = n then x else w.getW n' := by
  simp only [Warp.getW, Warp.setW, Table.get_set]

@[simp] theorem getW_setW_self (w : Warp) (n : Nat) (x : Word) : (w.setW n x).getW n = x := by simp [getW_setW]

theorem getJ_putJ (w : Warp) (k k' : Nat) (x : Mask) : (w.putJ k x).getJ k' = if k' = k then x else w.getJ k' := by
  simp only [Warp.getJ, Warp.putJ, Table.get_set]

theorem getH_setH (w : Warp) (l k l' k' : Nat) (x : BitVec 96) (h : k < 16) (h' : k' < 16) :
    (w.setH l k x).getH l' k' = if l' = l ∧ k' = k then x else w.getH l' k' := by
  simp only [Warp.getH, Warp.setH, Table.get_set]
  by_cases e : l' * 16 + k' = l * 16 + k
  · rw [if_pos e, if_pos (by omega)]
  · rw [if_neg e, if_neg (by omega)]

theorem th_setTh (w : Warp) (l l' : Nat) (t : Thread) : (w.setTh l t).th l' = if l' = l then t else w.th l' := by
  simp only [Warp.th, Warp.setTh, Table.get_put]

@[simp] theorem th_setTh_self (w : Warp) (l : Nat) (t : Thread) : (w.setTh l t).th l = t := by simp [th_setTh]

theorem th_modTh (w : Warp) (l l' : Nat) (f : Thread → Thread) :
    (w.modTh l f).th l' = if l' = l then f (w.th l) else w.th l' := th_setTh w l l' _

@[simp] theorem getV_setW (w : Warp) (n l k : Nat) (x : Word) : (w.setW n x).getV l k = w.getV l k := rfl
@[simp] theorem getW_setV (w : Warp) (l n k : Nat) (x : Word) : (w.setV l n x).getW k = w.getW k := rfl
@[simp] theorem getV_modTh (w : Warp) (l : Nat) (f : Thread → Thread) (l' n : Nat) : (w.modTh l f).getV l' n = w.getV l' n := rfl
@[simp] theorem getW_modTh (w : Warp) (l : Nat) (f : Thread → Thread) (n : Nat) : (w.modTh l f).getW n = w.getW n := rfl
@[simp] theorem getH_modTh (w : Warp) (l : Nat) (f : Thread → Thread) (l' k : Nat) : (w.modTh l f).getH l' k = w.getH l' k := rfl
@[simp] theorem th_setV (w : Warp) (l n : Nat) (x : Word) (l' : Nat) : (w.setV l n x).th l' = w.th l' := rfl
@[simp] theorem th_setW (w : Warp) (n : Nat) (x : Word) (l : Nat) : (w.setW n x).th l = w.th l := rfl

/-! ## Lanes of a mask -/

/-- The lanes of a mask are those whose bit is set. -/
theorem mem_lanes {m : Mask} {l : Nat} : l ∈ m.lanes ↔ l < 32 ∧ m.has l = true := by
  simp [Mask.lanes, lanes32]

theorem nodup_lanes (m : Mask) : m.lanes.Nodup := by
  unfold Mask.lanes lanes32
  exact (List.nodup_range).filter _

/-- A change of every thread of a mask. -/
theorem th_foldl_modTh (f : Nat → Thread → Thread) : ∀ (ls : List Nat) (w : Warp) (l : Nat), ls.Nodup →
    (ls.foldl (fun w l => w.modTh l (f l)) w).th l = if l ∈ ls then f l (w.th l) else w.th l := by
  intro ls
  induction ls with
  | nil => intro w l _; rfl
  | cons a r ih =>
    intro w l h
    have hn := List.nodup_cons.1 h
    rw [List.foldl_cons, ih _ _ hn.2, th_modTh]
    by_cases ha : l = a
    · subst ha
      rw [if_neg hn.1, if_pos rfl, if_pos (List.mem_cons_self ..)]
    · rw [if_neg ha]
      by_cases hr : l ∈ r
      · rw [if_pos hr, if_pos (List.mem_cons_of_mem _ hr)]
      · rw [if_neg hr, if_neg (by simp [ha, hr])]

theorem th_modLanes (w : Warp) (m : Mask) (f : Nat → Thread → Thread) (l : Nat) :
    (w.modLanes m f).th l = if l ∈ m.lanes then f l (w.th l) else w.th l := by
  unfold Warp.modLanes
  exact th_foldl_modTh f m.lanes w l (nodup_lanes m)

end Sys2Proof.Machine
end

