-- ==== Sys2Proof/Laws/Forms.lean ====
section
/-! SUPPORT. What an issue of each layout does, said once: how it settles, what a destination receives, and from that the
completion of every form of layouts A, A3 and P. -/
namespace Sys2Proof

/-- A destination's registers lie in their files (Table 4.1). -/
def Opnd.inFile : Opnd → Prop
  | .v n => n < 768
  | .w n => n < 64
  | _ => True

end Sys2Proof

namespace Sys2Proof.Machine
open Sys2Proof

/-! ## An issue -/

theorem warp?_putWarp (s : State) (i : Nat) (x : Warp) : (s.putWarp i x).warp? i = some x :=
  Table.find_put_self _ _ _

theorem put_put {α : Type} (m : SMap α) (i : Nat) (x y : α) : Table.put (Table.put m i x) i y = Table.put m i y := by
  induction m with
  | nil => simp [Table.put]
  | cons e r ih =>
    obtain ⟨k, v⟩ := e
    unfold Table.put
    by_cases h : i = k
    · simp [h, Table.put]
    · by_cases h' : i < k
      · simp [h, h', Table.put]
      · simp [h, h', Table.put, ih]

theorem putWarp_putWarp (s : State) (i : Nat) (x y : Warp) : (s.putWarp i x).putWarp i y = s.putWarp i y := by
  simp [State.putWarp, put_put]

theorem modWarp_putWarp (s : State) (i : Nat) (x : Warp) (f : Warp → Warp) : (s.putWarp i x).modWarp i f = s.putWarp i (f x) := by
  simp [State.modWarp, warp?_putWarp, putWarp_putWarp]

/-- An issue of the front acted on, whose registers are allocated, is settled by what its meaning answers. -/
theorem issue_acts {s : State} {w : Warp} {front : Mask} {i : Instr} {need : Nat} (k : Ctx → Iss) (ha : s.Acts w front)
    (hn : (s.at_ w front i).Fits need) :
    issue i.op i.len need i.hdr s k = .next ((s.at_ w front i).settle (k (s.at_ w front i))) := by
  unfold issue
  rw [ha.1]
  simp only [ha.2]
  rw [if_pos (show need ≤ (s.kernOf w).regs from hn)]
  rfl

theorem and_foldl_or (e : Nat) : ∀ (l : List (Nat × Nat)) (a : Nat), a &&& e = 0 → (∀ x ∈ l, x.2 &&& e = 0) →
    l.foldl (fun a x => a ||| x.2) a &&& e = 0 := by
  intro l
  induction l with
  | nil => intro a h _; exact h
  | cons x r ih =>
    intro a h hl
    refine ih _ ?_ (fun y hy => hl y (List.mem_cons_of_mem _ hy))
    rw [Nat.and_or_distrib_right, h, hl x (List.mem_cons_self ..)]
    rfl

/-- No trap follows where no flag that was raised is enabled (R68). -/
theorem flagTrap_quiet {s : State} {i op : Nat} {front : Mask} {ret : List (Nat × Nat × Nat × Bool)} {raised : List (Nat × Nat)}
    {w : Warp} (hw : s.warp? i = some w) (h : ∀ x ∈ raised, x.2 &&& w.fpctl.toNat % 64 = 0) :
    s.flagTrap i op front ret raised = s := by
  unfold State.flagTrap
  rw [hw]
  simp only []
  rw [and_foldl_or _ raised 0 (by simp) h]
  rfl

/-- Folds over the threads change threads only. -/
theorem foldl_threads {α : Type} (g : Warp → α → Warp) (hg : ∀ w a, g w a = { w with threads := (g w a).threads }) :
    ∀ (l : List α) (w : Warp), l.foldl g w = { w with threads := (l.foldl g w).threads } := by
  intro l
  induction l with
  | nil => intro w; rfl
  | cons a r ih =>
    intro w
    rw [List.foldl_cons, ih, hg]

/-- The warp after an issue that has completed: counted, its front moved on, the flags raised made sticky. -/
def Ctx.after (c : Ctx) (w : Warp) (raised : List (Nat × Nat)) : Warp :=
  raised.foldl (fun w e => w.orFpf e.1 e.2) ((w.count c.front).advance c.front c.len)

theorem advance_eq (w : Warp) (m : Mask) (n : Nat) : w.advance m n = { w with threads := (w.advance m n).threads } :=
  foldl_threads (fun w l => w.modTh l (fun t => t.next n)) (fun _ _ => rfl) m.lanes w

theorem after_eq (c : Ctx) (w : Warp) (raised : List (Nat × Nat)) :
    c.after w raised = { w.count c.front with threads := (c.after w raised).threads } := by
  unfold Ctx.after
  rw [foldl_threads _ (fun _ _ => rfl), advance_eq]

theorem settle_done (c : Ctx) (s : State) (w : Warp) (raised : List (Nat × Nat)) (hf : w.fpctl = c.w.fpctl)
    (h : ∀ x ∈ raised, x.2 &&& c.w.fpctl.toNat % 64 = 0) :
    c.settle (.done (s.putWarp c.wid w) raised) = s.putWarp c.wid (c.after w raised) := by
  unfold Ctx.settle
  simp only [modWarp_putWarp, warp?_putWarp]
  rw [flagTrap_quiet (warp?_putWarp _ _ _)]
  · rfl
  · intro x hx
    have e : (c.after w raised).fpctl = c.w.fpctl := by rw [after_eq]; exact hf
    unfold Ctx.after at e
    rw [e]
    exact h x hx

/-! ## The threads after an issue -/

theorem mem_lanes' {m : Mask} {l : Nat} (h : l ∈ m.lanes) : l < 32 ∧ m.has l = true := mem_lanes.1 h

/-- The sticky flags of a lane after a fold over raised flags. -/
theorem th_foldl_orFpf (g : Nat → Nat) : ∀ (r : List (Nat × Nat)) (w : Warp) (l : Nat),
    (r.map (·.1)).Nodup → (∀ e ∈ r, e.2 = g e.1) → (l ∉ r.map (·.1) → g l = 0) →
    (r.foldl (fun w e => w.orFpf e.1 e.2) w).th l = (w.th l).sticky (g l) := by
  intro r
  induction r with
  | nil =>
    intro w l _ _ h
    rw [h (by simp)]
    simp [Thread.sticky]
  | cons e r ih =>
    intro w l hd he hl
    simp only [List.map_cons, List.nodup_cons] at hd
    rw [List.foldl_cons]
    by_cases hm : l = e.1
    · have hr : (r.foldl (fun w e => w.orFpf e.1 e.2) (w.orFpf e.1 e.2)).th l = (w.orFpf e.1 e.2).th l := by
        have : ∀ (r : List (Nat × Nat)) (w : Warp), l ∉ r.map (·.1) → (r.foldl (fun w e => w.orFpf e.1 e.2) w).th l = w.th l := by
          intro r
          induction r with
          | nil => intro w _; rfl
          | cons y r ih =>
            intro w h
            simp only [List.map_cons, List.mem_cons, not_or] at h
            rw [List.foldl_cons, ih _ h.2, Warp.orFpf, th_modTh, if_neg h.1]
        exact this r _ (by rw [hm]; exact hd.1)
      rw [hr, Warp.orFpf, th_modTh, if_pos hm, he e (List.mem_cons_self ..), hm]
      rfl
    · rw [ih _ l hd.2 (fun x hx => he x (List.mem_cons_of_mem _ hx))
        (fun h => hl (by simp only [List.map_cons, List.mem_cons, not_or]; exact ⟨hm, h⟩)), Warp.orFpf, th_modTh, if_neg hm]

theorem th_count (w : Warp) (m : Mask) (l : Nat) : (w.count m).th l = w.th l := rfl

theorem th_after (c : Ctx) (w : Warp) (r : List (Nat × Nat)) (g : Nat → Nat) (hd : (r.map (·.1)).Nodup)
    (he : ∀ e ∈ r, e.2 = g e.1) (hg : ∀ l, l ∉ r.map (·.1) → g l = 0) (l : Nat) :
    (c.after w r).th l = ((if l ∈ c.front.lanes then (w.th l).next c.len else w.th l).sticky (g l)) := by
  unfold Ctx.after
  rw [th_foldl_orFpf g r _ l hd he (hg l), Warp.advance, th_modLanes, th_count]

theorem sticky_zero (t : Thread) : t.sticky 0 = t := by simp [Thread.sticky]

theorem mem_ofPred {p : Nat → Bool} {l : Nat} (h : l ∈ (Mask.ofPred p).lanes) : p l = true := by
  have key : ∀ (ls : List Nat) (m : Mask) (l : Nat), l < 32 →
      (ls.foldl (fun m l => if p l then m ||| BitVec.ofNat 32 (2 ^ l) else m) m).getLsbD l = true →
      m.getLsbD l = true ∨ p l = true := by
    intro ls
    induction ls with
    | nil => intro m l _ h; exact .inl h
    | cons a r ih =>
      intro m l hl h
      rw [List.foldl_cons] at h
      rcases ih _ l hl h with h' | h'
      · split at h'
        · next hp =>
          simp only [BitVec.getLsbD_or, Bool.or_eq_true] at h'
          rcases h' with h' | h'
          · exact .inl h'
          · right
            simp only [BitVec.getLsbD_ofNat, Nat.testBit_two_pow, Bool.and_eq_true, decide_eq_true_eq] at h'
            rw [← h'.2]; exact hp
        · exact .inl h'
      · exact .inr h'
  have h' := mem_lanes' h
  rcases key lanes32 0 l h'.1 h'.2 with h | h
  · simp at h
  · exact h

/-- An active lane is a lane of the front. -/
theorem active_front {s : State} {w : Warp} {front : Mask} {i : Instr} {l : Nat} (h : l ∈ (s.at_ w front i).active.lanes) :
    l ∈ front.lanes := by
  have h' := mem_ofPred (p := fun l => front.has l && _) h
  simp only [Bool.and_eq_true] at h'
  exact mem_lanes.2 ⟨(mem_lanes' h).1, h'.1⟩

/-! ## What a destination receives -/

/-- A write that changes registers, the marks of the flights and the results that wait for their windows, only. -/
def RegsOnly (w x : Warp) : Prop :=
  x = { w with vregs := x.vregs, wregs := x.wregs, flights := x.flights, deferred := x.deferred } ∧ x.flights.map (·.id) = w.flights.map (·.id)

theorem RegsOnly.refl (w : Warp) : RegsOnly w w := ⟨rfl, rfl⟩
theorem RegsOnly.trans {a b c : Warp} (h : RegsOnly a b) (k : RegsOnly b c) : RegsOnly a c :=
  ⟨by rw [k.1, h.1], k.2.trans h.2⟩
theorem RegsOnly.foldl {α : Type} (g : Warp → α → Warp) (hg : ∀ w a, RegsOnly w (g w a)) :
    ∀ (l : List α) (w : Warp), RegsOnly w (l.foldl g w) := by
  intro l
  induction l with
  | nil => exact fun w => .refl w
  | cons a r ih => exact fun w => (hg w a).trans (ih _)

theorem windowWrite_regs (s : State) (w : Warp) (l n : Nat) :
    (windowWrite s w l n).vregs = w.vregs ∧ (windowWrite s w l n).wregs = w.wregs := by
  unfold windowWrite; split <;> exact ⟨rfl, rfl⟩

theorem windowWrite_only (s : State) (w : Warp) (l n : Nat) : RegsOnly w (windowWrite s w l n) := by
  unfold windowWrite
  split
  · exact .refl w
  · refine ⟨rfl, ?_⟩
    simp only [List.map_map]
    apply List.map_congr_left
    intro f _
    simp only [Function.comp]
    split <;> rfl

/-- Writes inside windows, one after another, leave the registers. -/
theorem windowWrites_regs {α : Type} (s : State) (f : α → Nat × Nat) (xs : List α) (w : Warp) :
    let v := xs.foldl (fun w a => windowWrite s w (f a).1 (f a).2) w
    RegsOnly w v ∧ v.vregs = w.vregs ∧ v.wregs = w.wregs := by
  induction xs generalizing w with
  | nil => exact ⟨.refl w, rfl, rfl⟩
  | cons a r ih =>
    obtain ⟨h1, h2, h3⟩ := ih (windowWrite s w (f a).1 (f a).2)
    have h := windowWrite_regs s w (f a).1 (f a).2
    exact ⟨(windowWrite_only s w _ _).trans h1, h2.trans h.1, h3.trans h.2⟩

theorem Ctx.setV_only (c : Ctx) (w : Warp) (l n : Nat) (x : Word) : RegsOnly w (c.setV w l n x) :=
  (windowWrite_only _ _ _ _).trans ⟨rfl, rfl⟩
theorem Ctx.setW_only (c : Ctx) (w : Warp) (n : Nat) (x : Word) : RegsOnly w (c.setW w n x) :=
  (windowWrite_only _ _ _ _).trans ⟨rfl, rfl⟩

theorem Ctx.put_only (c : Ctx) (w : Warp) (d : Opnd) (l : Nat) (wide : Bool) (x : Nat) : RegsOnly w (c.put w d l wide x) := by
  unfold Ctx.put
  split
  · simp only []
    split
    · exact (c.setV_only _ _ _ _).trans (c.setV_only _ _ _ _)
    · exact c.setV_only _ _ _ _
  · simp only []
    split
    · exact (c.setW_only _ _ _).trans (c.setW_only _ _ _)
    · exact c.setW_only _ _ _
  · exact .refl w

theorem Ctx.getV_setV (c : Ctx) (w : Warp) (l n l' n' : Nat) (x : Word) (h : n < 1024) (h' : n' < 1024) :
    (c.setV w l n x).getV l' n' = if l' = l ∧ n' = n then x else w.getV l' n' := by
  unfold Ctx.setV
  rw [Machine.getV_setV _ _ _ _ _ _ h h']
  simp only [Warp.getV, (windowWrite_regs _ _ _ _).1]
theorem Ctx.getW_setV (c : Ctx) (w : Warp) (l n n' : Nat) (x : Word) : (c.setV w l n x).getW n' = w.getW n' := by
  unfold Ctx.setV
  rw [Machine.getW_setV]
  simp only [Warp.getW, (windowWrite_regs _ _ _ _).2]
theorem Ctx.getW_setW (c : Ctx) (w : Warp) (n n' : Nat) (x : Word) :
    (c.setW w n x).getW n' = if n' = n then x else w.getW n' := by
  unfold Ctx.setW
  rw [Machine.getW_setW]
  simp only [Warp.getW, (windowWrite_regs _ _ _ _).2]
theorem Ctx.getV_setW (c : Ctx) (w : Warp) (n l' n' : Nat) (x : Word) : (c.setW w n x).getV l' n' = w.getV l' n' := by
  unfold Ctx.setW
  rw [Machine.getV_setW]
  simp only [Warp.getV, (windowWrite_regs _ _ _ _).1]

theorem Ctx.put_holds (c : Ctx) (w : Warp) (d : Opnd) (l : Nat) (wide : Bool) (x : Nat) (hd : d.inFile) :
    (c.put w d l wide x).Holds d wide l x := by
  unfold Ctx.put Warp.Holds
  cases d <;> simp only []
  · next n =>
    have hn : n < 768 := hd
    cases wide <;> simp [Ctx.getV_setV _ _ _ _ _ _ _ (show n < 1024 by omega),
      Ctx.getV_setV _ _ _ _ _ _ _ (show n + 1 < 1024 by omega), show n < 1024 by omega, show n + 1 < 1024 by omega]
  · next n =>
    cases wide <;> simp [Ctx.getW_setW]

theorem mem_destsOf_v {n l l' n' k : Nat} : (l', n') ∈ destsOf (.v n) [l] k ↔ l' = l ∧ n ≤ n' ∧ n' < n + k := by
  simp only [destsOf, List.flatMap_cons, List.flatMap_nil, List.append_nil, List.mem_map, List.mem_range, Prod.mk.injEq]
  constructor
  · rintro ⟨a, h, rfl, rfl⟩; omega
  · rintro ⟨rfl, h, h'⟩; exact ⟨n' - n, by omega, rfl, by omega⟩
theorem mem_destsOf_w {n l l' n' k : Nat} : (l', n') ∈ destsOf (.w n) [l] k ↔ l' = 32 ∧ n ≤ n' ∧ n' < n + k := by
  simp only [destsOf, List.mem_map, List.mem_range, Prod.mk.injEq]
  constructor
  · rintro ⟨a, h, rfl, rfl⟩; omega
  · rintro ⟨rfl, h, h'⟩; exact ⟨n' - n, by omega, rfl, by omega⟩

theorem Ctx.put_getV (c : Ctx) (w : Warp) (d : Opnd) (l : Nat) (wide : Bool) (x : Nat) (hd : d.inFile) {l' n' : Nat}
    (hn : n' < 1024) (h : (l', n') ∉ destsOf d [l] (regsOf wide)) : (c.put w d l wide x).getV l' n' = w.getV l' n' := by
  unfold Ctx.put
  cases d <;> simp only []
  · next n =>
    have h0 : n < 768 := hd
    have h1 : n < 1024 := Nat.lt_trans h0 (by decide)
    have h2 : n + 1 < 1024 := Nat.lt_trans (Nat.succ_lt_succ h0) (by decide)
    rw [mem_destsOf_v] at h
    cases wide
    · simp only [regsOf, Bool.false_eq_true, if_false] at h ⊢
      rw [Ctx.getV_setV _ _ _ _ _ _ _ h1 hn, if_neg (by omega)]
    · simp only [regsOf, if_true] at h ⊢
      rw [Ctx.getV_setV _ _ _ _ _ _ _ h2 hn, if_neg (by omega),
        Ctx.getV_setV _ _ _ _ _ _ _ h1 hn,
        if_neg (by omega)]
  · split <;> simp [Ctx.getV_setW]

theorem Ctx.put_getW (c : Ctx) (w : Warp) (d : Opnd) (l : Nat) (wide : Bool) (x : Nat) {n' : Nat}
    (h : (32, n') ∉ destsOf d [l] (regsOf wide)) : (c.put w d l wide x).getW n' = w.getW n' := by
  unfold Ctx.put
  cases d <;> simp only []
  · split <;> simp [Ctx.getW_setV]
  · next n =>
    rw [mem_destsOf_w] at h
    cases wide
    · simp only [regsOf, Bool.false_eq_true, if_false, true_and] at h ⊢
      rw [Ctx.getW_setW, if_neg (by omega)]
    · simp only [regsOf, if_true, true_and] at h ⊢
      rw [Ctx.getW_setW, if_neg (by omega), Ctx.getW_setW, if_neg (by omega)]

/-- A write of another lane leaves what a lane holds in a vector destination. -/
theorem Ctx.put_other (c : Ctx) (w : Warp) (d : Opnd) (l l' : Nat) (wide : Bool) (x y : Nat) (hd : d.inFile) (hw : d.isW = false)
    (hl : l' ≠ l) (h : w.Holds d wide l' y) : (c.put w d l wide x).Holds d wide l' y := by
  cases d
  case v n =>
    have hn : n < 768 := hd
    refine ⟨?_, fun hwide => ?_⟩
    · rw [Ctx.put_getV _ _ _ _ _ _ hd (by omega) (by rw [mem_destsOf_v]; omega)]; exact h.1
    · rw [Ctx.put_getV _ _ _ _ _ _ hd (by omega) (by rw [mem_destsOf_v]; omega)]; exact h.2 hwide
  case w n => simp [Opnd.isW] at hw
  all_goals trivial

/-- A fold of writes, one for each of different lanes. -/
theorem Ctx.puts_hold (c : Ctx) (d : Opnd) (wide : Bool) (hd : d.inFile) (hw : d.isW = false) (v : Nat → FRes) :
    ∀ (ls : List Nat) (w : Warp), ls.Nodup →
    ∀ l ∈ ls, ((ls.map (fun l => (l, v l))).foldl (fun w e => c.put w d e.1 wide e.2.bits) w).Holds d wide l (v l).bits := by
  intro ls
  have keep : ∀ (ls : List Nat) (w : Warp) (l y : Nat), l ∉ ls → w.Holds d wide l y →
      ((ls.map (fun l => (l, v l))).foldl (fun w e => c.put w d e.1 wide e.2.bits) w).Holds d wide l y := by
    intro ls
    induction ls with
    | nil => intro w l y _ h; exact h
    | cons a r ih =>
      intro w l y hl h
      simp only [List.mem_cons, not_or] at hl
      exact ih _ l y hl.2 (c.put_other w d a l wide _ y hd hw hl.1 h)
  induction ls with
  | nil => intro w _ l h; simp at h
  | cons a r ih =>
    intro w hd' l hl
    simp only [List.nodup_cons] at hd'
    rcases List.mem_cons.1 hl with rfl | h
    · exact keep r _ _ _ hd'.1 (c.put_holds _ _ _ _ _ hd)
    · exact ih _ hd'.2 l h

theorem Ctx.puts_getV (c : Ctx) (d : Opnd) (wide : Bool) (hd : d.inFile) {l' n' : Nat} (hn : n' < 1024) :
    ∀ (res : List (Nat × FRes)) (w : Warp), (∀ e ∈ res, (l', n') ∉ destsOf d [e.1] (regsOf wide)) →
    (res.foldl (fun w e => c.put w d e.1 wide e.2.bits) w).getV l' n' = w.getV l' n' := by
  intro res
  induction res with
  | nil => intro w _; rfl
  | cons e r ih =>
    intro w h
    rw [List.foldl_cons, ih _ (fun x hx => h x (List.mem_cons_of_mem _ hx)),
      c.put_getV _ _ _ _ _ hd hn (h e (List.mem_cons_self ..))]

theorem Ctx.puts_getW (c : Ctx) (d : Opnd) (wide : Bool) {n' : Nat} :
    ∀ (res : List (Nat × FRes)) (w : Warp), (∀ e ∈ res, (32, n') ∉ destsOf d [e.1] (regsOf wide)) →
    (res.foldl (fun w e => c.put w d e.1 wide e.2.bits) w).getW n' = w.getW n' := by
  intro res
  induction res with
  | nil => intro w _; rfl
  | cons e r ih =>
    intro w h
    rw [List.foldl_cons, ih _ (fun x hx => h x (List.mem_cons_of_mem _ hx)), c.put_getW _ _ _ _ _ (h e (List.mem_cons_self ..))]

theorem foldl_queues {α : Type} (g : Warp → α → Warp) (hg : ∀ w a, g w a = { w with oqs := (g w a).oqs, streams := (g w a).streams }) :
    ∀ (l : List α) (w : Warp), l.foldl g w = { w with oqs := (l.foldl g w).oqs, streams := (l.foldl g w).streams } := by
  intro l
  induction l with
  | nil => intro w; rfl
  | cons a r ih =>
    intro w
    rw [List.foldl_cons, ih, hg]

/-- Popping changes the operand queues and the streams' positions only. -/
theorem popQueues_eq (os : List Opnd) (w : Warp) :
    popQueues os w = { w with oqs := (popQueues os w).oqs, streams := (popQueues os w).streams } := by
  unfold popQueues
  refine foldl_queues _ (fun w q => ?_) _ w
  simp only []
  split <;> rfl

/-! ## Layouts A, A3 and P -/

theorem mem_lanesOf {c : Ctx} {d : Opnd} {l : Nat} (h : l ∈ c.lanes d) : l ∈ c.active.lanes := by
  unfold Ctx.lanes at h
  split at h
  · unfold Mask.lowest at h
    cases e : c.active.lanes with
    | nil => simp [e] at h
    | cons a r => simp [e] at h; simp [h]
  · exact h

theorem nodup_lanesOf (c : Ctx) (d : Opnd) : (c.lanes d).Nodup := by
  unfold Ctx.lanes
  split
  · unfold Option.toList; split <;> simp
  · exact nodup_lanes _

theorem lanes_of_w {c : Ctx} {d : Opnd} (h : d.isW = true) : c.lanes d = c.active.lowest.toList := by simp [Ctx.lanes, h]
theorem lanes_of_not_w {c : Ctx} {d : Opnd} (h : d.isW = false) : c.lanes d = c.active.lanes := by simp [Ctx.lanes, h]

/-- The flags that a form raises, lane by lane (R171). -/
theorem raisedBy_spec (c : Ctx) (d : Opnd) (sem : Nat → FRes) :
    (((c.raisedBy d ((c.lanes d).map (fun l => (l, sem l)))).map (·.1)).Nodup) ∧
    (∀ e ∈ c.raisedBy d ((c.lanes d).map (fun l => (l, sem l))), e.1 < 32 ∧ e.2 = c.flags d sem e.1) ∧
    (∀ l, l < 32 → l ∉ (c.raisedBy d ((c.lanes d).map (fun l => (l, sem l)))).map (·.1) → c.flags d sem l = 0) := by
  unfold Ctx.raisedBy Ctx.flags Ctx.result
  by_cases h : d.isW = true
  · simp only [h, if_true, lanes_of_w h]
    cases hm : c.active.lowest with
    | none =>
      have he : c.active.lanes = [] := by
        unfold Mask.lowest at hm
        cases e : c.active.lanes with
        | nil => rfl
        | cons a r => simp [e] at hm
      refine ⟨by simp, by simp, fun l hl _ => ?_⟩
      by_cases hh : c.active.has l = true
      · have := mem_lanes.2 ⟨hl, hh⟩; simp [he] at this
      · simp [hh]
    | some a =>
      simp only [Option.toList_some, List.map_cons, List.map_nil, Option.getD_some]
      by_cases hz : (sem a).flags = 0
      · simp [hz]
      · simp only [hz, if_false, List.map_map]
        refine ⟨?_, ?_, ?_⟩
        · have : ((·.1) ∘ fun l => (l, (sem a).flags) : Nat → Nat) = id := rfl
          rw [this, List.map_id]; exact nodup_lanes _
        · intro e he
          simp only [List.mem_map] at he
          obtain ⟨l, hl, rfl⟩ := he
          exact ⟨(mem_lanes.1 hl).1, by simp [(mem_lanes.1 hl).2]⟩
        · intro l hl hn
          by_cases hh : c.active.has l = true
          · exact absurd (List.mem_map.2 ⟨l, mem_lanes.2 ⟨hl, hh⟩, rfl⟩) hn
          · simp [hh]
  · have h : d.isW = false := by simpa using h
    simp only [h, lanes_of_not_w h, Bool.false_eq_true, if_false]
    refine ⟨?_, ?_, ?_⟩
    · rw [List.map_map]
      have h2 : ((·.1) ∘ fun e : Nat × FRes => (e.1, e.2.flags) : Nat × FRes → Nat) = (·.1) := rfl
      rw [h2]
      refine List.Nodup.sublist (List.Sublist.map _ List.filter_sublist) ?_
      rw [List.map_map]
      have h3 : ((·.1) ∘ fun l => (l, sem l) : Nat → Nat) = id := rfl
      rw [h3, List.map_id]; exact nodup_lanes _
    · intro e he
      simp only [List.mem_map, List.mem_filter] at he
      obtain ⟨x, ⟨⟨l, hl, rfl⟩, _⟩, rfl⟩ := he
      exact ⟨(mem_lanes.1 hl).1, by simp [(mem_lanes.1 hl).2]⟩
    · intro l hl hn
      by_cases hh : c.active.has l = true
      · simp only [hh, if_true]
        by_cases hz : (sem l).flags = 0
        · exact hz
        · refine absurd (List.mem_map.2 ⟨(l, (sem l).flags), List.mem_map.2 ⟨(l, sem l), ?_, rfl⟩, rfl⟩) hn
          exact List.mem_filter.2 ⟨List.mem_map.2 ⟨l, mem_lanes.2 ⟨hl, hh⟩, rfl⟩, by simpa using hz⟩
      · simp [hh]

/-- What a warp keeps through an issue that writes registers, pops queues and raises flags. -/
theorem after_special (c : Ctx) (w : Warp) (r : List (Nat × Nat)) (h : SameSpecial c.w w) : SameSpecial c.w (c.after w r) := by
  rw [after_eq]; exact ⟨h.j, h.h, h.fpctl, h.lvctl, h.srstate, h.done, h.cpnum, h.trapcause, h.traplanes, h.tvec, h.prio, h.trap, h.place, h.batches⟩

theorem special_of_regs {w x : Warp} (h : RegsOnly w x) : SameSpecial w x := by
  rw [h.1]; exact ⟨rfl, rfl, rfl, rfl, rfl, rfl, rfl, rfl, rfl, rfl, ⟨rfl, rfl⟩, ⟨rfl, rfl, rfl⟩, ⟨rfl, rfl, rfl, rfl⟩, ⟨rfl, rfl⟩⟩

theorem special_pop (os : List Opnd) (w : Warp) : SameSpecial w (popQueues os w) := by
  rw [popQueues_eq]
  exact ⟨rfl, rfl, rfl, rfl, rfl, rfl, rfl, rfl, rfl, rfl, ⟨rfl, rfl⟩, ⟨rfl, rfl, rfl⟩, ⟨rfl, rfl, rfl, rfl⟩, ⟨rfl, rfl⟩⟩

theorem SameSpecial.trans {a b c : Warp} (h : SameSpecial a b) (k : SameSpecial b c) : SameSpecial a c :=
  ⟨k.j.trans h.j, k.h.trans h.h, k.fpctl.trans h.fpctl, k.lvctl.trans h.lvctl, k.srstate.trans h.srstate, k.done.trans h.done,
   k.cpnum.trans h.cpnum, k.trapcause.trans h.trapcause, k.traplanes.trans h.traplanes, k.tvec.trans h.tvec,
   ⟨k.prio.1.trans h.prio.1, k.prio.2.trans h.prio.2⟩,
   ⟨k.trap.1.trans h.trap.1, k.trap.2.1.trans h.trap.2.1, k.trap.2.2.trans h.trap.2.2⟩,
   ⟨k.place.1.trans h.place.1, k.place.2.1.trans h.place.2.1, k.place.2.2.1.trans h.place.2.2.1, k.place.2.2.2.trans h.place.2.2.2⟩,
   ⟨k.batches.1.trans h.batches.1, k.batches.2.trans h.batches.2⟩⟩

theorem flights_after (c : Ctx) (w : Warp) (r : List (Nat × Nat)) (h : SameFlights c.w w) : SameFlights c.w (c.after w r) := by
  unfold SameFlights at h ⊢
  rw [after_eq]
  simp only [Warp.count, List.map_map]
  exact h

theorem getV_after (c : Ctx) (w : Warp) (r : List (Nat × Nat)) (l n : Nat) : (c.after w r).getV l n = w.getV l n := by
  rw [after_eq]; rfl
theorem getW_after (c : Ctx) (w : Warp) (r : List (Nat × Nat)) (n : Nat) : (c.after w r).getW n = w.getW n := by
  rw [after_eq]; rfl
theorem holds_after {c : Ctx} {w : Warp} {r : List (Nat × Nat)} {d : Opnd} {wide : Bool} {l x : Nat} (h : w.Holds d wide l x) :
    (c.after w r).Holds d wide l x := by
  unfold Warp.Holds at h ⊢
  cases d <;> simp only [getV_after, getW_after] at h ⊢ <;> exact h
theorem sameRegs_after {c : Ctx} {w x : Warp} {r : List (Nat × Nat)} {b : List (Nat × Nat)} (h : SameRegs w x b) :
    SameRegs w (c.after x r) b :=
  ⟨fun l n hn hm => by rw [getV_after]; exact h.v l n hn hm, fun n hm => by rw [getW_after]; exact h.w n hm⟩
theorem oqs_after (c : Ctx) (w : Warp) (r : List (Nat × Nat)) : (c.after w r).oqs = w.oqs ∧ (c.after w r).streams = w.streams := by
  rw [after_eq]; exact ⟨rfl, rfl⟩

/-- The writes of a form, and the pops of its sources. -/
def Ctx.wrote (c : Ctx) (d : Opnd) (wide : Bool) (os : List Opnd) (sem : Nat → FRes) : Warp :=
  ((c.lanes d).map (fun l => (l, sem l))).foldl (fun w e => c.put w d e.1 wide e.2.bits) (popQueues os c.w)

theorem wrote_only (c : Ctx) (d : Opnd) (wide : Bool) (os : List Opnd) (sem : Nat → FRes) :
    RegsOnly (popQueues os c.w) (c.wrote d wide os sem) := by
  unfold Ctx.wrote
  exact RegsOnly.foldl (fun w (e : Nat × FRes) => c.put w d e.1 wide e.2.bits) (fun w e => c.put_only w d e.1 wide e.2.bits) _ _

theorem wrote_th (c : Ctx) (d : Opnd) (wide : Bool) (os : List Opnd) (sem : Nat → FRes) (l : Nat) :
    (c.wrote d wide os sem).th l = c.w.th l := by
  unfold Warp.th; rw [(wrote_only c d wide os sem).1, popQueues_eq]

theorem wrote_special (c : Ctx) (d : Opnd) (wide : Bool) (os : List Opnd) (sem : Nat → FRes) :
    SameSpecial c.w (c.wrote d wide os sem) :=
  (special_pop os c.w).trans (special_of_regs (wrote_only c d wide os sem))

theorem wrote_queues (c : Ctx) (d : Opnd) (wide : Bool) (os : List Opnd) (sem : Nat → FRes) :
    (c.wrote d wide os sem).oqs = (popQueues os c.w).oqs ∧ (c.wrote d wide os sem).streams = (popQueues os c.w).streams := by
  rw [(wrote_only c d wide os sem).1]; exact ⟨rfl, rfl⟩

theorem wrote_flights (c : Ctx) (d : Opnd) (wide : Bool) (os : List Opnd) (sem : Nat → FRes) :
    SameFlights c.w (c.wrote d wide os sem) := by
  unfold SameFlights
  rw [(wrote_only c d wide os sem).2, popQueues_eq]

theorem wrote_holds (c : Ctx) (d : Opnd) (wide : Bool) (os : List Opnd) (sem : Nat → FRes) (hd : d.inFile) {l : Nat}
    (hl : l ∈ c.lanes d) : (c.wrote d wide os sem).Holds d wide l (sem l).bits := by
  unfold Ctx.wrote
  by_cases hw : d.isW = true
  · rw [lanes_of_w hw] at hl ⊢
    cases hm : c.active.lowest with
    | none => rw [hm] at hl; simp at hl
    | some a =>
      rw [hm] at hl
      have : l = a := by simpa using hl
      subst this
      exact c.put_holds _ d l wide _ hd
  · have hw : d.isW = false := by simpa using hw
    exact c.puts_hold d wide hd hw sem (c.lanes d) _ (nodup_lanesOf c d) l hl

theorem wrote_regs (c : Ctx) (d : Opnd) (wide : Bool) (os : List Opnd) (sem : Nat → FRes) (hd : d.inFile) :
    SameRegs c.w (c.wrote d wide os sem) (c.dests d (regsOf wide)) := by
  have out : ∀ {p : Nat × Nat}, p ∉ c.dests d (regsOf wide) → ∀ e ∈ (c.lanes d).map (fun l => (l, sem l)),
      p ∉ destsOf d [e.1] (regsOf wide) := by
    intro p hm e he hx
    obtain ⟨a, ha, rfl⟩ := List.mem_map.1 he
    exact hm (List.mem_flatMap.2 ⟨a, ha, hx⟩)
  refine ⟨fun l n hn hm => ?_, fun n hm => ?_⟩
  · have := c.puts_getV d wide hd hn _ (popQueues os c.w) (out hm)
    rw [show (c.wrote d wide os sem).getV l n = _ from this, popQueues_eq]
    rfl
  · have := c.puts_getW d wide _ (popQueues os c.w) (out hm)
    rw [show (c.wrote d wide os sem).getW n = _ from this, popQueues_eq]
    rfl

/-- The threads after an issue that raises `fl`, where what it wrote left them alone but for `g` in active lanes. -/
theorem threads_after {c : Ctx} {w : Warp} {r : List (Nat × Nat)} {fl : Nat → Nat} (hact : ∀ l ∈ c.active.lanes, l ∈ c.front.lanes)
    (r1 : (r.map (·.1)).Nodup) (r2 : ∀ e ∈ r, e.1 < 32 ∧ e.2 = fl e.1) (r3 : ∀ l, l < 32 → l ∉ r.map (·.1) → fl l = 0)
    (r4 : ∀ l, l < 32 → c.active.has l = false → fl l = 0) (l : Nat) :
    (c.after w r).th l = if l ∈ c.front.lanes then ((w.th l).next c.len).sticky (fl l) else w.th l := by
  have key := th_after c w r (fun l => if l ∈ r.map (·.1) then fl l else 0) r1
    (fun e he => by simp only [List.mem_map_of_mem he, if_true, (r2 e he).2]) (fun l hl => by simp [hl]) l
  rw [key]
  by_cases hl : l ∈ c.front.lanes
  · simp only [hl, if_true]
    split
    · rfl
    · next hn => rw [r3 l (mem_lanes.1 hl).1 hn]
  · simp only [hl, if_false]
    split
    · next hm =>
      obtain ⟨e, he, rfl⟩ := List.mem_map.1 hm
      have hz : fl e.1 = 0 := by
        by_cases hh : c.active.has e.1 = true
        · exact absurd (hact _ (mem_lanes.2 ⟨(r2 e he).1, hh⟩)) hl
        · exact r4 _ (r2 e he).1 (by simpa using hh)
      rw [hz, sticky_zero]
    · exact sticky_zero _

/-- A warp of which threads only have changed. -/
theorem special_threads {w x : Warp} (h : x = { w with threads := x.threads }) : SameSpecial w x := by
  rw [h]; exact ⟨rfl, rfl, rfl, rfl, rfl, rfl, rfl, rfl, rfl, rfl, ⟨rfl, rfl⟩, ⟨rfl, rfl, rfl⟩, ⟨rfl, rfl, rfl, rfl⟩, ⟨rfl, rfl⟩⟩

theorem regs_threads {w x : Warp} (h : x = { w with threads := x.threads }) : SameRegs w x [] := by
  rw [h]; exact ⟨fun _ _ _ _ => rfl, fun _ _ => rfl⟩

theorem alu_eq {c : Ctx} {d : Opnd} {wide : Bool} {os : List Opnd} {sem : Nat → FRes} (hp : c.Pops os) :
    c.alu d wide os sem = .done (c.s.putWarp c.wid (c.wrote d wide os sem)) (c.raisedBy d ((c.lanes d).map (fun l => (l, sem l)))) := by
  unfold Ctx.alu
  rw [show c.popCheck os = none from hp]
  rfl

theorem not_active {c : Ctx} {l : Nat} (hl : l < 32) (h : l ∉ c.active.lanes) : c.active.has l = false := by
  by_cases hh : c.active.has l = true
  · exact absurd (mem_lanes.2 ⟨hl, hh⟩) h
  · simpa using hh

/-- How an issue settles that has written a destination in its lanes and changed the threads of active lanes, inside windows or not. -/
theorem does_settle {c : Ctx} {d : Opnd} {wide : Bool} {os : List Opnd} {sem : Nat → FRes} (g : Nat → Thread → Thread) {w0 w2 : Warp}
    (hact : ∀ l ∈ c.active.lanes, l ∈ c.front.lanes) (hd : d.inFile) (hq : c.Quiet (c.flags d sem))
    (hg : ∀ l t, (g l t).next c.len = g l (t.next c.len))
    (h0 : RegsOnly (c.wrote d wide os sem) w0) (hv0 : w0.vregs = (c.wrote d wide os sem).vregs)
    (hw0 : w0.wregs = (c.wrote d wide os sem).wregs) (h2 : w2 = { w0 with threads := w2.threads })
    (ht : ∀ l, w2.th l = if l ∈ c.active.lanes then g l (c.w.th l) else c.w.th l) :
    ∃ x, c.settle (.done (c.s.putWarp c.wid w2) (c.raisedBy d ((c.lanes d).map (fun l => (l, sem l))))) = c.s.putWarp c.wid x ∧
      c.Does x d wide os sem g := by
  obtain ⟨r1, r2, r3⟩ := raisedBy_spec c d sem
  generalize c.raisedBy d ((c.lanes d).map (fun l => (l, sem l))) = r at *
  have hs : SameSpecial c.w w2 := ((wrote_special c d wide os sem).trans (special_of_regs h0)).trans (special_threads h2)
  have hq1 : w2.oqs = (popQueues os c.w).oqs ∧ w2.streams = (popQueues os c.w).streams := by
    rw [h2, h0.1]; exact wrote_queues c d wide os sem
  have hfl : SameFlights c.w w2 := by
    have := wrote_flights c d wide os sem
    unfold SameFlights at this ⊢
    rw [h2]; exact h0.2.trans this
  have hv : ∀ l ∈ c.lanes d, w2.Holds d wide l (sem l).bits := fun l hl => by
    have := wrote_holds c d wide os sem hd hl
    unfold Warp.Holds Warp.getV Warp.getW at this ⊢
    rw [h2, show ({ w0 with threads := w2.threads } : Warp).vregs = (c.wrote d wide os sem).vregs from hv0,
      show ({ w0 with threads := w2.threads } : Warp).wregs = (c.wrote d wide os sem).wregs from hw0]
    exact this
  have hrg : SameRegs c.w w2 (c.dests d (regsOf wide)) := by
    have := wrote_regs c d wide os sem hd
    rw [h2]
    exact ⟨fun l n hn hm => by simp only [Warp.getV, hv0]; exact this.v l n hn hm,
      fun n hm => by simp only [Warp.getW, hw0]; exact this.w n hm⟩
  refine ⟨c.after w2 r, settle_done c _ _ _ hs.fpctl (fun e he => by rw [(r2 e he).2]; exact hq _ (r2 e he).1),
    fun l hl => holds_after (hv l hl), sameRegs_after hrg, fun l => ?_, ⟨(oqs_after c _ _).1.trans hq1.1, (oqs_after c _ _).2.trans hq1.2⟩,
    flights_after c _ _ hfl, after_special c _ _ hs⟩
  rw [threads_after hact r1 r2 r3 (fun l _ hh => by simp [Ctx.flags, hh]), ht]
  by_cases hl : l ∈ c.front.lanes
  · simp only [hl, if_true]
    by_cases ha : l ∈ c.active.lanes
    · simp only [ha, if_true, (mem_lanes.1 ha).2, hg]
    · simp [ha, not_active (mem_lanes.1 hl).1 ha]
  · simp only [hl, if_false]
    rw [if_neg (fun ha => hl (hact l ha))]

/-- What `Ctx.alu` does: layouts A and A3 at once (R37, R55, R60, R68, R106, R171). -/
theorem alu_does {c : Ctx} {d : Opnd} {wide : Bool} {os : List Opnd} {sem : Nat → FRes} (hact : ∀ l ∈ c.active.lanes, l ∈ c.front.lanes)
    (hd : d.inFile) (hp : c.Pops os) (hq : c.Quiet (c.flags d sem)) :
    ∃ x, c.settle (c.alu d wide os sem) = c.s.putWarp c.wid x ∧ c.Does x d wide os sem := by
  rw [alu_eq hp]
  exact does_settle (fun _ t => t) hact hd hq (fun _ _ => rfl) (.refl _) rfl rfl rfl (fun l => by rw [wrote_th]; split <;> rfl)

theorem next_setPred (t : Thread) (d n : Nat) (b : Bool) : (t.setPred d b).next n = (t.next n).setPred d b := by
  unfold Thread.setPred
  split
  · rfl
  · unfold Thread.next
    simp only []
    split
    · split <;> rfl
    · rfl

/-- The same for a form that also writes a predicate of its active lanes (R153, R160–R164). -/
theorem alu_pred_does {c : Ctx} {d : Opnd} {wide : Bool} {os : List Opnd} {sem : Nat → FRes} (n : Nat) (b : Nat → Bool)
    (hact : ∀ l ∈ c.active.lanes, l ∈ c.front.lanes) (hd : d.inFile) (hp : c.Pops os) (hq : c.Quiet (c.flags d sem)) :
    ∃ x, c.settle (match c.alu d wide os sem with
        | .done t r => .done (t.modWarp c.wid (fun w => c.putPred w n b)) r
        | i => i) = c.s.putWarp c.wid x ∧ c.Does x d wide os sem (fun l t => t.setPred n (b l)) := by
  rw [alu_eq hp]
  simp only [modWarp_putWarp]
  obtain ⟨h0, hv, hw⟩ := windowWrites_regs c.s (fun l => (64 + l, n)) c.active.lanes (c.wrote d wide os sem)
  refine does_settle _ hact hd hq (fun _ _ => next_setPred _ _ _ _) h0 hv hw
    (foldl_threads (fun w l => w.modTh l (fun t => t.setPred n (b l))) (fun _ _ => rfl) c.active.lanes _) (fun l => ?_)
  unfold Ctx.putPred
  rw [th_modLanes, show (c.active.lanes.foldl (fun w l => windowWrite c.s w (64 + l) n) (c.wrote d wide os sem)).th l = c.w.th l from by
    unfold Warp.th; rw [h0.1]; exact wrote_th c d wide os sem l]

/-- Every form of layout A completes (R101). -/
theorem formA_completes {i : Instr} {f : FormA} {wd wa wb : Bool} {val : Ctx → Nat → Nat → Nat → FRes} {op : Nat}
    (he : ∀ s, exec i s = formA op f wd wa wb s val) (ho : i.op = op) (hl : i.len = if f.b.x = 1 then 16 else 8)
    (hh : i.hdr = f.hdr) (hd : f.d.inFile) : CompletesA i f wd wa wb val := by
  intro s w front ha c sem hn hp hq
  obtain ⟨x, hx, hdoes⟩ := alu_does (c := c) (wide := wd) (fun l hl => active_front hl) hd hp hq
  refine ⟨x, ?_, hdoes⟩
  show exec i s = _
  rw [he, formA, ← ho, ← hl, ← hh]
  exact (issue_acts _ ha hn).trans (congrArg _ hx)

/-- Every form of layout A3 completes (R101). -/
theorem formA3_completes {i : Instr} {f : FormA3} {wd wa wb wc : Bool} {val : Ctx → Nat → Nat → Nat → Nat → FRes} {op : Nat}
    (he : ∀ s, exec i s = formA3 op f wd wa wb wc s val) (ho : i.op = op) (hl : i.len = if f.b.x = 1 then 16 else 8)
    (hh : i.hdr = f.hdr) (hd : f.d.inFile) : CompletesA3 i f wd wa wb wc val := by
  intro s w front ha c sem hn hp hq
  obtain ⟨x, hx, hdoes⟩ := alu_does (c := c) (wide := wd) (fun l hl => active_front hl) hd hp hq
  refine ⟨x, ?_, hdoes⟩
  show exec i s = _
  rw [he, formA3, ← ho, ← hl, ← hh]
  exact (issue_acts _ ha hn).trans (congrArg _ hx)

/-- What a warp is left as by an issue that pops queues, changes threads lane by lane (inside windows or not) and raises flags. -/
theorem threads_settle {c : Ctx} {os : List Opnd} {w0 : Warp} (h0 : RegsOnly (popQueues os c.w) w0)
    (hv : w0.vregs = c.w.vregs) (hw : w0.wregs = c.w.wregs) (g : Nat → Thread → Thread) {r : List (Nat × Nat)} {fl : Nat → Nat}
    (hact : ∀ l ∈ c.active.lanes, l ∈ c.front.lanes) (hg : ∀ l t, (g l t).next c.len = g l (t.next c.len))
    (r1 : (r.map (·.1)).Nodup) (r2 : ∀ e ∈ r, e.1 < 32 ∧ e.2 = fl e.1) (r3 : ∀ l, l < 32 → l ∉ r.map (·.1) → fl l = 0)
    (r4 : ∀ l, l < 32 → c.active.has l = false → fl l = 0) (hq : c.Quiet fl) :
    ∃ x, c.settle (.done (c.s.putWarp c.wid (w0.modLanes c.active g)) r) = c.s.putWarp c.wid x ∧
      SameRegs c.w x [] ∧ c.Popped x os ∧ SameFlights c.w x ∧ SameSpecial c.w x ∧
      c.Threads x (fun l t => (if c.active.has l then g l t else t).sticky (fl l)) := by
  obtain ⟨e0, hid⟩ := h0
  have ht0 : ∀ l, w0.th l = c.w.th l := fun l => by rw [e0, popQueues_eq]; rfl
  have hth : ∀ l, (w0.modLanes c.active g).th l = if l ∈ c.active.lanes then g l (c.w.th l) else c.w.th l := by
    intro l
    rw [th_modLanes, ht0]
  have h1 : w0.modLanes c.active g = { w0 with threads := (w0.modLanes c.active g).threads } :=
    foldl_threads (fun w l => w.modTh l (g l)) (fun _ _ => rfl) c.active.lanes w0
  have hs0 : SameSpecial c.w w0 := (special_pop os c.w).trans (special_of_regs ⟨e0, hid⟩)
  have hq0 : w0.oqs = (popQueues os c.w).oqs ∧ w0.streams = (popQueues os c.w).streams := by rw [e0]; exact ⟨rfl, rfl⟩
  have hf0 : SameFlights c.w w0 := by
    unfold SameFlights; rw [hid, popQueues_eq]
  clear e0
  generalize w0.modLanes c.active g = w1 at *
  have hs : SameSpecial c.w w1 := hs0.trans (special_threads h1)
  have hr : SameRegs c.w w1 [] := by
    rw [h1]; exact ⟨fun l n _ _ => by simp only [Warp.getV, hv], fun n _ => by simp only [Warp.getW, hw]⟩
  have hfl : SameFlights c.w w1 := by
    unfold SameFlights at hf0 ⊢; rw [h1]; exact hf0
  have hqs : w1.oqs = (popQueues os c.w).oqs ∧ w1.streams = (popQueues os c.w).streams := by rw [h1]; exact hq0
  refine ⟨c.after w1 r, settle_done c _ _ _ hs.fpctl (fun e he => by rw [(r2 e he).2]; exact hq _ (r2 e he).1),
    sameRegs_after hr, ⟨(oqs_after c _ _).1.trans hqs.1, (oqs_after c _ _).2.trans hqs.2⟩, flights_after c _ _ hfl,
    after_special c _ _ hs, fun l => ?_⟩
  rw [threads_after hact r1 r2 r3 r4, hth]
  by_cases hl : l ∈ c.front.lanes
  · simp only [hl, if_true]
    by_cases ha : l ∈ c.active.lanes
    · simp only [ha, if_true, (mem_lanes.1 ha).2, hg]
    · have : c.active.has l = false := by
        by_cases hh : c.active.has l = true
        · exact absurd (mem_lanes.2 ⟨(mem_lanes.1 hl).1, hh⟩) ha
        · simpa using hh
      simp [ha, this]
  · simp only [hl, if_false]
    rw [if_neg (fun ha => hl (hact l ha))]

/-- Every form of layout P completes (R101, R157). -/
theorem formP_completes {i : Instr} {f : FormP} {wa wb : Bool} {val : Ctx → Nat → Nat → Nat → Bool × Nat} {op : Nat}
    (he : ∀ s, exec i s = formP op f wa wb s val) (ho : i.op = op) (hl : i.len = if f.b.x = 1 then 16 else 8)
    (hh : i.hdr = f.hdr) : CompletesP i f wa wb val := by
  intro s w front ha c sem fl hn hp hq
  let r := (c.active.lanes.filter (fun l => (sem l).2 ≠ 0)).map (fun l => (l, (sem l).2))
  have r2 : ∀ e ∈ r, e.1 < 32 ∧ e.2 = fl e.1 := by
    intro e he
    obtain ⟨l, hl, rfl⟩ := List.mem_map.1 he
    have hl := (List.mem_filter.1 hl).1
    exact ⟨(mem_lanes.1 hl).1, by simp [fl, (mem_lanes.1 hl).2]⟩
  have r1 : (r.map (·.1)).Nodup := by
    rw [show r.map (·.1) = c.active.lanes.filter (fun l => (sem l).2 ≠ 0) from (List.map_map).trans (List.map_id _)]
    exact (nodup_lanes _).sublist List.filter_sublist
  have r3 : ∀ l, l < 32 → l ∉ r.map (·.1) → fl l = 0 := by
    intro l hl hn
    by_cases hh : c.active.has l = true
    · by_cases hz : (sem l).2 = 0
      · simp [fl, hz]
      · exact absurd (List.mem_map.2 ⟨(l, (sem l).2), List.mem_map.2 ⟨l, List.mem_filter.2 ⟨mem_lanes.2 ⟨hl, hh⟩, by simpa using hz⟩, rfl⟩, rfl⟩) hn
    · simp [fl, hh]
  obtain ⟨ho0, hv0, hw0⟩ := windowWrites_regs c.s (fun l => (64 + l, f.d)) c.active.lanes (popQueues f.srcs c.w)
  obtain ⟨x, hx, h⟩ := threads_settle (c := c) (os := f.srcs) (r := r) (fl := fl) ho0
    (hv0.trans (by rw [popQueues_eq])) (hw0.trans (by rw [popQueues_eq]))
    (fun l t => t.setPred f.d (f.comb.apply (sem l).1 (c.pred l f.cp != f.cneg)))
    (fun l hl => active_front hl) (fun l t => next_setPred _ _ _ _) r1 r2 r3 (fun l _ hh => by simp [fl, hh]) hq
  refine ⟨x, ?_, h⟩
  show exec i s = _
  rw [he, formP, ← ho, ← hl, ← hh]
  refine (issue_acts _ ha hn).trans ?_
  rw [show (s.at_ w front i).popCheck [f.a, f.b.src] = none from hp]
  exact congrArg _ hx

/-! Two ways to write a result are one when they agree on every operand. -/

theorem CompletesA.of_eq {i : Instr} {f : FormA} {wd wa wb : Bool} {val val' : Ctx → Nat → Nat → Nat → FRes}
    (h : CompletesA i f wd wa wb val) (he : ∀ c l a b, val c l a b = val' c l a b) : CompletesA i f wd wa wb val' := by
  have : val = val' := by funext c l a b; exact he c l a b
  exact this ▸ h

theorem CompletesA3.of_eq {i : Instr} {f : FormA3} {wd wa wb wc : Bool} {val val' : Ctx → Nat → Nat → Nat → Nat → FRes}
    (h : CompletesA3 i f wd wa wb wc val) (he : ∀ c l a b d, val c l a b d = val' c l a b d) : CompletesA3 i f wd wa wb wc val' := by
  have : val = val' := by funext c l a b d; exact he c l a b d
  exact this ▸ h

theorem CompletesP.of_eq {i : Instr} {f : FormP} {wa wb : Bool} {val val' : Ctx → Nat → Nat → Nat → Bool × Nat}
    (h : CompletesP i f wa wb val) (he : ∀ c l a b, val c l a b = val' c l a b) : CompletesP i f wa wb val' := by
  have : val = val' := by funext c l a b; exact he c l a b
  exact this ▸ h

theorem inFile_of_ok {r : Role} {d : Opnd} (h : r.ok d = true) : d.inFile := by
  cases d <;> simp_all [Role.ok, Opnd.inFile]

/-- The header that the fields of word 0 give back (R96, R105). -/
theorem hdr_raw (op : Nat) (h : Hdr) : (rawH op h).hdr = h := by
  obtain ⟨p, n, s⟩ := h
  cases n <;> cases s <;> rfl

theorem okA_dest {r : Row} {f : FormA} (h : f.ok r = true) : f.d.inFile := by
  simp only [FormA.ok, Bool.and_eq_true] at h
  exact inFile_of_ok h.1.1.1.1.2
theorem okA3_dest {r : Row} {pd pa pc : Bool} {f : FormA3} (h : f.ok r pd pa pc = true) : f.d.inFile := by
  simp only [FormA3.ok, Bool.and_eq_true] at h
  exact inFile_of_ok h.1.1.1.1.1.1.1.1.2

end Sys2Proof.Machine
end

