-- ==== Sys2Proof/Laws/Flights.lean ====
section
/-! SUPPORT. What starting a long-latency instruction does (R106, R107), and from that every form of layout B. -/
namespace Sys2Proof.Machine
open Sys2Proof

theorem mapVal_window (m : Mask) (front : Mask) (la : Nat) (h : ∀ l ∈ m.lanes, l ∈ front.lanes) :
    Table.mapVal (fun l n => if front.has l then n - 1 else n) (m.lanes.map (fun l => (l, la + 1))) = m.lanes.map (fun l => (l, la)) := by
  unfold Table.mapVal
  rw [List.map_map]
  apply List.map_congr_left
  intro l hl
  simp [(mem_lanes.1 (h l hl)).2]

/-- The flight that `Ctx.launch` makes. -/
def Ctx.flightOf (c : Ctx) (cyc id la lat : Nat) (kind : FKind) (writes : List RegW) (dests raised : List (Nat × Nat)) (ns : Nat := 0)
    (cc : Nat := 0) : Flight :=
  { id := id, op := c.op, pc := (c.w.th (c.front.lowest.getD 0)).pc, lanes := c.active, front := c.front
    win := c.active.lanes.map (fun l => (l, la + 1))
    due := cyc + lat, cc := cc
    writes := writes, dests := writes.map RegW.dest ++ dests, raised := raised, kind := kind
    ret := (c.w.advance c.front c.len).retPoints c.front c.len, order := c.w.order
    at_ := cyc, born := c.s.mod.gts, notBefore := if ns = 0 then 0 else c.s.mod.gts + ns, safe := c.w.safeOrd, dist := c.w.sinceSafe }

theorem launch_eq (c : Ctx) (w : Warp) (la lat : Nat) (kind : FKind) (writes : List RegW) (dests raised : List (Nat × Nat)) (ns cc : Nat) :
    c.launch (c.s.putWarp c.wid w) la lat kind writes dests raised ns cc =
      { c.s with nextId := c.s.nextId + 1 }.putWarp c.wid { w with
        flights := w.flights ++ [c.flightOf (c.s.core c.w.core).cyc c.s.nextId la lat kind writes dests raised ns cc] } := by
  unfold Ctx.launch State.newId
  simp only []
  exact modWarp_putWarp { c.s with nextId := c.s.nextId + 1 } c.wid w _

theorem settle_moved_on (c : Ctx) (s : State) (w : Warp) :
    c.settle (.done (s.putWarp c.wid w) []) = s.putWarp c.wid (c.after w []) := by
  unfold Ctx.settle
  simp only [modWarp_putWarp, warp?_putWarp]
  exact flagTrap_quiet (warp?_putWarp _ _ _) (by simp)

theorem threads_plain (c : Ctx) (w : Warp) (h : ∀ l, w.th l = c.w.th l) : c.Threads (c.after w []) (fun _ t => t) := by
  intro l
  have := th_after c w [] (fun _ => 0) (by simp) (by simp) (fun _ _ => rfl) l
  rw [this, sticky_zero, h]

/-- What starting a flight does, of a form that pops its sources and writes nothing at its issue. -/
theorem launch_flies {c : Ctx} {os : List Opnd} {la lat : Nat} {kind : FKind} {writes : List RegW} {dests raised : List (Nat × Nat)} {ns cc : Nat}
    (hact : ∀ l ∈ c.active.lanes, l ∈ c.front.lanes) :
    ∃ x, c.settle (.done (c.launch (c.s.putWarp c.wid (popQueues os c.w)) la lat kind writes dests raised ns cc)) =
        { c.s with nextId := c.s.nextId + 1 }.putWarp c.wid x ∧ c.Flies x os la lat kind writes raised ns cc := by
  rw [launch_eq, settle_moved_on]
  have hp := popQueues_eq os c.w
  refine ⟨_, rfl, sameRegs_after ?_, threads_plain c _ (fun l => ?_), ?_, after_special c _ _ ?_, ?_⟩
  · rw [hp]; exact ⟨fun _ _ _ _ => rfl, fun _ _ => rfl⟩
  · rw [hp]; rfl
  · exact oqs_after c _ _
  · rw [hp]
    exact ⟨rfl, rfl, rfl, rfl, rfl, rfl, rfl, rfl, rfl, rfl, ⟨rfl, rfl⟩, ⟨rfl, rfl, rfl⟩, ⟨rfl, rfl, rfl, rfl⟩, ⟨rfl, rfl⟩⟩
  · rw [after_eq]
    simp only [Warp.count, List.map_append, List.map_cons, List.map_nil]
    refine ⟨_, _, rfl, ?_, ?_⟩
    · rw [List.map_map, hp]; rfl
    · exact ⟨rfl, rfl, rfl, rfl, rfl, rfl, rfl, rfl, rfl, rfl, rfl, mapVal_window _ _ _ hact⟩

/-- What an issue does that pops its sources and nothing else. -/
theorem passes_settle (c : Ctx) (os : List Opnd) :
    ∃ x, c.settle (.done (c.s.putWarp c.wid (popQueues os c.w)) []) = c.s.putWarp c.wid x ∧ c.Passes x os := by
  rw [settle_moved_on]
  have hp := popQueues_eq os c.w
  refine ⟨_, rfl, sameRegs_after ?_, threads_plain c _ (fun l => ?_), oqs_after c _ _, flights_after c _ _ ?_, after_special c _ _ (special_pop _ _)⟩
  · rw [hp]; exact ⟨fun _ _ _ _ => rfl, fun _ _ => rfl⟩
  · rw [hp]; rfl
  · unfold SameFlights; rw [hp]

theorem formB_settle {c : Ctx} {d : Opnd} {wd : Bool} {la lat : Nat} {os : List Opnd} {sem : Nat → FRes}
    (hact : ∀ l ∈ c.active.lanes, l ∈ c.front.lanes) (hp : c.Pops os) :
    ∃ x, if c.active = 0 then c.settle (c.formB d wd la lat os sem) = c.s.putWarp c.wid x ∧ c.Passes x os
      else c.settle (c.formB d wd la lat os sem) = { c.s with nextId := c.s.nextId + 1 }.putWarp c.wid x ∧
        c.Flies x os (c.w.lookahead la) lat .plain (c.outputs d wd sem) (c.raises sem) := by
  have e : c.formB d wd la lat os sem = if c.active == 0 then .done (c.s.putWarp c.wid (popQueues os c.w))
      else .done (c.launch (c.s.putWarp c.wid (popQueues os c.w)) (c.w.lookahead la) lat .plain (c.outputs d wd sem) [] (c.raises sem)) := by
    unfold Ctx.formB Ctx.outputs Ctx.raises
    rw [show c.popCheck os = none from hp]
    simp only [List.flatMap_map, List.filter_map, List.map_map]
    rfl
  by_cases h : c.active = 0
  · simp only [h, if_true]
    rw [e, if_pos (by simp [h])]
    exact passes_settle c os
  · simp only [h, if_false]
    rw [e, if_neg (by simpa using h)]
    exact launch_flies hact

/-- Every form of layout B whose result is known at its issue completes (R101, R106). -/
theorem formB_completes {i : Instr} {f : FormB} {wd wa wb : Bool} {lat : Ctx → Nat} {val : Ctx → Nat → Nat → Nat → FRes} {op : Nat}
    (he : ∀ s, exec i s = formB op f wd wa wb s lat val) (ho : i.op = op) (hl : i.len = if f.b.x = 1 then 16 else 8)
    (hh : i.hdr = f.hdr) : CompletesB i f wd wa wb lat val := by
  intro s w front ha c sem hn hp
  obtain ⟨x, hx⟩ := formB_settle (c := c) (d := f.d) (wd := wd) (la := f.la) (lat := lat c) (sem := sem) (fun l hl => active_front hl) hp
  refine ⟨x, ?_⟩
  have e : exec i s = .next (c.settle (c.formB f.d wd f.la (lat c) f.srcs sem)) := by
    rw [he, formB, ← ho, ← hl, ← hh]
    exact issue_acts _ ha hn
  split at hx
  · next h => rw [if_pos h]; exact ⟨e.trans (congrArg _ hx.1), hx.2⟩
  · next h => rw [if_neg h]; exact ⟨e.trans (congrArg _ hx.1), hx.2⟩

theorem CompletesB.of_eq {i : Instr} {f : FormB} {wd wa wb : Bool} {lat lat' : Ctx → Nat} {val val' : Ctx → Nat → Nat → Nat → FRes}
    (h : CompletesB i f wd wa wb lat val) (hl : ∀ c, lat c = lat' c) (he : ∀ c l a b, val c l a b = val' c l a b) :
    CompletesB i f wd wa wb lat' val' := by
  have e : val = val' := by funext c l a b; exact he c l a b
  have e2 : lat = lat' := by funext c; exact hl c
  exact e ▸ e2 ▸ h

end Sys2Proof.Machine
end

