-- ==== Sys2Proof/Laws/Memory.lean ====
section
/-! SUPPORT. Laws of memory: the canonical form, and what a byte reads as after a write (R277, R278). -/
namespace Sys2Proof.Machine

/-- A write of one byte keeps the canonical form. -/
theorem poke_wf {s : State} (a : Nat) (b : Byte) (h : memWf s.mem = true) : memWf (s.poke a b).mem = true := by
  unfold State.poke
  simp only []
  split
  · split
    · unfold State.modWarp State.putWarp
      split <;> exact h
    · exact Table.canonical_set _ _ h
  · exact Table.canonical_set _ _ h

theorem pokeBytes_wf {s : State} (a : Nat) (bs : List Byte) (h : memWf s.mem = true) :
    memWf (s.pokeBytes a bs).mem = true := by
  unfold State.pokeBytes
  generalize (List.range bs.length).zip bs = es
  induction es generalizing s with
  | nil => exact h
  | cons e r ih => exact ih (by simpa using poke_wf (s := s) (a + e.1) e.2 h)

theorem pokeN_wf {s : State} (a n v : Nat) (h : memWf s.mem = true) : memWf (s.pokeN a n v).mem = true :=
  pokeBytes_wf a _ h

/-- Outside the register-file window a byte reads as the table of its storage place says. -/
theorem peek_of_regWindow {s : State} {a : Nat} (h : regWindow (a % paTop) = none) :
    s.peek a = Table.get unwritten s.mem (canonPa (a % paTop)) := by
  unfold State.peek
  simp [h]

/-- Two states with one memory read alike outside the register-file window. -/
theorem peek_congr {s t : State} (hm : t.mem = s.mem) {a : Nat} (h : regWindow (a % paTop) = none) : t.peek a = s.peek a := by
  rw [peek_of_regWindow h, peek_of_regWindow h, hm]

theorem poke_mem {s : State} {a : Nat} (b : Byte) (h : regWindow (a % paTop) = none) :
    (s.poke a b).mem = Table.set unwritten s.mem (canonPa (a % paTop)) b := by
  unfold State.poke
  simp [h]

/-- A byte reads as written. -/
theorem peek_poke_self {s : State} {a : Nat} (b : Byte) (h : regWindow (a % paTop) = none) : (s.poke a b).peek a = b := by
  rw [peek_of_regWindow h, poke_mem b h, Table.get_set_self]

/-- A write leaves every other storage place alone. -/
theorem peek_poke_other {s : State} {a c : Nat} (b : Byte) (h : regWindow (a % paTop) = none) (hc : regWindow (c % paTop) = none)
    (hne : canonPa (c % paTop) ≠ canonPa (a % paTop)) : (s.poke a b).peek c = s.peek c := by
  rw [peek_of_regWindow hc, poke_mem b h, Table.get_set_other _ _ _ hne, peek_of_regWindow hc]

end Sys2Proof.Machine
end

