-- ==== Sys2Proof/Tests/Slice0.lean ====
section
/-! SUPPORT. Tests: ill-formed terms that the checks refuse, words written out from the encodings, the worked examples of the
reference chapters, one step each, and a witness for the hypotheses of every statement. -/
namespace Sys2Proof.Tests
open Sys2Proof Sys2Proof.Machine

set_option maxRecDepth 8000
set_option Elab.async false

/-! ## The checks of WellFormed, each refusing an ill-formed term -/

/-- R96: a guard is one of P0 to P7, and P7 is not negated. -/
theorem test_guard : (Instr.nop { p := 8 }).wf = false ∧ (Instr.nop { p := 7, neg := true }).wf = false := by decide
/-- R127: an unguarded form. -/
theorem test_unguarded : (Instr.yield { p := 1 }).wf = false ∧ (Instr.join {} 8).wf = false := by decide
/-- Tables 4.1, 7.3: a register beyond its file, a source no form takes, an operand where none is used. -/
theorem test_roles : (Instr.iadd { d := .v 768, a := .v 1, b := .opnd (.v 2) }).wf = false ∧
    (Instr.iadd { d := .oq 1, a := .v 1, b := .opnd (.v 2) }).wf = false ∧
    (Instr.iabs { d := .v 1, a := .v 2, b := .opnd (.v 3) }).wf = false ∧
    (Instr.rdfl { d := .v 4, a := .v 1 }).wf = false ∧ (Instr.lpick { d := .v 4, a := .oq 0, b := .imm10 1 } 7 5 .lane).wf = false := by decide
/-- R55: a pair is even. -/
theorem test_pairs : (Instr.iadd { d := .v 3, a := .v 4, b := .opnd (.v 6), ty := .u64 }).wf = false ∧
    (Instr.lea { d := .v 20, a := .v 15, b := .opnd (.v 1) } 3 false).wf = false ∧
    (Instr.lea { d := .v 20, a := .v 14, b := .opnd (.v 1) } 8 false).wf = false := by decide
/-- R109, Table 5.6: a type, a rounding mode and FTZ that the form does not take. -/
theorem test_types : (Instr.iadd { d := .v 1, a := .v 2, b := .opnd (.v 3), ty := .f32 }).wf = false ∧
    (Instr.fadd { d := .v 1, a := .v 2, b := .opnd (.v 3), ty := .f32, rnd := .sr }).wf = false ∧
    (Instr.dadd { d := .v 2, a := .v 4, b := .opnd (.v 6), ty := .f64, ftz := true }).wf = false := by decide
/-- R37: a uniform form's sources. -/
theorem test_uniform : (Instr.iadd { d := .w 1, a := .v 2, b := .opnd (.w 3) }).wf = false ∧
    (Instr.callx {} (.w 4) (.v 1) none).wf = false := by decide
/-- R157: conditions, and the combining predicate without a combining operation. -/
theorem test_compare : (Instr.icmp { d := 1, a := .v 2, b := .imm10 3, cond := .num }).wf = false ∧
    (Instr.icmp { d := 1, a := .v 2, b := .imm10 3, cp := 2 }).wf = false ∧
    (Instr.fclass { d := 1, a := .v 2, b := .imm10 3, ty := .f32, cond := .lt }).wf = false := by decide
/-- R106, Table 13.1: the lookahead, SAT, and a W destination of layout B. -/
theorem test_layout_b : (Instr.fdiv { d := .v 1, a := .v 2, b := .opnd (.v 3), la := 16 }).wf = false ∧
    (Instr.fdiv { d := .v 1, a := .v 2, b := .opnd (.v 3), sat := true }).wf = false ∧
    (Instr.fdiv { d := .w 1, a := .w 2, b := .opnd (.w 3) }).wf = false ∧
    (Instr.srseed { a := .w 5, ty := .i32 } false).wf = false := by decide
/-- R189, R190: descriptor fields and operand codes of layout X. -/
theorem test_layout_x : (Instr.mzero { d := .v 1, hd := 16 }).wf = false ∧ (Instr.mzero { d := .w 1 }).wf = false ∧
    (Instr.mst { d := .v 100, a := .v 30, hd := 1, hb := 12 } .normal none .rn false).wf = false ∧
    (Instr.mst { d := .v 100, a := .v 30, hd := 1, hb := 1 } .normal none .rz false).wf = false := by decide
/-- R166: the address pair, the count, the span of W registers. -/
theorem test_layout_m : (Instr.ld { d := .v 1, a := .v 3 } .normal 1).wf = false ∧ (Instr.ld { d := .v 1, a := .v 2 } .normal 3).wf = false ∧
    (Instr.ldw { d := .w 62, a := .w 2 } .normal 4).wf = false ∧ (Instr.ld { d := .w 1, a := .v 2 } .normal 1).wf = false := by decide
/-- R244, Tables 19.3, 19.4: types and uses of the atomics. -/
theorem test_atomics : (Instr.atom { d := .v 1, a := .v 2, b := .v 4, ty := .f32 } .and).wf = false ∧
    (Instr.atom { d := .v 1, a := .v 2, b := .v 4, ty := .u32, use := .qnt } .add).wf = false ∧
    (Instr.red { a := .v 2, b := .v 4, ty := .u32, use := .spec } .add).wf = false ∧
    (Instr.atomc { d := .v 1, a := .v 2, b := .v 4, ty := .u32 } (.v 5)).wf = false := by decide
/-- R137, R141, R147, R148, R244: counts and numbers of the control, queue and stream forms. -/
theorem test_counts : (Instr.bar {} 4).wf = false ∧ (Instr.regroup {} (.v 1) (.v 2) 5).wf = false ∧ (Instr.rep {} false false false false 0 4).wf = false ∧
    (Instr.rep {} false false false false 4 65).wf = false ∧ (Instr.dgst {} (.v 760) (.imm10 0) 9).wf = false ∧
    (Instr.tqinit {} 1 (.v 2) 65).wf = false ∧ (Instr.qpop {} (.v 766) 1 0).wf = false ∧ (Instr.wstart {} 4).wf = false ∧
    (Instr.cpclose {} (.v 4) 0).wf = false ∧ (Instr.trap {} 1024).wf = false ∧ (Instr.setprio {} (.imm32 1)).wf = false := by decide

/-! ## Words written out from the encodings (Tables 7.1–7.8, and the tables of worked encodings) -/

/-- R94's first word, without an extension word or with one. -/
def word (w0 : Nat) (w1 : Nat := 0) : Decoded := decodeWords w0 w1

theorem test_decode_control : word 0x801C000000000000 = .ok (.nop {}) ∧
    word 0x8026000000285000 = .ok (.bra { p := 1, neg := true } 5 (some 2)) := by decide
theorem test_decode_integer : word 0x846402807FE40000 = .ok (.iadd { hdr := { p := 1 }, d := .v 5, a := .v 3, b := .imm10 (-4), ty := .i32 }) ∧
    word 0xC47C028060040000 0x186A0 = .ok (.iadd { d := .v 5, a := .v 3, b := .imm32 100000, ty := .i32 }) ∧
    word 0x865C007F20140800 = .ok (.shl { d := .v 0, a := .lane, b := .imm10 2, ty := .u32 }) := by decide
theorem test_decode_integer3 : word 0x851C0500802800C0 = .ok (.imad { d := .v 10, a := .v 4, b := .opnd (.v 5), c := .v 6, ty := .i32 }) := by decide
theorem test_decode_compare : word 0x87FC010060840100 = .ok (.icmp { d := 2, a := .v 3, b := .imm10 16, ty := .i32, cond := .lt }) ∧
    word 0x8CBC010060204100 = .ok (.fcmp { d := 2, a := .v 3, b := .opnd (.v 4), ty := .f32, cond := .lt }) := by decide
theorem test_decode_memory : word 0x899C038022000800 = .ok (.lds { d := .v 7, a := .v 1, off := .imm10 64, ty := .u32 } 1) ∧
    word 0x895C020040000800 = .ok (.ld { d := .v 4, a := .v 2, ty := .u32 } .normal 1) ∧
    word 0xC97C030040000800 0x1000 = .ok (.st { d := .v 6, a := .v 2, off := .imm32 4096, ty := .u32 } .normal 1) := by decide
theorem test_decode_float : word 0x8C1C0A0087F44100 = .ok (.fadd { d := .v 20, a := .v 4, b := .imm10 0x0FE, ty := .f32, rnd := .rz }) := by decide
theorem test_decode_convert : word 0x901C038060002E00 = .ok (.cvt { d := .v 7, a := .v 3, ty := .bf16 } .f32) := by decide
theorem test_decode_matrix : word 0x937C370C83401890 = .ok (.mmul { d := .v 110, a := .v 100, b := .v 104, hd := 3, ha := 1, hb := 2 }) ∧
    word 0xD21C000000001801 0x11 = .ok (.mshape { hd := 3 } false (some 0x11)) ∧
    word 0xD3DC3C0C83402090 0x1040000000000000 = .ok (.mspma { d := .v 120, a := .v 100, b := .v 104, hd := 4, ha := 1, hb := 2 } (.v 130) .cols) := by decide
theorem test_decode_ordered : word 0x981C038040000B00 = .ok (.lda { d := .v 7, a := .v 2, ty := .u32 } .dev) ∧
    word 0x989C0A03C0084320 = .ok (.atom { d := .v 20, a := .v 30, b := .v 1, ty := .f32, scope := .dev, use := .com } .add) ∧
    word 0x98DC0003C0084320 = .ok (.red { a := .v 30, b := .v 1, ty := .f32, scope := .dev, use := .com } .add) := by decide
/-- With LA = 1 (R122). -/
theorem test_decode_lookahead : word 0x989C0A03C008C320 =
    .ok (.atom { d := .v 20, a := .v 30, b := .v 1, la := 1, ty := .f32, scope := .dev, use := .com } .add) := by decide
theorem test_decode_copies : word 0xD8FC050040000301 0x1000 = .ok (.cpy { d := .v 10, a := .v 2, len := .imm32 4096, space := .team, scope := .dev }) ∧
    word 0x995D820000000000 = .ok (.cpclose {} (.w 4) 0) := by decide
theorem test_decode_queues : word 0x9A1C006100000020 = .ok (.qpush {} 2 (.w 8)) := by decide

/-! ## One step on a small state

Warp 3 is warp 1 of team 2, the one team of grid 1 of context 1. Its threads are ready, with P1 true (and P7, R55). -/

def demoKernel : Kernel := { regs := 256, handler := 0x40, codeSize := 64, scratch := 4096, lanebytes := 256 }
def demoGrid : Grid := { ctx := 1, ident := 1, kern := demoKernel, phase := .running }
def demoTeam : Team := { grid := 1, index := 0, core := 0, span := 1, warps := [3] }
def demoSpan : Span := { grid := 1, cluster := 0, base := 0, size := 1, teams := [2] }

/-- The warp, with `regs` as (lane, number, value). -/
def demoWarp (front : Mask) (regs : List (Nat × Nat × Word)) : Warp :=
  regs.foldl (fun w r => w.setV r.1 r.2.1 r.2.2)
    { team := 2, num := 1, part := 0, slot := 0
      threads := front.lanes.map (fun l => (l, ({ st := .ready, preds := 0x82 } : Thread))), tvec := 0x40, cur := some front }

/-- That warp alone in the machine. -/
def stateOf (w : Warp) : State :=
  { warps := [(3, w)], cur := 3, nextId := 4
    mod := { contexts := [(1, {})], grids := [(1, demoGrid)], teams := [(2, demoTeam)], spans := [(1, demoSpan)] } }

def demo (front : Mask) (regs : List (Nat × Nat × Word)) : State := stateOf (demoWarp front regs)

/-- The warp after exec. -/
def after (i : Instr) (s : State) : Option Warp := match exec i s with
  | .next t => t.warp? t.cur
  | _ => none

/-- Register n of lane 5 after it, and a predicate; what the newest flight will write there; the flags raised. -/
def out (i : Instr) (s : State) (n : Nat) : Option Word := (after i s).map (fun w => w.getV 5 n)
def outP (i : Instr) (s : State) (p : Nat) : Option Bool := (after i s).map (fun w => (w.th 5).pred p)
def due (i : Instr) (s : State) (l n : Nat) : Option Word := (after i s).bind (fun w => w.flights.getLast?.bind (fun f =>
  f.writes.findSome? (fun r => match r with
    | .v k m x => if k = l ∧ m = n then some x else none
    | _ => none)))
def outFlags (i : Instr) (s : State) : Option Word := (after i s).map (fun w => (w.th 5).fpf)
def dueFlags (i : Instr) (s : State) (l : Nat) : Option Nat := (after i s).bind (fun w => w.flights.getLast?.map (fun f =>
  (f.raised.filter (fun e => e.1 == l)).foldl (fun a e => a ||| e.2) 0))

/-! ## Spec 11: integer, predicate and cross-lane forms, with its registers in lane 5 -/

def intsWarp : Warp := demoWarp 0x20 [(5, 1, 50), (5, 10, 0xF0), (5, 11, 0xFFFFFFFC), (5, 12, 7), (5, 14, 0xFFFFFFFF), (5, 15, 1)]
def ints : State := stateOf intsWarp
def two (ty : NumTy) (a b : Nat) : FormA := { d := .v 20, a := .v a, b := .opnd (.v b), ty := ty }
def one (ty : NumTy) (a : Nat) : FormA := { d := .v 20, a := .v a, ty := ty }
def imm (ty : NumTy) (a : Nat) (b : BitVec 10) : FormA := { d := .v 20, a := .v a, b := .imm10 b, ty := ty }

theorem test_mov : out (.mov (one .u32 10) .copy) ints 20 = some 0xF0 ∧
    out (.mov { d := .v 20 } .packP) ints 20 = some 0x82 := by decide
theorem test_movi : out (.movi { d := .v 20, b := .imm10 (-3) }) ints 20 = some 0xFFFFFFFD := by decide
/-- MOVI.F32 with imm10 0x0FE writes 1.0 (R152). -/
theorem test_movi_f32 : out (.movi { d := .v 20, b := .imm10 0x0FE, ty := .f32 }) ints 20 = some 0x3F800000 := by decide
theorem test_sel : out (.sel (two .u32 10 12) 1 false) ints 20 = some 0xF0 := by decide
theorem test_iadd : out (.iadd (two .i32 10 11)) ints 20 = some 0xEC := by decide
theorem test_isub : out (.isub (two .i32 12 10)) ints 20 = some 0xFFFFFF17 := by decide
theorem test_imul : out (.imul (two .i32 11 12)) ints 20 = some 0xFFFFFFE4 := by decide
theorem test_imulh : out (.imulh (two .u32 11 12)) ints 20 = some 6 ∧ out (.imulh (two .i32 11 12)) ints 20 = some 0xFFFFFFFF := by decide
theorem test_imin : out (.imin (two .i32 10 11)) ints 20 = some 0xFFFFFFFC ∧ out (.imin (two .u32 10 11)) ints 20 = some 0xF0 := by decide
theorem test_imax : out (.imax (two .i32 10 11)) ints 20 = some 0xF0 := by decide
theorem test_iabs : out (.iabs (one .i32 11)) ints 20 = some 4 := by decide
theorem test_iaddc : out (.iaddc (imm .u32 14 1) 7 3 false true) ints 20 = some 0 ∧
    outP (.iaddc (imm .u32 14 1) 7 3 false true) ints 3 = some true := by decide
/-- IADDC.U32 V21, V15, 0, P3, P7, here with carry-in P1, which is true. -/
theorem test_iaddc_in : out (.iaddc (imm .u32 15 0) 1 7 false false) ints 20 = some 2 := by decide
theorem test_imad : out (.imad { d := .v 20, a := .v 11, b := .opnd (.v 12), c := .v 10 }) ints 20 = some 0xD4 := by decide
theorem test_imadw : out (.imadw { d := .v 20, a := .v 11, b := .opnd (.v 12), c := .v 14, ty := .u32 }) ints 20 = some 0xFFFFFFE3 ∧
    out (.imadw { d := .v 20, a := .v 11, b := .opnd (.v 12), c := .v 14, ty := .u32 }) ints 21 = some 8 := by decide
theorem test_logic : out (.and (imm .u32 10 0x3C)) ints 20 = some 0x30 ∧ out (.or (two .u32 10 12)) ints 20 = some 0xF7 ∧
    out (.xor (imm .u32 10 0xFF)) ints 20 = some 0xF ∧ out (.andn (imm .u32 10 0x30)) ints 20 = some 0xC0 ∧
    out (.not (one .u32 10)) ints 20 = some 0xFFFFFF0F := by decide
theorem test_shifts : out (.shl (imm .u32 12 4)) ints 20 = some 0x70 ∧ out (.shl (imm .u32 12 40)) ints 20 = some 0 ∧
    out (.shr (imm .u32 11 28)) ints 20 = some 0xF ∧ out (.sar (imm .i32 11 1)) ints 20 = some 0xFFFFFFFE ∧
    out (.rotl (imm .u32 10 28)) ints 20 = some 0xF := by decide
theorem test_fsh : out (.fsh { d := .v 20, a := .v 10, b := .opnd (.v 11), c := .v 12 } false) ints 20 = some 0x787F := by decide
theorem test_counting : out (.popc (one .u32 10)) ints 20 = some 4 ∧ out (.clz (one .u32 10)) ints 20 = some 24 ∧
    out (.ctz (one .u32 10)) ints 20 = some 4 ∧ out (.brev (one .u32 10)) ints 20 = some 0x0F000000 := by decide
theorem test_bfx : out (.bfx { d := .v 20, a := .v 10, b := .imm32 0x404, ty := .u32 }) ints 20 = some 0xF ∧
    out (.bfx { d := .v 20, a := .v 10, b := .imm32 0x404, ty := .i32 }) ints 20 = some 0xFFFFFFFF := by decide
theorem test_bfi : out (.bfi { d := .v 20, a := .v 12, b := .imm32 0x308, c := .v 10, ty := .u32 }) ints 20 = some 0x7F0 := by decide
theorem test_bperm : out (.bperm { d := .v 20, a := .v 10, b := .imm32 0x4018, c := .v 12 }) ints 20 = some 0x07F000FF := by decide
theorem test_lea : out (.lea { d := .v 20, a := .v 14, b := .opnd (.v 12) } 3 false) ints 20 = some 0x37 ∧
    out (.lea { d := .v 20, a := .v 14, b := .opnd (.v 12) } 3 false) ints 21 = some 2 := by decide
theorem test_icmp : outP (.icmp { d := 3, a := .v 11, b := .opnd (.v 12), ty := .i32, cond := .lt }) ints 3 = some true ∧
    outP (.icmp { d := 3, a := .v 11, b := .opnd (.v 12), ty := .u32, cond := .lt }) ints 3 = some false := by decide
theorem test_icmp_and : outP (.icmp { d := 3, a := .v 10, b := .imm10 0, ty := .i32, cond := .gt, comb := .and, cp := 2 }) ints 3 = some false := by decide
/-- P1 true, P2 false, P7 true: index 5 of the majority table. -/
theorem test_plop : outP (.plop {} 3 1 2 7 (.imm10 0xE8)) ints 3 = some true := by decide
theorem test_pmov : outP (.pmov { d := 4, a := .v 10, b := .imm10 4 } false) ints 4 = some true ∧
    (after (.pmov { a := .v 12 } true) ints).map (fun w => (w.th 5).preds) = some 0x87 := by decide

/-- All 32 lanes, V1 = 10 × lane, V2 = 31 − lane, V3 = lane mod 4. -/
def wideWarp : Warp := demoWarp Mask.all ((List.range 32).flatMap (fun l =>
  [(l, 1, BitVec.ofNat 32 (10 * l)), (l, 2, BitVec.ofNat 32 (31 - l)), (l, 3, BitVec.ofNat 32 (l % 4))]))
def wide : State := stateOf wideWarp

theorem test_lpick : out (.lpick (imm .u32 1 1) 4 5 .above) wide 20 = some 60 ∧ outP (.lpick (imm .u32 1 1) 4 5 .above) wide 4 = some true := by decide
/-- LPICK.LANE.S8 with lane 9: outside every segment. -/
theorem test_lpick_out : out (.lpick (imm .u32 1 9) 4 3 .lane) wide 20 = some 50 ∧ outP (.lpick (imm .u32 1 9) 4 3 .lane) wide 4 = some false := by decide
theorem test_lpoll : out (.lpoll { d := .v 20 } 1 7 .mask) wide 20 = some 0xFFFFFFFF := by decide
theorem test_lfold : out (.lfold (one .i32 1) .add) wide 20 = some 4960 := by decide
theorem test_scan : out (.scan (one .i32 1) .add false false 0) wide 20 = some 150 ∧ out (.scan (one .i32 1) .add true false 0) wide 20 = some 100 := by decide
theorem test_lpeer : out (.lpeer (one .u32 3) 7) wide 20 = some 0x22222222 := by decide
theorem test_rdfl : (after (.rdfl { d := .w 4, a := .v 1, ty := .u32 }) (demo 0xFFFFFFF8 [(3, 1, 30), (4, 1, 40)])).map (fun w => w.getW 4) = some 30 := by decide
theorem test_lsend : out (.lsend (two .u32 1 2) 7) wide 20 = some 260 := by decide
theorem test_wmov : (after (.wmov { a := .w 6 } 2 .toJ) (stateOf ((demoWarp 0x20 []).setW 6 0xC0))).map (fun w => w.getJ 2) = some 0xC0 ∧
    (after (.wmov { d := .w 6 } 0 .front) wide).map (fun w => w.getW 6) = some 0xFFFFFFFF := by decide

/-! ## Spec 13: floating point, special functions and conversion, with its registers in lane 5 -/

def floatsWarp : Warp := demoWarp 0x20 [(5, 4, 0x3FC00000), (5, 5, 0xC0000000), (5, 6, 0x3E800000), (5, 7, 0x43FA0000), (5, 8, 0x3C004000),
  (5, 9, 0x7FC00000), (5, 21, 0xC0200000), (5, 41, 0x40000000), (5, 43, 0x40080000)]
def floats : State := stateOf floatsWarp
def three (ty : NumTy) (a b c : Nat) : FormA3 := { d := .v 20, a := .v a, b := .opnd (.v b), c := .v c, ty := ty }
def bOne (ty : NumTy) (a : Nat) : FormB := { d := .v 20, a := .v a, ty := ty }
def bTwo (ty : NumTy) (a b : Nat) : FormB := { d := .v 20, a := .v a, b := .opnd (.v b), ty := ty }

theorem test_fadd : out (.fadd (two .f32 4 5)) floats 20 = some 0xBF000000 := by decide +kernel
theorem test_fmul : out (.fmul (two .f32 4 5)) floats 20 = some 0xC0400000 := by decide +kernel
theorem test_ffma : out (.ffma (three .f32 4 5 6)) floats 20 = some 0xC0300000 := by decide +kernel
theorem test_dadd : out (.dadd (two .f64 40 42)) floats 20 = some 0 ∧ out (.dadd (two .f64 40 42)) floats 21 = some 0x40140000 := by decide +kernel
/-- 2.0 × 3.0, from the values of the chapter. -/
theorem test_dmul : out (.dmul (two .f64 40 42)) floats 21 = some 0x40180000 := by decide +kernel
theorem test_dfma : out (.dfma (three .f64 40 42 40)) floats 20 = some 0 ∧ out (.dfma (three .f64 40 42 40)) floats 21 = some 0x40200000 := by decide +kernel
theorem test_fmin : out (.fmin (two .f32 4 5)) floats 20 = some 0xC0000000 := by decide +kernel
theorem test_fmax_nan : out (.fmax (two .f32 4 9)) floats 20 = some 0x3FC00000 ∧ outFlags (.fmax (two .f32 4 9)) floats = some 0 := by decide +kernel
theorem test_dminmax : out (.dmin (two .f64 40 42)) floats 21 = some 0x40000000 ∧ out (.dmax (two .f64 40 42)) floats 21 = some 0x40080000 := by decide +kernel
theorem test_frnd : out (.frnd (one .f32 21) .near) floats 20 = some 0xC0000000 ∧ out (.frnd (one .f32 21) .floor) floats 20 = some 0xC0400000 := by decide +kernel
theorem test_fscl : out (.fscl (imm .f32 4 3)) floats 20 = some 0x41400000 := by decide +kernel
theorem test_fcmp : outP (.fcmp { d := 3, a := .v 5, b := .opnd (.v 4), ty := .f32, cond := .lt }) floats 3 = some true ∧
    outP (.fcmp { d := 3, a := .v 9, b := .opnd (.v 4), ty := .f32, cond := .ltu }) floats 3 = some true := by decide +kernel
theorem test_dcmp : outP (.dcmp { d := 3, a := .v 42, b := .opnd (.v 40), ty := .f64, cond := .gt }) floats 3 = some true := by decide +kernel
theorem test_fclass : outP (.fclass { d := 3, a := .v 5, b := .imm10 8, ty := .f32 }) floats 3 = some true := by decide +kernel
theorem test_duoadd : out (.duoadd (two .f16 8 8)) floats 20 = some 0x40004400 := by decide +kernel
theorem test_duomul : out (.duomul (two .f16 8 8)) floats 20 = some 0x3C004400 := by decide +kernel
theorem test_duofma : out (.duofma (three .f16 8 8 8)) floats 20 = some 0x40004600 := by decide +kernel
theorem test_fdiv : due (.fdiv (bTwo .f32 4 5)) floats 5 20 = some 0xBF400000 := by decide +kernel
theorem test_fsqrt : due (.fsqrt (bOne .f32 6)) floats 5 20 = some 0x3F000000 := by decide +kernel
theorem test_ddiv : due (.ddiv (bTwo .f64 42 40)) floats 5 20 = some 0 ∧ due (.ddiv (bTwo .f64 42 40)) floats 5 21 = some 0x3FF80000 := by decide +kernel
theorem test_dsqrt : due (.dsqrt (bOne .f64 40)) floats 5 20 = some 0x667F3BCD ∧ due (.dsqrt (bOne .f64 40)) floats 5 21 = some 0x3FF6A09E := by decide +kernel
/-- NX is bit 0 of the flags (R68). -/
theorem test_dsqrt_inexact : dueFlags (.dsqrt (bOne .f64 40)) floats 5 = some 1 := by decide +kernel
theorem test_rcp : due (.rcp (bOne .f32 5)) floats 5 20 = some 0xBF000000 := by decide +kernel
theorem test_rsq : due (.rsq (bOne .f32 6)) floats 5 20 = some 0x40000000 ∧ dueFlags (.rsq (bOne .f32 6)) floats 5 = some 0 := by decide +kernel
theorem test_exp2 : due (.exp2 (bOne .f32 5)) floats 5 20 = some 0x3E800000 := by decide +kernel
theorem test_log2 : due (.log2 (bOne .f32 6)) floats 5 20 = some 0xC0000000 := by decide +kernel
theorem test_cos : due (.cos { d := .v 20, a := .zero }) floats 5 20 = some 0x3F800000 := by decide +kernel
theorem test_sin_zero : due (.sin { d := .v 20, a := .zero }) floats 5 20 = some 0 := by decide +kernel
theorem test_tanh_nan : due (.tanh (bOne .f32 9)) floats 5 20 = some 0x7FC00000 ∧ dueFlags (.tanh (bOne .f32 9)) floats 5 = some 0 := by decide +kernel
theorem test_cvt : due (.cvt (bOne .bf16 4) .f32) floats 5 20 = some 0x3FC0 ∧ due (.cvt (bOne .e4m3 4) .f32) floats 5 20 = some 0x3C ∧
    due (.cvt (bOne .f16 42) .f64) floats 5 20 = some 0x4200 ∧ due (.cvt (bOne .i32 21) .f32) floats 5 20 = some 0xFFFFFFFE ∧
    due (.cvt { bOne .i32 21 with rnd := .rd } .f32) floats 5 20 = some 0xFFFFFFFD := by decide +kernel
/-- 500.0 into E4M3, with SAT and without. -/
theorem test_cvt_sat : due (.cvt { bOne .e4m3 7 with sat := true } .f32) floats 5 20 = some 0x7E ∧
    due (.cvt (bOne .e4m3 7) .f32) floats 5 20 = some 0x7F := by decide +kernel
/-- Table 13.8: 40.0, 1.5, −0.5 and 0.3 in lanes 0 to 3. -/
theorem test_cvtblk : let s := demo 0xF [(0, 10, 0x42200000), (1, 10, 0x3FC00000), (2, 10, 0xBF000000), (3, 10, 0x3E99999A)]
    let i := Instr.cvtblk (bOne .nx4 10) .f32
    due i s 0 20 = some 0x00727D08 ∧ due i s 1 20 = some 0x00727D07 ∧ due i s 2 20 = some 0x00727D0C ∧ due i s 3 20 = some 0x00727D02 ∧
    [0, 1, 2, 3].map (dueFlags i s) = [some 0, some 0, some 0, some 1] := by decide +kernel
theorem test_srseed : (after (.srseed { a := .w 4, ty := .i32 } false) (stateOf ((demoWarp 0x20 []).setW 4 1))).map (·.srstate) = some 1 ∧
    (after (.srseed { a := .zero, ty := .i32 } false) floats).map (·.srstate) = some 0x2545F4914F6CDD1D := by decide +kernel

/-! ## Spec 14: matrices, with Table 14.1 in lane 5 -/

def word0 (n : Nat) : Nat × BitVec 96 := (5 * 16 + n, if n < 5 then 0x8011 else 0x4001)
/-- A in V100–V103, B in V104–V107, b in V114–V115, and what stands in `more`. -/
def matWarp (more : List (Nat × Nat × Word)) : Warp :=
  { demoWarp 0x20 ([(5, 30, 0x1000), (5, 7, 0x3F000000), (5, 100, 0x40800000), (5, 101, 0x40000000), (5, 102, 0x40000000),
      (5, 103, 0x40A00000), (5, 104, 0x3F800000), (5, 105, 0x40000000), (5, 107, 0x3F800000), (5, 114, 0x40000000), (5, 115, 0x40E00000)] ++ more) with
    hregs := [1, 2, 3, 4, 5, 6].map word0 }
def matrices (more : List (Nat × Nat × Word)) : State := stateOf (matWarp more)
/-- The matrix of registers V`n` with descriptor H`k` in lane 5, in the issue of some form. -/
def mat (more : List (Nat × Nat × Word)) (n k : Nat) : Mat := ((matrices more).at_ (matWarp more) 0x20 (.nop {})).matM false (.v n) 5 k
def f32s (m : Mat) : List (List Nat) := m.map (fun r => r.map (fun x => (fmt32.finish .rn 0 false x).bits))
def x3 : FormX := { d := .v 110, a := .v 100, b := .v 104, hd := 3, ha := 1, hb := 2 }
def x4 : FormX := { d := .v 120, a := .v 100, hd := 4, ha := 1 }
/-- The four registers from `n` on that the newest flight writes in lane 5. -/
def rows (i : Instr) (s : State) (n : Nat) : List (Option Word) := (List.range 4).map (fun k => due i s 5 (n + k))
def h4 (i : Instr) (s : State) : Option (BitVec 96) := (after i s).map (fun w => Table.get 0 w.hregs 84)

theorem test_mshape : h4 (.mshape { hd := 4 } false (some 0x311)) (matrices []) = some 0x8311 := by decide +kernel
/-- MSHAPE H4, 3, 3, FP32 with extent 4 raises SHAPE_OVERFLOW and leaves H4 (R196): lane 5 in SR_TRAPLANES. -/
theorem test_mshape_overflow : h4 (.mshape { hd := 4 } false (some 0x22)) (matrices []) = some 0x8011 ∧
    (after (.mshape { hd := 4 } false (some 0x22)) (matrices [])).map (·.traplanes) = some 0x20 := by decide +kernel
theorem test_mqry : due (.mqry { d := .v 20, ha := 1 } .w0) (matrices []) 5 20 = some 0x8011 ∧
    due (.mqry { d := .v 20, ha := 5 } .regs) (matrices []) 5 20 = some 2 := by decide +kernel
theorem test_mzero : rows (.mzero { d := .v 120, hd := 4 }) (matrices []) 120 = [some 0, some 0, some 0, some 0] := by decide +kernel
theorem test_mtrn : rows (.mtrn { d := .v 110, a := .v 104, hd := 3, ha := 2 }) (matrices []) 110 =
    [some 0x3F800000, some 0, some 0x40000000, some 0x3F800000] := by decide +kernel
theorem test_madd : rows (.madd x3 false) (matrices []) 110 = [some 0x40A00000, some 0x40800000, some 0x40000000, some 0x40C00000] := by decide +kernel
theorem test_mscal : rows (.mscal { d := .v 110, a := .v 100, b := .v 7, hd := 3, ha := 1 }) (matrices []) 110 =
    [some 0x40000000, some 0x3F800000, some 0x3F800000, some 0x40200000] := by decide +kernel
/-- MCVT with H4 as MSHAPE H4, 2, 2, BF16 left it. -/
theorem test_mcvt : let s := matrices []
    let t := { s with warps := s.warps.map (fun e => (e.1, { e.2 with hregs := Table.put e.2.hregs 84 0x8311 })) }
    rows (.mcvt x4 none) t 120 = [some 0x40004080, some 0x40A04000, none, none] := by decide +kernel
theorem test_mmul : rows (.mmul x3) (matrices []) 110 = [some 0x40800000, some 0x41200000, some 0x40000000, some 0x41100000] := by decide +kernel
theorem test_mma : rows (.mma x3) (matrices [(5, 110, 0x40800000), (5, 111, 0x41200000), (5, 112, 0x40000000), (5, 113, 0x41100000)]) 110 =
    [some 0x41000000, some 0x41A00000, some 0x40800000, some 0x41900000] := by decide +kernel
theorem test_mmt : rows (.mmt x4 true false) (matrices []) 120 = [some 0x41A00000, some 0x41900000, some 0x41900000, some 0x41E80000] := by decide +kernel
theorem test_mspma : rows (.mspma { d := .v 120, a := .v 100, b := .v 104, hd := 4, ha := 1, hb := 2 } (.v 130) .cols) (matrices [(5, 130, 1)]) 120 =
    [some 0x40800000, some 0x41000000, some 0x40000000, some 0x40800000] := by decide +kernel
/-- MLU V110:H3, V100:H1, V40: what goes to the matrix and to the permutation. -/
theorem test_mlu : let r := (lu (arithOf .f32 false) 2 (mat [] 100 1)).run.1
    f32s (r.result 2) = [[0x40800000, 0x40000000], [0x3F000000, 0x40800000]] ∧ r.nibbles = 0x10 := by decide +kernel
theorem test_mchol : rows (.mchol { d := .v 110, a := .v 100, hd := 3, ha := 1 }) (matrices []) 110 =
    [some 0x40000000, some 0, some 0x3F800000, some 0x40000000] := by decide +kernel

/-- With the factor of the MCHOL example in V110–V113. -/
def factored (more : List (Nat × Nat × Word)) (at_ : Nat) : State :=
  matrices ([(5, at_, 0x40000000), (5, at_ + 2, 0x3F800000), (5, at_ + 3, 0x40000000)] ++ more)
def factoredMat : Mat := mat [(5, 120, 0x40000000), (5, 122, 0x3F800000), (5, 123, 0x40000000)] 120 4

theorem test_mtrs : let i := Instr.mtrs { d := .v 116, a := .v 110, b := .v 114, hd := 6, ha := 3, hb := 5 } false false (some false)
    due i (factored [] 110) 5 116 = some 0x3F800000 ∧ due i (factored [] 110) 5 117 = some 0x40400000 := by decide +kernel
theorem test_mtrs_transposed : let i := Instr.mtrs { d := .v 116, a := .v 110, b := .v 116, hd := 6, ha := 3, hb := 6 } false false (some true)
    due i (factored [(5, 116, 0x3F800000), (5, 117, 0x40400000)] 110) 5 116 = some 0xBE800000 ∧
    due i (factored [(5, 116, 0x3F800000), (5, 117, 0x40400000)] 110) 5 117 = some 0x3FC00000 := by decide +kernel
theorem test_minv : rows (.minv x4) (matrices []) 120 = [some 0x3EA00000, some 0xBE000000, some 0xBE000000, some 0x3E800000] := by decide +kernel
theorem test_mdet : due (.mdet { d := .v 20, a := .v 100, ha := 1 }) (matrices []) 5 20 = some 0x41800000 := by decide +kernel
/-- From x = 0 with tolerance 0 and cap 3, and the factor L: one correction, −0.25 / 1.5. -/
theorem test_mrefine : let ar := arithOf .f32 false
    let m := factoredMat
    let solve := fun (_ : Nat) (r : Mat) => (do
      let y ← trs ar 2 1 m.get r.get true false
      trs ar 2 1 (fun i j => m.get j i) y.1.get false false : Fl (Mat × Bool))
    let r := (refine ar 2 1 (mat [] 100 1) (mat [] 114 5) (fmt32.decode 0) solve 3 0 (mat [] 116 6)).run.1
    f32s r.1 = [[0xBE800000], [0x3FC00000]] ∧ r.2 = 1 := by decide +kernel
theorem test_mexp : rows (.mexp { d := .v 120, a := .v 110, hd := 4, ha := 3 }) (matrices []) 120 =
    [some 0x3F800000, some 0, some 0, some 0x3F800000] := by decide +kernel

/-! ## Spec 10 and 19: control, and memory, in a machine with code and a page table (log 21)

Eight NOPs stand at the warp's PC; lane 5 alone has P1 true. -/

def nops : List Byte := (List.replicate 8 (leBytes 8 0x801C000000000000)).flatten
def codedWarp : Warp := { Image.warpOf with tvec := 0x20, threads := Mask.all.lanes.map (fun l =>
    (l, ({ st := .ready, preds := if l = 5 then 0x82 else 0x80 } : Thread))) }
def coded (w : Warp → Warp) : State := (State.reset.withCode nops 0).putWarp Image.warp (w codedWarp)
/-- Lanes 5 and 6 alone, with V30 an address in the last page that the table maps, V1 = 50 and V12 = 7; V8 is an offset. -/
def memWarp : Warp :=
  [(5, 30, 0x3FFFF000), (6, 30, 0x3FFFF010), (5, 1, 50), (6, 1, 60), (5, 12, 7), (6, 12, 7), (5, 8, 64), (6, 8, 128)].foldl
    (fun w r => w.setV r.1 r.2.1 r.2.2) { codedWarp with cur := some 0x60 }
def memory : State := coded (fun _ => memWarp)
def pcs (i : Instr) (s : State) : Option (List Nat) := (after i s).map (fun w => [4, 5].map (fun l => (w.th l).pc))
def next (i : Instr) (s : State) : State := match exec i s with
  | .next t => t
  | _ => s

/-- (P1) BRA +5, J2: lane 5 goes, J2 holds the front, the others fall through (R130). -/
theorem test_bra : pcs (.bra { p := 1 } 5 (some 2)) (coded id) = some [8, 40] ∧
    (after (.bra { p := 1 } 5 (some 2)) (coded id)).map (fun w => w.getJ 2) = some 0xFFFFFFFF := by decide +kernel
/-- ILLEGAL_TARGET (cause 3) with the failing lanes, beyond the code section: nothing else happens, and the handler is entered. -/
theorem test_bra_target : (after (.bra {} 100 (some 2)) (coded id)).map (fun w => (w.trapcause, w.traplanes, w.getJ 2)) =
    some (0x0103, 0xFFFFFFFF, 0) := by decide +kernel
/-- The link is pc − base + 8. -/
theorem test_call : pcs (.call { p := 1 } (.v 40) 3 none) (coded id) = some [8, 24] ∧ out (.call { p := 1 } (.v 40) 3 none) (coded id) 40 = some 8 := by
  decide +kernel
theorem test_brx : pcs (.brx { p := 1 } (.v 9) none) (coded (fun w => w.setV 5 9 48)) = some [8, 48] ∧
    pcs (.ret { p := 1 } (.v 9) none) (coded (fun w => w.setV 5 9 48)) = some [8, 48] := by decide +kernel
theorem test_exit : (after (.exit { p := 1 }) (coded id)).map (fun w => ((w.th 5).st, (w.th 4).st, (w.th 4).pc)) = some (.exited, .ready, 8) := by
  decide +kernel
/-- Every thread of the front records e = g[1] and is BLOCKED.BAR; its release is on its way (R133, R148). -/
theorem test_bar : (after (.bar {} 1) (coded id)).map (fun w => (w.th 5).st) = some (.bar 1 0) ∧
    (next (.bar {} 1) (coded id)).entries.length = 32 := by decide +kernel
/-- All the threads have arrived, and their releases are complete: they go on, in the next generation. -/
theorem test_bar_release : let s := (next (.bar {} 1) (coded id))
    let t := (({ s with entries := [] } : State).tryBar Image.team 1)
    (t.warp? Image.warp).map (fun w => ((w.th 5).st, (w.th 5).pc)) = some (.ready, 8) ∧ Table.get 0 (t.team Image.team).bars 1 = 1 := by decide +kernel
theorem test_sleep : pcs (.sleep {} (.imm10 0)) (coded id) = some [8, 8] ∧
    (after (.sleep { p := 1 } (.imm10 200)) (coded id)).map (fun w => (w.th 5).st) = some (.sleep 200 8) := by decide +kernel
theorem test_swr : (after (.swr { p := 1 } (.v 3) 0x12) (coded (fun w => w.setV 5 3 0x12345))).map (fun w => ((w.th 5).lvmem, (w.th 4).lvmem)) =
    some (0x2345, 0) := by decide +kernel
theorem test_srd : out (.srd {} (.v 7) 0x10) (coded (fun w => w.modTh 5 (fun t => { t with fpf := 1 }))) 7 = some 1 := by decide +kernel
/-- TRAP 5: code 5, opcode 0x12 and cause 18; the active lanes; the return point is pc + 8 (R142, Table 26.1). -/
theorem test_trap : (after (.trap { p := 1 } 5) (coded id)).map (fun w => (w.trapcause, w.traplanes, w.trap.isSome)) =
    some (0x00051212, 0x20, true) := by decide +kernel
theorem test_tret_idle : (after (.tret {}) (coded id)).map (fun w => (w.trapcause, w.traplanes)) = some (0x1302, 0xFFFFFFFF) := by decide +kernel
theorem test_bkpt : pcs (.bkpt {} 5) (coded id) = some [8, 8] := by decide +kernel
/-- min(Ba[1:0], c) with c = 0. -/
theorem test_setprio : (after (.setprio {} (.imm10 1)) (coded id)).map (·.prio) = some 0 ∧
    (after (.setprio {} (.imm10 2)) (coded (fun w => { w with prioCap := 3 }))).map (·.prio) = some 2 := by decide +kernel

/-- A store's entry: 50 and 60, of 4 bytes, in lanes' order; STRL's carries its release. -/
def stored (i : Instr) : List (Nat × Nat × Nat × Option Scope) := (next i memory).entries.map (fun e => (e.lane, e.len, e.val, e.rel))
theorem test_st : stored (.st { d := .v 1, a := .v 30, ty := .u32 } .normal 1) = [(5, 4, 50, none), (6, 4, 60, none)] := by decide +kernel
theorem test_strl : stored (.strl { d := .v 1, a := .v 30, ty := .u32 } .dev) = [(5, 4, 50, some .dev), (6, 4, 60, some .dev)] := by decide +kernel
/-- The word's address goes to one load per byte and lane; an address that is not a multiple of 4 is MISALIGNED (cause 4, OP 0x4A). -/
theorem test_ld : (next (.ld { d := .v 7, a := .v 30, ty := .u32 } .normal 1) memory).loads.length = 8 := by decide +kernel
theorem test_ld_misaligned : (after (.ld { d := .v 7, a := .v 30, off := .imm10 2, ty := .u32 } .normal 1) memory).map
    (fun w => (w.trapcause, w.traplanes)) = some (0x4A04, 0x60) := by decide +kernel
/-- A page that is not mapped: the store waits for the walk, and then ACCESS_VIOLATION (cause 5). -/
def farStore : Instr := .st { d := .v 1, a := .v 30, off := .imm32 0x100000, ty := .u32 } .normal 1
theorem test_st_walks : (after farStore memory).map (fun w => (w.missing, w.wait)) = some ([0x400F8000], some .tlbWait) := by decide +kernel
theorem test_st_unmapped : (after farStore (coded (fun _ => { memWarp with walked := [(0x400F8000, .unmapped)] }))).map
    (fun w => (w.trapcause, w.traplanes)) = some (0x4B05, 0x60) := by decide +kernel
/-- RED writes no register and starts no flight; ATOM's flight is to write V20. -/
theorem test_atomics_issue :
    (next (.red { a := .v 30, b := .v 12, off := some 4, ty := .i32, use := .com, scope := .dev } .add) memory).entries.map (·.val) = [7, 7] ∧
    ((after (.atom { d := .v 20, a := .v 30, b := .v 12, ty := .u32 } .inc) memory).map (fun w => w.flights.length)) = some 1 := by decide +kernel
/-- INC with operand 7 on the word 7 wraps to 0; rn32(2^24 + 4) (R249, R251). -/
theorem test_atom_values : atomApply .inc .u32 7 7 = 0 ∧ atomApply .add .f32 0x4B800000 0x40800000 = 0x4B800002 := by decide +kernel
theorem test_cpclose : (after (.cpclose {} (.w 4) 0) (coded id)).map (·.cpnum) = some 1 := by decide +kernel

/-- Table 14.7: in lane 6 MCHOL raises SG (bit 5) and leaves 1, +0 / 2, NaN. -/
def failing : Warp := { demoWarp 0x60 ([5, 6].flatMap (fun l => [(l, 100, if l = 5 then 0x40800000 else 0x3F800000), (l, 101, 0x40000000),
    (l, 102, 0x40000000), (l, 103, if l = 5 then 0x40A00000 else 0x3F800000)])) with
  fpctl := 0x20, hregs := [(81, 0x8011), (83, 0x8011), (97, 0x8011), (99, 0x8011)] }
def mchol : Instr := .mchol { d := .v 110, a := .v 100, hd := 3, ha := 1 }
theorem test_mchol_fails : (List.range 4).map (fun k => due mchol (stateOf failing) 6 (110 + k)) =
      [some 0x3F800000, some 0, some 0x40000000, some 0x7FC00000] ∧
    dueFlags mchol (stateOf failing) 6 = some 0x20 ∧ dueFlags mchol (stateOf failing) 5 = some 0 := by decide +kernel
/-- Its completion, with every register written, takes SINGULAR: code 0x020, OP 0xA0, cause 9, lane 6. -/
theorem test_singular : (after (.matrixWriteback 3 4) ((next mchol (stateOf failing)).modCore 0 (fun c => { c with cyc := 1000000 }))).map
    (fun w => (w.trapcause, w.traplanes, w.getV 5 113, (w.th 6).fpf)) = some (0x0020A009, 0x40, 0x40000000, 0x20) := by decide +kernel

/-- R93, R95: one step of the machine runs the instruction at the PC; words that are no instruction trap (causes 1 and 2). -/
def stepped (nbits w : Nat) : Option (Nat × Word) :=
  match step ((State.reset.withFetchWord nbits w).putWarp Image.warp { Image.warpOf with tvec := 0x20 }) with
  | .next t => (t.warp? Image.warp).map (fun w => ((w.th 0).pc, w.trapcause))
  | _ => none
theorem test_step_nop : stepped 64 0x801C000000000000 = some (8, 0) := by decide +kernel
theorem test_step_illegal : stepped 64 0x001C000000000000 = some (0x20, 1) ∧ stepped 64 0x831C000000000000 = some (0x20, 0x1801) := by decide +kernel

/-! ## Witnesses: for each statement with hypotheses, a state and operands that meet them -/

/-- The hypotheses that the statements of forms share, for the registers `need` and the sources `os`, with some lane active. -/
def Meets (i : Instr) (s : State) (w : Warp) (front : Mask) (need : Nat) (os : List Opnd) : Prop :=
  i.wf = true ∧ s.Acts w front ∧
    (let c := s.at_ w front i
     c.active ≠ 0 ∧ c.Fits need ∧ c.Pops os ∧ ∀ fl, c.Quiet fl)

def meets (i : Instr) (s : State) (w : Warp) (front : Mask) (need : Nat) (os : List Opnd) : Bool :=
  let c := s.at_ w front i
  i.wf && decide (s.warp? s.cur = some w) && decide (w.cur = some front) && decide (c.active ≠ 0) && decide (need ≤ (c.s.kernOf c.w).regs)
    && (c.popCheck os).isNone && decide (w.fpctl = 0)

theorem meets_sound {i : Instr} {s : State} {w : Warp} {front : Mask} {need : Nat} {os : List Opnd}
    (h : meets i s w front need os = true) : Meets i s w front need os := by
  simp only [meets, Bool.and_eq_true, decide_eq_true_eq, Option.isNone_iff_eq_none] at h
  obtain ⟨⟨⟨⟨⟨⟨h1, h2⟩, h3⟩, h4⟩, h5⟩, h6⟩, h7⟩ := h
  refine ⟨h1, ⟨h2, h3⟩, h4, h5, h6, fun fl l _ => ?_⟩
  have : (s.at_ w front i).w.fpctl = 0 := h7
  simp [this]

/-- The same of every form in a list, each with its registers and its sources. -/
theorem meets_all {s : State} {w : Warp} {front : Mask} {l : List (Instr × Nat × List Opnd)}
    (h : l.all (fun e => meets e.1 s w front e.2.1 e.2.2) = true) : ∀ e ∈ l, Meets e.1 s w front e.2.1 e.2.2 :=
  fun e he => meets_sound (List.all_eq_true.mp h e he)

def low : FormA := two .i32 10 11
def long : FormA := two .u64 10 14
def third : FormA3 := { d := .v 20, a := .v 10, b := .opnd (.v 11), c := .v 12, ty := .i32 }

theorem witness_IntegerArithmetic :
    (∀ e ∈ [Instr.iadd low, .isub low, .imul low, .imulh low, .imin low, .imax low, .iabs { low with b := .opnd .none }].map
      (fun i => (i, low.room false false false, low.srcs)), Meets e.1 ints intsWarp 0x20 e.2.1 e.2.2) ∧
    (∀ e ∈ [(Instr.iadd long, long.room true true true, long.srcs)], Meets e.1 ints intsWarp 0x20 e.2.1 e.2.2) :=
  ⟨meets_all (by decide +kernel), meets_all (by decide +kernel)⟩

theorem witness_MultiplyAddAndCarry :
    ∀ e ∈ [(Instr.imad third, third.room false false false false, third.srcs), (.imadw third, third.room true false false true, third.srcs),
      (.iaddc { low with ty := .u32 } 1 3 false false, low.room false false false, low.srcs)], Meets e.1 ints intsWarp 0x20 e.2.1 e.2.2 :=
  meets_all (by decide +kernel)

theorem witness_LogicAndShifts :
    ∀ e ∈ [Instr.and low, .or low, .xor low, .andn low, .not (one .i32 10), .shl low, .shr low, .sar low, .rotl low, .popc (one .i32 10),
      .clz (one .i32 10), .ctz (one .i32 10), .brev (one .i32 10), .fsh third true, .fsh third false].map
        (fun i => (i, third.room false false false false, third.srcs)), Meets e.1 ints intsWarp 0x20 e.2.1 e.2.2 :=
  meets_all (by decide +kernel)

theorem witness_BitFields :
    ∀ e ∈ [(Instr.bfx low, low.room false false false, low.srcs), (.bfi third, third.room false false false false, third.srcs),
      (.bperm third, third.room false false false false, third.srcs)], Meets e.1 ints intsWarp 0x20 e.2.1 e.2.2 :=
  meets_all (by decide +kernel)

/-- The shifts 0 and 7, at the ends of the range. -/
theorem witness_LoadEffectiveAddress :
    let f : FormA3 := { d := .v 20, a := .v 14, b := .opnd (.v 12) }
    ∀ e ∈ [(Instr.lea f 0 false, f.room true true false false, f.srcs), (.lea f 7 true, f.room true true false false, f.srcs)],
      Meets e.1 ints intsWarp 0x20 e.2.1 e.2.2 := meets_all (by decide +kernel)

/-- WMOV in each mode, and one whose guard no lane passes. -/
theorem witness_MovesOfValuesAndMasks :
    (∀ e ∈ [(Instr.mov (one .i8 10) .copy, 21, [Opnd.v 10, .none]), (.mov (one .u64 10) .copy, 22, [.v 10, .none]), (.mov { d := .v 20 } .packP, 21, [.none, .none]),
      (.movi { d := .v 20, b := .imm10 3 }, 21, [.none, .none]), (.sel low 1 false, 21, low.srcs), (.rdfl { d := .w 4, a := .v 1, ty := .u32 }, 2, [.v 1, .none]),
      (.wmov { d := .w 6 } 2 .fromJ, 0, []), (.wmov { d := .w 6 } 0 .front, 0, []), (.wmov { d := .w 6 } 0 .active, 0, []),
      (.wmov { a := .w 6 } 7 .toJ, 0, [])], Meets e.1 ints intsWarp 0x20 e.2.1 e.2.2) ∧
    (let i := Instr.wmov { hdr := { p := 2 }, a := .w 6 } 2 .toJ
     i.wf = true ∧ ints.Acts intsWarp 0x20 ∧ (ints.at_ intsWarp 0x20 i).active = 0) :=
  ⟨meets_all (by decide +kernel), by decide +kernel, ⟨by decide +kernel, rfl⟩, by decide +kernel⟩

theorem witness_Predicates :
    ∀ e ∈ [(Instr.icmp { d := 3, a := .v 11, b := .opnd (.v 12), ty := .i32, cond := .lt }, 13, [Opnd.v 11, .v 12]), (.plop {} 3 1 2 7 (.imm10 0xE8), 0, []),
      (.pmov { d := 4, a := .v 10, b := .imm10 4 } false, 11, [.v 10, .none]), (.pmov { a := .v 12 } true, 13, [.v 12])],
      Meets e.1 ints intsWarp 0x20 e.2.1 e.2.2 := meets_all (by decide +kernel)

/-- Lane 5 is alive, and lane 26 alone sends to it. -/
theorem witness_LaneQueriesAndSend :
    (∀ e ∈ [Instr.lpick (imm .u32 1 1) 4 0 .lane, .lpick (imm .u32 1 1) 4 5 .below, .lpick (imm .u32 1 1) 4 5 .above, .lpick (imm .u32 1 1) 4 5 .flip,
      .lpoll { d := .v 20 } 1 2 .mask, .lpoll { d := .v 20 } 1 2 .some, .lpoll { d := .v 20 } 1 2 .every, .lpoll { d := .v 20 } 1 2 .same,
      .lpeer (one .u32 3) 2, .lsend (two .u32 1 2) 2].map (fun i => (i, 21, [Opnd.v 1, .v 2])), Meets e.1 wide wideWarp Mask.all e.2.1 e.2.2) ∧
    (let c := wide.at_ wideWarp Mask.all (.lsend (two .u32 1 2) 2)
     (wideWarp.th 5).st ≠ .exited ∧ (wideWarp.th 5).st ≠ .deposited ∧
      c.active.lanes.filter (fun l => c.rdB [.v 1, .v 2] 1 (.opnd (.v 2)) .u32 false l % 32 == 5) = [26]) :=
  ⟨meets_all (by decide +kernel), by decide +kernel⟩

theorem witness_Folds :
    ∀ e ∈ [Instr.lfold (one .i32 1) .add, .lfold (one .f32 1) .max, .scan (one .u32 1) .xor false false 0, .scan (one .i32 1) .min true true 1].map
      (fun i => (i, 21, [Opnd.v 1])), Meets e.1 wide wideWarp Mask.all e.2.1 e.2.2 := meets_all (by decide +kernel)

/-- 1.5 in FP32, the least number of E2M1 and of FP64; 3 halves rounded, and 2^24 + 1, which is not a value of FP32; 2049, which lies
between two values of FP16; 2^128, which overflows. -/
theorem witness_RoundingLaws :
    ((fmt32.decode 0x3FC00000).finite = true ∧ (fmtE2.decode 1).finite = true ∧ (fmt64.decode 1).finite = true) ∧
    (∀ m ∈ [3, 16777217], m ≠ 0 ∧ (fmt32.round .rn 0 false false false m 0 false).flags &&& flOF = 0) ∧
    (fmt32.round .rn 0 false false false 3 0 false).flags &&& flNX = 0 ∧ (fmt32.round .rn 0 false false false 16777217 0 false).flags &&& flNX ≠ 0 ∧
    (fmt16.round .ru 0 false false false 2049 0 false).flags &&& flOF = 0 ∧
    (fmt16.decode (fmt16.round .rz 0 false false false 2049 0 false).bits).rat ≠ (FV.num false 2049 0).rat ∧
    (∀ f ∈ formats, ∀ sat ∈ [true, false], (f.round .rn 0 false sat true 1 1024 false).flags &&& flOF ≠ 0) := by
  decide +kernel

/-- 1.5, −1.5 and 0.25; 1.5 × −0.5 + 0.75; the two infinities; a signalling and a quiet NaN. -/
theorem witness_ExactArithmetic :
    let x := FV.num false 3 (-1)
    let y := FV.num true 3 (-1)
    x.finite = true ∧ y.finite = true ∧ (FV.num false 1 (-2)).finite = true ∧ x.rat + y.rat = 0 ∧ x.neg? ≠ y.neg? ∧
      (let z := FV.num true 1 (-1); let c := FV.num false 3 (-2); x.rat * z.rat + c.rat = 0 ∧ (x.neg? != z.neg?) ≠ c.neg?) ∧
      (FV.inf true).isInf = true ∧ (FV.zero true).isZero = true ∧
      (FV.nan true).isNan = true ∧ (FV.nan true).isSig = true ∧ (FV.nan false).isSig = false := by decide +kernel

theorem witness_FloatArithmetic :
    ∀ e ∈ [(Instr.fadd (two .f32 4 5), 21, [Opnd.v 4, .v 5]), (.fmul (two .f32 4 5), 21, [.v 4, .v 5]), (.dadd (two .f64 40 42), 44, [.v 40, .v 42]),
      (.dmul (two .f64 40 42), 44, [.v 40, .v 42]), (.ffma (three .f32 4 5 6), 21, [.v 4, .v 5, .v 6]),
      (.dfma (three .f64 40 42 40), 44, [.v 40, .v 42, .v 40])], Meets e.1 floats floatsWarp 0x20 e.2.1 e.2.2 := meets_all (by decide +kernel)

theorem witness_FloatSelectAndScale :
    ∀ e ∈ [(Instr.fmin (two .f32 4 5), 21, [Opnd.v 4, .v 5]), (.fmax (two .f32 4 9), 21, [.v 4, .v 9]), (.dmin (two .f64 40 42), 44, [.v 40, .v 42]),
      (.dmax (two .f64 40 42), 44, [.v 40, .v 42]), (.frnd (one .f32 21) .near, 22, [.v 21, .none]), (.frnd (one .f64 40) .floor, 42, [.v 40, .none]),
      (.fscl (imm .f32 4 3), 21, [.v 4, .none])], Meets e.1 floats floatsWarp 0x20 e.2.1 e.2.2 := meets_all (by decide +kernel)

theorem witness_FloatCompares :
    ∀ e ∈ [(Instr.fcmp { d := 3, a := .v 5, b := .opnd (.v 4), ty := .f32, cond := .neu }, 6, [Opnd.v 5, .v 4]),
      (.dcmp { d := 3, a := .v 42, b := .opnd (.v 40), ty := .f64, cond := .num, comb := .xor, cp := 1 }, 44, [.v 42, .v 40]),
      (.fclass { d := 3, a := .v 5, b := .imm10 8, ty := .bf16 }, 6, [.v 5, .none])], Meets e.1 floats floatsWarp 0x20 e.2.1 e.2.2 :=
  meets_all (by decide +kernel)

theorem witness_PackedFloat :
    ∀ e ∈ [Instr.duoadd { two .f16 8 8 with rnd := .sr }, .duomul (two .bf16 8 8), .duofma (three .f16 8 8 8)].map (fun i => (i, 21, [Opnd.v 8, .v 8, .v 8])),
      Meets e.1 floats floatsWarp 0x20 e.2.1 e.2.2 := meets_all (by decide +kernel)

/-- 1.5 / −2; a zero divisor; 0 / 0; a finite value over ∞; the roots of 0, of −2 and of 2 toward zero. -/
theorem witness_QuotientsAndRoots :
    let x := fmt32.decode 0x3FC00000
    let y := fmt32.decode 0xC0000000
    x.finite = true ∧ y.finite = true ∧ x.isZero = false ∧ y.isZero = false ∧ (fmt32.div .rn false x y).flags &&& flOF = 0 ∧
      (fmt32.decode 0x80000000).isZero = true ∧ (fmt32.decode 0x7F800000).isInf = true ∧ y.neg? = true ∧ x.neg? = false := by decide +kernel

/-- A NaN that signals, the infinities, the zeros, −2; 3; the ends of the ranges in which 2^a, log2 a and 1/√a are exact (R180). -/
theorem witness_SpecialFunctions :
    (FV.nan true).isNan = true ∧ (FV.nan true).isSig = true ∧ (FV.inf true).isInf = true ∧ (FV.inf true).neg? = true ∧ (FV.inf false).neg? = false ∧
    (FV.zero true).isZero = true ∧ (let x := fmt32.decode 0xC0000000; x.isNan = false ∧ x.isZero = false ∧ x.neg? = true) ∧
    (let x := fmt32.decode 0x40400000; x.finite = true ∧ x.isZero = false ∧ (special .rcp false x).flags &&& flOF = 0) ∧
    (∀ e ∈ [(0xC2FC0000, (-126 : Int)), (0x42FE0000, 127)], (fmt32.decode e.1).finite = true ∧ (fmt32.decode e.1).rat = e.2 ∧ (fmt32.decode e.1).isZero = false) ∧
    (fmt32.decode 1).rat = 2 ^ (-149 : Int) ∧ (fmt32.decode 0x7F000000).rat = 2 ^ (127 : Int) ∧
    (fmt32.decode 2).rat = 2 ^ (2 * -74 : Int) ∧ (fmt32.decode 0x7E800000).rat = 2 ^ (2 * 63 : Int) := by decide +kernel

theorem witness_DivideAndSpecialForms :
    ∀ e ∈ [(Instr.fdiv (bTwo .f32 4 5), 21, [Opnd.v 4, .v 5]), (.fsqrt (bOne .f32 6), 21, [.v 6, .none]), (.ddiv (bTwo .f64 42 40), 44, [.v 42, .v 40]),
      (.dsqrt (bOne .f64 40), 42, [.v 40, .none]), (.rcp (bOne .f32 5), 21, [.v 5, .none]), (.rsq (bOne .f32 6), 21, [.v 6, .none]),
      (.exp2 (bOne .f32 5), 21, [.v 5, .none]), (.log2 (bOne .f32 6), 21, [.v 6, .none]), (.sin (bOne .f32 4), 21, [.v 4, .none]),
      (.cos (bOne .f32 4), 21, [.v 4, .none]), (.tanh (bOne .f32 4), 21, [.v 4, .none])], Meets e.1 floats floatsWarp 0x20 e.2.1 e.2.2 :=
  meets_all (by decide +kernel)

/-- A check that all the lanes to do pass gives the places where their elements stand. -/
def Chk.good : Chk → Bool
  | .ok _ => true
  | _ => false
theorem passed_of {c : Ctx} {chk : Nat → Chk} (h : c.todo.all (fun l => Chk.good (chk l)) = true) : ∃ loc, c.Passed chk loc := by
  refine ⟨fun l => match chk l with | .ok p => p | _ => 0, fun l hl => ?_⟩
  have := List.all_eq_true.mp h l hl
  cases hc : chk l <;> simp_all [Chk.good]

/-- An unaligned address and an aligned one; an address at the limit of the virtual space; the team's span group. -/
theorem witness_AddressesAndChecks : 2 % 4 ≠ 0 ∧ 2 ^ 56 % 4 = 0 ∧ 2 ^ 56 ≤ 2 ^ 56 ∧ memory.span? (memory.teamOf memWarp).span = some Image.spanOf := by
  decide +kernel

def load_ (a n : Nat) : FormM := { d := .v n, a := .v a, ty := .u32 }
def elem (sp : Where) (acc : Acc) (i : Instr) (a : Nat) (l : Nat) : Chk :=
  memory.check memWarp sp acc l ((memory.at_ memWarp 0x60 i).address sp (.v a) (.imm10 0) l) 4 4

theorem witness_LoadsAndPrefetch :
    (∀ e ∈ [(Instr.ld (load_ 30 7) .normal 1, 32, []), (.lds (load_ 8 7) 1, 9, []), (.ldc (load_ 8 7) 1, 9, []), (.ldl (load_ 8 7) 1, 9, []),
      (.pref { load_ 30 7 with d := .none, ty := .i32 } true, 32, []), (.ldw { d := .w 4, a := .w 2, ty := .u32 } .normal 1, 0, [])],
      Meets e.1 memory memWarp 0x60 e.2.1 e.2.2) ∧ memory.watched memWarp = false ∧
    (∀ e ∈ [(Where.global, Instr.ld (load_ 30 7) .normal 1, 30), (.scratch, .lds (load_ 8 7) 1, 8), (.window, .ldc (load_ 8 7) 1, 8),
      (.slice, .ldl (load_ 8 7) 1, 8)], ∃ loc, (memory.at_ memWarp 0x60 e.2.1).Passed (elem e.1 .rd e.2.1 e.2.2) loc) ∧
    (let i := Instr.ldw { d := .w 4, a := .w 2, ty := .u32 } .normal 1
     (memory.at_ memWarp 0x60 i).active.lowest = some 5 ∧
       Chk.good (memory.check memWarp .global .rd 5 ((memory.at_ memWarp 0x60 i).address .global (.w 2) (.imm10 0) 5) 4 4) = true) := by
  refine ⟨meets_all (by decide +kernel), by decide +kernel, fun e he => passed_of ?_, by decide +kernel⟩
  revert e
  decide +kernel

theorem witness_Stores :
    (∀ e ∈ [(Instr.st (load_ 30 1) .normal 1, 32, [Opnd.v 1]), (.sts (load_ 8 1) 1, 9, [.v 1]), (.stc (load_ 8 1) 1, 9, [.v 1]), (.stl (load_ 8 1) 1, 9, [.v 1]),
      (.strl (load_ 30 1) .dev, 32, [.v 1])], Meets e.1 memory memWarp 0x60 e.2.1 e.2.2) ∧ memory.watched memWarp = false ∧
    (∀ e ∈ [(Where.global, Instr.st (load_ 30 1) .normal 1, 30), (.scratch, .sts (load_ 8 1) 1, 8), (.window, .stc (load_ 8 1) 1, 8),
      (.slice, .stl (load_ 8 1) 1, 8), (.global, .strl (load_ 30 1) .dev, 30)],
      ∃ loc, (memory.at_ memWarp 0x60 e.2.1).Passed (elem e.1 .wr e.2.1 e.2.2) loc) := by
  refine ⟨meets_all (by decide +kernel), by decide +kernel, fun e he => passed_of ?_⟩
  revert e
  decide +kernel

/-- The same machine with its grid in deterministic mode (R246). -/
def detMemory : State := { memory with mod := { memory.mod with
  grids := [(Image.grid, { Image.gridOf with launch := { Image.gridOf.launch with det := true } })] } }

theorem witness_AcquiringLoadsAndFences :
    (∀ e ∈ [(Instr.lda (load_ 30 7) .dev, 32, []), (.acqr (load_ 30 7) .dev, 32, []), (.fence {} .clus, 0, [])],
      Meets e.1 memory memWarp 0x60 e.2.1 e.2.2) ∧ (memory.gridOf memWarp).launch.det = false ∧
    (∀ e ∈ [(Where.global, Instr.lda (load_ 30 7) .dev, 30), (.global, .acqr (load_ 30 7) .dev, 30)],
      ∃ loc, (memory.at_ memWarp 0x60 e.2.1).Passed (elem e.1 .rd e.2.1 e.2.2) loc) ∧
    (∀ e ∈ [(Instr.lda (load_ 30 7) .clus, 32, []), (.acqr (load_ 30 7) .clus, 32, [])], Meets e.1 detMemory memWarp 0x60 e.2.1 e.2.2) ∧
    (detMemory.gridOf memWarp).launch.det = true := by
  refine ⟨meets_all (by decide +kernel), by decide +kernel, fun e he => passed_of ?_, meets_all (by decide +kernel), by decide +kernel⟩
  revert e
  decide +kernel

def atomic_ (d : Opnd) : FormAt := { d := d, a := .v 30, b := .v 12, off := some 0, ty := .u32 }

theorem witness_Atomics :
    (∀ e ∈ [(Instr.atom (atomic_ (.v 20)) .add, 32, [Opnd.v 12]), (.atomc (atomic_ (.v 20)) (.v 1), 32, [.v 12, .v 1]), (.red (atomic_ .none) .max, 32, [.v 12])],
      Meets e.1 memory memWarp 0x60 e.2.1 e.2.2) ∧ memory.watched memWarp = false ∧ (memory.gridOf memWarp).launch.det = false ∧
    (∀ e ∈ [(true, Instr.atom (atomic_ (.v 20)) .add), (true, .atomc (atomic_ (.v 20)) (.v 1)), (false, .red (atomic_ .none) .max)],
      ∃ loc, (memory.at_ memWarp 0x60 e.2).Passed (elem .global (.at e.1) e.2 30) loc) := by
  refine ⟨meets_all (by decide +kernel), by decide +kernel, by decide +kernel, fun e he => passed_of ?_⟩
  revert e
  decide +kernel

/-- 32 bits and 64, at the ends of the range; two lanes; a floating-point sum. -/
theorem witness_AtomicValues : 0x7FC12345 < 2 ^ NumTy.f32.bits ∧ (fmt32.decode 0x7FC12345).isNan = true ∧ NumTy.u32 ∈ Sys2Proof.ints ∧ NumTy.i64 ∈ Sys2Proof.ints ∧ 2 ^ 32 - 1 < 2 ^ NumTy.u32.bits ∧ 0 < 2 ^ NumTy.i64.bits ∧ 1 < [7, 7].length ∧
    NumTy.f32.isFloat = true ∧ NumTy.u32.isFloat = false := by decide

/-- Lane 5 at an offset that is not a multiple of 4, lane 6 at one that is: lane 6 is performed and lane 5 traps. -/
def halfBad : Warp := memWarp.setV 5 8 65
def halfMemory : State := coded (fun _ => halfBad)
theorem witness_LoadsTrap :
    ∀ e ∈ [(Where.scratch, Instr.lds (load_ 8 7) 1), (.window, .ldc (load_ 8 7) 1), (.slice, .ldl (load_ 8 7) 1)],
      Meets e.2 halfMemory halfBad 0x60 9 [] ∧
      (let c := halfMemory.at_ halfBad 0x60 e.2
       let chk := fun l => halfMemory.check halfBad e.1 .rd l (c.address e.1 (.v 8) (.imm10 0) l) 4 4
       firstCause (c.todo.map (fun l => (l, chk l))) = some (.misaligned, [5]) ∧
        (c.todo.filterMap (fun l => match chk l with | .ok p => some (l, p) | _ => none)).map (·.1) = [6]) := by
  have h : [(Where.scratch, Instr.lds (load_ 8 7) 1), (.window, .ldc (load_ 8 7) 1), (.slice, .ldl (load_ 8 7) 1)].all
    (fun e => meets e.2 halfMemory halfBad 0x60 9 []) = true := by decide +kernel
  refine fun e he => ⟨meets_sound (List.all_eq_true.mp h e he), ?_⟩
  revert e
  decide +kernel

/-- Encodings and integers at the ends of their ranges. -/
theorem witness_ChainIsDirect : fmtE4 ∈ [fmt16, fmtBf, fmtE5, fmtE4] ∧ Rnd.ro ≠ .sr ∧ 2 ^ 64 - 1 < 2 ^ 64 ∧ -(2 ^ 63 : Int) ≤ -(2 ^ 63) ∧
    (2 ^ 64 - 1 : Int) < 2 ^ 64 := by decide

/-- −2.5, an infinity and a NaN of FP32; CVT and CVTBLK, with .SR too; and a guard that no lane passes. -/
theorem witness_Conversions :
    NumTy.i32.isFloat = false ∧ NumTy.f32.isFloat = true ∧ (fmt32.decode 0xC0200000).finite = true ∧ (fmt32.decode 0xFF800000).isInf = true ∧
    (fmt32.decode 0x7FC00000).isNan = true ∧
    (∀ e ∈ [(Instr.cvt (bOne .bf16 4) .f32, 21, [Opnd.v 4]), (.cvt { bOne .e4m3 42 with rnd := .sr } .f64, 44, [.v 42]),
      (.cvtblk { bOne .nx4 4 with rnd := .sr } .f32, 21, [.v 4]), (.cvtblk (bOne .nx8 42) .f64, 44, [.v 42])],
      Meets e.1 floats floatsWarp 0x20 e.2.1 e.2.2) ∧
    (floats.at_ floatsWarp 0x20 (.cvt { bOne .bf16 4 with hdr := { p := 2 } } .f32)).active = 0 := by
  and_intros <;> first | decide +kernel | exact meets_all (by decide +kernel)

/-- The core's current bank belongs to context 1, in the one state and not in the other. -/
def banked : State := floats.modCore 0 (fun c => { c with current := { c.current with tag := 1 } })
theorem witness_ActivationTableAndSeed :
    (∀ e ∈ [(Instr.luta (bOne .f32 4), 21, [Opnd.v 4]), (.lutld { a := .zero, b := .opnd (.v 41), ty := .i32 }, 42, [.zero, .v 41]), (.lutsync { ty := .i32 }, 0, []),
      (.srseed { a := .v 40, ty := .i32 } false, 42, [.v 40]), (.srseed { a := .zero, ty := .i32 } true, 0, [.zero])],
      Meets e.1 banked floatsWarp 0x20 e.2.1 e.2.2) ∧
    (banked.core 0).current.tag = banked.ctxOf floatsWarp ∧ (banked.core 0).current.tag ≠ 0 ∧ (floats.core 0).current.tag = 0 ∧
    (let i := Instr.lutld { a := .zero, b := .opnd (.v 40), ty := .i32 }
     let c := floats.at_ floatsWarp 0x20 i
     let off := (c.rd [.zero, .v 40] 0 false 5 + c.rdB [.zero, .v 40] 1 (.opnd (.v 40)) .u32 false 5) % 2 ^ 32
     c.active.lowest = some 5 ∧ off % 16 = 0 ∧ off + 2064 ≤ (floats.kernOf floatsWarp).scratch ∧
       floats.latchedScr floatsWarp.core ((floats.scratchOf floatsWarp).parts off 2064) = false) :=
  ⟨meets_all (by decide +kernel), by decide +kernel, by decide +kernel, by decide +kernel, by decide +kernel⟩

/-- A warp with no thread in a JOIN, by its table. -/
theorem no_join {w : Warp} (h : w.threads.all (fun e => match e.2.st with | .join _ => false | _ => true) = true) :
    ∀ l n, (w.th l).st ≠ .join n := by
  intro l n
  have key : ∀ (m : SMap Thread), m.all (fun e => match e.2.st with | .join _ => false | _ => true) = true →
      (Table.get ({} : Thread) m l).st ≠ .join n := by
    intro m
    induction m with
    | nil => intro _; simp [Table.get, Table.find]
    | cons e r ih =>
      intro hm
      obtain ⟨k, v⟩ := e
      simp only [List.all_cons, Bool.and_eq_true] at hm
      by_cases hk : l = k
      · simp only [Table.get, Table.find, hk, if_true, Option.getD_some]
        intro hv
        simp [hv] at hm
      · simpa [Table.get, Table.find, hk] using ih hm.2
  exact key _ h

def targets : Warp := codedWarp.setV 5 9 48
def headAt (t : Int) : Option Bool := match (coded (fun _ => targets)).isHead targets t with
  | .ok b => some b
  | _ => none
/-- Lane 5 alone takes the branch, to head words at 40 and 48; the last word of the code is a head, and what lies past it is none. -/
theorem witness_Branches :
    (∀ e ∈ [(Instr.bra { p := 1 } 5 (some 2), 0, []), (.brx { p := 1 } (.v 9) none, 10, []), (.call { p := 1 } (.v 40) 5 (some 7), 41, []),
      (.callx { p := 1 } (.v 40) (.v 9) none, 41, []), (.ret { p := 1 } (.v 9) (some 0), 10, [])],
      Meets e.1 (coded (fun _ => targets)) targets Mask.all e.2.1 e.2.2 ∧ ((coded (fun _ => targets)).at_ targets Mask.all e.1).active.lanes = [5]) ∧
    (∀ t ∈ [(0 : Int), 40, 48, 56], headAt t = some true) ∧ (∀ t ∈ [(-8 : Int), 4, 64], headAt t = some false) := by
  have h : [(Instr.bra { p := 1 } 5 (some 2), 0, []), (.brx { p := 1 } (.v 9) none, 10, []), (.call { p := 1 } (.v 40) 5 (some 7), 41, []),
      (.callx { p := 1 } (.v 40) (.v 9) none, 41, []), (.ret { p := 1 } (.v 9) (some 0), 10, [])].all (fun e =>
        meets e.1 (coded (fun _ => targets)) targets Mask.all e.2.1 e.2.2 &&
          decide (((coded (fun _ => targets)).at_ targets Mask.all e.1).active.lanes = [5])) = true := by decide +kernel
  refine ⟨fun e he => ?_, by decide +kernel, by decide +kernel⟩
  have h' := List.all_eq_true.mp h e he
  simp only [Bool.and_eq_true, decide_eq_true_eq] at h'
  exact ⟨meets_sound h'.1, h'.2⟩

/-- A front at one JOIN; a warp whose lane 5 alone is ready, with the rotation lane at it or above it; and one with none ready. -/
theorem witness_NopYieldJoinAndFronts :
    (∀ e ∈ [(Instr.nop {}, 0, []), (.yield {}, 0, []), (.join {} 0, 0, []), (.join {} 7, 0, [])], Meets e.1 ints intsWarp 0x20 e.2.1 e.2.2) ∧
    (∀ l ∈ (0x20 : Mask).lanes, (intsWarp.th l).pc = 0 ∧ (intsWarp.th l).st = .ready) ∧ intsWarp.readyMask = 0x20 ∧
    (intsWarp.rot ≤ 5 ∧ 5 < ({ intsWarp with rot := 6 } : Warp).rot) ∧ (intsWarp.setTh 5 { st := .exited }).readyMask = 0 ∧
    (∀ b ∈ [true, false], ({ intsWarp with saveDue := [.child], det := b } : Warp).readyMask = 0x20) :=
  ⟨meets_all (by decide +kernel), by decide +kernel, by decide +kernel, by decide +kernel, by decide +kernel, by decide +kernel⟩

/-- The threads of the front are ready; the barrier of the coded machine that all have reached, and that of one where none has. -/
def arrived : State := { next (.bar {} 1) (coded id) with entries := [] }
theorem witness_ExitAndBarriers :
    (∀ e ∈ [(Instr.exit {}, 0, []), (.bar {} 3, 0, []), (.barc {}, 0, [])], Meets e.1 ints intsWarp 0x20 e.2.1 e.2.2) ∧ intsWarp.trap = none ∧
    (∀ l ∈ (0x20 : Mask).lanes, (intsWarp.th l).st = .ready) ∧ (ints.gridOf intsWarp).launch.det = false ∧
    Meets (.barc {}) detMemory memWarp 0x60 0 [] ∧ (detMemory.gridOf memWarp).launch.det = true ∧
    arrived.team? Image.team = some Image.teamOf ∧ (∀ k ∈ Image.teamOf.warps, arrived.allAt k .core (isBar 1 0) = true) ∧ Image.teamOf.warps.Nodup ∧
    (arrived.warp? Image.warp).map (fun w => ((w.realTh 5).st, w.resid, w.trap)) = some (.bar 1 0, .resident, none) ∧
    (coded id).allAt Image.warp .core (isBar 1 0) = false := by
  refine ⟨meets_all ?_, ?_, ?_, ?_, meets_sound ?_, ?_, ?_, ?_, ?_, ?_, ?_⟩ <;> decide +kernel

theorem witness_SleepAndCwait :
    (∀ e ∈ [(Instr.sleep {} (.imm10 200), 0, []), (.sleep {} (.opnd (.v 10)), 11, []), (.cwait {} .zero, 0, []), (.cwait {} (.v 10), 11, [])],
      Meets e.1 ints intsWarp 0x20 e.2.1 e.2.2) ∧ intsWarp.trap = none ∧ (∀ l ∈ (0x20 : Mask).lanes, (intsWarp.th l).st = .ready) :=
  ⟨meets_all (by decide +kernel), by decide +kernel, by decide +kernel⟩

/-- The same with satisfied loads of a lane's record of `n` bytes at a location. -/
def withRecord (w : Warp) (l loc n : Nat) (s : State) : State := { s with loads := s.loads ++ (List.range n).map (fun k =>
  { id := 1000 * l + k, for_ := .warp s.cur 0, warp := s.cur, lane := l, core := w.core, loc := loc + k, scope := .core, order := w.order
    val := some (s.peek (loc + k)) }) }

/-- A readable record in lane 5 and lane 6; a grid at the depth 10. -/
def deep : State := { memory with mod := { memory.mod with grids := [(Image.grid, { Image.gridOf with depth := 10 })] } }
theorem witness_Launching :
    let i := Instr.launch {} (.v 20) (.v 30)
    let at_ := memWarp.setV 6 30 0x3FFFF080
    let s := withRecord at_ 6 0x3FFFF080 128 (withRecord at_ 5 0x3FFFF000 128 (coded (fun _ => at_)))
    let c := s.at_ at_ 0x60 i
    Meets i s at_ 0x60 32 [] ∧ c.lanes (.v 20) = [5, 6] ∧ (s.gridOf at_).depth ≠ 10 ∧
    (∀ l ∈ [5, 6], (match s.checkRead at_ l (c.rd [.v 30] 0 true l) 128 with | .ok p => (s.recordBytes s.cur l at_.order p 128).isSome | _ => false) = true) ∧
    s.watched at_ = false ∧ (s.gridOf at_).childq.length + 2 ≤ 64 ∧ s.grid? (s.teamOf at_).grid = some (s.gridOf at_) ∧ s.team? at_.team = some (s.teamOf at_) ∧
    Meets i deep memWarp 0x60 32 [] ∧ (deep.gridOf memWarp).depth = 10 ∧
    (let t := s.putGrid Image.grid { Image.gridOf with childq := List.replicate 63 (9, Image.gridOf.launch) }
     Meets i t at_ 0x60 32 [] ∧ 64 < (t.gridOf at_).childq.length + 2 ∧ (t.gridOf at_).depth ≠ 10 ∧
      ∀ l ∈ [5, 6], (t.checkRead at_ l ((t.at_ at_ 0x60 i).rd [.v 30] 0 true l) 128).loc?.isSome = true) := by
  refine ⟨meets_sound ?_, ?_, ?_, ?_, ?_, ?_, ?_, ?_, meets_sound ?_, ?_, meets_sound ?_, ?_, ?_, ?_⟩ <;> decide +kernel

/-- Kernels with a continuation entry and without; with four payload registers and with none. -/
theorem witness_Regroup :
    Meets (.regroup {} (.v 12) (.v 8) 4) memory memWarp 0x60 13 [] ∧ Meets (.regroup {} (.v 12) .none 0) memory memWarp 0x60 13 [] ∧
    memWarp.trap = none ∧ memWarp.resid = .resident ∧ (∀ l ∈ (0x60 : Mask).lanes, (memWarp.th l).st = .ready) ∧
    (memory.gridOf memWarp).kern.hasCont = true ∧ memory.grid? (memory.teamOf memWarp).grid = some (memory.gridOf memWarp) ∧
    memory.held (clusterOfCore memWarp.core) + 2 ≤ 4096 ∧
    Meets (.regroup {} (.v 12) (.v 8) 4) ints intsWarp 0x20 13 [] ∧ (ints.gridOf intsWarp).kern.hasCont = false := by
  refine ⟨meets_sound ?_, meets_sound ?_, ?_, ?_, ?_, ?_, ?_, ?_, meets_sound ?_, ?_⟩ <;> decide +kernel

/-- A context without an accumulator, and one that has it at 64 KiB. -/
def digested : State := { memory with mod := { memory.mod with contexts := [(Image.ctx, { Image.context with accum := 0x10000 })] } }
theorem witness_TimePriorityDigest :
    (∀ e ∈ [(Instr.tstamp {} (.v 20), 22, []), (.setprio {} (.imm10 1), 0, []), (.dgst {} (.v 8) (.imm10 9) 64, 72, [])],
      Meets e.1 digested memWarp 0x60 e.2.1 e.2.2) ∧ (memory.context (memory.ctxOf memWarp)).accum = 0 ∧
    (let c := digested.at_ memWarp 0x60 (.dgst {} (.v 8) (.imm10 9) 64)
     c.active.lowest = some 5 ∧ (digested.context (digested.ctxOf memWarp)).accum ≠ 0 ∧
       digested.watched memWarp = false ∧ Chk.good (digested.check memWarp .global (.at false) 5 0x10000 64 64) = true) :=
  ⟨meets_all (by decide +kernel), by decide +kernel, by decide +kernel⟩

/-- The first and the last number of Table 4.6, a pair and a reserved number; for SWR a register of the thread, one of the warp, and one
that is read-only. -/
theorem witness_SpecialRegisters :
    (∀ e ∈ [(Instr.srd {} (.v 20) 0, 21, []), (.srd {} (.v 20) 0x1A, 21, []), (.srd {} (.v 20) 2, 22, []), (.srd {} (.v 20) 0x1B, 21, []),
      (.swr {} (.v 10) 0x12, 11, []), (.swr {} (.v 10) 0x1A, 11, []), (.swr {} (.v 10) 0x14, 12, []), (.swr {} (.v 10) 0x00, 11, [])],
      Meets e.1 ints intsWarp 0x20 e.2.1 e.2.2) := meets_all (by decide +kernel)

/-- No trap in progress, no flight, and a handler; a warp whose trap is in progress; one without a handler; one that a result is kept back from. -/
def trapped : Warp := { memWarp with trap := some { lanes := 0x60, ret := [(5, 8, 16, false), (6, 8, 16, false)], kind := .next, replay := none, cause := .trap } }
theorem witness_TakingATrap :
    memory.warp? Image.warp = some memWarp ∧ memWarp.trap = none ∧ memWarp.pend = none ∧ memWarp.resid = .resident ∧ memWarp.flights = [] ∧
    memWarp.tvec ≠ 0xFFFFFFF8#32 ∧ memory.entries = [] ∧ (coded (fun _ => trapped)).warp? Image.warp = some trapped ∧ trapped.trap.isSome = true ∧
    (∀ w ∈ [{ memWarp with tvec := 0xFFFFFFF8#32 }, { memWarp with det := true, deferred := [{ order := 0, write := .v 5 7 9, win := [(5, 1)] }] }],
      (coded (fun _ => w)).warp? Image.warp = some w ∧ w.trap = none ∧ w.pend = none ∧ w.resid = .resident ∧ w.flights = [] ∧
        (coded (fun _ => w)).entries = []) := by decide +kernel

/-- TRAP, BKPT and TRET; with a debug handler attached; TRET as the last lanes of its handler leave. -/
def debugged : State := { memory with mod := { memory.mod with contexts := [(Image.ctx, { Image.context with debug := true })] } }
theorem witness_TrapForms :
    (∀ e ∈ [(Instr.trap {} 0, 0, []), (.trap {} 1023, 0, []), (.bkpt {} 5, 0, []), (.tret {}, 0, [])], Meets e.1 memory memWarp 0x60 e.2.1 e.2.2) ∧
    (memory.at_ memWarp 0x60 (.trap { p := 2 } 5)).active = 0 ∧ (memory.context (memory.ctxOf memWarp)).debug = false ∧
    Meets (.bkpt {} 5) debugged memWarp 0x60 0 [] ∧ (debugged.context (debugged.ctxOf memWarp)).debug = true ∧
    Meets (.tret {}) (coded (fun _ => trapped)) trapped 0x60 0 [] ∧ trapped.trap.isSome = true ∧ trapped.resid = .resident ∧
    (∀ l ∈ (0x60 : Mask).lanes, (trapped.th l).st = .ready) ∧ (∀ l n, (trapped.th l).st ≠ .join n) :=
  ⟨meets_all (by decide +kernel), by decide +kernel, by decide +kernel, meets_sound (by decide +kernel), by decide +kernel, meets_sound (by decide +kernel),
    by decide +kernel, by decide +kernel, by decide +kernel, no_join (by decide +kernel)⟩

/-- REP 4, 1, D, A before an IADD.I32, before NOP (which REP may not repeat), a word that is no instruction, and one that does not decode. -/
def repeated (w0 : Nat) : State :=
  (State.reset.withCode (leBytes 8 0x801C000000000000 ++ leBytes 8 w0 ++ leBytes 8 0x801C000000000000) 0).putWarp Image.warp codedWarp
def rep4 : Instr := .rep {} true true false false 1 4
theorem witness_Repeats :
    (∀ w0 ∈ [0x846402807FE40000, 0x801C000000000000, 0x001C000000000000, 0x846402807FE44000],
      meets rep4 (repeated w0) codedWarp Mask.all 0 [] = true ∧ (repeated w0).codeWord codedWarp 8 = .word w0 ∧ twoWords w0 = false) ∧
    (match decodeWords 0x846402807FE40000 0 with
      | .ok j => ((repeated 0x846402807FE40000).at_ codedWarp Mask.all rep4).repAllowed true true false false 1 4 (Raw.ofWords 0x846402807FE40000 0) j
      | _ => false) = true ∧
    (match decodeWords 0x801C000000000000 0 with
      | .ok j => !((repeated 0x801C000000000000).at_ codedWarp Mask.all rep4).repAllowed true true false false 1 4 (Raw.ofWords 0x801C000000000000 0) j
      | _ => false) = true ∧
    decodeWords 0x001C000000000000 0 = .illegalOpcode 0 ∧ decodeWords 0x846402807FE44000 0 = .illegalOperand 0x23 := by
  decide +kernel

/-- A descriptor of one dimension of 16 bytes at 0x3FFF_F000, in slot 0 of a table of two; V8 to V11 and V40 to V43 are 0. -/
def tensorBytes : List Byte := leBytes 8 0x3FFFF000 ++ leBytes 4 16 ++ List.replicate 45 0 ++ [1] ++ List.replicate 6 0
def copyWarp : Warp := [(5, 8, 0), (6, 8, 16)].foldl (fun w r => w.setV r.1 r.2.1 r.2.2) memWarp
def copying : State :=
  let s := coded (fun _ => copyWarp)
  let s := { s with mod := { s.mod with contexts := [(Image.ctx, { Image.context with handles := 0x10000, slots := 2 })] } }
  (s.pokeN 0x10000 4 1).pokeBytes 0x10040 tensorBytes
def planOk (write : Bool) (r : List (Nat × Nat)) : Bool := match copying.plan copyWarp write r with
  | some p => p.miss.isEmpty && !p.bad
  | none => false

theorem witness_Copies :
    (∀ e ∈ [(Instr.cpy { d := .v 8, a := .v 30, len := .imm32 16 }, 32, []), (.cps { d := .v 8, a := .v 30, len := .imm32 16, space := .group }, 32, []),
      (.cpt { d := .v 8, a := .zero, len := .opnd (.v 40) } false 15, 44, []), (.cpt { d := .v 8, a := .zero, len := .opnd (.v 40) } true 15, 44, [])],
      Meets e.1 copying copyWarp 0x60 e.2.1 e.2.2) ∧
    planOk true [(0x3FFFF000, 16)] = true ∧ planOk false [(0x3FFFF010, 16)] = true ∧
    (let c := copying.at_ copyWarp 0x60 (.cpy { d := .v 8, a := .v 30, len := .imm32 16 })
     c.active.lanes = [5, 6] ∧ (∀ l ∈ [5, 6], c.rd [.v 30] 0 true l % 16 = 0 ∧ c.rd [.v 8] 0 false l % 16 = 0 ∧
       c.rd [.v 8] 0 false l + 16 ≤ (copying.scratchOf copyWarp).size ∧ c.rd [.v 8] 0 false l + 16 ≤ (copying.windowOf copyWarp).size)) ∧
    copying.copies.countP (fun x => x.latched && x.core == copyWarp.core) + 2 ≤ 64 ∧
    copying.handleSlot (copying.ctxOf copyWarp) 0 = some 0 ∧
    tensorOf ((List.range 64).map (fun k => copying.peek (0x10000 + 64 + k))) = tensorOf tensorBytes ∧ (tensorOf tensorBytes).ok = true ∧
    (tensorOf tensorBytes).dims = 1 ∧ (15 : Word).toNat / 256 ^ 1 = 0 := by
  and_intros <;> first | decide +kernel | exact meets_all (by decide +kernel)

/-- No batch closed, eight outstanding, and one that a wait for batch 0 is over with or not; a readable descriptor; handles that are
current and stale. -/
def full : Warp := { copyWarp with batches := (List.range 8).map (fun k => (k, [k])) }
def described : State := (coded (fun _ => memWarp)).pokeBytes 0x3FFFF000 tensorBytes
theorem witness_BatchesAndHandles :
    (∀ e ∈ [(Instr.cpclose {} (.w 4) 0, 0, []), (.cpwait {} none, 0, []), (.cpwait {} (some (.w 4)), 0, []), (.cptest {} (.w 5) none 15, 0, [])],
      Meets e.1 copying copyWarp 0x60 e.2.1 e.2.2) ∧ copyWarp.batches = [] ∧ copyWarp.trap = none ∧ (∀ l ∈ (0x60 : Mask).lanes, (copyWarp.th l).st = .ready) ∧
    (∀ l k, (copyWarp.th l).st ≠ .join k) ∧ (copying.at_ copyWarp 0x60 (.cpclose { p := 2 } (.w 4) 0)).active = 0 ∧
    Meets (.cpclose {} (.w 4) 0) (coded (fun _ => full)) full 0x60 0 [] ∧ (full.batches.filter (fun b => b.2 ≠ [])).length = 8 ∧
    (∃ b ∈ full.batches, ¬ 2 ^ 15 ≤ (0 + 2 ^ 16 - b.1) % 2 ^ 16) ∧
    (let i := Instr.tdesc {} (.w 4) (.w 2) 0
     let w := memWarp.setW 2 0x3FFFF000
     let s := withRecord w 5 0x3FFFF000 64 (described.putWarp Image.warp w)
     Meets i s w 0x60 0 [] ∧ (s.at_ w 0x60 i).lanes (.w 4) = [5] ∧ s.check w .global .rd 5 ((s.at_ w 0x60 i).rd [.w 2] 0 true 5) 64 64 = .ok 0x3FFFF000 ∧
      s.watched w = false ∧ (s.recordBytes s.cur 5 w.order 0x3FFFF000 64).map (fun bs => (tensorOf bs).ok) = some true) ∧
    (let s := withRecord memWarp 5 0x3FFFF000 64 (coded (fun _ => memWarp))
     (s.recordBytes s.cur 5 memWarp.order 0x3FFFF000 64).map (fun bs => (tensorOf bs).ok) = some false) ∧
    Meets (.tdfree { p := 1 } (.v 8)) copying copyWarp 0x60 9 [] ∧ (copying.at_ copyWarp 0x60 (.tdfree { p := 1 } (.v 8))).active.lanes = [5] ∧
    copying.handleSlot (copying.ctxOf copyWarp) 0 = some 0 ∧ copying.handleSlot (copying.ctxOf copyWarp) 1 = none ∧
    Meets (.tdfree {} (.v 8)) copying copyWarp 0x60 9 [] ∧ (copying.at_ copyWarp 0x60 (.tdfree {} (.v 8))).active.lanes = [5, 6] ∧
    copying.handleSlot (copying.ctxOf copyWarp) 16 = none :=
  ⟨meets_all (by decide +kernel), by decide +kernel, by decide +kernel, by decide +kernel, no_join (by decide +kernel), by decide +kernel,
    meets_sound (by decide +kernel), by decide +kernel, by decide +kernel,
    ⟨meets_sound (by decide +kernel), by decide +kernel, by decide +kernel, by decide +kernel, by decide +kernel⟩, by decide +kernel,
    meets_sound (by decide +kernel), by decide +kernel, by decide +kernel, by decide +kernel, meets_sound (by decide +kernel), by decide +kernel,
    by decide +kernel⟩

/-- Queue 2 with one entry, queue 3 empty, queue 4 not initialised; V8 is 64 in lane 5, V12 is 7 (no warp of a team of one), V9 is 0. -/
def tq (count : Nat) : TQ := { ring := 0, depth := 4, tail := count, count := count, allow := [(0, 1)] }
def queueTeam : Team := { Image.teamOf with tqs := [(2, tq 1), (3, tq 0)] }
def queued : State := { memory with mod := { memory.mod with teams := [(Image.team, queueTeam)] } }
theorem witness_TeamQueues :
    (∀ e ∈ [(Instr.tqinit {} 4 (.v 8) 64, 9, []), (.tqinit {} 3 (.v 8) 4, 9, []), (.qpush {} 2 (.v 8), 11, []), (.qpop {} (.v 20) 2 0, 23, []),
      (.qpop {} (.v 20) 3 0, 23, []), (.qtry {} (.v 20) 2 1 0, 23, []), (.qtry {} (.v 20) 3 1 0, 23, []), (.qgrant {} 2 (.v 9) (.v 8), 10, []),
      (.qgrant {} 2 (.v 12) (.v 8), 13, []), (.qpush {} 4 (.v 8), 11, [])], Meets e.1 queued memWarp 0x60 e.2.1 e.2.2) ∧
    queued.team? memWarp.team = some queueTeam ∧ memWarp.trap = none ∧ memWarp.resid = .resident ∧ (∀ l ∈ (0x60 : Mask).lanes, (memWarp.th l).st = .ready) ∧
    (∀ l j, (memWarp.th l).st ≠ .join j) ∧ Table.find queueTeam.tqs 4 = none ∧ Table.find queueTeam.tqs 2 = some (tq 1) ∧ (tq 1).waiters = [] ∧
    (let c := queued.at_ memWarp 0x60 (.tqinit {} 4 (.v 8) 64)
     c.active.lowest = some 5 ∧ c.rd [.v 8] 0 false 5 = 64 ∧ 64 + 16 * 64 ≤ (queued.kernOf memWarp).scratch ∧ c.rd [.v 9] 0 false 5 = 0 ∧
       c.rd [.v 12] 0 false 5 = 7 ∧ (queued.gridOf memWarp).launch.warps = 1 ∧ queueTeam.cont = false) ∧
    (tq 0).head = (tq 0).tail ∧ (tq 0).tail < (tq 0).depth ∧ 0 < Table.get 0 (tq 0).allow memWarp.num ∧ Table.get 0 (tq 0).allow memWarp.num ≤ 255 ∧
    memWarp.num < 32 := by
  and_intros <;> first | decide +kernel | exact meets_all (by decide +kernel) | exact no_join (by decide +kernel)

/-- A descriptor of the affine kind in one dimension, of `n` elements; one with no dimension is broken. Stream 1 is RUNNING, stream 0 not
configured. -/
def wickBytes (n : Nat) (dims : Byte) : List Byte := List.replicate 16 0 ++ leBytes 4 n ++ List.replicate 34 0 ++ [dims] ++ List.replicate 9 0
def streamWarp : Warp := { memWarp with streams := [(1, { st := .running }), (2, { st := .stopped })] }
def streaming (n : Nat) (dims : Byte) : State := (coded (fun _ => streamWarp)).pokeBytes 0x3FFFF000 (wickBytes n dims)
theorem witness_Streams :
    (∀ e ∈ [(Instr.wcfg {} 0 (.v 30) .zero, 32, []), (.wcfg {} 1 (.v 30) .zero, 32, []), (.wstart {} 2, 0, []), (.wstart {} 0, 0, []), (.wstop {} 1, 0, []),
      (.wstop {} 3, 0, []), (.wstat {} (.w 12) 1 0, 0, [])], Meets e.1 (streaming 4 1) streamWarp 0x60 e.2.1 e.2.2) ∧
    (let s := withRecord streamWarp 5 0x3FFFF000 64 (streaming 4 1)
     let i := Instr.wcfg {} 0 (.v 30) .zero
     (s.at_ streamWarp 0x60 i).active.lowest = some 5 ∧ s.checkRead streamWarp 5 ((s.at_ streamWarp 0x60 i).rd [.v 30] 0 true 5) 64 = .ok 0x3FFFF000 ∧
      s.watched streamWarp = false ∧ s.recordBytes s.cur 5 streamWarp.order 0x3FFFF000 64 = some (wickBytes 4 1)) ∧
    Wick.ok (wickBytes 4 1) = true ∧ Wick.ok (wickBytes 4 0) = false ∧
    (∀ n ∈ [0, 2 ^ 29 - 1, 2 ^ 29], (streamCount (((streaming n 1).at_ streamWarp 0x60 (.wcfg {} 0 (.v 30) .zero)).tileByte 5) (wickBytes n 1)).toOption =
      some n) :=
  ⟨meets_all (by decide +kernel), by decide +kernel, by decide +kernel, by decide +kernel, by decide +kernel⟩

def matCtx (i : Instr) : Ctx := (matrices []).at_ (matWarp []) 0x20 i
/-- The matrix operand `n` with descriptor `k`: its registers are allocated, and it is `r` × `q` of FP32. -/
def operand (n k r q : Nat) : Bool :=
  let c := matCtx (.nop {})
  let s := c.shape 5 k
  c.regsOk (.v n) s && s.fmt == .f32 && s.rows == r && s.cols == q && !s.byCol

/-- The shapes of Table 14.1 are accepted for the forms listed: A, B, D and the factor are 2 × 2, b and x are 2 × 1. Descriptor H5 for H1
is not. -/
theorem witness_StructuralMatrixForms :
    (∀ e ∈ [(Instr.mshape { hd := 4 } false (some 0x311), 0, []), (.mshape { a := .v 7, hd := 4 } true none, 8, [Opnd.v 7]), (.mshape { hd := 4 } false (some 0x22), 0, []),
      (.mshape { hd := 4 } false (some 0xA11), 0, []), (.mqry { d := .v 20, ha := 1 } .words, 23, []), (.mqry { d := .v 20, ha := 15 } .regs, 21, []),
      (.mzero { d := .v 120, hd := 4 }, 121, []), (.mcopy x4, 121, []), (.mtrn x4, 121, []), (.madd x3 true, 111, []),
      (.mscal { d := .v 110, a := .v 100, b := .v 7, hd := 3, ha := 1 }, 111, []), (.mcvt x4 (some (.sr, true)), 121, []), (.mnorm { d := .v 20, a := .v 100, ha := 1 } .fro, 101, [])],
      Meets e.1 (matrices []) (matWarp []) 0x20 e.2.1 e.2.2) ∧
    operand 100 1 2 2 = true ∧ operand 104 2 2 2 = true ∧ operand 110 3 2 2 = true ∧ operand 120 4 2 2 = true ∧ operand 114 5 2 1 = true ∧
    (let s := shapeOf 0x8011; s.fmt?.isSome = true ∧ (s.fmt.isNx = true → s.data ≤ s.soff) ∧ s.rows * s.cols = 4 ∧ s.fmt.bits = 32) := by
  and_intros <;> first | decide +kernel | exact meets_all (by decide +kernel)

theorem witness_Products :
    (∀ e ∈ [(Instr.mmul x3, 111, []), (.mma x3, 111, []), (.mmt x4 true true, 121, []), (.mmt x3 false false, 111, []),
      (.mspma { d := .v 120, a := .v 100, b := .v 104, hd := 4, ha := 1, hb := 2 } (.v 130) .both, 131, [])],
      Meets e.1 (matrices []) (matWarp []) 0x20 e.2.1 e.2.2) ∧
    productFormats .f32 .f32 .f32 = true ∧ productFormats .f16 .f16 .f32 = true ∧ productFormats .f32 .f32 .f64 = false ∧
    operand 100 1 2 2 = true ∧ operand 104 2 2 2 = true ∧ operand 110 3 2 2 = true ∧
    ((matCtx (.nop {})).runOk (.v 130) 2 = true) ∧ (FV.num false 3 (-1)).finite = true ∧
    (((FV.inf false).mul (.zero false)).1.isNan = true ∧ ((FV.inf false).mul (.num true 1 0)).1 = .inf true ∧ ((FV.inf false).mul (.num false 1 0)).1 = .inf false) := by
  and_intros <;> first | decide +kernel | exact meets_all (by decide +kernel)

theorem witness_FactorForms :
    (∀ e ∈ [(Instr.mlu x4 (.v 40), 121, []), (.mchol x4, 121, []), (.mtrs { d := .v 116, a := .v 100, b := .v 114, hd := 6, ha := 1, hb := 5 } true true (some true), 117, []),
      (.minv x4, 121, []), (.mdet { d := .v 20, a := .v 100, ha := 1 }, 101, []), (.mexp x4, 121, []),
      (.mrefine { d := .v 116, a := .v 100, b := .v 114, hd := 6, ha := 1, hb := 5 } true (.v 120) (.v 50) 4, 121, [])],
      Meets e.1 (matrices []) (matWarp []) 0x20 e.2.1 e.2.2) ∧
    operand 100 1 2 2 = true ∧ operand 120 4 2 2 = true ∧ operand 114 5 2 1 = true ∧ operand 116 6 2 1 = true ∧ (matCtx (.nop {})).runOk (.v 50) 4 = true ∧
    (let a : Mat := [[.num false 1 0, .num false 3 0], [.num false 2 0, .num true 5 0]]
     a.length = 2 ∧ (∀ row ∈ a, row.length = 2) ∧ (lu { fm := fmt32, ftz := false } 2 a).run.1.fail = none ∧
      -- d is 1 − 9 in column 1; a zero pivot; the sum of a column's magnitudes, and an infinite one
      (chol { fm := fmt32, ftz := false } 2 [[.num false 1 0, .zero false], [.num false 3 0, .num false 1 0]]).run.1.2 = some 1 ∧
      (chol { fm := fmt32, ftz := false } 2 [[.num false 1 0, .zero false], [.num false 1 0, .num false 5 0]]).run.1.2 = none ∧
      (lu { fm := fmt32, ftz := false } 2 [[.zero true, .num false 1 0], [.zero false, .num false 1 0]]).run.1.fail = some 0 ∧
      (maxAbs [.num true 1 0, .num false 3 (-1)]).finite = true ∧ (maxAbs [.num true 1 0, .inf true]).finite = false) ∧
    (FV.zero true).isZero = true ∧ (FV.num false 3 0).isZero = false := by
  and_intros <;> first | decide +kernel | exact meets_all (by decide +kernel)

/-- Lanes 5 and 6 with the 2 × 2 matrix of H1 and the address of V30, or the offset of V8. -/
def matMemWarp : Warp := { memWarp with hregs := [(81, 0x8011), (97, 0x8011)] }
def matMemory : State := coded (fun _ => matMemWarp)
def mx (a : Nat) : FormX := { d := .v 100, a := .v a, b := .zero, hd := 1, hb := 0 }
def mxSt (a : Nat) : FormX := { mx a with hb := 15 }
theorem witness_MatrixMemory :
    (∀ e ∈ [(Instr.mld (mx 30) .normal none, 101, []), (.mst (mxSt 30) .normal none .rn false, 101, []), (.mlds (mx 8) .team none, 101, []),
      (.mlds (mx 8) .group none, 101, []), (.mlds (mx 8) .lane none, 101, []), (.msts (mx 8) .team none, 101, []), (.msts (mx 8) .lane none, 101, [])],
      Meets e.1 matMemory matMemWarp 0x60 e.2.1 e.2.2) ∧ matMemory.watched matMemWarp = false ∧
    (∀ l ∈ [5, 6], ∀ acc ∈ [Acc.rd, .wr], (let c := matMemory.at_ matMemWarp 0x60 (.mld (mx 30) .normal none)
      Chk.good (c.matrixChk .global acc (mx 30) l (c.footprint .global (mx 30) none (c.shape l 1).fmt l) true) = true ∧
      ∀ sp ∈ [Where.scratch, .window, .slice], Chk.good (c.matrixChk sp acc (mx 8) l (c.footprint sp (mx 8) none (c.shape l 1).fmt l) true) = true)) ∧
    convOk .f32 .bf16 .sr = true :=
  ⟨meets_all (by decide +kernel), by decide +kernel, by decide +kernel, by decide +kernel⟩

/-- A of PW32 in V100 to V103 (format code 8), its gradient and the results of FP32. -/
def louvreWarp : Warp := { matWarp [] with hregs := [(81, 0x8811), (82, 0x8011), (83, 0x8011), (84, 0x8011)] }
theorem witness_LouvreForms :
    (∀ e ∈ [(Instr.lvorg { a := .v 7, b := .v 7, hd := 1 } (.v 7), 8, [Opnd.v 7, .v 7, .v 7]), (.lvctl { a := .v 7 }, 8, [.v 7]), (.lvmem { a := .v 7 }, 8, [.v 7]),
      (.lveps { d := .v 110, a := .v 100, hd := 3, ha := 1 } true, 111, []),
      (.lvgrad { d := .v 110, a := .v 100, b := .v 104, hd := 3, ha := 1, hb := 2 } (.v 120) 4, 121, [])], Meets e.1 (stateOf louvreWarp) louvreWarp 0x20 e.2.1 e.2.2) ∧
    (let c := (stateOf louvreWarp).at_ louvreWarp 0x20 (.nop {})
     c.regsOk (.v 100) (c.shape 5 1) = true ∧ (c.shape 5 1).fmt.isPw = true ∧ c.regsOk (.v 110) (c.shape 5 3) = true ∧ (c.shape 5 3).fmt = .f32 ∧
      (c.shape 5 3).rows = (c.shape 5 1).rows ∧ (c.shape 5 3).cols = (c.shape 5 1).cols) ∧
    (2 : Nat).testBit 1 = true ∧ (1 : Nat).testBit 1 = false ∧ (1 : Nat).testBit 0 = true ∧ (0 : Nat).testBit 1 = false ∧
    ((louvreSigma (.num true 3 (-1))).finite = true ∧ louvreSigma (FV.ofInt 128) = .inf false ∧ (louvreP 0 (FV.ofInt 125) 13505).finite = true ∧
      magnitude ((louvreSigma (.num true 3 (-1))).rat * ((-13505 : Int) : Rat) / 4096) < 2 ^ 127) :=
  ⟨meets_all (by decide +kernel), by decide +kernel, by decide, by decide, by decide, by decide, by decide +kernel⟩

/-- The boundaries of the codes that are not assigned; an extension word with bit 63; what decodes. -/
theorem witness_DecodedWords :
    (0x7FFFFFFFFFFFFFFF / 2 ^ 63 % 2 = 0) ∧
    (∀ op ∈ [0x18, 0x1F, 0x54, 0x5F, 0x83, 0x8F, 0xAD, 0xBF, 0xD8, 0xFF], (2 ^ 63 + op * 2 ^ 53) / 2 ^ 63 % 2 = 1 ∧ (2 ^ 63 + op * 2 ^ 53) / 2 ^ 53 % 256 = op) ∧
    ((2 ^ 63 + 2 ^ 62) / 2 ^ 62 % 2 = 1 ∧ 2 ^ 63 / 2 ^ 63 % 2 = 1) ∧ decodeWords 0x801C000000000000 0 = .ok (.nop {}) := by decide +kernel

theorem witness_DecodeOfEncode : (Instr.nop {}).isForm = true ∧ (Instr.nop {}).wf = true := by decide

/-- R9: every route follows edges, ends at its target and takes at most four. -/
theorem test_fabric : ∀ a < 8, ∀ b < 8, fabricHops a b ≤ 4 ∧ (fabricRoute a b).getLast? = some b ∧
    ((fabricRoute a b).zip ((fabricRoute a b).drop 1)).all (fun e => fabricEdges.contains e || fabricEdges.contains (e.2, e.1)) = true := by
  decide +kernel
/-- R60: of two queues without an entry the one of the first field decides: queue 3 waits for its stream, queue 0 has none (log 71). -/
def twoQueues : Warp := { intsWarp with streams := [(3, { st := .running })] }
def pops (a b : Nat) : Option Word := (after (.iadd { d := .v 20, a := .oq a, b := .opnd (.oq b) }) (stateOf twoQueues)).map (·.trapcause)
theorem test_pop_order : pops 3 0 = some 0 ∧ (pops 0 3).map (fun x => x.toNat % 256) = some TrapCause.queueMisuse.code := by decide +kernel

/-- A pop of queue 0, empty, whose stream is RUNNING, FAULT or not configured; a register beyond those allocated. -/
def popper (st : StreamSt) : Warp := { intsWarp with streams := [(0, { st := st })] }
def popForm : FormA := { d := .v 20, a := .oq 0, b := .opnd (.v 11) }
theorem witness_OperandValues :
    (∀ st ∈ [StreamSt.running, .fault, .done], (stateOf (popper st)).warp? 3 = some (popper st) ∧ (popper st).cur = some 0x20 ∧
      popForm.room false false false ≤ ((stateOf (popper st)).kernOf (popper st)).regs ∧
      (Table.get [] (popper st).oqs 0).length < popForm.srcs.countP (fun o => o == .oq 0) ∧ (Table.get {} (popper st).streams 0).st = st ∧
      ((stateOf (popper st)).at_ (popper st) 0x20 (.iadd popForm)).active ≠ 0) ∧
    intsWarp.flights = [] ∧ (ints.kernOf intsWarp).regs < (two .i32 256 11).room false false false := by decide +kernel

/-- The port's turn comes first, and the port is open; its ready warp is the one placed, with NOP, or a word that does not decode, at its
PC. -/
def fetched (w : Nat) : State := (State.reset.withFetchWord 64 w).nextTurn.2
theorem witness_StepRunsTheInstruction :
    (∀ w ∈ [0x801C000000000000, 0x846402807FE44000],
      (State.reset.withFetchWord 64 w).nextTurn.1 = .port 0 (if w = 0x801C000000000000 then 2 else 0) ∧
      (fetched w).portOpen 0 (if w = 0x801C000000000000 then 2 else 0) = true ∧
      (let p := if w = 0x801C000000000000 then 2 else 0
       let t := (fetched w).switchOver 0
       (Table.get {} (t.part 0).ports p).choose (t.readySlots 0 p) = some 0 ∧ t.warpIn 0 0 = some 3 ∧
        (t.warp? 3).map (fun x => (x.cur, (x.th 0).inRep)) = some (some Mask.all, false) ∧
        (t.warp? 3).map (fun x => t.offer x 0) = some (if w = 0x801C000000000000 then .ok (.nop {}) 0 else .bad false 0x23 0))) ∧
    (({ State.reset with agenda := [.take .reset] } : State).agenda = [.take .reset] ∧ byPort .reset = false) := by decide +kernel

theorem witness_MemoryKeepsItsForm : memWf (State.reset.withFetchWord 64 0x801C000000000000).mem = true ∧
    (match step (State.reset.withFetchWord 64 0x801C000000000000) with | .next _ => true | _ => false) = true := by decide +kernel

/-! ### Host commands and the outside -/

/-- The machine of `memory` brought up, with a debug handler, and a record of context parameters at 0x7_0000 (Tables 34.1, 34.3). -/
def bringup : Bringup := { queues := 0x80000, commands := 0x60000, faults := 0x58000, errors := 0x50000, traceOn := 7
                           traceAt := [0x40000, 0x42000, 0x44000], traceLog := [4, 4, 4] }
def hosted (w : Warp) : State :=
  let s := coded (fun _ => w)
  let s := { s with mod := { s.mod with bringup := some bringup, contexts := [(Image.ctx, { Image.context with debug := true })] } }
  ((((s.pokeN 0x70000 8 0x1000).pokeN 0x70008 8 0x20000).pokeN 0x70010 8 0x20000).pokeN 0x70030 8 0x8000)
/-- The command ring with one entry. -/
def ringed (w : Warp) (op : Nat) (c : Cmd) : State :=
  ((((hosted w).pokeN 0x60000 4 1).pokeN 0x60040 1 op).pokeN 0x60042 2 c.ctx).pokeN 0x60048 8 c.arg0 |>.pokeN 0x60050 8 c.arg1
def stands (w : Warp) (op : Nat) (c : Cmd) : Bool :=
  let s := ringed w op c
  decide (s.commandAt = some 0x60040) && s.assignedRange 0x60040 64 && decide (s.mod.command = none) && decide (s.commandOf 0x60040 = (op, c))
def stoppedWarp : Warp := { memWarp with stopped := some { lanes := 0x60, ret := [], kind := .next, replay := none, cause := .breakpoint } }

/-- Each command, done and refused: a power register and a comparator at the ends of their ranges, units that FUSE names and does not; a
warp that is stopped or not. -/
theorem witness_HostCommands :
    (∀ e ∈ [(1, ({ ctx := 2, arg0 := 0x70000 } : Cmd)), (1, { ctx := 1, arg0 := 0x70000 }), (2, { ctx := 1 }), (3, { ctx := 1, arg0 := 0, arg1 := 0x8000 }), (4, { ctx := 1 }),
      (5, { ctx := 1, arg0 := 0, arg1 := 0 }), (5, { ctx := 1, arg0 := 1, arg1 := 0 }), (6, { arg0 := 3071 * 256, arg1 := 5 }), (6, { arg0 := 3072 * 256 }),
      (6, { arg0 := 2 ^ 63 + 6, arg1 := 0x70000 }), (6, { arg0 := 2 ^ 63 + 7, arg1 := 0x70000 }), (6, { arg0 := 2 ^ 63 + 3072 * 256, arg1 := 0x70000 }),
      (6, { arg0 := 2 ^ 63 + 128 * 256 + 2, arg1 := 0x70000 }), (7, { arg0 := 0, arg1 := 127 }), (7, { arg0 := 1, arg1 := 15 }),
      (7, { arg0 := 0, arg1 := 128 }), (8, { arg0 := 0x70000, arg1 := 0x71000 }), (9, { ctx := 1 }), (10, { ctx := 1 }), (11, { ctx := 1 }),
      (12, { arg0 := 767, arg1 := 0x70000 }), (12, { arg0 := 768, arg1 := 0x70000 }), (12, { arg0 := 2 ^ 31 + 767, arg1 := 0x70000 }), (13, { ctx := 1 })],
      stands memWarp e.1 e.2 = true) ∧
    (let s := ringed memWarp 1 { ctx := 2, arg0 := 0x70000 }
     s.mod.bringup = some bringup ∧ s.assignedRange 0x70000 128 = true ∧ s.context? 2 = none ∧ (s.context? 1).isSome = true ∧
      s.contextOk (contextOf (fun o n => s.peekN (0x70000 + o) n)) = true ∧ s.copies = [] ∧ s.assignedRange 0x71000 196 = true ∧
      s.warpIn 0 0 = some 3 ∧ s.warp? 3 = some memWarp ∧ s.ctxOf memWarp = 1 ∧ (s.context 1).debug = true ∧ s.warpIn 1 0 = none ∧ s.allBack 1 = true) ∧
    memWarp.stopped = none ∧ stoppedWarp.stopped.isSome = true ∧ (ringed stoppedWarp 5 { ctx := 1 }).warp? 3 = some stoppedWarp ∧
    stands stoppedWarp 5 { ctx := 1 } = true ∧ stands stoppedWarp 11 { ctx := 1 } = true ∧
    ([({ arg0 := 3071 * 256 } : Cmd), { arg0 := 127 * 256 + 1 }, { arg0 := 7 * 256 + 3 }, { arg0 := 767 * 256 + 4 }, { arg0 := 127 * 256 + 5 }, { arg0 := 6 }].all
      (fun c => !c.reads && decide (c.unit < powerUnits c.reg)) = true) ∧
    ([({ arg0 := 3072 * 256 } : Cmd), { arg0 := 128 * 256 + 1 }, { arg0 := 2 }, { arg0 := 256 + 6 }, { arg0 := 7 }].all
      (fun c => !c.reads && !decide (c.unit < powerUnits c.reg)) = true) := by decide +kernel

/-- A device at its first boot state; a warp that waits for a page that no fault record names yet, with room in the ring; a link and a
comparator at the ends of their ranges. -/
def waiting : Warp := { memWarp with waitPage := some (0x8000, 2 ^ 15, 1) }
theorem witness_OutsideEvents :
    (({ State.reset with mod := { State.reset.mod with boot := 1 } } : State).mod.boot % 4 = 1 ∧ State.reset.assignedRange 0x1000 104 = true ∧
      State.reset.assignedRange (2 ^ 41) 1 = false ∧ State.reset.mod.bringup = none) ∧
    (let s := hosted waiting
     s.mod.bringup = some bringup ∧ s.assignedRange bringup.faults 64 = true ∧
      (s.peekN bringup.faults 4 + 2 ^ 32 - s.peekN (bringup.faults + 4) 4) % 2 ^ 32 ≠ bringup.faultEntries ∧ s.mod.faults = [] ∧ s.awaits 1 0x8000 1 = some (2 ^ 15) ∧
      s.assignedRange 0x70000 32 = true) ∧
    (let s := (hosted memWarp).pokeN bringup.errors 4 64
     (s.peekN bringup.errors 4 + 2 ^ 32 - s.peekN (bringup.errors + 4) 4) % 2 ^ 32 = bringup.errorEntries) := by decide +kernel

/-- Phases and counts at which each event has its effect, and others at which it has none. -/
def noticed : State := { memory with mod := { memory.mod with teams := [(Image.team, { Image.teamOf with notice := { pending := some true } })] } }
theorem witness_PowerAndClocks :
    ((State.reset.part 0).window ≠ ((State.reset.modCore 0 (fun c => { c with cyc := 32 })).core 0).cyc / 32 ∧ (State.reset.part 0).window = (State.reset.core 0).cyc / 32) ∧
    ((State.reset.modCluster 127 (fun k => { k with stretch := 1 })).cluster 127).stretch = 1 ∧
    ((State.reset.modCore 767 (fun c => { c with halving := some 64 })).core 767).halving = some 64 ∧ (State.reset.core 767).inClk = false ∧
    (noticed.noticeFor Image.warp memWarp = some true ∧ noticed.warp? Image.warp = some memWarp ∧ memWarp.cur = some 0x60 ∧
      noticed.offer memWarp 5 = .ok (.nop {}) 0 ∧ [Image.warp].find? (fun k => match noticed.warp? k with
        | some x => (noticed.noticeFor k x).isSome
        | none => false) = some Image.warp) ∧
    (State.reset.mod.dormerHung = false ∧ State.reset.mod.dormerUpdating = false ∧ ∀ i < 16, (State.reset.cluster i).stretch < 2) ∧
    (2 ≤ ((State.reset.modCluster 15 (fun k => { k with stretch := 2 })).cluster 15).stretch) ∧
    (let s := ({ State.reset with mod := { State.reset.mod with boost := 3, gts := 1999 } } : State).modDie 7 (fun d => { d with step := 19 })
     s.clocksDue = false ∧ (s.mod.gts + 1) % 2 ^ 64 % 1000 = 0 ∧ s.runs 127 = true ∧ 18 < s.stepOf (dieOfCluster 127) ∧ (s.cluster 0).interval ≠ s.mod.gts / 1000) ∧
    State.reset.mod.boostDue = false ∧
    (let s := State.reset.modCluster 0 (fun k => { k with phase := 10 ^ 9 })
     s.clocksDue = true ∧ s.cclkDue 0 = true ∧ s.cclkDue 1 = false ∧ ∀ i < 6, (s.core i).inClk = false) ∧
    (∀ d < 8, (State.reset.die d).step ≤ 18) ∧ (3071 < powerUnits 0 ∧ ¬ 3072 < powerUnits 0 ∧ ¬ 0 < powerUnits 2) := by decide +kernel

/-- A slot not charged yet and one charged; a run of the longest length; a packet that its ring has room for, or not; a stall that ends,
or not. -/
def packet (ch : Nat) : Packet := { channel := ch, source := 0, words := [0, 0, 0, 0] }
def tracing (n m : Nat) (ch : Nat) : State := (hosted memWarp).modCore 0 (fun c => { c with
  trace := List.replicate n (packet ch), pendingPackets := List.replicate m (packet ch), stalled := true })
/-- The last core in a clock, with a charge found for the last port of its last partition. -/
def idling : State := memory.modCore 767 (fun c => { c with clk := .running, idles := [(portKey 3071 2, { cause := .regWait, kernel := 0, pc := 0, warp := 3, order := 0 })] })
theorem witness_SlotAccounting :
    ((idling.core 767).inClk = true ∧ (Table.find (idling.core 767).idles (portKey 3071 2)).isSome = true ∧
      (Table.get {} (idling.part 3071).ports 2).charged = false ∧ (Table.get {} ((memory.modPart 0 (fun p => { p with ports := [(0, { charged := true })] })).part 0).ports 0).charged = true) ∧
    (let s := (tracing 127 0 0).modPart 0 (fun p => { p with ports := [(0, { run := some { ctx := 1, cause := 0, kernel := 0, pc := 0, since := 0, count := 65535 } })] })
     (Table.get {} (s.part 0).ports 0).run.map (·.count) = some 65535 ∧ s.channelOn 0 = true ∧ (s.core 0).trace.length < 128 ∧ (s.core 0).pendingPackets = []) ∧
    ((tracing 1 0 0).core 0).trace = [packet 0] ∧ (tracing 1 0 0).ringFull 0 = false ∧
    ((tracing 1 0 2).pokeN 0x44000 4 16).ringFull 2 = true ∧ ((tracing 1 0 1).pokeN 0x42000 4 16).ringFull 1 = true ∧
    (((tracing 127 1 0).core 0).stalled = true ∧ ((tracing 126 1 0).core 0).pendingPackets ≠ [] ∧
      ((tracing 126 1 0).core 0).trace.length + ((tracing 126 1 0).core 0).pendingPackets.length < 128 ∧
      ((tracing 127 2 0).core 0).trace.length < 128 ∧ 128 < ((tracing 127 2 0).core 0).trace.length + ((tracing 127 2 0).core 0).pendingPackets.length) ∧
    ((tracing 127 1 0).core 0).trace.length + ((tracing 127 1 0).core 0).pendingPackets.length = 128 := by
  decide +kernel

/-! ### From queue to retirement -/

/-- Queue `q` of `hosted memWarp`: a ring of 4 records at 0x9_0000, class 3, enabled, from `head` to `tail` (Table 24.1); its first record
asks for a kernel object at 0xA_0000, in span groups of `span` teams of one warp. -/
def queuedAt (q head tail span : Nat) : State :=
  let h := 0x80000 + 128 * q
  let s := (((((hosted memWarp).pokeN h 8 0x90000).pokeN (h + 8) 4 4).pokeN (h + 0x0C) 1 3).pokeN (h + 0x0D) 1 1).pokeN (h + 0x10) 4 tail
  let s := ((s.pokeN (h + 0x14) 4 head).pokeN 0x90000 8 0xA0000).pokeN 0x9001C 2 (256 + span)
  [(0x00, 4, 0x344B594E), (0x04, 2, 1), (0x0C, 4, 320), (0x10, 4, 320), (0x24, 2, 16), (0x34, 4, 320), (0x3C, 4, 320)].foldl
    (fun s (f : Nat × Nat × Nat) => s.pokeN (0xA0000 + f.1) f.2.1 f.2.2) s
def served (q head tail : Nat) : Option Nat :=
  let s := queuedAt q head tail 1
  match s.header q with
  | some h => if s.assignedRange h 128 && s.served h && !(s.queue q).overrun then some ((s.peekN (h + 0x10) 4 + 2 ^ 32 - s.peekN (h + 0x14) 4) % 2 ^ 32) else none
  | none => none
def firstRecord (span : Nat) : State := (queuedAt 0 0 1 span).putQueue 0 { tail := some 1 }

/-- The state with one context, of whatever number the queue's is. -/
def inContext (s : State) (c : Nat) : State := { s with mod := { s.mod with contexts := [(c, s.context 1)] } }

/-- A device read depends on the context only through its table. -/
theorem devPlace_in (s : State) (c : Nat) (hc : s.context? 1 = some (s.context 1)) (va : Nat) (acc : Acc) :
    (inContext s c).devPlace c va acc = s.devPlace 1 va acc := by
  have h1 : (inContext s c).context? c = some (s.context 1) := if_pos rfl
  have hw : ∀ l t, (inContext s c).walkFrom 0 (s.context 1).privileged va l t = s.walkFrom 0 (s.context 1).privileged va l t := by
    intro l
    induction l with
    | zero => intro t; unfold State.walkFrom; rfl
    | succ l ih =>
      intro t
      unfold State.walkFrom
      simp only [ih]
      rfl
  have h2 : (inContext s c).walk 0 c va = s.walk 0 1 va := by
    simp only [State.walk]
    rw [show (inContext s c).context c = s.context 1 by unfold State.context; rw [h1]; rfl, hw]
  show (inContext s c).diePlace 0 c va acc = s.diePlace 0 1 va acc
  unfold State.diePlace
  rw [h1, hc, h2]
  rfl

theorem statusOf_in (s : State) (c : Nat) (hc : s.context? 1 = some (s.context 1)) (l : Launch) :
    (inContext s c).statusOf c l = s.statusOf 1 l := by
  have hd : (inContext s c).devPlace c = s.devPlace 1 := funext fun va => funext fun acc => devPlace_in s c hc va acc
  have hr : (inContext s c).devRead c = s.devRead 1 := by
    unfold State.devRead
    rw [hd]
    rfl
  unfold State.statusOf State.objectPages State.objectAddrs State.kernelAt
  rw [hd, hr]

theorem takeWaits_in (s : State) (c : Nat) (hc : s.context? 1 = some (s.context 1)) (l : Launch) :
    (inContext s c).takeWaits c l = s.takeWaits 1 l := by
  have hd : (inContext s c).devPlace c = s.devPlace 1 := funext fun va => funext fun acc => devPlace_in s c hc va acc
  have hr : (inContext s c).devRead c = s.devRead 1 := by
    unfold State.devRead
    rw [hd]
    rfl
  unfold State.takeWaits State.objectPages State.objectAddrs
  rw [statusOf_in s c hc, hd, hr]

def takes (s : State) (good : Bool) : Bool :=
  decide (s.context? 1 = some (s.context 1)) && (match s.header 0, s.nextRecord 0 with
    | some _, some g => (s.takeWaits 1 g.launch).isNone && s.assignedRange g.launch.at_ 128 && decide (s.statusOf 1 g.launch = 1) == good
        && (s.grid? g.ident).isNone && g.parent.isNone
    | _, _ => false)

theorem takes_sound {s : State} {good : Bool} (h : takes s good = true) :
    let t := inContext s (Config.queueContext 0)
    ∃ h g, t.header 0 = some h ∧ t.nextRecord 0 = some g ∧ g.parent = none ∧ t.takeWaits g.ctx g.launch = none ∧
      t.assignedRange g.launch.at_ 128 = true ∧ (t.statusOf g.ctx g.launch = 1 ↔ good = true) ∧ t.grid? g.ident = none := by
  simp only [takes, Bool.and_eq_true, decide_eq_true_eq] at h
  obtain ⟨hc, h⟩ := h
  split at h
  · rename_i hd g hh hg
    simp only [Bool.and_eq_true, Option.isNone_iff_eq_none, beq_iff_eq] at h
    obtain ⟨⟨⟨⟨h1, h2⟩, h3⟩, h4⟩, h5⟩ := h
    have hx : g.ctx = Config.queueContext 0 := by
      simp only [State.nextRecord] at hg
      repeat' split at hg
      all_goals simp_all
      all_goals (subst hg; rfl)
    refine ⟨hd, g, hh, hg, h5, ?_, h2, ?_, h4⟩
    · rw [hx, takeWaits_in s _ hc]; exact h1
    · rw [hx, statusOf_in s _ hc, ← h3, decide_eq_true_eq]
  · cases h

/-- A grid of class 3 behind grid 1, with its groups on clusters; a waiting grid with one prerequisite met and one not. -/
def second (g : Grid) : State :=
  let s := hosted memWarp
  { s with mod := { s.mod with grids := Table.put s.mod.grids 2 { g with ctx := 1, ident := 2, kern := { Image.kernel with cont := 8 }, accepted := 1 } } }
def placing (r : SMap (List (Nat × Nat))) (cs : List Cont) : Grid :=
  { ctx := 1, ident := 2, cls := 3, phase := .running, launch := { warps := 1, dims := (100, 1, 1) }, clusterRange := r, conts := cs }
def firstGrid (s : State) : Option Grid := s.inOrder.head?.bind (fun e => if e.1 = 2 && s.grid? 2 == some e.2 && !s.regrouping 2 then some e.2 else none)

/-- A retired grid 1, with a counter at 0xB_0000 or without one. -/
def emptied (at_ : Nat) : State :=
  let s := hosted memWarp
  { s with warps := [], mod := { s.mod with teams := [], grids := [(1, { Image.gridOf with launch := { counter := at_ } })] } }
def exited : Warp := { memWarp with threads := [] }

theorem witness_FromQueueToRetirement :
    (served 63 0 4 = some 4 ∧ served 63 0xFFFFFFFE 3 = some 5 ∧ served 0 0 0 = some 0) ∧
    (takes (firstRecord 1) true = true ∧ takes (firstRecord 0) false = true ∧ takes (firstRecord 7) false = true) ∧
    (let s := second { ctx := 1, ident := 2, queue := 5, launch := { prereqs := [(0x4000, 1), (0xB0000, 1)] } }
     (s.mod.grids.find? (fun e => e.2.source == 5 && e.2.phase == .waiting)).map (·.1) = some 2 ∧
      s.unmet 1 [(0x4000, 1), (0xB0000, 1)] = [(0xB0000, 1)] ∧ s.unmet 1 [(0x4000, 1)] = []) ∧
    (∀ n ∈ [1, 2], let s := second (placing [(127, [(98, n)])] [])
      (firstGrid s).map (fun g => (g.left.2, (Table.get (0, 0) g.dieRange 7).2, g.rangesOf 127)) = some (0, 0, [(98, n)]) ∧
      (match firstGrid s with
        | some g => match (s.putGrid 2 g).tryGroup 2 g 127 98 with
          | some u => !(u.context 1).peephole
          | none => false
        | none => false) = true) ∧
    (let s := second (placing [(112, [(0, 2)]), (113, [(2, 2)]), (114, [(4, 1)])] [])
     (firstGrid s).map (fun g => (g.left.2, (Table.get (0, 0) g.dieRange 7).2, g.rangesOf 127, g.rangesOf 112)) = some (0, 0, [], [(0, 2)]) ∧
      (match firstGrid s with
        | some g => (s.tryGroup 2 g 127 0).isSome && (clustersOf (dieOfCluster 127)).all (fun j =>
            let y := groupsIn (g.rangesOf j)
            j == 127 || j == 112 || decide (y < 2) || (y == 2 && decide (112 < j)))
        | none => false) = true) ∧
    (let s := second (placing [] [{ index := 100, cluster := 127, key := 1, entries := [] }])
     (match firstGrid s with
        | some g => (match g.conts.find? (fun c => s.contPlace 2 g c == some 127) with
          | some c => (s.tryCont 2 g 127 c).isSome
          | none => false) && !(s.context g.ctx).peephole
        | none => false) = true) ∧
    ((hosted exited).warp? 3 = some exited ∧ exited.living = 0 ∧ exited.copiesOut = [] ∧ exited.flights = [] ∧ exited.pend = none ∧
      exited.trap = none ∧ exited.resid = .resident) ∧
    (∀ at_ ∈ [0, 4, 0xB0000], (emptied at_).grid? 1 = some { Image.gridOf with launch := { counter := at_ } } ∧
      (emptied at_).mayRetire { Image.gridOf with launch := { counter := at_ } } = true ∧
      ({ counter := at_ } : Launch).counts = decide (at_ = 0xB0000)) ∧
    ((emptied 0xB0000).devPlace 1 0xB0000 (.at true)).loc? = some 0xB0000 ∧ (emptied 0xB0000).entries = [] ∧
    (let s := { emptied 0xB0000 with entries := [{ id := 1, place := .xb, kind := .write, loc := 2 ^ 45, len := 4, scope := .sys, warp := 3, lane := 5, order := 1 }] }
     let g := { Image.gridOf with launch := { counter := 0xB0000 } }
     s.mayRetire g = true ∧ ∃ e ∈ s.entries, e.id ∈ s.releasing g) ∧
    ((queuedAt 0 4 4 1).header 0).isSome = true ∧ ((queuedAt 0 4 4 1).queue 0).tail = none ∧ regWindow ((0x80000 + 128 * 63 + 0x0D) % paTop) = none ∧
    (∃ h g, (inContext (firstRecord 1) (Config.queueContext 0)).header 0 = some h ∧
      (inContext (firstRecord 1) (Config.queueContext 0)).nextRecord 0 = some g ∧
      (inContext (firstRecord 1) (Config.queueContext 0)).statusOf g.ctx g.launch = 1) := by
  have taken : ∃ h g, (inContext (firstRecord 1) (Config.queueContext 0)).header 0 = some h ∧
      (inContext (firstRecord 1) (Config.queueContext 0)).nextRecord 0 = some g ∧
      (inContext (firstRecord 1) (Config.queueContext 0)).statusOf g.ctx g.launch = 1 := by
    obtain ⟨h, g, h1, h2, -, -, -, h3, -⟩ := takes_sound (s := firstRecord 1) (good := true) (by decide +kernel)
    exact ⟨h, g, h1, h2, h3.2 rfl⟩
  and_intros <;> first | exact taken | decide +kernel

/-! ### The events of warps -/

/-- Eight NOPs with S = 1, a safe-point table of one entry at 0xC_0000: PC 0, save 0x10, restore 0x18 (Table 8.4). -/
def safeCode : List Byte := (List.replicate 8 (leBytes 8 0xA01C000000000000)).flatten
def saving (w : Warp) : State :=
  let s := (State.reset.withCode safeCode 0).putWarp Image.warp w
  let s := { s with mod := { s.mod with grids := [(1, { Image.gridOf with kern := { Image.kernel with spTable := 0xC0000, spCount := 1 } })] } }
  (s.pokeN 0xC0000 8 0x1000000000).pokeN 0xC0008 8 0x18
def commanded (op : Nat) (w : Warp) : State :=
  let s := saving w
  { s with mod := { s.mod with command := some (op, { ctx := 1 }), contexts := [(1, { Image.context with switchMask := if op = 9 then some 1 else none })] } }

def dueWarp (why : SaveWhy) : Warp := { codedWarp with saveDue := [why] }
def parkedWarp : Warp := { dueWarp .switch with parked := Mask.all, cur := none, copiesOut := [1] }
def frozenOf (st : TState) : Frozen := { threads := [(31, { st := st })], trap := none, done := 0, rot := 0, cur := none }
/-- A warp whose routine has ended in lane 0, with another to run, or none. -/
def busyWarp (restore : Bool) (todo : List (Nat × Mask)) : Warp :=
  { codedWarp with threads := [(0, { st := .tret })], resid := .busy { restore := restore, mask := 1, todo := todo, frozen := frozenOf .ready } }
def savedWarp (st : TState) : Warp := { codedWarp with resid := .saved (frozenOf st), cur := none }
def sleeper : Warp := { codedWarp with threads := [(0, { st := .sleep 0 8 }), (31, { st := .sleep 1 8 })] }

/-- The same with 16 bytes of scratchpad to a team, and no window. -/
def smallPads (s : State) : State := { s with mod := { s.mod with
  grids := Table.mapVal (fun _ (g : Grid) => { g with kern := { g.kern with scratch := 16, clusterspan := 0 } }) s.mod.grids } }

/-- A switched-off context on its way back: its span group, of one team, is in the save pool. -/
def returning : State :=
  let s := smallPads (commanded 10 (savedWarp .ready))
  { s with mod := { s.mod with
    teams := Table.mapVal (fun _ (t : Team) => { t with saved := true, poolAt := 0x40000 }) s.mod.teams
    spans := Table.mapVal (fun _ (x : Span) => { x with poolAt := 0x20000 }) s.mod.spans } }
def queues : SMap TQ := [(15, { ring := 2 ^ 32 - 1, depth := 4, head := 3, tail := 2, count := 3, allow := [(31, 255)] })]

theorem witness_WarpEvents :
    (let w := { codedWarp with cur := some 0x20, quantum := 64 }
     (coded (fun _ => w)).warp? 3 = some w ∧ w.readyMask &&& ~~~(0x20 : Mask) ≠ 0 ∧ w.waitPage = none ∧ w.access &&& 0x20 = 0) ∧
    ((coded (fun _ => sleeper)).warp? 3 = some sleeper ∧ sleeper.resid = .resident ∧ (sleeper.th 0).st = .sleep 0 8 ∧
      (0 : Nat) ≤ (coded (fun _ => sleeper)).mod.gts) ∧
    (∀ n ∈ [239, 240], Table.get 0 (Table.get {} ((State.reset.modPart 3071 (fun p => { p with ports := [(2, { floors := [(15, n)] })] })).part 3071).ports 2).floors 15 = n ∧
      Table.find (Table.get {} ((State.reset.modPart 3071 (fun p => { p with ports := [(2, { floors := [(15, n)] })] })).part 3071).ports 2).due 15 = none) ∧
    (let s := State.reset.withCode (leBytes 8 0x831C000000000000) 0
     s.warp? 3 = some Image.warpOf ∧ Image.warpOf.cur = some Mask.all ∧ s.offer Image.warpOf ((Mask.all).lowest.getD 0) = .bad true 0x18 0) ∧
    ((saving parkedWarp).warp? 3 = some parkedWarp ∧ parkedWarp.resid = .resident ∧ (saving parkedWarp).savable parkedWarp = false ∧
      parkedWarp.parked ≠ 0 ∧ parkedWarp.readyMask = 0 ∧ parkedWarp.stopped = none ∧ parkedWarp.living ≠ 0 ∧
      ({ dueWarp .switch with threads := [] } : Warp).living = 0) ∧
    (let s := saving (dueWarp .child)
     s.warp? 3 = some (dueWarp .child) ∧ s.savable (dueWarp .child) = true ∧ s.routines (dueWarp .child).releaseAll false = .run [(0x10, Mask.all)] ∧
      (s.context (s.ctxOf (dueWarp .child))).freeArea = some 0x20000 ∧ 2 ≤ (s.kernOf (dueWarp .child)).regs ∧
      (s.kernOf (dueWarp .child)).regs ≤ 1024 ∧ (dueWarp .child).saveDue.contains .stop = false) ∧
    (let s := saving (dueWarp .stop)
     s.savable (dueWarp .stop) = true ∧ (dueWarp .stop).saveDue.contains .stop = true ∧ (dueWarp .stop).stopped = none ∧
      s.routines (dueWarp .stop).releaseAll false = .run [(0x10, Mask.all)] ∧ (dueWarp .stop).living ≠ 0) ∧
    (∀ b ∈ [true, false], ∀ todo ∈ [[], [(0x18, (2 : Mask))]], (saving (busyWarp b todo)).warp? 3 = some (busyWarp b todo) ∧
      (busyWarp b todo).routineOver { restore := b, mask := 1, todo := todo, frozen := frozenOf .ready } = true) ∧
    (let f := frozenOf (.cwait [])
     let s := saving (savedWarp (.cwait []))
     s.warp? 3 = some (savedWarp (.cwait [])) ∧ (Table.get {} f.threads 31).st.gone = false ∧ (∀ l < 32, l ≠ 31 → (Table.get {} f.threads l).st.gone = true) ∧
      s.safeEntry (savedWarp (.cwait [])) 0 = .entry 0 0x10 0x18 ∧ ∀ slot ∈ [0, 63],
      let b := s.bay (s.ctxOf (savedWarp (.cwait []))) (savedWarp (.cwait [])).team (4 * (savedWarp (.cwait [])).core + slot / 16)
      slot % 16 ∈ b.slots ∧ s.mayRestore 3 (savedWarp (.cwait [])) f = true ∧
      (({ b with slots := [slot % 16] } : Bay).fits (s.kernOf (savedWarp (.cwait [])))).isSome = true) ∧
    (let s := commanded 10 (savedWarp .ready)
     s.mayRestore 3 (savedWarp .ready) (frozenOf .ready) = true) ∧
    (let s := commanded 9 (savedWarp .ready)
     s.mod.command = some (9, { ctx := 1 }) ∧ (s.context 1).switchMask = some 1 ∧ s.offClusters 1 1 = true ∧
      s.team? 2 = some Image.teamOf ∧ (s.grid Image.teamOf.grid).ctx = 1 ∧ (1 : Nat).testBit (clusterOfCore Image.teamOf.core) = true ∧
      Image.teamOf.saved = false ∧
      (match ((smallPads s).modContext 1 (fun c => { c with poolSize := 2 ^ 18 })).copyOut 1 1 with | .ok _ => true | .error _ => false) = true ∧
      (match s.toPool 1 [1, 2] with | .ok r => decide (r.2 = 0x20000) | .error _ => false) = true ∧
      (match (s.modContext 1 (fun c => { c with areas := [c.pool] })).toPool 1 [1, 2] with | .ok _ => true | .error _ => false) = false) ∧
    ((commanded 10 (savedWarp .ready)).mod.command = some (10, { ctx := 1 }) ∧ (commanded 10 (savedWarp .ready)).spansAway 1 = [] ∧
      ((returning.spansAway 1).map (·.1) = [Image.span]) ∧ (returning.span? Image.span).map returning.backWaits = some none ∧
      ((returning.pokeN 0x3000 8 0x0B).span? Image.span).map (returning.pokeN 0x3000 8 0x0B).backWaits = some (some (0, 2 ^ 30)) ∧
      (returning.team? Image.team).map (fun t => (t.saved, t.core)) = some (true, 0) ∧ (returning.grid (returning.team Image.team).grid).kern.scratch = 16 ∧
      (let at_ := [(2 ^ 21 - 8, 8), (0, 16)]
       (∀ p ∈ at_, p.1 + p.2 ≤ 2 ^ 21) ∧ 16 ≤ (at_.map (·.2)).sum ∧ at_.Pairwise (fun p q => p.1 + p.2 ≤ q.1 ∨ q.1 + q.2 ≤ p.1))) ∧
    (Table.find queues 15 = some { ring := 2 ^ 32 - 1, depth := 4, head := 3, tail := 2, count := 3, allow := [(31, 255)] } ∧
      ∀ j, Table.get 0 [(31, 255)] j < 256) := by
  and_intros <;> first | decide +kernel | (intro j; simp only [Table.get, Table.find]; split <;> decide)

/-! ### The ordering machine -/

/-- What stands in one buffer, in `memory`, with loads and a warp. -/
def holding (w : Warp) (es : List Entry) (ls : List Load) : State := { coded (fun _ => w) with entries := es, loads := ls }
def flight (id : Nat) (k : FKind) (ws : List RegW) : Flight :=
  { id := id, op := 0x80, pc := 0, lanes := 0x60, front := 0x60, win := [], due := 0, writes := ws, dests := ws.map RegW.dest, raised := [(5, 1)]
    kind := k, ret := [], order := 0 }
def item (ids : List Nat) : LoadItem := { lane := 5, dst := .v 7, ty := .u32, cnt := 1, loads := ids }
def flying : Warp := { memWarp with flights := [flight 10 .plain [.v 5 1023 9], flight 11 (.load [item [20, 21, 22, 23]]) [], flight 12 (.load [item [24]]) [],
  flight 13 .matrix [.v 6 0 9], flight 14 (.atomic (.v 7) .u32) []], order := 5 }
def byteLoad (id : Nat) (v : Option Byte) : Load :=
  { id := id, for_ := .warp 3 11, warp := 3, lane := 5, core := 0, loc := 0x3FFFF000 + id, scope := .core, order := 2, val := v }
def returned : State := holding flying [] ([20, 21, 22, 23].map (fun i => byteLoad i (some 1)) ++ [byteLoad 24 none])

def write (id : Nat) (p : Place) (loc : Nat) : Entry :=
  { id := id, place := p, kind := .write, loc := loc, len := 4, val := 0x01020304, scope := .dev, warp := 3, lane := 5, order := 1 }
def marker (p : Place) (sc : Scope) : Entry := { id := 1, place := p, kind := .relMarker, scope := sc, warp := 3, lane := 5, order := 1 }
def atomic (id g : Nat) (f : Option Nat) : Entry :=
  { write id (.db 0) 0x3FFFF000 with kind := .atomic g 0 (.op .add .u32) .com f }
def lone (e : Entry) : State := holding flying [e] []
/-- Does the entry, alone, leave for the next place? -/
def leaves (e : Entry) (p : Option Place) : Bool :=
  decide ((lone e).entry? e.id = some e) && (lone e).mayLeave e && decide ((lone e).oneWith e = [e]) && decide (e.nextPlace = p) && !e.kind.isAtomic

def moving (m : CSrc × CDst) (started : Bool) : Copy :=
  { id := 30, warp := 3, lane := 5, core := 0, ctx := 1, grid := 1, scope := .dev, toScratch := true, direct := true, order := 1, before := [], moves := [m]
    scr := [(0x040000000000, 16)], glob := none, started := started }
def engine (c : Copy) : State := { coded (fun _ => { memWarp with openSet := [30], copiesOut := [30], batches := [(0, [30])] }) with copies := [c] }
/-- Stream 1, RUNNING, of `n` elements, with `k` entries queued. -/
def detFetch (w : Warp) : State := let s := coded (fun _ => w); { s with mod := { s.mod with
  grids := [(Image.grid, { Image.gridOf with launch := { Image.gridOf.launch with det := true } })] } }
def fetching (n k : Nat) : Warp := { memWarp with streams := [(1, { st := .running, desc := wickBytes n 1 })], oqs := [(1, List.replicate k [])] }

/-- A walk of the last page of the first GiB, with a walker of die 7; and a warp that waits for it. -/
def walking (level table : Nat) (bytes : List Byte) : PageWalk := { id := 9, ctx := 1, va := 0x3FFF8000, level := level, table := table, bytes := bytes }
def walker (x : PageWalk) : State := memory.modDie 7 (fun d => { d with walks := [x] })
def waitingWarp (core : Nat) : Warp := { memWarp with part := 4 * core, missing := [0x3FFF8000] }

/-- A warp of a deterministic grid, with a flight whose window is open in lane 5, or closed. -/
def detFlying (left : Nat) : Warp := { memWarp with det := true, flights := [{ flight 10 .plain [.v 5 1023 9] with win := [(5, left)], raised := [] }], order := 5 }
theorem witness_OrderingSteps :
    (∀ n ∈ [0, 1], (holding (detFlying n) [] []).warp? 3 = some (detFlying n) ∧ (detFlying n).pend = none ∧
      (detFlying n).flight? 10 = some { flight 10 .plain [.v 5 1023 9] with win := [(5, n)], raised := [] }) ∧
    (returned.warp? 3 = some flying ∧ flying.pend = none ∧ flying.det = false ∧ (∀ f ∈ flying.flights, f.cc = 0 ∧ f.due ≤ (returned.core flying.core).cyc ∧ f.notBefore ≤ returned.mod.gts ∧
        flying.flight? f.id = some f ∧ ∀ e ∈ f.raised, e.2 &&& flying.fpctl.toNat % 64 = 0) ∧
      returned.itemWrites [item [20, 21, 22, 23]] = some [.v 5 7 0x01010101] ∧ returned.itemWrites [item [24]] = none) ∧
    ((item []).dst = .v 7 ∧ (item []).cnt = 1 ∧ ([1, 2, 3, 4] : List Byte).length = (item []).ty.bytes ∧
      ([255, 255] : List Byte).length = ({ item [] with ty := .i16 } : LoadItem).ty.bytes) ∧
    (let s := holding flying [write 1 (.tsq 3 5) 0x3FFFF000, write 2 (.tsq 3 5) 0x3FFFF003] []
     s.entry? 2 = some (write 2 (.tsq 3 5) 0x3FFFF003) ∧ s.mayLeave (write 2 (.tsq 3 5) 0x3FFFF003) = false) ∧
    (leaves (marker (.tsq 3 5) .core) (some (.cmb 0)) = true ∧ leaves (marker .xb .sys) none = true ∧ leaves (marker (.db 0) .dev) (some .xb) = true ∧
      leaves (marker (.tsq 3 5) .clus) (some (.cmb 0)) = true ∧ leaves (write 1 (.tsq 3 5) 0x3FFFF000) (some (.cmb 0)) = true ∧
      leaves (write 1 (.cmb 0) 0x3FFFF000) (some (.clb 0)) = true ∧ leaves (write 1 (.clb 0) 0x3FFFF000) (some (.db 0)) = true ∧
      ((lone (write 1 (.clb 0) 0x3FFFF000)).cluster 0).byteBudget = 0) ∧
    (∀ loc ∈ [0x3FFFFFFC, 0x040000000000], leaves (write 1 (if loc = 0x3FFFFFFC then .db 0 else .cmb 0) loc) none = true ∧ loc % 4096 + 4 ≤ 4096 ∧
      regWindow (loc % paTop) = none) ∧
    (∀ f ∈ [none, some 14], (lone (atomic 1 1 f)).entry? 1 = some (atomic 1 1 f) ∧ (lone (atomic 1 1 f)).groupOf (atomic 1 1 f) = [atomic 1 1 f] ∧
      (lone (atomic 1 1 f)).mayPerform (atomic 1 1 f) = true ∧ min (scopeLevel .dev) (homeOf 0x3FFFF000) = homeOf 0x3FFFF000) ∧
    (flight 14 (.atomic (.v 7) .u32) [] ∈ flying.flights ∧ mayCombine (atomic 1 1 none) (atomic 2 2 none) = true ∧
      -- in one buffer, and in the buffers of two dies
      (∀ b ∈ [atomic 2 2 none, { atomic 2 2 none with place := .db 7, core := 767, warp := 4 }],
        let a := atomic 1 1 none
        let s := holding flying [a, b] []
        let t := (if a.place = b.place then s.unite a b else s).merged a b
        s.entry? 1 = some a ∧ s.entry? 2 = some b ∧ mayCombine a b = true ∧ (∀ x ∈ s.olderThan a, x.id ≠ 2) ∧ s.leads a = true ∧ s.leads b = true ∧
        (a.place = b.place → s.comesBetween a b = false) ∧ crossed (t.entries.filter (fun x => x.kind.group == some 1)) = false ∧
        (∀ x ∈ t.entries, t.inStep x x.place = true ∧ ∀ y ∈ t.entries, t.follows x y = false) ∧
        ∀ y ∈ t.entries, t.jams (t.entries.filter (fun x => x.kind.group == some 1)) y = false)) ∧
    (∀ es ∈ [[], [write 1 (.tsq 3 5) (0x3FFFF000 + 24)]], let s := holding flying es [byteLoad 24 none]
      s.loads.find? (fun x => x.id == 24) = some (byteLoad 24 none) ∧ s.mayLoad (byteLoad 24 none) = true ∧ (s.cluster 0).byteBudget = 0 ∧
      Table.find (s.core 0).cc (byteLoad 24 none).loc = none ∧
      (s.entries.reverse.find? (fun y => (match y.place with | .tsq _ _ => true | _ => false) && y.warp == 3 && decide (y.order < 2) && y.kind.isWrite
        && y.byLane 5 (byteLoad 24 none).loc)) = es.head?) ∧
    (∀ m ∈ [(CSrc.loc 0x3FFFF000, CDst.loc 0x040000000000), (.fill 7, .loc 0x04000000000F)], (engine (moving m false)).mayStart (moving m false) = true ∧
      (engine (moving m false)).copies.find? (fun x => x.id == 30) = some (moving m false) ∧
      (engine (moving m false)).cutOff 0x04000000000F = false ∧ (engine (moving m false)).cutOff 0x3FFFF000 = false ∧
      (engine (moving m false)).assigned 0x04000000000F = true ∧ (engine (moving m false)).assigned 0x3FFFF000 = true ∧
      (engine (moving m true)).copyDone (moving m true) = true) ∧
    (∀ e ∈ [(8, 0), (7, 6), (8, 7)], (fetching e.1 e.2).nextIndex 1 = some e.2 ∧
      e.2 < e.1 ∧
      (let s := detFetch (fetching e.1 e.2)
       let read := s.streamRead 3 (fetching e.1 e.2) { st := .running, desc := wickBytes e.1 1 }
       s.readsAhead 3 = false ∧ (s.cluster 0).byteBudget = 0 ∧ (streamCount read (wickBytes e.1 1)).toOption = some e.1 ∧
        (match nextEntry read (wickBytes e.1 1) e.2 with | .entry _ => true | _ => false) = true)) ∧
    (∀ x ∈ [walking 4 0x1000 [], walking 4 0x1000 [1, 0x20, 0, 0, 0, 0, 0], walking 2 0x3000 [0x0F, 0, 0, 0, 0, 0, 0]], let s := walker x
      ((s.die 7).walks.take 64).find? (fun y => y.ctx == 1 && y.va == unitOf 0x3FFFFFFF) = some x ∧ s.context? 1 ≠ none ∧ dieOfCore 767 = 7 ∧
      tlbFind (s.die 7).tlb 1 0x3FFFFFFF = none ∧ s.waitsWalk 7 x (waitingWarp 767) = true) ∧
    ((walker (walking 2 0x3000 [])).walkEntry true 0x0F 2 = .inl (.leaf 0x0F 2) ∧ entryBit 0x0F 2 = true ∧
      (walker (walking 4 0x1000 [])).walkEntry true 0x2001 4 = .inr 0x2000) := by
  and_intros <;> decide +kernel

/-! ### R306: atomics performed ahead -/

/-- BRA to 0x10 under P1, MOVI into the register given, and ATOM.ADD.U32.DEV.SPEC V20, [V30], V12. -/
def specForm : FormAt := { d := .v 20, a := .v 30, b := .v 12, ty := .u32, scope := .dev, use := .spec }
def aheadMemory (n : Nat) (w : Warp) : State :=
  (State.reset.withCode ((encode (.bra { p := 1 } 2 none) ++ encode (.movi { d := .v n, b := .imm10 3 }) ++ encode (.atom specForm .add)).flatMap (leBytes 8)) 0).putWarp
    Image.warp w
def specOf : SpecAtomic := { form := specForm, cmp := .none, op := some .add }
def waysOf (n pc words : Nat) : List (Nat × FormAt) := ((aheadMemory n memWarp).specsFrom memWarp 16 words [] pc).filterMap (fun a =>
  if a.2.1.kept (fun _ => none) (fun _ => none) a.2.2 then some (a.1.1, a.2.1.form) else none)
/-- It stands on both ways; not when MOVI writes a source on the one, nor beyond the words looked at. -/
theorem test_ways : waysOf 40 8 16 = [(16, specForm)] ∧ waysOf 40 16 1 = [(16, specForm)] ∧ waysOf 12 8 16 = [] ∧ waysOf 12 16 16 = [(16, specForm)] ∧
    waysOf 40 8 1 = [] ∧ waysOf 40 0 16 = [] := by decide +kernel
/-- Performed ahead in both lanes, lane 5 alone going that way; and what comes back at the instruction. -/
def aheadOf : State := ((aheadMemory 40 memWarp).at_ memWarp 0x60 (.bra { p := 1 } 2 none)).performAhead (aheadMemory 40 memWarp) (16, 0) specOf (fun _ => true) (· == 5)
theorem test_ahead : aheadOf.entries.map (fun e => (e.lane, e.val)) = [(5, 7), (6, 7)] ∧
    (aheadOf.warp? 3).map (fun w => w.early.map (fun e => (e.lane, e.at_, e.old))) = some [(5, 16, none)] := by decide +kernel
def reached : Warp := { (memWarp.modLanes 0x60 (fun _ t => { t with pc := 16 })) with early := [5, 6].map (fun l => { lane := l, at_ := 16, id := 9, old := some (90 + l) }) }
theorem test_reached : let s := aheadMemory 40 reached
    (next (.atom specForm .add) s).entries = [] ∧ due (.atom specForm .add) s 5 20 = some 95 ∧ due (.atom specForm .add) s 6 20 = some 96 ∧
    (after (.atom specForm .add) s).map (·.early) = some [] := by decide +kernel

theorem witness_PerformedAhead :
    (let s := aheadMemory 40 memWarp
     s.warp? 3 = some memWarp ∧ s.watched memWarp = false ∧ memWarp.trap = none ∧ (s.gridOf memWarp).launch.det = false ∧ specOf.form.use = .spec ∧
      (0x60 : Mask).lanes.all (fun l => match s.check memWarp .global (.at true) l ((s.at_ memWarp 0x60 (.nop {})).address .global (.v 30) (.imm32 0) l) 4 4 with
        | .ok _ => true
        | _ => false) = true) ∧
    Meets (.atom specForm .add) (aheadMemory 40 reached) reached 0x60 32 [.v 12] ∧
    Meets (.atomc { specForm with off := some 0 } (.v 1)) (aheadMemory 40 reached) reached 0x60 32 [.v 12, .v 1] ∧
    (let c := (aheadMemory 40 reached).at_ reached 0x60 (.atom specForm .add)
     c.todo = [5, 6] ∧ ∀ l ∈ [5, 6], (c.early l).bind (·.old) = some (90 + l)) ∧ memWarp.early = [] :=
  ⟨by decide +kernel, meets_sound (by decide +kernel), meets_sound (by decide +kernel), by decide +kernel, by decide +kernel⟩

end Sys2Proof.Tests
end

section
/-! SUPPORT. The values of logic, shifts and counts (R154), of the bit fields and the byte permutation (R155) and of LEA (R156):
each function of the model is the operation on bit vectors, or the bits, that the rule names. -/
namespace Sys2Proof

/-! ## Bits of a number -/

theorem NumTy.bits_pos (t : NumTy) : 0 < t.bits := by cases t <;> decide
theorem NumTy.bits_le (t : NumTy) : t.bits ≤ 64 := by cases t <;> decide

/-- The low bits of a number, summed one by one, are its residue. -/
theorem sum_testBit (x n : Nat) : ((List.range n).map (fun k => if x.testBit k then 2 ^ k else 0)).sum = x % 2 ^ n := by
  induction n with
  | zero => simp [Nat.mod_one]
  | succ n ih =>
    rw [List.range_succ, List.map_append, List.sum_append, ih, Nat.mod_pow_succ]
    by_cases h : x / 2 ^ n % 2 = 1
    · simp [Nat.testBit_eq_decide_div_mod_eq, h]
    · simp [Nat.testBit_eq_decide_div_mod_eq, Nat.mod_two_ne_one.1 h]

/-- A number below 2^n is the sum of the bits that it has. -/
theorem eq_sum_of_testBit {x n : Nat} {bit : Nat → Bool} (hx : x < 2 ^ n) (h : ∀ k < n, x.testBit k = bit k) :
    x = ((List.range n).map (fun k => if bit k then 2 ^ k else 0)).sum := by
  have e : (List.range n).map (fun k => if bit k then 2 ^ k else 0) = (List.range n).map (fun k => if x.testBit k then 2 ^ k else 0) :=
    List.map_congr_left (fun k hk => by rw [h k (List.mem_range.1 hk)])
  rw [e, sum_testBit, Nat.mod_eq_of_lt hx]

/-- The highest bit of a `w`-bit number, as the model reads it. -/
theorem msb_ofNat {w : Nat} (hw : 0 < w) (a : Nat) : (BitVec.ofNat w a).msb = a.testBit (w - 1) := by
  rw [BitVec.msb_eq_getLsbD_last, BitVec.getLsbD_ofNat, decide_eq_true (show w - 1 < w by omega), Bool.true_and]

/-- Two bit vectors side by side, as a number. -/
theorem toNat_append_add {v w : Nat} (x : BitVec v) (y : BitVec w) : (x ++ y).toNat = x.toNat * 2 ^ w + y.toNat := by
  rw [BitVec.toNat_append, ← Nat.shiftLeft_add_eq_or_of_lt y.isLt, Nat.shiftLeft_eq]

/-! ## Shifts and rotations -/

theorem shlOf_eq (w a k : Nat) : shlOf w a k = (BitVec.ofNat w a <<< k).toNat := by
  unfold shlOf
  split
  · next h => simp [BitVec.shiftLeft_eq_zero h]
  · simp [Nat.shiftLeft_eq]

theorem shrOf_eq (w a k : Nat) : shrOf w a k = (BitVec.ofNat w a >>> k).toNat := by
  unfold shrOf
  split
  · next h => simp [BitVec.ushiftRight_eq_zero h]
  · simp [Nat.shiftRight_eq_div_pow]

/-- A shift by the width or more leaves what a shift by the width does. -/
theorem div_two_pow_min {w x : Nat} (hx : x < 2 ^ w) (k : Nat) : x / 2 ^ min k w = x / 2 ^ k := by
  rcases Nat.le_total k w with h | h
  · rw [Nat.min_eq_left h]
  · rw [Nat.min_eq_right h, Nat.div_eq_of_lt hx, Nat.div_eq_of_lt (Nat.lt_of_lt_of_le hx (Nat.pow_le_pow_right (by decide) h))]

/-- Shifting the complement right, and complementing again, fills with ones. -/
theorem complement_div {w m x : Nat} (hx : x < 2 ^ w) (hm : m ≤ w) :
    2 ^ w - 1 - (2 ^ w - 1 - x) / 2 ^ m = x / 2 ^ m + (2 ^ w - 2 ^ (w - m)) := by
  have hw : 2 ^ w = 2 ^ m * 2 ^ (w - m) := by rw [← Nat.pow_add]; congr 1; omega
  have hd : (2 ^ w - 1 - x) / 2 ^ m = 2 ^ (w - m) - (x / 2 ^ m + 1) := by
    rw [show 2 ^ w - 1 - x = 2 ^ m * 2 ^ (w - m) - (x + 1) by omega]
    exact Nat.mul_sub_div _ _ _ (hw ▸ hx)
  have hq : x / 2 ^ m < 2 ^ (w - m) := Nat.div_lt_of_lt_mul (hw ▸ hx)
  have hle : 2 ^ (w - m) ≤ 2 ^ w := Nat.pow_le_pow_right (by decide) (by omega)
  rw [hd]
  clear hd hw
  generalize 2 ^ w = p, 2 ^ (w - m) = q, x / 2 ^ m = y at *
  omega

theorem sarOf_eq {w : Nat} (hw : 0 < w) (a k : Nat) : sarOf w a k = ((BitVec.ofNat w a).sshiftRight k).toNat := by
  have hx : a % 2 ^ w < 2 ^ w := Nat.mod_lt _ (Nat.two_pow_pos w)
  have hm := msb_ofNat hw a
  unfold sarOf
  by_cases h : a / 2 ^ (w - 1) % 2 = 1
  · rw [Nat.testBit_eq_decide_div_mod_eq, decide_eq_true h] at hm
    rw [BitVec.toNat_sshiftRight_of_msb_true hm, BitVec.toNat_ofNat, Nat.shiftRight_eq_div_pow,
      ← div_two_pow_min (show 2 ^ w - 1 - a % 2 ^ w < 2 ^ w by omega), complement_div hx (Nat.min_le_right k w)]
    exact if_pos h
  · rw [Nat.testBit_eq_decide_div_mod_eq, decide_eq_false h] at hm
    rw [BitVec.toNat_sshiftRight_of_msb_false hm, BitVec.toNat_ofNat, Nat.shiftRight_eq_div_pow, ← div_two_pow_min hx]
    exact if_neg h

theorem rotlOf_eq {w : Nat} (hw : 0 < w) (a k : Nat) : rotlOf w a k = ((BitVec.ofNat w a).rotateLeft (k % w)).toNat := by
  have hk : k % w < w := Nat.mod_lt _ hw
  have hx : a % 2 ^ w < 2 ^ w := Nat.mod_lt _ (Nat.two_pow_pos w)
  have hlow : a % 2 ^ w / 2 ^ (w - k % w) < 2 ^ (k % w) := by
    refine Nat.div_lt_of_lt_mul ?_
    rwa [← Nat.pow_add, show w - k % w + k % w = w by omega]
  unfold rotlOf
  simp only []
  rw [BitVec.toNat_rotateLeft, Nat.mod_mod, BitVec.toNat_ofNat, ← Nat.shiftLeft_eq, Nat.shiftLeft_add_eq_or_of_lt hlow,
    Nat.or_mod_two_pow, Nat.shiftRight_eq_div_pow,
    Nat.mod_eq_of_lt (Nat.lt_of_lt_of_le hlow (Nat.pow_le_pow_right (by decide) (Nat.le_of_lt hk)))]

theorem fshOf_eq (right : Bool) (a b c : Nat) :
    fshOf right a b c = (if right then ((BitVec.ofNat 32 a ++ BitVec.ofNat 32 b) >>> (c % 32)).extractLsb 31 0
      else ((BitVec.ofNat 32 a ++ BitVec.ofNat 32 b) <<< (c % 32)).extractLsb 63 32).toNat := by
  unfold fshOf
  have ht := toNat_append_add (BitVec.ofNat 32 a) (BitVec.ofNat 32 b)
  simp only [BitVec.toNat_ofNat] at ht
  cases right
  · simp only [Bool.false_eq_true, if_false, BitVec.extractLsb_toNat, BitVec.toNat_shiftLeft, ht, Nat.shiftLeft_eq,
      Nat.shiftRight_eq_div_pow]
    omega
  · simp only [if_true, BitVec.extractLsb_toNat, BitVec.toNat_ushiftRight, ht, Nat.shiftRight_eq_div_pow]
    omega

/-! ## Counts and reversal -/

theorem popcount_eq_countP (w x : Nat) : popcount w x = (List.range w).countP (fun k => x.testBit k) := by
  induction w generalizing x with
  | zero => rfl
  | succ w ih =>
    rw [popcount, ih, List.range_succ_eq_map, List.countP_cons, List.countP_map, Nat.add_comm]
    congr 1
    · exact List.countP_congr (fun k _ => by simp [Nat.testBit_succ])
    · rcases Nat.mod_two_eq_zero_or_one x with h | h <;> simp [Nat.testBit_zero, h]

theorem ctzOf_eq_find (w x : Nat) : ctzOf w x = ((List.range w).find? (fun k => x.testBit k)).getD w := by
  induction w generalizing x with
  | zero => rfl
  | succ w ih =>
    have e : ((fun k => x.testBit k) ∘ Nat.succ) = fun k => (x / 2).testBit k := by
      funext k; exact Nat.testBit_succ x k
    rw [ctzOf, List.range_succ_eq_map, List.find?_cons, List.find?_map, e, ih]
    by_cases h : x % 2 = 1
    · simp [Nat.testBit_zero, h]
    · simp only [Nat.testBit_zero, h, decide_false, if_false]
      cases (List.range w).find? (fun k => (x / 2).testBit k) <;> simp [Nat.add_comm]

/-- The first bit from the top, at place `w - 1 - log2 x`. -/
theorem clzOf_eq_find {w x : Nat} (hx : x < 2 ^ w) :
    clzOf w x = ((List.range w).find? (fun k => decide (k < w) && x.testBit (w - 1 - k))).getD w := by
  unfold clzOf
  by_cases h0 : x = 0
  · rw [if_pos h0, List.find?_eq_none.2 (by simp [h0]), Option.getD_none]
  · have hlog : x.log2 < w := (Nat.log2_lt h0).2 hx
    have hfirst : (List.range w).find? (fun k => decide (k < w) && x.testBit (w - 1 - k)) = some (w - 1 - x.log2) := by
      refine List.find?_range_eq_some.2 ⟨?_, List.mem_range.2 (by omega), fun j hj => ?_⟩
      · rw [show w - 1 - (w - 1 - x.log2) = x.log2 by omega, decide_eq_true (show w - 1 - x.log2 < w by omega), Bool.true_and]
        exact Nat.testBit_log2 h0
      · rw [Nat.testBit_lt_two_pow ((Nat.log2_lt h0).1 (by omega)), Bool.and_false, Bool.not_false]
    rw [if_neg h0, hfirst, Option.getD_some]

theorem bitrev_lt (w x : Nat) : bitrev w x < 2 ^ w := by
  induction w generalizing x with
  | zero => simp [bitrev]
  | succ w ih =>
    have := ih (x / 2)
    rw [bitrev, Nat.pow_succ]
    rcases Nat.mod_two_eq_zero_or_one x with h | h <;> rw [h] <;> omega

theorem testBit_bitrev (w x j : Nat) : (bitrev w x).testBit j = (decide (j < w) && x.testBit (w - 1 - j)) := by
  induction w generalizing x j with
  | zero => simp [bitrev]
  | succ w ih =>
    rw [bitrev, Nat.mul_comm, Nat.testBit_two_pow_mul_add _ (bitrev_lt w _), ih]
    by_cases hj : j < w
    · rw [if_pos hj, ← Nat.testBit_succ, show (w - 1 - j).succ = w + 1 - 1 - j by omega]
      simp [hj, show j < w + 1 by omega]
    · by_cases he : j = w
      · simp [he, Nat.testBit_zero]
      · have : (x % 2).testBit (j - w) = false :=
          Nat.testBit_lt_two_pow (Nat.lt_of_lt_of_le (Nat.mod_lt x (by decide)) (Nat.pow_le_pow_right (show 0 < 2 by decide) (show 1 ≤ j - w by omega)))
        simp [hj, this, show ¬ j < w + 1 by omega]

theorem bitrev_eq (w a : Nat) : bitrev w a = (BitVec.ofNat w a).reverse.toNat := by
  refine Nat.eq_of_testBit_eq (fun j => ?_)
  rw [testBit_bitrev, BitVec.testBit_toNat, BitVec.getLsbD_reverse, BitVec.getMsbD_eq_getLsbD, BitVec.getLsbD_ofNat]
  by_cases h : j < w
  · simp [h, show w - 1 - j < w by omega]
  · simp [h]

theorem popcount_eq (w a : Nat) : popcount w (a % 2 ^ w) = (List.range w).countP (fun k => (BitVec.ofNat w a).getLsbD k) := by
  simp only [popcount_eq_countP, Nat.testBit_mod_two_pow, BitVec.getLsbD_ofNat]

theorem ctzOf_eq (w a : Nat) : ctzOf w (a % 2 ^ w) = ((List.range w).find? (fun k => (BitVec.ofNat w a).getLsbD k)).getD w := by
  simp only [ctzOf_eq_find, Nat.testBit_mod_two_pow, BitVec.getLsbD_ofNat]

theorem clzOf_eq (w a : Nat) : clzOf w (a % 2 ^ w) = ((List.range w).find? (fun k => (BitVec.ofNat w a).getMsbD k)).getD w := by
  rw [clzOf_eq_find (Nat.mod_lt _ (Nat.two_pow_pos w))]
  simp only [BitVec.getMsbD_eq_getLsbD, Nat.testBit_mod_two_pow, BitVec.getLsbD_ofNat]

/-! ## Sign extension and bit fields -/

theorem signExt_eq {k w : Nat} (hk : 0 < k) (h : k ≤ w) (x : Nat) : signExt k w x = ((BitVec.ofNat k x).signExtend w).toNat := by
  have hlt : x % 2 ^ k < 2 ^ w := Nat.lt_of_lt_of_le (Nat.mod_lt _ (Nat.two_pow_pos k)) (Nat.pow_le_pow_right (by decide) h)
  rw [BitVec.toNat_signExtend, BitVec.toNat_setWidth, BitVec.toNat_ofNat, Nat.mod_eq_of_lt hlt, msb_ofNat hk,
    Nat.testBit_eq_decide_div_mod_eq]
  unfold signExt
  by_cases hb : x / 2 ^ (k - 1) % 2 = 1 <;> simp [hb]

theorem testBit_signExt {k w : Nat} (hk : 0 < k) (h : k ≤ w) (x j : Nat) :
    (signExt k w x).testBit j = (decide (j < w) && x.testBit (if j < k then j else k - 1)) := by
  rw [signExt_eq hk h, BitVec.testBit_toNat, BitVec.getLsbD_signExtend, msb_ofNat hk, BitVec.getLsbD_ofNat]
  by_cases hj : j < k <;> simp [hj]

theorem signExt_lt {k w : Nat} (hk : 0 < k) (h : k ≤ w) (x : Nat) : signExt k w x < 2 ^ w := by
  rw [signExt_eq hk h]; exact BitVec.isLt _

/-- Bit `k` of a value with all its extension above (R155): past the width it reads the sign bit, or 0. -/
def extBit (signed : Bool) {w : Nat} (x : BitVec w) (k : Nat) : Bool := if k < w then x.getLsbD k else signed && x.msb

/-- A `w`-bit value with its sign bit, or 0, in the places from `w` to `N`. -/
def extendedTo (N : Nat) (signed : Bool) (w a : Nat) : Nat :=
  if signed && a % 2 ^ w / 2 ^ (w - 1) % 2 = 1 then a % 2 ^ w + (2 ^ N - 2 ^ w) else a % 2 ^ w

theorem testBit_extendedTo {w N j : Nat} (hw : 0 < w) (h : w ≤ N) (hj : j < N) (signed : Bool) (a : Nat) :
    (extendedTo N signed w a).testBit j = extBit signed (BitVec.ofNat w a) j := by
  unfold extendedTo extBit
  rw [msb_ofNat hw, BitVec.getLsbD_ofNat]
  cases signed
  · by_cases hjw : j < w <;> simp [Nat.testBit_mod_two_pow, hjw]
  · have e := testBit_signExt hw h (a % 2 ^ w) j
    simp only [signExt, Nat.mod_mod] at e
    simp only [Bool.true_and, decide_eq_true_eq]
    rw [e, decide_eq_true hj, Bool.true_and, Nat.testBit_mod_two_pow]
    by_cases hjw : j < w
    · rw [if_pos hjw, if_pos hjw]
    · rw [if_neg hjw, if_neg hjw, decide_eq_true (show w - 1 < w by omega), Bool.true_and]

/-- BFX takes its field from the value extended to 512 bits. -/
theorem bfxOf_eq (signed : Bool) (w a b : Nat) :
    let n := min (b / 256 % 256) w
    let field := extendedTo 512 signed w a / 2 ^ (b % 256) % 2 ^ n
    bfxOf signed w a b = if n = 0 then 0 else if signed then signExt n w field else field := rfl

theorem bfxOf_lt (signed : Bool) (w a b : Nat) : bfxOf signed w a b < 2 ^ w := by
  have hn : min (b / 256 % 256) w ≤ w := Nat.min_le_right ..
  rw [bfxOf_eq]
  generalize min (b / 256 % 256) w = n at *
  by_cases h0 : n = 0
  · rw [if_pos h0]; exact Nat.two_pow_pos w
  · rw [if_neg h0]
    split
    · exact signExt_lt (by omega) hn _
    · exact Nat.lt_of_lt_of_le (Nat.mod_lt _ (Nat.two_pow_pos n)) (Nat.pow_le_pow_right (by decide) hn)

/-- R155, BFX bit by bit: the field's bits from the bottom, then its highest bit again under a signed type. -/
theorem testBit_bfxOf {w k : Nat} (hw : 0 < w) (h64 : w ≤ 64) (hk : k < w) (signed : Bool) (a b : Nat) :
    let n := min (b / 256 % 256) w
    let bit := extBit signed (BitVec.ofNat w a)
    (bfxOf signed w a b).testBit k =
      if k < n then bit (b % 256 + k) else signed && decide (0 < n) && bit (b % 256 + (n - 1)) := by
  have hn : min (b / 256 % 256) w ≤ w := Nat.min_le_right ..
  have hp : b % 256 < 256 := Nat.mod_lt _ (by decide)
  have hbit := fun (j : Nat) (hj : j < 512) => testBit_extendedTo hw (show w ≤ 512 by omega) hj signed a
  rw [bfxOf_eq]
  simp only []
  generalize min (b / 256 % 256) w = n at *
  generalize b % 256 = p at *
  generalize extendedTo 512 signed w a = wide at *
  have hfield : ∀ j < n, (wide / 2 ^ p % 2 ^ n).testBit j = extBit signed (BitVec.ofNat w a) (p + j) := fun j hj => by
    rw [Nat.testBit_mod_two_pow, Nat.testBit_div_two_pow, Nat.add_comm, hbit _ (by omega), decide_eq_true hj, Bool.true_and]
  by_cases h0 : n = 0
  · simp [h0]
  · rw [if_neg h0]
    cases signed
    · by_cases hkn : k < n
      · simp [hkn, hfield k hkn]
      · simp [hkn, Nat.testBit_mod_two_pow]
    · rw [if_pos rfl, testBit_signExt (by omega) hn, decide_eq_true hk, Bool.true_and]
      by_cases hkn : k < n
      · simp [hkn, hfield k hkn]
      · simp [hkn, hfield (n - 1) (by omega), Nat.pos_of_ne_zero h0]

/-- The bits of a number in which `n` bits from bit `p` on have been replaced. -/
theorem testBit_replace (a c p n k : Nat) :
    (c - c / 2 ^ p % 2 ^ n * 2 ^ p + a % 2 ^ n * 2 ^ p).testBit k =
      if p ≤ k ∧ k < p + n then a.testBit (k - p) else c.testBit k := by
  have hc : c = 2 ^ p * (2 ^ n * (c / 2 ^ p / 2 ^ n) + c / 2 ^ p % 2 ^ n) + c % 2 ^ p := by
    rw [Nat.div_add_mod, Nat.div_add_mod]
  have e : c - c / 2 ^ p % 2 ^ n * 2 ^ p + a % 2 ^ n * 2 ^ p =
      2 ^ p * (2 ^ n * (c / 2 ^ p / 2 ^ n) + a % 2 ^ n) + c % 2 ^ p := by
    rw [Nat.mul_add] at hc
    rw [Nat.mul_add, Nat.mul_comm (c / 2 ^ p % 2 ^ n), Nat.mul_comm (a % 2 ^ n)]
    omega
  rw [e, Nat.testBit_two_pow_mul_add _ (Nat.mod_lt _ (Nat.two_pow_pos p)),
    Nat.testBit_two_pow_mul_add _ (Nat.mod_lt _ (Nat.two_pow_pos n)), Nat.testBit_mod_two_pow, Nat.testBit_mod_two_pow]
  by_cases h1 : k < p
  · simp [h1, show ¬ p ≤ k by omega]
  · by_cases h2 : k < p + n
    · simp [h1, h2, show k - p < n by omega, show p ≤ k by omega]
    · rw [if_neg h1, if_neg (by omega), if_neg (by omega), Nat.testBit_div_two_pow, Nat.testBit_div_two_pow]
      congr 1; omega

/-- R155, BFI bit by bit. -/
theorem testBit_bfiOf (w a b c k : Nat) :
    (bfiOf w a b c).testBit k =
      (decide (k < w) && if b % 256 ≤ k ∧ k < b % 256 + min (b / 256 % 256) w then a.testBit (k - b % 256) else c.testBit k) := by
  unfold bfiOf
  simp only []
  generalize min (b / 256 % 256) w = n at *
  generalize b % 256 = p at *
  by_cases hp : w ≤ p
  · rw [if_pos hp, Nat.testBit_mod_two_pow]
    by_cases hk : k < w
    · rw [if_neg (by omega)]
    · simp [hk]
  · rw [if_neg hp, testBit_replace, Nat.testBit_mod_two_pow]
    by_cases hk : k < w
    · simp [hk, show k < p + min n (w - p) ↔ k < p + n by omega]
    · simp [hk, show ¬ k < p + min n (w - p) by omega]

theorem bfiOf_lt (w a b c : Nat) : bfiOf w a b c < 2 ^ w :=
  Nat.lt_pow_two_of_testBit _ (fun k hk => by rw [testBit_bfiOf, decide_eq_false (by omega), Bool.false_and])

/-! ## Byte permutation and addresses -/

/-- What nibble `k` of the control of BPERM makes of a byte (R155): itself, or its bit 7 in every bit. -/
def nibbleByte (k : Nat) (x : BitVec 8) : BitVec 8 := if k < 8 then x else if x.msb then 0xFF#8 else 0x00#8

theorem nibbleByte_toNat (k : Nat) (x : BitVec 8) :
    (nibbleByte k x).toNat = if 8 ≤ k then (if 128 ≤ x.toNat then 255 else 0) else x.toNat := by
  unfold nibbleByte
  by_cases h : k < 8
  · rw [if_pos h, if_neg (show ¬ 8 ≤ k by omega)]
  · rw [if_neg h, if_pos (show 8 ≤ k by omega), BitVec.msb_eq_decide]
    by_cases hx : 128 ≤ x.toNat <;> simp [hx]

theorem bpermOf_eq (a b c : Nat) :
    let pick := fun i => nibbleByte (b / 16 ^ i % 16)
      ((BitVec.ofNat 32 c ++ BitVec.ofNat 32 a).extractLsb' (8 * (b / 16 ^ i % 8)) 8)
    bpermOf a b c = (pick 3 ++ pick 2 ++ pick 1 ++ pick 0).toNat := by
  have hbyte : ∀ i, ((BitVec.ofNat 32 c ++ BitVec.ofNat 32 a).extractLsb' (8 * (b / 16 ^ i % 8)) 8).toNat =
      (a % 2 ^ 32 + c % 2 ^ 32 * 2 ^ 32) / 256 ^ (b / 16 ^ i % 16 % 8) % 256 := fun i => by
    rw [BitVec.extractLsb'_toNat, toNat_append_add, Nat.shiftRight_eq_div_pow, Nat.pow_mul,
      show b / 16 ^ i % 16 % 8 = b / 16 ^ i % 8 by omega, Nat.add_comm (a % 2 ^ 32)]
    rfl
  simp only [bpermOf, toNat_append_add, nibbleByte_toNat, hbyte]
  omega

theorem leaOf_eq (signed : Bool) (a b k : Nat) :
    (a + (if signed then signExt 32 64 b else b % 2 ^ 32) * 2 ^ k) % 2 ^ 64 =
      (BitVec.ofNat 64 a + (if signed then (BitVec.ofNat 32 b).signExtend 64 else (BitVec.ofNat 32 b).setWidth 64) <<< k).toNat := by
  have e : (if signed then signExt 32 64 b else b % 2 ^ 32) =
      (if signed then (BitVec.ofNat 32 b).signExtend 64 else (BitVec.ofNat 32 b).setWidth 64).toNat := by
    cases signed
    · simp only [Bool.false_eq_true, if_false, BitVec.toNat_setWidth, BitVec.toNat_ofNat]; omega
    · exact signExt_eq (by decide) (by decide) b
  rw [e, BitVec.toNat_add, BitVec.toNat_shiftLeft, BitVec.toNat_ofNat, Nat.shiftLeft_eq, ← Nat.add_mod]

/-- R75: the integer of an encoding, as that of a bit vector. -/
theorem NumTy.toInt_eq (t : NumTy) (a : Nat) :
    t.toInt a = if t.signed then (BitVec.ofNat t.bits a).toInt else ((BitVec.ofNat t.bits a).toNat : Int) := by
  unfold NumTy.toInt
  cases t.signed
  · simp
  · rw [if_pos rfl, BitVec.toInt_eq_msb_cond, BitVec.msb_eq_decide, BitVec.toNat_ofNat]
    simp

end Sys2Proof
end

section
/-! SUPPORT. The completion of the forms of layouts A, A3 and P from the fields that encode them, and what an issue does that
changes predicates only (R55, R101). -/
namespace Sys2Proof.Machine
open Sys2Proof

/-- The opcode, the length and the header of an instruction are fields of its encoding (R93, R96). -/
theorem fields_of_raw {i : Instr} {r : Raw} (hr : i.raw = r) : i.op = r.op ∧ i.len = (if r.x = 1 then 16 else 8) ∧ i.hdr = r.hdr := by
  subst hr
  exact ⟨rfl, rfl, rfl⟩

/-- A form whose fields are those of layout A completes with what its meaning computes. -/
theorem completesA_of_raw {i : Instr} {f : FormA} {op x3 m7 : Nat} {wd wa wb : Bool} {val val' : Ctx → Nat → Nat → Nat → FRes}
    (hr : i.raw = rawA op f x3 m7) (hd : f.d.inFile) (he : ∀ s, exec i s = formA op f wd wa wb s val)
    (hv : ∀ c l a b, val c l a b = val' c l a b) : CompletesA i f wd wa wb val' := by
  obtain ⟨ho, hl, hh⟩ := fields_of_raw hr
  exact (formA_completes he ho hl (hh.trans (hdr_raw op f.hdr)) hd).of_eq hv

theorem completesA3_of_raw {i : Instr} {f : FormA3} {op x3 m0 : Nat} {wd wa wb wc : Bool} {val val' : Ctx → Nat → Nat → Nat → Nat → FRes}
    (hr : i.raw = rawA3 op f x3 m0) (hd : f.d.inFile) (he : ∀ s, exec i s = formA3 op f wd wa wb wc s val)
    (hv : ∀ c l a b d, val c l a b d = val' c l a b d) : CompletesA3 i f wd wa wb wc val' := by
  obtain ⟨ho, hl, hh⟩ := fields_of_raw hr
  exact (formA3_completes he ho hl (hh.trans (hdr_raw op f.hdr)) hd).of_eq hv

theorem completesP_of_raw {i : Instr} {f : FormP} {op m2 : Nat} {wa wb : Bool} {val val' : Ctx → Nat → Nat → Nat → Bool × Nat}
    (hr : i.raw = rawP op f m2) (he : ∀ s, exec i s = formP op f wa wb s val)
    (hv : ∀ c l a b, val c l a b = val' c l a b) : CompletesP i f wa wb val' := by
  obtain ⟨ho, hl, hh⟩ := fields_of_raw hr
  exact (formP_completes he ho hl (hh.trans (hdr_raw op f.hdr))).of_eq hv

/-! The three shapes of R154's forms: bitwise, with a 32-bit count, and counting. -/

theorem bitOp_completes {i : Instr} {f : FormA} {op x3 m7 : Nat} {g : Nat → Nat → Nat} {val : BitVec f.ty.bits → BitVec f.ty.bits → BitVec f.ty.bits}
    (hr : i.raw = rawA op f x3 m7) (hd : f.d.inFile) (he : ∀ s, exec i s = bitOp op f s g)
    (hv : ∀ x y : BitVec f.ty.bits, g x.toNat y.toNat = (val x y).toNat) :
    CompletesA i f f.ty.wide f.ty.wide f.ty.wide
      (fun _ _ a b => { bits := (val (BitVec.ofNat f.ty.bits a) (BitVec.ofNat f.ty.bits b)).toNat }) :=
  completesA_of_raw hr hd he (fun _ _ _ _ => by rw [← hv]; simp only [BitVec.toNat_ofNat]; rfl)

theorem ctlOp_completes {i : Instr} {f : FormA} {op x3 m7 : Nat} {g val : Nat → Nat → Nat}
    (hr : i.raw = rawA op f x3 m7) (hd : f.d.inFile) (he : ∀ s, exec i s = ctlOp op f s g)
    (hv : ∀ a k, g a (k % 2 ^ 32) = val a k) :
    CompletesA i f f.ty.wide f.ty.wide false (fun _ _ a b => { bits := val a b }) :=
  completesA_of_raw hr hd he (fun _ _ a b => congrArg plain (hv a b))

theorem countOp_completes {i : Instr} {f : FormA} {op x3 m7 : Nat} {g val : Nat → Nat}
    (hr : i.raw = rawA op f x3 m7) (hd : f.d.inFile) (he : ∀ s, exec i s = countOp op f s g)
    (hv : ∀ a, g (a % 2 ^ f.ty.bits) = val a) :
    CompletesA i f false f.ty.wide false (fun _ _ a _ => { bits := val a }) :=
  completesA_of_raw hr hd he (fun _ _ a _ => congrArg plain (hv a))

/-! What the dispatch makes of each form of R154–R158. -/

theorem exec_and (f : FormA) (s : State) : exec (.and f) s = bitOp 0x2D f s (· &&& ·) := rfl
theorem exec_or (f : FormA) (s : State) : exec (.or f) s = bitOp 0x2E f s (· ||| ·) := rfl
theorem exec_xor (f : FormA) (s : State) : exec (.xor f) s = bitOp 0x2F f s (· ^^^ ·) := rfl
theorem exec_andn (f : FormA) (s : State) : exec (.andn f) s = bitOp 0x30 f s (fun a b => a &&& (2 ^ f.ty.bits - 1 - b)) := rfl
theorem exec_not (f : FormA) (s : State) : exec (.not f) s = bitOp 0x31 f s (fun a _ => 2 ^ f.ty.bits - 1 - a) := rfl
theorem exec_shl (f : FormA) (s : State) : exec (.shl f) s = ctlOp 0x32 f s (shlOf f.ty.bits) := rfl
theorem exec_shr (f : FormA) (s : State) : exec (.shr f) s = ctlOp 0x33 f s (shrOf f.ty.bits) := rfl
theorem exec_sar (f : FormA) (s : State) : exec (.sar f) s = ctlOp 0x34 f s (sarOf f.ty.bits) := rfl
theorem exec_rotl (f : FormA) (s : State) : exec (.rotl f) s = ctlOp 0x35 f s (rotlOf f.ty.bits) := rfl
theorem exec_popc (f : FormA) (s : State) : exec (.popc f) s = countOp 0x37 f s (popcount f.ty.bits) := rfl
theorem exec_clz (f : FormA) (s : State) : exec (.clz f) s = countOp 0x38 f s (clzOf f.ty.bits) := rfl
theorem exec_ctz (f : FormA) (s : State) : exec (.ctz f) s = countOp 0x39 f s (ctzOf f.ty.bits) := rfl
theorem exec_brev (f : FormA) (s : State) : exec (.brev f) s =
    formA 0x3A f f.ty.wide f.ty.wide false s (fun _ _ a _ => plain (bitrev f.ty.bits a)) := rfl
theorem exec_bfx (f : FormA) (s : State) : exec (.bfx f) s = ctlOp 0x3B f s (bfxOf f.ty.signed f.ty.bits) := rfl
theorem exec_fsh (f : FormA3) (right : Bool) (s : State) : exec (.fsh f right) s =
    formA3 0x36 f false false false false s (fun _ _ a b c => plain (fshOf right a b c)) := rfl
theorem exec_bfi (f : FormA3) (s : State) : exec (.bfi f) s =
    formA3 0x3C f f.ty.wide f.ty.wide false f.ty.wide s (fun _ _ a b c => plain (bfiOf f.ty.bits a (b % 2 ^ 32) c)) := rfl
theorem exec_bperm (f : FormA3) (s : State) : exec (.bperm f) s =
    formA3 0x3D f false false false false s (fun _ _ a b c => plain (bpermOf a b c)) := rfl
theorem exec_lea (f : FormA3) (k : Nat) (signed : Bool) (s : State) : exec (.lea f k signed) s =
    formA3 0x3E f true true false false s (fun _ _ a b _ =>
      plain ((a + (if signed then signExt 32 64 b else b % 2 ^ 32) * 2 ^ k) % 2 ^ 64)) := rfl
theorem exec_icmp (f : FormP) (s : State) : exec (.icmp f) s =
    formP 0x3F f f.ty.wide f.ty.wide s (fun _ _ a b => (f.cond.int (f.ty.toInt a) (f.ty.toInt b), 0)) := rfl
theorem exec_plop (h : Hdr) (d pa pb pc : Nat) (table : BArg) (s : State) :
    let i := Instr.plop h d pa pb pc table
    exec i s = issue i.op i.len 0 i.hdr s (fun c =>
      let bit (l p n : Nat) : Nat := if c.pred l p then n else 0
      .done (c.s.putWarp c.wid (c.putPred c.w d (fun l => immVal .i32 table / 2 ^ (bit l pa 4 + bit l pb 2 + bit l pc 1) % 2 = 1)))) := by
  intro i
  rw [show i.hdr = h from hdr_raw 0x40 h]
  rfl
theorem exec_pmov_bit (f : FormP) (s : State) : exec (.pmov f false) s =
    formP 0x41 f false false s (fun _ _ a b => (a / 2 ^ (b % 32) % 2 = 1, 0)) := rfl
theorem exec_pmov_all (f : FormP) (s : State) :
    let i := Instr.pmov f true
    exec i s = issue i.op i.len (f.a.need 1) i.hdr s (fun c =>
      match c.popCheck [f.a] with
      | some x => x
      | none => .done (c.s.putWarp c.wid (((List.range 7).foldl (fun w n => c.active.lanes.foldl (fun w l => windowWrite c.s w (64 + l) n) w)
          (popQueues [f.a] c.w)).modLanes c.active (fun l t => { t with preds := BitVec.ofNat 8 (c.rd [f.a] 0 false l % 128 + 128) })))) := by
  intro i
  rw [show i.hdr = f.hdr from hdr_raw 0x41 f.hdr]
  rfl

/-! ## Issues that change predicates only -/

/-- What an issue does that pops its sources and changes threads of active lanes, without a flag. -/
theorem threads_only_settle {c : Ctx} {os : List Opnd} (ds : List (Nat × Nat)) (g : Nat → Thread → Thread)
    (hact : ∀ l ∈ c.active.lanes, l ∈ c.front.lanes) (hg : ∀ l t, (g l t).next c.len = g l (t.next c.len)) :
    let w0 := ds.foldl (fun w d => windowWrite c.s w d.1 d.2) (popQueues os c.w)
    ∃ x, c.settle (.done (c.s.putWarp c.wid (w0.modLanes c.active g))) = c.s.putWarp c.wid x ∧
      SameRegs c.w x [] ∧ c.Popped x os ∧ SameFlights c.w x ∧ SameSpecial c.w x ∧
      c.Threads x (fun l t => if c.active.has l then g l t else t) := by
  obtain ⟨h0, hv, hw⟩ := windowWrites_regs c.s (fun d : Nat × Nat => d) ds (popQueues os c.w)
  obtain ⟨x, hx, hregs, hpop, hfl, hsp, hth⟩ := threads_settle (r := []) (fl := fun _ => 0) h0
    (hv.trans (by rw [popQueues_eq])) (hw.trans (by rw [popQueues_eq])) g hact hg (by simp) (by simp) (fun _ _ _ => rfl)
    (fun _ _ _ => rfl) (fun _ _ => Nat.zero_and _)
  refine ⟨x, hx, hregs, hpop, hfl, hsp, fun l => ?_⟩
  simp only [hth l, sticky_zero]

theorem popQueues_nil (w : Warp) : popQueues [] w = w := by simp [popQueues, oqNeed]

/-- Moving on keeps a change of the predicates. -/
theorem next_preds (t : Thread) (n : Nat) (p : BitVec 8) : ({ t with preds := p } : Thread).next n = { t.next n with preds := p } := by
  unfold Thread.next
  simp only []
  split
  · split <;> rfl
  · rfl

/-- ICMP accepts the conditions of integers only (R157). -/
theorem okP_cond {r : Row} {comb : Bool} {f : FormP} (h : f.ok r true true comb = true) : f.cond.isInt = true := by
  simp only [FormP.ok, Bool.and_eq_true, if_true, Bool.not_true, Bool.false_or] at h
  obtain ⟨⟨⟨_, hcond⟩, _⟩, _⟩ := h
  exact hcond

theorem okA3_pairs {r : Row} {pc : Bool} {f : FormA3} (h : f.ok r true true pc = true) : f.d.even = true ∧ f.a.even = true := by
  simp only [FormA3.ok, Bool.and_eq_true, Bool.not_true, Bool.false_or] at h
  obtain ⟨⟨⟨⟨⟨_, hd⟩, ha⟩, _⟩, _⟩, _⟩ := h
  exact ⟨hd, ha⟩

/-! ## The obligations -/

/-- Settles O3 (R154): each form's function is the operation on bit vectors. -/
theorem logicAndShifts : Obligations.LogicAndShifts := by
  unfold Obligations.LogicAndShifts
  refine ⟨fun f right h => completesA3_of_raw rfl (okA3_dest h) (exec_fsh f right) (fun _ _ a b c => congrArg plain (fshOf_eq right a b c)), fun f => ?_⟩
  intro n g two shift count
  have hn := NumTy.bits_pos f.ty
  refine ⟨?and, ?or, ?xor, ?andn, ?not, ?shl, ?shr, ?sar, ?rotl, ?popc, ?clz, ?ctz, ?brev⟩ <;> intro h <;> have hd := okA_dest h
  case and => exact bitOp_completes rfl hd (exec_and f) (fun x y => (BitVec.toNat_and x y).symm)
  case or => exact bitOp_completes rfl hd (exec_or f) (fun x y => (BitVec.toNat_or x y).symm)
  case xor => exact bitOp_completes rfl hd (exec_xor f) (fun x y => (BitVec.toNat_xor x y).symm)
  case andn => exact bitOp_completes (val := fun x y => x &&& ~~~y) rfl hd (exec_andn f) (fun x y => by rw [BitVec.toNat_and, BitVec.toNat_not])
  case not => exact bitOp_completes rfl hd (exec_not f) (fun x _ => BitVec.toNat_not.symm)
  case shl => exact ctlOp_completes rfl hd (exec_shl f) (fun a k => shlOf_eq n a _)
  case shr => exact ctlOp_completes rfl hd (exec_shr f) (fun a k => shrOf_eq n a _)
  case sar => exact ctlOp_completes rfl hd (exec_sar f) (fun a k => sarOf_eq hn a _)
  case rotl => exact ctlOp_completes rfl hd (exec_rotl f) (fun a k => rotlOf_eq hn a _)
  case popc => exact countOp_completes rfl hd (exec_popc f) (popcount_eq n)
  case clz => exact countOp_completes rfl hd (exec_clz f) (clzOf_eq n)
  case ctz => exact countOp_completes rfl hd (exec_ctz f) (ctzOf_eq n)
  case brev => exact completesA_of_raw rfl hd (exec_brev f) (fun _ _ a _ => congrArg plain (bitrev_eq n a))

/-- Settles O4 (R155): the values of BFX and BFI are the sums of the bits that the rule gives, and BPERM's bytes stand side by side. -/
theorem bitFields : Obligations.BitFields := by
  unfold Obligations.BitFields
  refine ⟨fun f h => ?bfx, fun f h => ?bfi, fun f h => ?bperm⟩
  case bfx =>
    refine ctlOp_completes rfl (okA_dest h) (exec_bfx f) (fun a b => eq_sum_of_testBit (bfxOf_lt ..) (fun k hk => ?_))
    rw [testBit_bfxOf (NumTy.bits_pos f.ty) (NumTy.bits_le f.ty) hk, show b % 2 ^ 32 % 256 = b % 256 by omega, show b % 2 ^ 32 / 256 % 256 = b / 256 % 256 by omega]
    rfl
  case bfi =>
    refine completesA3_of_raw rfl (okA3_dest h) (exec_bfi f) (fun _ _ a b c => congrArg plain (eq_sum_of_testBit (bfiOf_lt ..) (fun k hk => ?_)))
    rw [testBit_bfiOf, decide_eq_true hk, Bool.true_and, show b % 2 ^ 32 % 256 = b % 256 by omega, show b % 2 ^ 32 / 256 % 256 = b / 256 % 256 by omega]
  case bperm =>
    exact completesA3_of_raw rfl (okA3_dest h) (exec_bperm f) (fun _ _ a b c => congrArg plain (bpermOf_eq a b c))

/-- Settles O5 (R156): the check of the instruction gives the shift's range and the even pairs, `leaOf_eq` the sum. -/
theorem loadEffectiveAddress : Obligations.LoadEffectiveAddress := by
  intro f k signed h
  obtain ⟨hok, hk⟩ := Bool.and_eq_true_iff.1 h
  obtain ⟨hd, ha⟩ := okA3_pairs hok
  exact ⟨of_decide_eq_true hk, hd, ha,
    completesA3_of_raw rfl (okA3_dest hok) (exec_lea f k signed) (fun _ _ a b _ => congrArg plain (leaOf_eq signed a b k))⟩

/-- R158, PLOP: a bit of the table in each active lane's predicate. -/
theorem plop_completes {h : Hdr} {d pa pb pc : Nat} {table : BArg} {s : State} {w : Warp} {front : Mask} (ha : s.Acts w front) :
    let i := Instr.plop h d pa pb pc table
    let c := s.at_ w front i
    let bit := fun l p n => if c.pred l p then n else 0
    ∃ x, c.Left x i ∧ SameRegs w x [] ∧ c.Popped x [] ∧ SameFlights w x ∧ SameSpecial w x ∧
      c.Threads x (fun l t => if c.active.has l then
        t.setPred d ((immVal .i32 table).testBit (bit l pa 4 + bit l pb 2 + bit l pc 1)) else t) := by
  intro i c bit
  obtain ⟨x, hx, hs⟩ := threads_only_settle (c := c) (os := []) (c.active.lanes.map (fun l => (64 + l, d)))
    (fun l t => t.setPred d ((immVal .i32 table).testBit (bit l pa 4 + bit l pb 2 + bit l pc 1)))
    (fun l hl => active_front hl) (fun l t => next_setPred _ _ _ _)
  refine ⟨x, ?_, hs⟩
  rw [List.foldl_map, popQueues_nil] at hx
  simp only [Nat.testBit_eq_decide_div_mod_eq] at hx
  exact (exec_plop h d pa pb pc table s).trans ((issue_acts _ ha (Nat.zero_le _)).trans (congrArg _ hx))

/-- R158, PMOV.ALL: P0–P6 of each active lane from the low bits of its source. -/
theorem pmov_all_completes {f : FormP} {s : State} {w : Warp} {front : Mask} (ha : s.Acts w front) :
    let i := Instr.pmov f true
    let c := s.at_ w front i
    c.Fits (f.a.need 1) → c.Pops [f.a] →
    ∃ x, c.Left x i ∧ SameRegs w x [] ∧ c.Popped x [f.a] ∧ SameFlights w x ∧ SameSpecial w x ∧
      c.Threads x (fun l t => if c.active.has l then
        { t with preds := BitVec.ofNat 8 (c.rd [f.a] 0 false l % 128 + 128) } else t) := by
  intro i c hn hp
  obtain ⟨x, hx, hs⟩ := threads_only_settle (c := c) (os := [f.a])
    ((List.range 7).flatMap (fun n => c.active.lanes.map (fun l => (64 + l, n))))
    (fun l t => { t with preds := BitVec.ofNat 8 (c.rd [f.a] 0 false l % 128 + 128) })
    (fun l hl => active_front hl) (fun l t => next_preds _ _ _)
  refine ⟨x, ?_, hs⟩
  simp only [List.foldl_flatMap, List.foldl_map] at hx
  refine (exec_pmov_all f s).trans ((issue_acts _ ha hn).trans ?_)
  rw [show (s.at_ w front i).popCheck [f.a] = none from hp]
  exact congrArg _ hx

/-- Settles O7 (R157, R158): ICMP and PMOV's bit as forms of layout P, PLOP and PMOV.ALL as issues that change predicates only. -/
theorem predicates : Obligations.Predicates := by
  unfold Obligations.Predicates
  refine ⟨fun f h => ?icmp, fun h d pa pb pc table s w front _ ha => plop_completes ha, fun f h => ?pmov,
    fun f s w front _ ha => pmov_all_completes ha⟩
  case icmp =>
    refine completesP_of_raw rfl (exec_icmp f) (fun _ _ a b => congrArg (·, 0) ?_)
    rw [NumTy.toInt_eq, NumTy.toInt_eq]
    have hk := okP_cond h
    generalize f.cond = k at hk ⊢
    cases k
    case eq | ne | lt | le | gt | ge => rfl
    all_goals cases hk
  case pmov =>
    exact completesP_of_raw rfl (exec_pmov_bit f) (fun _ _ a b => by rw [Nat.testBit_eq_decide_div_mod_eq])

end Sys2Proof.Machine
end
